-- ==== Sys2Proof/Word.lean ====
section
/-!
DEFINITION. The plain words of the machine: bytes, 64-bit words, register numbers, the packed flags value,
and the spelling of two's-complement extension (`spec/00_scope.md` rule R13).
-/

namespace Sys2Proof

/-- One byte of memory: "a byte is 8 bits" (R37). -/
abbrev Byte := BitVec 8

/-- A 64-bit value: a register, an address, an operand, a program counter (R21, R24). Arithmetic wraps (R13). -/
abbrev Word := BitVec 64

/-- The number of a general register, `0 <= i <= 31` (R14, R21). All 32 exist, so five bits name each once. -/
abbrev Reg := BitVec 5

/-- A flags value: bit 3 is N, bit 2 is Z, bit 1 is C, bit 0 is V (R13). -/
abbrev Nzcv := BitVec 4

end Sys2Proof
end

