-- ==== Sys2Proof/Syntax.lean ====
section
/-!
DEFINITION. What the core works on: the operation classes (`spec/30_encoding.md` rule R92), the Decoded Instruction
record DIW field by field (R91), and the nineteen instructions of the reference instance, one constructor of `Instr`
per row of `spec/opcode_table.json` (R103), with the record each of them stands for.
-/

namespace Sys2Proof

/-- The six operation classes, "a tagged variant (sum type) with one case per operation class" (R92). -/
inductive OpClass where
  | arith | load | store | branch | mul | syscall
  deriving DecidableEq, Repr

/-- The class codes of R92. -/
def OpClass.code : OpClass → BitVec 3
  | .arith => 0
  | .load => 1
  | .store => 2
  | .branch => 3
  | .mul => 4
  | .syscall => 5

/-- Class `LOAD` or `STORE` (R18: memory-class). -/
def OpClass.isMem : OpClass → Bool
  | .load | .store => true
  | .arith | .branch | .mul | .syscall => false

/-- The Decoded Instruction record (R91), one field per row of its table. Whether the combination is one of the
valid ones is `Diw.valid` (R99). -/
structure Diw where
  /-- bits 2:0 -/
  cls : OpClass
  /-- bits 8:3 -/
  fn : BitVec 6
  /-- bit 9 -/
  setsFlags : Bool
  /-- bit 10 -/
  readsFlags : Bool
  /-- bits 14:11 -/
  cond : BitVec 4
  /-- bit 15 -/
  fused : Bool
  /-- bit 16 -/
  link : Bool
  /-- bit 17 -/
  indirect : Bool
  /-- bits 19:18 -/
  msize : BitVec 2
  /-- bit 20 -/
  msigned : Bool
  /-- bit 21 -/
  rdV : Bool
  /-- bits 26:22 -/
  rd : Reg
  /-- bit 27 -/
  rnV : Bool
  /-- bits 32:28 -/
  rn : Reg
  /-- bit 33 -/
  rmV : Bool
  /-- bits 38:34 -/
  rm : Reg
  /-- bit 39 -/
  rtV : Bool
  /-- bits 44:40 -/
  rt : Reg
  /-- bits 63:45, "must be 0" -/
  reserved : BitVec 19
  /-- bits 127:64 -/
  imm : Word
  deriving DecidableEq, Repr

/-- The all-zero record: `ADD` with no destination, no sources and `imm = 0`, the canonical `NOP` (R99). -/
def Diw.zero : Diw :=
  { cls := .arith, fn := 0, setsFlags := false, readsFlags := false, cond := 0, fused := false, link := false,
    indirect := false, msize := 0, msigned := false, rdV := false, rd := 0, rnV := false, rn := 0, rmV := false,
    rm := 0, rtV := false, rt := 0, reserved := 0, imm := 0 }

/-- The nineteen instructions of `REF` (R103). A register that may be absent is an `Option Reg`: `none` is valid
bit 0 with number 0, the only number R99 allows there. `s` is the bit `sets_flags`. Where `rm` is present, or the
row ignores it, `imm` is kept and has no effect (R95). -/
inductive Instr where
  /-- `ADD{S} Rd, Rn, Rm | #imm` (R121) -/
  | add (s : Bool) (rd rn rm : Option Reg) (imm : Word)
  /-- `SUB{S} Rd, Rn, Rm | #imm` (R122) -/
  | sub (s : Bool) (rd rn rm : Option Reg) (imm : Word)
  /-- `AND{S} Rd, Rn, Rm | #imm` (R123) -/
  | and (s : Bool) (rd rn rm : Option Reg) (imm : Word)
  /-- `ORR{S} Rd, Rn, Rm | #imm` (R124) -/
  | orr (s : Bool) (rd rn rm : Option Reg) (imm : Word)
  /-- `EOR{S} Rd, Rn, Rm | #imm` (R125) -/
  | eor (s : Bool) (rd rn rm : Option Reg) (imm : Word)
  /-- `LSL{S} Rd, Rn, Rm | #imm` (R126) -/
  | lsl (s : Bool) (rd rn rm : Option Reg) (imm : Word)
  /-- `LSR{S} Rd, Rn, Rm | #imm` (R127) -/
  | lsr (s : Bool) (rd rn rm : Option Reg) (imm : Word)
  /-- `ASR{S} Rd, Rn, Rm | #imm` (R128) -/
  | asr (s : Bool) (rd rn rm : Option Reg) (imm : Word)
  /-- `CSEL{S} Rd, Rn, Rm | #imm, cond` (R129) -/
  | csel (s : Bool) (cond : BitVec 4) (rd rn rm : Option Reg) (imm : Word)
  /-- `MUL{S} Rd, Rn, Rm | #imm` (R130) -/
  | mul (s : Bool) (rd rn rm : Option Reg) (imm : Word)
  /-- `LDRB|LDRH|LDRW|LDRX|LDRSB|LDRSH|LDRSW Rd, [Rn, #imm]` (R131) -/
  | ldr (msize : BitVec 2) (msigned : Bool) (rd : Option Reg) (rn : Reg) (imm : Word)
  /-- `STRB|STRH|STRW|STRX Rt, [Rn, #imm]` (R132) -/
  | str (msize : BitVec 2) (rt : Option Reg) (rn : Reg) (imm : Word)
  /-- `B #disp` (R133) -/
  | b (imm : Word)
  /-- `BL Rd, #disp` (R134) -/
  | bl (rd : Reg) (imm : Word)
  /-- `BR Rn` (R135) -/
  | br (rn : Reg) (imm : Word)
  /-- `BLR Rd, Rn` (R136) -/
  | blr (rd rn : Reg) (imm : Word)
  /-- `B.cond #disp` (R137) -/
  | bCond (cond : BitVec 4) (imm : Word)
  /-- `CB{S}.cond Rn, Rm, #disp` (R138) -/
  | cbCond (s : Bool) (cond : BitVec 4) (rn rm : Option Reg) (imm : Word)
  /-- `SVC Rd, Rn, Rm, Rt` (R139) -/
  | svc (rd rn rm rt : Option Reg) (imm : Word)
  deriving DecidableEq, Repr

/-- A register operand's valid bit. -/
def regV (r : Option Reg) : Bool := r.isSome

/-- A register operand's number: 0 when the valid bit is 0 (R91, R99). -/
def regNum (r : Option Reg) : Reg := r.getD 0

/-- The record of an `ARITH` or `MUL` instruction that reads no flags: the shared part of the rows R121 to R128, R130. -/
def Diw.ofAlu (cls : OpClass) (fn : BitVec 6) (s : Bool) (rd rn rm : Option Reg) (imm : Word) : Diw :=
  { Diw.zero with
    cls := cls, fn := fn, setsFlags := s, rdV := regV rd, rd := regNum rd, rnV := regV rn, rn := regNum rn,
    rmV := regV rm, rm := regNum rm, imm := imm }

/-- The Decoded Instruction record of an instruction: the column "fixed" of R103 with its operands put in. -/
def Instr.toDiw : Instr → Diw
  | .add s rd rn rm imm => Diw.ofAlu .arith 0 s rd rn rm imm
  | .sub s rd rn rm imm => Diw.ofAlu .arith 1 s rd rn rm imm
  | .and s rd rn rm imm => Diw.ofAlu .arith 2 s rd rn rm imm
  | .orr s rd rn rm imm => Diw.ofAlu .arith 3 s rd rn rm imm
  | .eor s rd rn rm imm => Diw.ofAlu .arith 4 s rd rn rm imm
  | .lsl s rd rn rm imm => Diw.ofAlu .arith 5 s rd rn rm imm
  | .lsr s rd rn rm imm => Diw.ofAlu .arith 6 s rd rn rm imm
  | .asr s rd rn rm imm => Diw.ofAlu .arith 7 s rd rn rm imm
  | .csel s cond rd rn rm imm =>
    { Diw.ofAlu .arith 8 s rd rn rm imm with readsFlags := true, cond := cond }
  | .mul s rd rn rm imm => Diw.ofAlu .mul 0 s rd rn rm imm
  | .ldr msize msigned rd rn imm =>
    { Diw.zero with
      cls := .load, msize := msize, msigned := msigned, rdV := regV rd, rd := regNum rd, rnV := true, rn := rn, imm := imm }
  | .str msize rt rn imm =>
    { Diw.zero with cls := .store, msize := msize, rnV := true, rn := rn, rtV := regV rt, rt := regNum rt, imm := imm }
  | .b imm => { Diw.zero with cls := .branch, imm := imm }
  | .bl rd imm => { Diw.zero with cls := .branch, link := true, rdV := true, rd := rd, imm := imm }
  | .br rn imm => { Diw.zero with cls := .branch, indirect := true, rnV := true, rn := rn, imm := imm }
  | .blr rd rn imm =>
    { Diw.zero with
      cls := .branch, link := true, indirect := true, rdV := true, rd := rd, rnV := true, rn := rn, imm := imm }
  | .bCond cond imm => { Diw.zero with cls := .branch, readsFlags := true, cond := cond, imm := imm }
  | .cbCond s cond rn rm imm =>
    { Diw.zero with
      cls := .branch, setsFlags := s, readsFlags := true, cond := cond, fused := true, rnV := regV rn, rn := regNum rn,
      rmV := regV rm, rm := regNum rm, imm := imm }
  | .svc rd rn rm rt imm =>
    { Diw.zero with
      cls := .syscall, rdV := regV rd, rd := regNum rd, rnV := regV rn, rn := regNum rn, rmV := regV rm, rm := regNum rm,
      rtV := regV rt, rt := regNum rt, imm := imm }

/-! The pseudo-instructions of R111, "each an exact alias". -/

/-- `NOP` = `ADD ZR, ZR, #0`, the all-zero word. -/
def Instr.nop : Instr := .add false none none none 0
/-- `MOV Rd, #imm` = `ORR Rd, ZR, #imm`. -/
def Instr.movImm (rd : Reg) (imm : Word) : Instr := .orr false (some rd) none none imm
/-- `MOV Rd, Rm` = `ORR Rd, ZR, Rm`. -/
def Instr.movReg (rd rm : Reg) : Instr := .orr false (some rd) none (some rm) 0
/-- `CMP Rn, Rm` = `SUBS ZR, Rn, Rm`. -/
def Instr.cmpReg (rn rm : Reg) : Instr := .sub true none (some rn) (some rm) 0
/-- `CMP Rn, #imm` = `SUBS ZR, Rn, #imm`. -/
def Instr.cmpImm (rn : Reg) (imm : Word) : Instr := .sub true none (some rn) none imm
/-- `TST Rn, Rm` = `ANDS ZR, Rn, Rm`. -/
def Instr.tstReg (rn rm : Reg) : Instr := .and true none (some rn) (some rm) 0
/-- `TST Rn, #imm` = `ANDS ZR, Rn, #imm`. -/
def Instr.tstImm (rn : Reg) (imm : Word) : Instr := .and true none (some rn) none imm
/-- `CBZ Rn, #disp` = `CB.EQ Rn, ZR, #disp`. -/
def Instr.cbz (rn : Reg) (disp : Word) : Instr := .cbCond false 0 (some rn) none disp
/-- `CBNZ Rn, #disp` = `CB.NE Rn, ZR, #disp`. -/
def Instr.cbnz (rn : Reg) (disp : Word) : Instr := .cbCond false 1 (some rn) none disp
/-- `RET` = `BR R30`. -/
def Instr.ret : Instr := .br 30 0

end Sys2Proof
end

