-- ==== Sys2Proof/WellFormed.lean ====
section
/-!
DEFINITION. Validity of a Decoded Instruction record: `spec/30_encoding.md` rules R99 and R100, with the function
codes of R93. A well-formed instruction is one whose record is valid.
-/

namespace Sys2Proof

/-- "each register number is 0 when its valid bit is 0" (R99). -/
def Diw.absentRegsZero (d : Diw) : Bool :=
  (d.rdV || d.rd == 0) && (d.rnV || d.rn == 0) && (d.rmV || d.rm == 0) && (d.rtV || d.rt == 0)

/-- The general conditions of R99. (`cls <= 5` holds by type: the codes 6 and 7 are refused before a record exists.) -/
def Diw.generalOk (d : Diw) : Bool :=
  d.reserved == 0 && d.absentRegsZero && (d.readsFlags || d.cond == 0)

/-- `fused = link = indirect = 0`, the condition every class but `BRANCH` shares (R99). -/
def Diw.noBranchBits (d : Diw) : Bool := !d.fused && !d.link && !d.indirect

/-- `msize = 0` and `msigned = 0` (R99). -/
def Diw.noMemBits (d : Diw) : Bool := d.msize == 0 && !d.msigned

/-- Row `ARITH` of R99. -/
def Diw.arithOk (d : Diw) : Bool :=
  decide (d.fn.toNat ≤ 8) && (d.readsFlags == (d.fn == 8)) && d.noBranchBits && d.noMemBits && !d.rtV

/-- Row `MUL` of R99. -/
def Diw.mulOk (d : Diw) : Bool :=
  d.fn == 0 && !d.readsFlags && d.noBranchBits && d.noMemBits && !d.rtV

/-- Row `LOAD` of R99. -/
def Diw.loadOk (d : Diw) : Bool :=
  d.fn == 0 && !d.setsFlags && !d.readsFlags && d.noBranchBits && d.rnV && !d.rmV && !d.rtV

/-- Row `STORE` of R99. -/
def Diw.storeOk (d : Diw) : Bool :=
  d.fn == 0 && !d.setsFlags && !d.readsFlags && d.noBranchBits && !d.msigned && !d.rdV && d.rnV && !d.rmV

/-- The form `B` of R100. -/
def Diw.formB (d : Diw) : Bool :=
  !d.readsFlags && !d.fused && !d.link && !d.indirect && !d.setsFlags && !d.rdV && !d.rnV && !d.rmV
/-- The form `BL` of R100. -/
def Diw.formBl (d : Diw) : Bool :=
  !d.readsFlags && !d.fused && d.link && !d.indirect && !d.setsFlags && d.rdV && !d.rnV && !d.rmV
/-- The form `BR` of R100. -/
def Diw.formBr (d : Diw) : Bool :=
  !d.readsFlags && !d.fused && !d.link && d.indirect && !d.setsFlags && !d.rdV && d.rnV && !d.rmV
/-- The form `BLR` of R100. -/
def Diw.formBlr (d : Diw) : Bool :=
  !d.readsFlags && !d.fused && d.link && d.indirect && !d.setsFlags && d.rdV && d.rnV && !d.rmV
/-- The form `B.cond` of R100. -/
def Diw.formBCond (d : Diw) : Bool :=
  d.readsFlags && !d.fused && !d.link && !d.indirect && !d.setsFlags && !d.rdV && !d.rnV && !d.rmV
/-- The form `CB.cond` of R100. -/
def Diw.formCbCond (d : Diw) : Bool :=
  d.readsFlags && d.fused && !d.link && !d.indirect && !d.rdV

/-- Row `BRANCH` of R99. -/
def Diw.branchOk (d : Diw) : Bool :=
  d.fn == 0 && d.noMemBits && !d.rtV && (d.rdV == d.link) &&
    (d.formB || d.formBl || d.formBr || d.formBlr || d.formBCond || d.formCbCond)

/-- Row `SYSCALL` of R99. -/
def Diw.syscallOk (d : Diw) : Bool :=
  d.fn == 0 && !d.setsFlags && !d.readsFlags && d.noBranchBits && d.noMemBits

/-- The conditions of the record's class (R99). -/
def Diw.classOk (d : Diw) : Bool :=
  match d.cls with
  | .arith => d.arithOk
  | .load => d.loadOk
  | .store => d.storeOk
  | .branch => d.branchOk
  | .mul => d.mulOk
  | .syscall => d.syscallOk

/-- "A DIW is *valid* iff it satisfies the general conditions and the conditions of its class" (R99, R100, R93). -/
def Diw.valid (d : Diw) : Bool := d.generalOk && d.classOk

/-- An instruction is well formed when its record is valid. -/
def Instr.wellFormed (i : Instr) : Bool := i.toDiw.valid

end Sys2Proof
end

