-- ==== Sys2Proof/Decode.lean ====
section
/-!
DEFINITION. The decoder and, after it, the encoder of the reference instance: the packing of the Decoded Instruction
record into 128 bits (`spec/30_encoding.md` rule R91), the class codes (R92), the selection of the instruction (R103),
`REF.Decode` (R101), and the byte order of an instruction word (`spec/20_memory.md` rule R61). Total on any bytes:
every reserved or invalid word answers `none`, which is `DecodeFail`.
-/

namespace Sys2Proof

/-! ## Bytes and words (R61: little-endian) -/

/-- The number whose bytes, least significant first, are the list: `v[8*i+7 : 8*i] = byte i`. -/
def leNat : List Byte → Nat
  | [] => 0
  | x :: xs => x.toNat + 256 * leNat xs

/-- The low `n` bytes of a number, least significant first. -/
def leBytes : Nat → Nat → List Byte
  | 0, _ => []
  | n + 1, v => BitVec.ofNat 8 v :: leBytes n (v / 256)

/-! ## The record from its 128 bits -/

/-- The class of a class code; the codes 6 and 7 are reserved (R92). -/
def clsOfCode (c : BitVec 3) : Option OpClass :=
  if c = 0 then some .arith
  else if c = 1 then some .load
  else if c = 2 then some .store
  else if c = 3 then some .branch
  else if c = 4 then some .mul
  else if c = 5 then some .syscall
  else none

/-- Read a 128-bit word as a record by the layout of R91; `none` where `cls` is reserved. -/
def unpackDiw (w : BitVec 128) : Option Diw :=
  match clsOfCode (w.extractLsb' 0 3) with
  | none => none
  | some cls =>
    some
      { cls := cls
        fn := w.extractLsb' 3 6
        setsFlags := w.getLsbD 9
        readsFlags := w.getLsbD 10
        cond := w.extractLsb' 11 4
        fused := w.getLsbD 15
        link := w.getLsbD 16
        indirect := w.getLsbD 17
        msize := w.extractLsb' 18 2
        msigned := w.getLsbD 20
        rdV := w.getLsbD 21
        rd := w.extractLsb' 22 5
        rnV := w.getLsbD 27
        rn := w.extractLsb' 28 5
        rmV := w.getLsbD 33
        rm := w.extractLsb' 34 5
        rtV := w.getLsbD 39
        rt := w.extractLsb' 40 5
        reserved := w.extractLsb' 45 19
        imm := w.extractLsb' 64 64 }

/-! ## The instruction of a record -/

/-- A register operand of a record: absent when its valid bit is 0. -/
def optReg (v : Bool) (r : Reg) : Option Reg := if v then some r else none

/-- The `ARITH` rows of R103, by `fn`. -/
def arithInstr (d : Diw) : Option Instr :=
  let rd := optReg d.rdV d.rd
  let rn := optReg d.rnV d.rn
  let rm := optReg d.rmV d.rm
  if d.fn = 0 then some (.add d.setsFlags rd rn rm d.imm)
  else if d.fn = 1 then some (.sub d.setsFlags rd rn rm d.imm)
  else if d.fn = 2 then some (.and d.setsFlags rd rn rm d.imm)
  else if d.fn = 3 then some (.orr d.setsFlags rd rn rm d.imm)
  else if d.fn = 4 then some (.eor d.setsFlags rd rn rm d.imm)
  else if d.fn = 5 then some (.lsl d.setsFlags rd rn rm d.imm)
  else if d.fn = 6 then some (.lsr d.setsFlags rd rn rm d.imm)
  else if d.fn = 7 then some (.asr d.setsFlags rd rn rm d.imm)
  else if d.fn = 8 then some (.csel d.setsFlags d.cond rd rn rm d.imm)
  else none

/-- The `BRANCH` rows of R103, by the form of R100. -/
def branchInstr (d : Diw) : Option Instr :=
  if d.formB then some (.b d.imm)
  else if d.formBl then some (.bl d.rd d.imm)
  else if d.formBr then some (.br d.rn d.imm)
  else if d.formBlr then some (.blr d.rd d.rn d.imm)
  else if d.formBCond then some (.bCond d.cond d.imm)
  else if d.formCbCond then some (.cbCond d.setsFlags d.cond (optReg d.rnV d.rn) (optReg d.rmV d.rm) d.imm)
  else none

/-- The instruction a record selects: "by `cls`, then by `fn` (`ARITH`), then by the four form bits (`BRANCH`)" (R103). -/
def selectInstr (d : Diw) : Option Instr :=
  match d.cls with
  | .arith => arithInstr d
  | .load => some (.ldr d.msize d.msigned (optReg d.rdV d.rd) d.rn d.imm)
  | .store => some (.str d.msize (optReg d.rtV d.rt) d.rn d.imm)
  | .branch => branchInstr d
  | .mul => some (.mul d.setsFlags (optReg d.rdV d.rd) (optReg d.rnV d.rn) (optReg d.rmV d.rm) d.imm)
  | .syscall =>
    some (.svc (optReg d.rdV d.rd) (optReg d.rnV d.rn) (optReg d.rmV d.rm) (optReg d.rtV d.rt) d.imm)

/-- `REF.Decode` on a 128-bit word (R101): the instruction of a valid word; `none`, that is `DecodeFail`, for a reserved
class code and for every word that breaks a condition of R99, R100 or R93. -/
def decodeWord (w : BitVec 128) : Option Instr :=
  match unpackDiw w with
  | none => none
  | some d => if d.valid then selectInstr d else none

/-- The decoder on the bytes of an instruction word, lowest address first: `IB = 16` bytes (R90, R101), anything else is
`DecodeFail`. -/
def decodeBytes (bytes : List Byte) : Option Instr :=
  if bytes.length = 16 then decodeWord (BitVec.ofNat 128 (leNat bytes)) else none

/-- The instruction read from the bits of an opcode-table row: the word is laid out in its 16 bytes as the hardware
stores it and given to the decoder. -/
def decodeTableWord (nbits w : Nat) : Option Instr := decodeBytes (leBytes 16 (w % 2 ^ nbits))

/-! ## The encoder -/

/-- A field of a 128-bit word: the value `v` with its bit 0 at bit `lo`. -/
def fieldAt (lo : Nat) (v : BitVec n) : BitVec 128 := v.setWidth 128 <<< lo

/-- A one-bit field at bit `lo`. -/
def bitAt (lo : Nat) (v : Bool) : BitVec 128 := fieldAt lo (BitVec.ofBool v)

/-- Pack a record into its 128 bits by the layout of R91. -/
def packDiw (d : Diw) : BitVec 128 :=
  fieldAt 0 d.cls.code ||| fieldAt 3 d.fn ||| bitAt 9 d.setsFlags ||| bitAt 10 d.readsFlags ||| fieldAt 11 d.cond |||
  bitAt 15 d.fused ||| bitAt 16 d.link ||| bitAt 17 d.indirect ||| fieldAt 18 d.msize ||| bitAt 20 d.msigned |||
  bitAt 21 d.rdV ||| fieldAt 22 d.rd ||| bitAt 27 d.rnV ||| fieldAt 28 d.rn ||| bitAt 33 d.rmV ||| fieldAt 34 d.rm |||
  bitAt 39 d.rtV ||| fieldAt 40 d.rt ||| fieldAt 45 d.reserved ||| fieldAt 64 d.imm

/-- The word of an instruction: its record, packed (R91, R103). -/
def encode (i : Instr) : BitVec 128 := packDiw i.toDiw

/-- The 16 bytes of an instruction in memory, lowest address first (R91: "stored little-endian in 16 bytes"). -/
def encodeBytes (i : Instr) : List Byte := leBytes 16 (encode i).toNat

end Sys2Proof
end

