-- ==== Sys2Proof/Config.lean ====
section
/-!
DEFINITION. The configuration record `CFG` (`spec/00_scope.md` rule R10), its field names in the order of the
rule's table, the host's raw form of it, and the two named configurations. The validity conditions (R11) are in
`Sys2Proof/Machine/ConfigCheck.lean`. No value here is free: every field is a parameter that the state carries,
and with the reference functions no instruction has an undefined result (R148).
-/

namespace Sys2Proof

/-- The geometry and the two latency knobs of one cache (R10: `X_SIZE`, `X_ASSOC`, `X_LINE`, `X_HIT_LAT`, `X_MISS_LAT`). -/
structure CacheCfg where
  size : Nat
  assoc : Nat
  line : Nat
  hitLat : Nat
  missLat : Nat
  deriving DecidableEq, Repr

/-- `SETS = X_SIZE div (X_ASSOC * X_LINE)` (R36, R335). -/
def CacheCfg.sets (g : CacheCfg) : Nat := g.size / (g.assoc * g.line)

/-- The configuration record `CFG` (R10): unbounded non-negative integers, fixed at reset (R47). -/
structure Cfg where
  /-- `LAT_ARITH` -/
  latArith : Nat
  /-- `LAT_LOAD` -/
  latLoad : Nat
  /-- `LAT_STORE` -/
  latStore : Nat
  /-- `LAT_BRANCH` -/
  latBranch : Nat
  /-- `LAT_MUL` -/
  latMul : Nat
  /-- `LAT_SYSCALL` -/
  latSyscall : Nat
  /-- `MISPREDICT_PENALTY` -/
  mispredictPenalty : Nat
  /-- `ISSUE_WIDTH`, written `N`: the number of lanes -/
  issueWidth : Nat
  /-- `MEM_PORTS`, written `P` -/
  memPorts : Nat
  /-- the five `L1I_*` fields -/
  l1i : CacheCfg
  /-- the five `L1D_*` fields -/
  l1d : CacheCfg
  /-- the five `L2_*` fields -/
  l2 : CacheCfg
  /-- `INSTR_BYTES`, written `IB` -/
  instrBytes : Nat
  /-- `SP_REG` -/
  spReg : Nat
  /-- `MEM_SIZE` -/
  memSize : Nat
  /-- `BIM_ENTRIES` -/
  bimEntries : Nat
  /-- `GSH_ENTRIES` -/
  gshEntries : Nat
  /-- `META_ENTRIES` -/
  metaEntries : Nat
  /-- `GHR_BITS` -/
  ghrBits : Nat
  /-- `BTB_ENTRIES` -/
  btbEntries : Nat
  deriving DecidableEq, Repr

/-- The names of the fields of `CFG`: the `info` of the fatal error `ConfigInvalid` is one of them (R382). -/
inductive CfgField where
  | latArith | latLoad | latStore | latBranch | latMul | latSyscall
  | mispredictPenalty | issueWidth | memPorts
  | l1iSize | l1iAssoc | l1iLine | l1iHitLat | l1iMissLat
  | l1dSize | l1dAssoc | l1dLine | l1dHitLat | l1dMissLat
  | l2Size | l2Assoc | l2Line | l2HitLat | l2MissLat
  | instrBytes | spReg | memSize
  | bimEntries | gshEntries | metaEntries | ghrBits | btbEntries
  deriving DecidableEq, Repr

/-- Every field name, in the order of the table of R10: the order in which R382 reports the first violated one. -/
def CfgField.inOrder : List CfgField :=
  [.latArith, .latLoad, .latStore, .latBranch, .latMul, .latSyscall, .mispredictPenalty, .issueWidth, .memPorts,
   .l1iSize, .l1iAssoc, .l1iLine, .l1iHitLat, .l1iMissLat,
   .l1dSize, .l1dAssoc, .l1dLine, .l1dHitLat, .l1dMissLat,
   .l2Size, .l2Assoc, .l2Line, .l2HitLat, .l2MissLat,
   .instrBytes, .spReg, .memSize, .bimEntries, .gshEntries, .metaEntries, .ghrBits, .btbEntries]

/-- The configuration as the host hands it to reset: named integers, where a field may be missing or negative
(R11 (a): "malformed configuration (negative or missing latency values)"). The first entry for a name counts. -/
abbrev RawCfg := List (CfgField × Int)

/-- `CFG_DEFAULT` (R10). -/
def cfgDefault : Cfg where
  latArith := 1
  latLoad := 1
  latStore := 1
  latBranch := 1
  latMul := 3
  latSyscall := 1
  mispredictPenalty := 2
  issueWidth := 2
  memPorts := 1
  l1i := ⟨32768, 4, 64, 1, 1⟩
  l1d := ⟨32768, 4, 64, 1, 1⟩
  l2 := ⟨262144, 8, 64, 1, 1⟩
  instrBytes := 16
  spReg := 31
  memSize := 1048576
  bimEntries := 1024
  gshEntries := 1024
  metaEntries := 1024
  ghrBits := 10
  btbEntries := 256

/-- `CFG_SMALL` (R10). -/
def cfgSmall : Cfg where
  latArith := 1
  latLoad := 1
  latStore := 1
  latBranch := 1
  latMul := 3
  latSyscall := 1
  mispredictPenalty := 4
  issueWidth := 4
  memPorts := 2
  l1i := ⟨1024, 2, 64, 1, 2⟩
  l1d := ⟨512, 2, 64, 1, 3⟩
  l2 := ⟨4096, 4, 128, 6, 20⟩
  instrBytes := 16
  spReg := 31
  memSize := 1048576
  bimEntries := 16
  gshEntries := 16
  metaEntries := 16
  ghrBits := 4
  btbEntries := 8

/-- The value of one named field of a configuration. -/
def Cfg.field (c : Cfg) : CfgField → Nat
  | .latArith => c.latArith
  | .latLoad => c.latLoad
  | .latStore => c.latStore
  | .latBranch => c.latBranch
  | .latMul => c.latMul
  | .latSyscall => c.latSyscall
  | .mispredictPenalty => c.mispredictPenalty
  | .issueWidth => c.issueWidth
  | .memPorts => c.memPorts
  | .l1iSize => c.l1i.size
  | .l1iAssoc => c.l1i.assoc
  | .l1iLine => c.l1i.line
  | .l1iHitLat => c.l1i.hitLat
  | .l1iMissLat => c.l1i.missLat
  | .l1dSize => c.l1d.size
  | .l1dAssoc => c.l1d.assoc
  | .l1dLine => c.l1d.line
  | .l1dHitLat => c.l1d.hitLat
  | .l1dMissLat => c.l1d.missLat
  | .l2Size => c.l2.size
  | .l2Assoc => c.l2.assoc
  | .l2Line => c.l2.line
  | .l2HitLat => c.l2.hitLat
  | .l2MissLat => c.l2.missLat
  | .instrBytes => c.instrBytes
  | .spReg => c.spReg
  | .memSize => c.memSize
  | .bimEntries => c.bimEntries
  | .gshEntries => c.gshEntries
  | .metaEntries => c.metaEntries
  | .ghrBits => c.ghrBits
  | .btbEntries => c.btbEntries

/-- The raw form of a configuration, every field present: what a host that means `c` hands to reset. -/
def Cfg.toRaw (c : Cfg) : RawCfg := CfgField.inOrder.map fun f => (f, (c.field f : Int))

end Sys2Proof
end

