-- ==== Sys2Proof/Machine/ConfigCheck.lean ====
section
/-!
DEFINITION. Reading the host's configuration at reset and its validity: `spec/00_scope.md` rule R11 and the choice of
the field that `ConfigInvalid` names, `spec/60_exceptions.md` rule R382.
-/

namespace Sys2Proof.Machine

/-- The integer the host gave for a field, or none when the field is missing. -/
def rawField (raw : RawCfg) (f : CfgField) : Option Int :=
  match raw with
  | [] => none
  | (g, v) :: rest => if g = f then some v else rawField rest f

/-- R11 (a): the field is present and not negative. -/
def fieldPresent (raw : RawCfg) (f : CfgField) : Bool :=
  match rawField raw f with
  | some v => decide (0 ≤ v)
  | none => false

/-- The natural number of a field; a missing or negative one, which R11 (a) rejects, reads as 0, so that
as the divisor of a relation it leaves the relation unviolated and its own field is the one named. DESIGN CHOICE (log
entry 6). -/
def rawNat (raw : RawCfg) (f : CfgField) : Nat :=
  match rawField raw f with
  | some v => v.toNat
  | none => 0

/-- The record `CFG` of a raw configuration. -/
def cfgOfRaw (raw : RawCfg) : Cfg where
  latArith := rawNat raw .latArith
  latLoad := rawNat raw .latLoad
  latStore := rawNat raw .latStore
  latBranch := rawNat raw .latBranch
  latMul := rawNat raw .latMul
  latSyscall := rawNat raw .latSyscall
  mispredictPenalty := rawNat raw .mispredictPenalty
  issueWidth := rawNat raw .issueWidth
  memPorts := rawNat raw .memPorts
  l1i := ⟨rawNat raw .l1iSize, rawNat raw .l1iAssoc, rawNat raw .l1iLine, rawNat raw .l1iHitLat, rawNat raw .l1iMissLat⟩
  l1d := ⟨rawNat raw .l1dSize, rawNat raw .l1dAssoc, rawNat raw .l1dLine, rawNat raw .l1dHitLat, rawNat raw .l1dMissLat⟩
  l2 := ⟨rawNat raw .l2Size, rawNat raw .l2Assoc, rawNat raw .l2Line, rawNat raw .l2HitLat, rawNat raw .l2MissLat⟩
  instrBytes := rawNat raw .instrBytes
  spReg := rawNat raw .spReg
  memSize := rawNat raw .memSize
  bimEntries := rawNat raw .bimEntries
  gshEntries := rawNat raw .gshEntries
  metaEntries := rawNat raw .metaEntries
  ghrBits := rawNat raw .ghrBits
  btbEntries := rawNat raw .btbEntries

/-- `a mod b = 0`, a condition between two fields. Where the divisor itself is 0, or is missing or
negative and so reads as 0, which a condition of its own rejects, the relation is not the one violated. DESIGN CHOICE (log
entry 6). -/
def dividesEvenly (b a : Nat) : Bool := b = 0 || a % b = 0

/-- R11 (c): size, ways and line are at least 1 and the size is a whole number of sets. The relation names
`X_SIZE`, "the first field named in the condition" (R382). -/
def cacheSizeOk (g : CacheCfg) : Bool := 1 ≤ g.size && dividesEvenly (g.assoc * g.line) g.size

/-- R11 (b) to (g): the conditions on the values, each under the field it names (R382). A field with no
condition beyond R11 (a) answers true. -/
def fieldValueOk (c : Cfg) : CfgField → Bool
  | .issueWidth => 1 ≤ c.issueWidth
  | .memPorts => 1 ≤ c.memPorts
  | .l1iSize => cacheSizeOk c.l1i
  | .l1iAssoc => 1 ≤ c.l1i.assoc
  | .l1iLine => 1 ≤ c.l1i.line && dividesEvenly c.instrBytes c.l1i.line
  | .l1dSize => cacheSizeOk c.l1d
  | .l1dAssoc => 1 ≤ c.l1d.assoc
  | .l1dLine => 1 ≤ c.l1d.line
  | .l2Size => cacheSizeOk c.l2
  | .l2Assoc => 1 ≤ c.l2.assoc
  | .l2Line => 1 ≤ c.l2.line && dividesEvenly c.l1i.line c.l2.line && dividesEvenly c.l1d.line c.l2.line
  | .instrBytes => 1 ≤ c.instrBytes
  | .spReg => c.spReg ≤ 31
  | .memSize => dividesEvenly c.l2.line c.memSize && c.memSize ≤ 2 ^ 64
  | .bimEntries => 1 ≤ c.bimEntries
  | .gshEntries => 1 ≤ c.gshEntries
  | .metaEntries => 1 ≤ c.metaEntries
  | .ghrBits => c.ghrBits ≤ 64
  | .btbEntries => 1 ≤ c.btbEntries
  | .latArith | .latLoad | .latStore | .latBranch | .latMul | .latSyscall | .mispredictPenalty => true
  | .l1iHitLat | .l1iMissLat | .l1dHitLat | .l1dMissLat | .l2HitLat | .l2MissLat => true

/-- R11: the configuration is valid. Presence (a) is a matter of the raw form; every `Cfg` has all its fields. -/
def cfgValid (c : Cfg) : Bool := CfgField.inOrder.all (fieldValueOk c)

/-- The first violated field in the order of the table of R10, or none when the configuration is valid (R11, R382). -/
def firstViolation (raw : RawCfg) : Option CfgField :=
  CfgField.inOrder.find? fun f => !(fieldPresent raw f && fieldValueOk (cfgOfRaw raw) f)

end Sys2Proof.Machine
end

