-- ==== Sys2Proof/Machine/Store.lean ====
section
/-!
DEFINITION. Two plain containers. A sparse table holds an array whose entries are mostly at their default: a list of
(index, entry) pairs in one canonical form, indices strictly rising and no entry equal to the default. Main memory, the
cache directories and lines, and the predictor's tables are sparse tables. The register file is 32 words.
-/

namespace Sys2Proof.Machine

/-- A sparse array: only the entries that differ from the default are listed, at rising indices. -/
abbrev Table (α : Type) := List (Nat × α)

/-- The entry at an index; an unlisted index reads as the default `d`. -/
def tableGet (d : α) : Table α → Nat → α
  | [], _ => d
  | (k, v) :: rest, i => if k = i then v else tableGet d rest i

/-- Remove whatever is listed at an index. -/
def tableErase (t : Table α) (i : Nat) : Table α := t.filter fun e => decide (e.1 ≠ i)

/-- List an entry at its index, in rising order, in place of an earlier one. -/
def tableInsert (i : Nat) (v : α) : Table α → Table α
  | [] => [(i, v)]
  | (k, w) :: rest =>
    if i < k then (i, v) :: (k, w) :: rest
    else if i = k then (i, v) :: rest
    else (k, w) :: tableInsert i v rest

/-- Write an entry. Writing the default removes the listing, so that equal arrays are equal lists. -/
def tableSet [DecidableEq α] (d : α) (t : Table α) (i : Nat) (v : α) : Table α :=
  if v = d then tableErase t i else tableInsert i v t

/-- The canonical form, from index `lo` up: indices rise strictly and no entry is the default. -/
def tableCanonicalFrom [DecidableEq α] (d : α) : Nat → Table α → Bool
  | _, [] => true
  | lo, (k, v) :: rest => decide (lo ≤ k) && decide (v ≠ d) && tableCanonicalFrom d (k + 1) rest

/-- The canonical form of a table. -/
def tableCanonical [DecidableEq α] (d : α) (t : Table α) : Bool := tableCanonicalFrom d 0 t

/-- The architectural register file `x[0..31]` (R21). -/
abbrev RegFile := Vector Word 32

/-- Read `x[r]`. No register is hardwired (R21). -/
def regFileRead (x : RegFile) (r : Reg) : Word := x[r.toNat]'(r.isLt)

/-- Write `x[r]`. -/
def regFileWrite (x : RegFile) (r : Reg) (v : Word) : RegFile := x.set r.toNat v r.isLt

end Sys2Proof.Machine
end

