-- ==== Sys2Proof/Machine/State.lean ====
section
/-!
DEFINITION. The state of the core as plain data: every piece that `spec/10_state.md` rule R20 lists, the configuration
it was reset with (R47), and reset (R50, `spec/70_reset_and_hazards.md` rule R410).
-/

namespace Sys2Proof.Machine

/-! ## Run status (R27, R382) -/

/-- The five fatal errors with their `info` (R382). -/
inductive FatalError where
  /-- `ConfigInvalid`: raised by reset; names the first violated field. -/
  | configInvalid (field : CfgField)
  /-- `FetchMisaligned(pc, fault_cycle)`: raised by the memory stage through a poisoned record. -/
  | fetchMisaligned (pc : Word) (cycle : Nat)
  /-- `FetchOutOfBounds(pc, fault_cycle)`: raised by the memory stage through a poisoned record. -/
  | fetchOutOfBounds (pc : Word) (cycle : Nat)
  /-- `DecodeFailure(pc, fault_cycle)`: raised by the memory stage through a poisoned record. -/
  | decodeFailure (pc : Word) (cycle : Nat)
  /-- `DataOutOfBounds(addr, cycles)`: raised by the memory stage. -/
  | dataOutOfBounds (addr : Word) (cycle : Nat)
  deriving DecidableEq, Repr

/-- The numeric code of an error kind (R382). -/
def FatalError.code : FatalError → Nat
  | .configInvalid _ => 1
  | .fetchMisaligned _ _ => 2
  | .fetchOutOfBounds _ _ => 3
  | .decodeFailure _ _ => 4
  | .dataOutOfBounds _ _ => 5

/-- `STATUS` (R27): the core ticks only while it is `Running`; the other two are terminal (R394). -/
inductive Status where
  | running
  | halted (code : Word)
  | aborted (error : FatalError)
  deriving DecidableEq, Repr

/-! ## Slot records and latches (R30, R31) -/

/-- The field `fault` of a slot record: the fetch or decode fault a poisoned record carries (R31, R275). -/
inductive SlotFault where
  | none
  | fetchMisaligned
  | fetchOutOfBounds
  | decodeFailure
  deriving DecidableEq, Repr

/-- A slot record, field by field as R31 lists them. -/
structure Slot where
  /-- 1: the record holds an instruction or a fault; 0: bubble. -/
  valid : Bool
  /-- The address the instruction was fetched from. -/
  pc : Word
  /-- The Decoded Instruction, held by value. -/
  inst : Diw
  /-- First source. -/
  a : Word
  /-- Second source or immediate. -/
  b : Word
  /-- Third source. -/
  c : Word
  /-- Copy of `inst.setsFlags`, meaningful from `EXMEM` on. -/
  setsFlags : Bool
  /-- The staged `nzcv` value, meaningful when `setsFlags`. -/
  flags : Nzcv
  /-- The value to write to `x[inst.rd]`. -/
  result : Word
  /-- Effective address of a memory-class record. -/
  addr : Word
  /-- The address fetch continued from after this instruction. -/
  predNext : Word
  /-- Execute-stage ticks still to wait before the record executes. -/
  exRem : Nat
  /-- The record's cache access has been performed. -/
  memStarted : Bool
  /-- Memory-stage ticks still to wait after the access. -/
  memRem : Nat
  /-- The fault of a poisoned record. -/
  fault : SlotFault
  /-- `cycles` in the tick in which the fault was detected. -/
  faultCycle : Nat
  deriving DecidableEq, Repr

/-- `BUBBLE`: the all-zero record (R32). -/
def Slot.bubble : Slot :=
  { valid := false, pc := 0, inst := Diw.zero, a := 0, b := 0, c := 0, setsFlags := false, flags := 0, result := 0,
    addr := 0, predNext := 0, exRem := 0, memStarted := false, memRem := 0, fault := .none, faultCycle := 0 }

/-- A latch: an array of `N` slot records, one per lane (R30). -/
abbrev Latch := List Slot

/-! ## Fetch unit (R34) -/

/-- An instruction read in flight. The word is held as its `IB` bytes, lowest address first. -/
structure Pending where
  valid : Bool
  pc : Word
  word : List Byte
  remaining : Nat
  deriving DecidableEq, Repr

/-- The registers of the fetch unit (R34). -/
structure FetchUnit where
  /-- `fetch_pc`: address of the next instruction to read. -/
  fetchPc : Word
  /-- `pending` -/
  pending : Pending
  /-- `redirect_stall`: ticks of misprediction penalty still to serve. -/
  redirectStall : Nat
  /-- `fetch_blocked`: a poisoned record has been delivered. -/
  fetchBlocked : Bool
  deriving DecidableEq, Repr

/-! ## Branch predictor (R35) -/

/-- An entry of the branch target cache: `tag` is the full branch pc. -/
structure BtbEntry where
  valid : Bool
  tag : Word
  target : Word
  deriving DecidableEq, Repr

/-- The predictor's tables: 2-bit counters, the history register as a number below `2^GHR_BITS`, the target cache. -/
structure Predictor where
  /-- `bim` -/
  bim : Table (BitVec 2)
  /-- `gsh` -/
  gsh : Table (BitVec 2)
  /-- `meta` -/
  choice : Table (BitVec 2)
  /-- `ghr` -/
  ghr : Nat
  /-- `btb` -/
  btb : Table BtbEntry
  deriving DecidableEq, Repr

/-- An invalid target-cache entry: the reset value of `btb[i]` (R50). -/
def BtbEntry.empty : BtbEntry := ⟨false, 0, 0⟩

/-! ## Caches (R36, R45) -/

/-- A directory entry; its set and way are its index `set * X_ASSOC + way` in the table. -/
structure DirEntry where
  valid : Bool
  dirty : Bool
  tag : Nat
  lru : Nat
  deriving DecidableEq, Repr

/-- The reset value of a directory entry (R50). -/
def DirEntry.empty : DirEntry := ⟨false, false, 0, 0⟩

/-- The store-forward record `X.sb` (R36, R351). `addr` is a 64-bit address, held as its number. -/
structure StoreForward where
  valid : Bool
  addr : Nat
  size : Nat
  deriving DecidableEq, Repr

/-- One cache: directory, line data ("stored separately, indexed by the same set/way pair"), recency clock,
store-forward record, and its four counters (R36, R45). -/
structure Cache where
  dir : Table DirEntry
  data : Table (List Byte)
  clock : Nat
  sb : StoreForward
  hits : Nat
  misses : Nat
  evictions : Nat
  writebacks : Nat
  deriving DecidableEq, Repr

/-- A cache after reset: nothing valid, clock 0, counters 0 (R50). -/
def Cache.empty : Cache :=
  { dir := [], data := [], clock := 0, sb := ⟨false, 0, 0⟩, hits := 0, misses := 0, evictions := 0, writebacks := 0 }

/-! ## Main memory (R37) -/

/-- Main memory `MEM`: the bytes that differ from the unlisted value, at rising addresses. -/
abbrev Memory := List Host.Cell

/-- What an unlisted byte of main memory reads as: "every byte of `IMAGE` not listed is 0" (`spec/95_test_vectors.md`,
conventions). DESIGN CHOICE (log entry 3). -/
def unlistedByte : Byte := 0

/-- The canonical form of main memory. -/
def Memory.wf (m : Memory) : Bool := tableCanonical unlistedByte m

/-! ## Statistics (R40 to R44); each cache holds its own four counters (R45) -/

/-- The orchestrator's counters, unbounded (R40, R176). -/
structure Stats where
  cycles : Nat
  retired : Nat
  stallStructural : Nat
  stallHazard : Nat
  stallMispredict : Nat
  flushes : Nat
  deriving DecidableEq, Repr

/-! ## The state -/

/-- The state of the core (R20), with `CFG`, "the core's only control state" (R47). -/
structure State where
  /-- `CFG`: written once by reset, read-only afterwards (R47). -/
  cfg : Cfg
  /-- `x[0..31]` (R21) -/
  x : RegFile
  /-- `FLAGS` (R26) -/
  flags : Nzcv
  /-- `STATUS` (R27) -/
  status : Status
  /-- latch fetch to decode (R30) -/
  ifid : Latch
  /-- latch decode to execute (R30) -/
  idex : Latch
  /-- latch execute to memory (R30) -/
  exmem : Latch
  /-- latch memory to writeback (R30) -/
  memwb : Latch
  /-- fetch unit registers (R34) -/
  fetch : FetchUnit
  /-- branch predictor state (R35) -/
  pred : Predictor
  /-- the instruction L1 cache (R36) -/
  l1i : Cache
  /-- the data L1 cache (R36) -/
  l1d : Cache
  /-- the unified L2 cache (R36) -/
  l2 : Cache
  /-- main memory `MEM` (R37) -/
  mem : Memory
  /-- the statistics counters (R40) -/
  stats : Stats
  deriving DecidableEq, Repr

/-- The reasons for which a step stops outside the machine: none. Every fatal error of this hardware is a transition of
the machine itself to the terminal status `Aborted` (R381), and so is a next state; "no unresolved condition" (R439).
The type is closed and empty: nobody raises a fault, and that is safe. -/
inductive Fault where
  deriving DecidableEq, Repr

/-- The reasons for which a step gives an instruction no meaning. -/
inductive Refusal where
  /-- Raised by `exec` alone, for an instruction whose meaning has not been written. Safe: nothing can be proved of a
  next state. No arm raises it. -/
  | notModelled (mnemonic : String)
  deriving DecidableEq, Repr

/-! ## Reset (R50, R410) -/

/-- Main memory from the bytes the loader lists; a byte outside `0 .. MEM_SIZE-1` is no part of `IMAGE` (R411). A later
listing of an address counts. -/
def loadImage (memSize : Nat) (image : List Host.Cell) : Memory :=
  image.foldl (fun m e => if e.1 < memSize then tableSet unlistedByte m e.1 e.2 else m) []

/-- The fetch unit after reset. -/
def FetchUnit.start (entry : Word) : FetchUnit :=
  { fetchPc := entry, pending := ⟨false, 0, [], 0⟩, redirectStall := 0, fetchBlocked := false }

/-- The predictor after reset: every counter 1 (an unlisted one), no history, no target. -/
def Predictor.start : Predictor := { bim := [], gsh := [], choice := [], ghr := 0, btb := [] }

/-- All counters 0. -/
def Stats.zero : Stats := ⟨0, 0, 0, 0, 0, 0⟩

/-- Steps 2 and 3 of reset (R410): the tables and latches built to the sizes `CFG` gives, every piece of state at its
value of R50, with the status that step 1 or step 4 gives. -/
def State.build (status : Status) (cfg : Cfg) (image : List Host.Cell) (entryPc initialSp : Word) : State :=
  { cfg := cfg
    x := regFileWrite (Vector.replicate 32 0) (BitVec.ofNat 5 cfg.spReg) initialSp
    flags := 0
    status := status
    ifid := List.replicate cfg.issueWidth Slot.bubble
    idex := List.replicate cfg.issueWidth Slot.bubble
    exmem := List.replicate cfg.issueWidth Slot.bubble
    memwb := List.replicate cfg.issueWidth Slot.bubble
    fetch := FetchUnit.start entryPc
    pred := Predictor.start
    l1i := Cache.empty
    l1d := Cache.empty
    l2 := Cache.empty
    mem := loadImage cfg.memSize image
    stats := Stats.zero }

/-- Reset (R410) with the host's inputs: the configuration as handed over, the memory image, the entry program counter
and the initial stack pointer (R12). An invalid configuration leaves `STATUS = Aborted(ConfigInvalid, field)`, and the
core never ticks (R383). -/
def State.resetWith (raw : RawCfg) (image : List Host.Cell) (entryPc initialSp : Word) : State :=
  match firstViolation raw with
  | some field => State.build (.aborted (.configInvalid field)) (cfgOfRaw raw) image entryPc initialSp
  | none => State.build .running (cfgOfRaw raw) image entryPc initialSp

/-- The machine right after reset: `CFG_DEFAULT`, an image of zeros, `ENTRY_PC = 0x1000` and `INITIAL_SP = 0x8000`, the
conventions of `spec/95_test_vectors.md`. The four are the host's inputs, which R12 leaves to it; `State.resetWith` is
reset for all of them, and answers this state for these four. DESIGN CHOICE (log entry 2). -/
def State.reset : State := State.build .running cfgDefault [] 0x1000 0x8000

end Sys2Proof.Machine
end

