-- ==== Sys2Proof/Machine/Flags.lean ====
section
/-!
DEFINITION. Every flag computation of the reference instance: `AddFlags` (`spec/40_operation_classes.md` R144), the N and Z
of a result (R140), `REF.CondHolds` (R141), `REF.CmpFlags` (R142), and the packing of N, Z, C, V (`spec/00_scope.md` R13).
-/

namespace Sys2Proof.Machine

/-- Pack the four flags: N is bit 3, Z bit 2, C bit 1, V bit 0 (R13). -/
def packFlags (n z c v : Bool) : Nzcv :=
  BitVec.ofNat 4 (8 * n.toNat + 4 * z.toNat + 2 * c.toNat + v.toNat)

/-- The flag N of a flags value. -/
def flagN (f : Nzcv) : Bool := f.getLsbD 3
/-- The flag Z of a flags value. -/
def flagZ (f : Nzcv) : Bool := f.getLsbD 2
/-- The flag C of a flags value. -/
def flagC (f : Nzcv) : Bool := f.getLsbD 1
/-- The flag V of a flags value. -/
def flagV (f : Nzcv) : Bool := f.getLsbD 0

/-- `nz(res) = {res[63], res = 0, 0, 0}` (R140). -/
def nzFlags (res : Word) : Nzcv := packFlags (res.getLsbD 63) (res == 0) false false

/-- `AddFlags(p, q, cin)` (R144): the unbounded unsigned sum `u` and signed sum `t`, the result narrowed from `u`, C where
`u` does not fit, V where `t` is not the signed value of the result. -/
def addFlags (p q : Word) (cin : Nat) : Word × Nzcv :=
  let u : Nat := p.toNat + q.toNat + cin
  let t : Int := p.toInt + q.toInt + cin
  let res : Word := BitVec.ofNat 64 u
  (res, packFlags (res.getLsbD 63) (res == 0) (decide (2 ^ 64 ≤ u)) (decide (t ≠ res.toInt)))

/-- `REF.CmpFlags(a, b)`: the flags part of `AddFlags(a, not(b), 1)` (R142). -/
def refCmpFlags (a b : Word) : Nzcv := (addFlags a (~~~b) 1).2

/-- `REF.CondHolds(cond, nzcv)`, the table of R141: the codes 0 to 15 are
`EQ NE CS CC MI PL VS VC HI LS GE LT GT LE AL NV`. Code 15 holds always, like 14. -/
def refCondHolds (cond : BitVec 4) (f : Nzcv) : Bool :=
  let n := flagN f
  let z := flagZ f
  let c := flagC f
  let v := flagV f
  match cond.toNat with
  | 0 => z
  | 1 => !z
  | 2 => c
  | 3 => !c
  | 4 => n
  | 5 => !n
  | 6 => v
  | 7 => !v
  | 8 => c && !z
  | 9 => !c || z
  | 10 => n == v
  | 11 => n != v
  | 12 => !z && n == v
  | 13 => z || n != v
  | _ => true

end Sys2Proof.Machine
end

