-- ==== Sys2Proof/Machine/Functions.lean ====
section
/-!
DEFINITION. The five function inputs of the core (`spec/00_scope.md` R12) and their reference instance `REF`
(`spec/30_encoding.md` R101, `spec/40_operation_classes.md` R140 to R143). The stage rules are stated for arbitrary
functions (R145), so every stage of the tick takes them as an argument; the machine of this model runs with `ref`.
-/

namespace Sys2Proof.Machine

/-- What `Sys` answers: `Exit(code)` or `Return(value)` (R12). -/
inductive SysAnswer where
  | exit (code : Word)
  | ret (value : Word)
  deriving DecidableEq, Repr

/-- The function inputs of R12. A Lean function is pure and total, as R145 asks. The word given to `decode` is its `IB`
bytes, lowest address first (R61). -/
structure CoreFns where
  decode : List Byte → Word → Option Diw
  execFn : OpClass → BitVec 6 → Word → Word → BitVec 4 → Nzcv → Word × Nzcv
  condHolds : BitVec 4 → Nzcv → Bool
  cmpFlags : Word → Word → Nzcv
  sys : Word → Word → Word → SysAnswer

/-- The shift amount of `LSL`, `LSR`, `ASR`: `b mod 64` (R126 to R128). -/
def shiftAmount (b : Word) : Nat := b.toNat % 64

/-- A result with its N and Z flags (R140, `nz(result)`). -/
def withNz (res : Word) : Word × Nzcv := (res, nzFlags res)

/-- `ADD`: `a + b mod 2^64` (R121). -/
def refAdd (a b : Word) : Word × Nzcv := addFlags a b 0
/-- `SUB`: `AddFlags(a, not(b), 1)` (R122). -/
def refSub (a b : Word) : Word × Nzcv := addFlags a (~~~b) 1
/-- `AND` (R123). -/
def refAnd (a b : Word) : Word × Nzcv := withNz (a &&& b)
/-- `ORR` (R124). -/
def refOrr (a b : Word) : Word × Nzcv := withNz (a ||| b)
/-- `EOR` (R125). -/
def refEor (a b : Word) : Word × Nzcv := withNz (a ^^^ b)
/-- `LSL`: `(a * 2^sh) mod 2^64` (R126). -/
def refLsl (a b : Word) : Word × Nzcv := withNz (BitVec.ofNat 64 (a.toNat * 2 ^ shiftAmount b))
/-- `LSR`: `a div 2^sh` (R127). -/
def refLsr (a b : Word) : Word × Nzcv := withNz (BitVec.ofNat 64 (a.toNat / 2 ^ shiftAmount b))
/-- `ASR`: `floor(signed(a) / 2^sh)` as 64 bits (R128). -/
def refAsr (a b : Word) : Word × Nzcv := withNz (BitVec.ofInt 64 (a.toInt / 2 ^ shiftAmount b))
/-- `CSEL`: `CondHolds(cond, flags_in) ? a : b` (R129). -/
def refCsel (a b : Word) (cond : BitVec 4) (fl : Nzcv) : Word × Nzcv :=
  withNz (if refCondHolds cond fl then a else b)
/-- `MUL`: `(a * b) mod 2^64` (R130). -/
def refMul (a b : Word) : Word × Nzcv := withNz (BitVec.ofNat 64 (a.toNat * b.toNat))

/-- The `ARITH` rows of `REF.ExecFn`, by `fn` (R140); a reserved `fn` gives `(0, 0b0000)`. -/
def refArith (fn : BitVec 6) (a b : Word) (cond : BitVec 4) (fl : Nzcv) : Word × Nzcv :=
  match fn.toNat with
  | 0 => refAdd a b
  | 1 => refSub a b
  | 2 => refAnd a b
  | 3 => refOrr a b
  | 4 => refEor a b
  | 5 => refLsl a b
  | 6 => refLsr a b
  | 7 => refAsr a b
  | 8 => refCsel a b cond fl
  | _ => (0, 0)

/-- `REF.ExecFn(cls, fn, a, b, cond, flags_in)` (R140): "For any other `(cls, fn)` `REF.ExecFn` returns `(0, 0b0000)`". -/
def refExecFn (cls : OpClass) (fn : BitVec 6) (a b : Word) (cond : BitVec 4) (fl : Nzcv) : Word × Nzcv :=
  match cls with
  | .arith => refArith fn a b cond fl
  | .mul => if fn = 0 then refMul a b else (0, 0)
  | .load | .store | .branch | .syscall => (0, 0)

/-- `REF.Sys(a, b, c)`: "if `a = 93` then `Exit(b)` else `Return(0)`"; the third argument is ignored (R143). -/
def refSys (a b _c : Word) : SysAnswer := if a = 93 then .exit b else .ret 0

/-- `REF.Decode(word, pc)`: the record of the decoded instruction, which is the word's own record unchanged; the `pc` is
ignored (R101, R102). -/
def refDecode (bytes : List Byte) (_pc : Word) : Option Diw := (decodeBytes bytes).map Instr.toDiw

/-- The reference instance `REF` of the five functions (R12). -/
def ref : CoreFns :=
  { decode := refDecode, execFn := refExecFn, condHolds := refCondHolds, cmpFlags := refCmpFlags, sys := refSys }

end Sys2Proof.Machine
end

