-- ==== Sys2Proof/Machine/Caches.lean ====
section
/-!
DEFINITION. The caches `set_assoc_cache_l1i`, `set_assoc_cache_l1d`, `unified_cache_l2`: three uses of one definition
(`spec/49_caches.md`, R335 to R359) over "a generic backing-store interface", and main memory at the bottom
(`spec/20_memory.md` R80).
-/

namespace Sys2Proof.Machine

/-! ## The backing-store interface (R336) -/

/-- What a `BRead` answers: the latency, the bytes, and the store afterwards. -/
structure BackingRead (β : Type) where
  latency : Nat
  bytes : List Byte
  store : β

/-- What a `BWrite` answers: the latency, and the store afterwards. -/
structure BackingWrite (β : Type) where
  latency : Nat
  store : β

/-- "an opaque byte-addressable read/write interface — the next level in the hierarchy, or main memory at the bottom":
`BRead(addr, n)` and `BWrite(addr, n, bytes)`, `n` the number of bytes. -/
structure Backing (β : Type) where
  read : β → Nat → Nat → BackingRead β
  write : β → Nat → List Byte → BackingWrite β

/-! ## Main memory (R37, R80) -/

/-- One byte of main memory. -/
def memByte (m : Memory) (addr : Nat) : Byte := tableGet unlistedByte m addr

/-- `MainRead(addr, n)`: the bytes at `addr .. addr+n-1`. R80 defines it only for `addr + n <= MEM_SIZE`, which every call
meets; beyond the end this answers the unlisted value. DESIGN CHOICE (log entry 15). -/
def mainRead (m : Memory) (addr : Nat) : Nat → List Byte
  | 0 => []
  | n + 1 => memByte m addr :: mainRead m (addr + 1) n

/-- `MainWrite(addr, n, bytes)`: replace the bytes from `addr` on. R80 defines it only for `addr + n <= MEM_SIZE`, which
every call meets; beyond the end this lists the bytes like any others. DESIGN CHOICE (log entry 15). -/
def mainWrite (m : Memory) (addr : Nat) : List Byte → Memory
  | [] => m
  | v :: rest => mainWrite (tableSet unlistedByte m addr v) (addr + 1) rest

/-- Main memory as a backing store: `MainRead` and `MainWrite` with latency 0 (R80, R336). -/
def memBacking : Backing Memory where
  read m addr n := ⟨0, mainRead m addr n, m⟩
  write m addr bytes := ⟨0, mainWrite m addr bytes⟩

/-! ## Lookup, recency, victim (R337 to R340) -/

/-- The set of an address: `la mod SETS` with `la = addr div LINE` (R337). -/
def setOf (g : CacheCfg) (addr : Nat) : Nat := addr / g.line % g.sets

/-- The tag of an address: `la div SETS` (R337). -/
def tagOf (g : CacheCfg) (addr : Nat) : Nat := addr / g.line / g.sets

/-- The first byte of the line with a tag in a set: line number `tag * SETS + set`, times `LINE` (R337). -/
def lineBase (g : CacheCfg) (set tag : Nat) : Nat := (tag * g.sets + set) * g.line

/-- The index of an entry in the tables of a cache. -/
def entryIx (g : CacheCfg) (set way : Nat) : Nat := set * g.assoc + way

/-- `X.dir[set][way]`. -/
def dirAt (g : CacheCfg) (c : Cache) (set way : Nat) : DirEntry := tableGet DirEntry.empty c.dir (entryIx g set way)

/-- `X.data[set][way]`: a line of zeros where nothing was filled (R50). -/
def dataAt (g : CacheCfg) (c : Cache) (set way : Nat) : List Byte :=
  tableGet (List.replicate g.line 0) c.data (entryIx g set way)

/-- `X.dir[set][way] <- e`. -/
def setDir (g : CacheCfg) (c : Cache) (set way : Nat) (e : DirEntry) : Cache :=
  { c with dir := tableSet DirEntry.empty c.dir (entryIx g set way) e }

/-- `X.data[set][way] <- bytes`. -/
def setData (g : CacheCfg) (c : Cache) (set way : Nat) (bytes : List Byte) : Cache :=
  { c with data := tableSet (List.replicate g.line 0) c.data (entryIx g set way) bytes }

/-- Whether the entry at a way is valid and has the tag. -/
def holdsTag (g : CacheCfg) (c : Cache) (set tag way : Nat) : Bool :=
  (dirAt g c set way).valid && (dirAt g c set way).tag == tag

/-- `Lookup(set, tag)` (R338). -/
def lookup (g : CacheCfg) (c : Cache) (set tag : Nat) : Option Nat := (List.range g.assoc).find? (holdsTag g c set tag)

/-- `Touch(set, w)` (R339). -/
def touch (g : CacheCfg) (c : Cache) (set way : Nat) : Cache :=
  let c := { c with clock := c.clock + 1 }
  setDir g c set way { dirAt g c set way with lru := c.clock }

/-- The way with the smallest `lru` among `ways`, or `best` if none is smaller; the lowest-numbered one on a tie. -/
def leastRecent (g : CacheCfg) (c : Cache) (set : Nat) : Nat → List Nat → Nat
  | best, [] => best
  | best, w :: ws =>
    leastRecent g c set (if (dirAt g c set w).lru < (dirAt g c set best).lru then w else best) ws

/-- `Victim(set)`: the lowest-numbered invalid way, else the least recently used one (R340). -/
def victim (g : CacheCfg) (c : Cache) (set : Nat) : Nat :=
  match (List.range g.assoc).find? fun w => !(dirAt g c set w).valid with
  | some w => w
  | none => leastRecent g c set 0 (List.range g.assoc)

/-! ## Install, Read, Write (R345, R348, R349) -/

/-- A cache with the store behind it. -/
structure Level (β : Type) where
  cache : Cache
  below : β

/-- The first part of `Install`: count the replacement of a valid entry and write a dirty one back, before the new line
is read (R349). The latency of the write-back is discarded (R357). -/
def evict (g : CacheCfg) (B : Backing β) (l : Level β) (set way : Nat) : Level β :=
  let e := dirAt g l.cache set way
  if e.valid then
    let c := { l.cache with evictions := l.cache.evictions + 1 }
    if e.dirty then
      { cache := { c with writebacks := c.writebacks + 1 }
        below := (B.write l.below (lineBase g set e.tag) (dataAt g c set way)).store }
    else { l with cache := c }
  else l

/-- What `Install` answers: the way and the latency of the fill. -/
structure Installed (β : Type) where
  way : Nat
  fillLatency : Nat
  level : Level β

/-- `Install(set, tag)` (R349). -/
def install (g : CacheCfg) (B : Backing β) (l : Level β) (set tag : Nat) : Installed β :=
  let w := victim g l.cache set
  let l := evict g B l set w
  let fill := B.read l.below (lineBase g set tag) g.line
  let c := setDir g l.cache set w { valid := true, dirty := false, tag := tag, lru := (dirAt g l.cache set w).lru }
  let c := setData g c set w fill.bytes
  { way := w, fillLatency := fill.latency, level := { cache := touch g c set w, below := fill.store } }

/-- What `Read` answers: `(hit, latency, data)` and the level afterwards. -/
structure ReadAnswer (β : Type) where
  hit : Bool
  latency : Nat
  bytes : List Byte
  level : Level β

/-- The store-forward record covers the read (R351). -/
def forwards (sb : StoreForward) (addr n : Nat) : Bool :=
  sb.valid && decide (sb.addr ≤ addr) && decide (addr + n ≤ sb.addr + sb.size)

/-- The bytes `off .. off+n-1` of a line. -/
def lineBytes (line : List Byte) (off n : Nat) : List Byte := (line.drop off).take n

/-- A line with the bytes from `off` on replaced. -/
def linePatch (line : List Byte) (off : Nat) (bytes : List Byte) : List Byte :=
  line.take off ++ bytes ++ line.drop (off + bytes.length)

/-- `X.Read(addr, n)` (R345). -/
def cacheRead (g : CacheCfg) (B : Backing β) (l : Level β) (addr n : Nat) : ReadAnswer β :=
  let fwd := forwards l.cache.sb addr n
  let c := { l.cache with sb := { l.cache.sb with valid := false } }
  let set := setOf g addr
  let tag := tagOf g addr
  let off := addr % g.line
  match lookup g c set tag with
  | some w =>
    let c := touch g { c with hits := c.hits + 1 } set w
    { hit := true
      latency := g.hitLat + (if fwd then 1 else 0)
      bytes := lineBytes (dataAt g c set w) off n
      level := { cache := c, below := l.below } }
  | none =>
    let i := install g B { cache := { c with misses := c.misses + 1 }, below := l.below } set tag
    { hit := false
      latency := g.missLat + i.fillLatency
      bytes := lineBytes (dataAt g i.level.cache set i.way) off n
      level := i.level }

/-- What `Write` answers: `(hit, latency)` and the level afterwards. -/
structure WriteAnswer (β : Type) where
  hit : Bool
  latency : Nat
  level : Level β

/-- The last part of `Write`: the bytes enter the line, the line is dirty, the store-forward record is set (R348). -/
def storeBytes (g : CacheCfg) (c : Cache) (set way addr : Nat) (bytes : List Byte) : Cache :=
  let c := setData g c set way (linePatch (dataAt g c set way) (addr % g.line) bytes)
  let c := setDir g c set way { dirAt g c set way with dirty := true }
  { c with sb := { valid := true, addr := addr, size := bytes.length } }

/-- `X.Write(addr, n, bytes)`, `n` the number of bytes: write-back, write-allocate (R348). -/
def cacheWrite (g : CacheCfg) (B : Backing β) (l : Level β) (addr : Nat) (bytes : List Byte) : WriteAnswer β :=
  let set := setOf g addr
  let tag := tagOf g addr
  match lookup g l.cache set tag with
  | some w =>
    let c := touch g { l.cache with hits := l.cache.hits + 1 } set w
    { hit := true
      latency := g.hitLat
      level := { cache := storeBytes g c set w addr bytes, below := l.below } }
  | none =>
    let i := install g B { l with cache := { l.cache with misses := l.cache.misses + 1 } } set tag
    { hit := false
      latency := g.missLat + i.fillLatency
      level := { cache := storeBytes g i.level.cache set i.way addr bytes, below := i.level.below } }

/-! ## The hierarchy (R60, R335) -/

/-- `L2` over main memory. -/
abbrev L2Level := Level Memory

/-- `L2` as the backing store of an L1 cache: its `Read` and `Write` with `hit` dropped (R336). -/
def l2Backing (g : CacheCfg) : Backing L2Level where
  read l addr n :=
    let r := cacheRead g memBacking l addr n
    ⟨r.latency, r.bytes, r.level⟩
  write l addr bytes :=
    let r := cacheWrite g memBacking l addr bytes
    ⟨r.latency, r.level⟩

/-- `L2` and main memory of a state. -/
def State.l2Level (s : State) : L2Level := { cache := s.l2, below := s.mem }

/-- The state after an access through `L1D`. -/
def State.withL1d (s : State) (l : Level L2Level) : State :=
  { s with l1d := l.cache, l2 := l.below.cache, mem := l.below.below }

/-- The state after an access through `L1I`. -/
def State.withL1i (s : State) (l : Level L2Level) : State :=
  { s with l1i := l.cache, l2 := l.below.cache, mem := l.below.below }

/-- `L1D.Read(addr, n)`. -/
def State.l1dRead (s : State) (addr n : Nat) : ReadAnswer L2Level :=
  cacheRead s.cfg.l1d (l2Backing s.cfg.l2) { cache := s.l1d, below := s.l2Level } addr n

/-- `L1D.Write(addr, n, bytes)`. -/
def State.l1dWrite (s : State) (addr : Nat) (bytes : List Byte) : WriteAnswer L2Level :=
  cacheWrite s.cfg.l1d (l2Backing s.cfg.l2) { cache := s.l1d, below := s.l2Level } addr bytes

/-- `L1I.Read(addr, n)`. -/
def State.l1iRead (s : State) (addr n : Nat) : ReadAnswer L2Level :=
  cacheRead s.cfg.l1i (l2Backing s.cfg.l2) { cache := s.l1i, below := s.l2Level } addr n

/-! ## The data view (`spec/20_memory.md` R72) -/

/-- The byte at an address as one cache holds it, if it holds the line. -/
def cacheByte? (g : CacheCfg) (c : Cache) (addr : Nat) : Option Byte :=
  (lookup g c (setOf g addr) (tagOf g addr)).map fun w =>
    (dataAt g c (setOf g addr) w).getD (addr % g.line) 0

/-- The byte at an address as `L2` and what lies below it hold it. -/
def State.l2View (s : State) (addr : Nat) : Byte :=
  match cacheByte? s.cfg.l2 s.l2 addr with
  | some v => v
  | none => memByte s.mem addr

/-- `DView(A)`: the byte of `L1D` if it holds the line, else of `L2` if it does, else of main memory (R72). This is the
model's read of one byte of memory. -/
def State.dview (s : State) (addr : Nat) : Byte :=
  match cacheByte? s.cfg.l1d s.l1d addr with
  | some v => v
  | none => s.l2View addr

end Sys2Proof.Machine
end

