-- ==== Sys2Proof/Machine/Ops.lean ====
section
/-!
DEFINITION. The named operations of the machine over its registers, its program counter and its memory: register and flag
access (`spec/00_scope.md` R14), the architectural program counter (`spec/10_state.md` R24), the access primitives
`MemRead`, `MemWrite`, `FetchRead` (`spec/20_memory.md` R66 to R69), the ends of a run `raise` and `halt`
(`spec/60_exceptions.md` R381, R390), latch access (`spec/41_pipeline_orchestrator.md` R161), retirement
(`spec/42_writeback_stage.md` R190). Nothing returns from an error or a halt: "there is no return instruction and no
return" (R394).
-/

namespace Sys2Proof.Machine

/-- What a meaning or a step answers. -/
abbrev Answer := Host.Outcome State Fault Refusal

/-! ## Registers and flags -/

/-- `x[r]`. -/
def State.reg (s : State) (r : Reg) : Word := regFileRead s.x r

/-- `x[r] <- v`. -/
def State.setReg (s : State) (r : Reg) (v : Word) : State := { s with x := regFileWrite s.x r v }

/-- The value of a source: an absent source reads as 0 (R23). -/
def State.source (s : State) (r : Option Reg) : Word :=
  match r with
  | some r => s.reg r
  | none => 0

/-- Write a destination: an absent destination discards the result (R23). -/
def State.setDest (s : State) (r : Option Reg) (v : Word) : State :=
  match r with
  | some r => s.setReg r v
  | none => s

/-- `FLAGS <- f` if the instruction sets flags (R26). -/
def State.setFlagsIf (s : State) (sets : Bool) (f : Nzcv) : State := if sets then { s with flags := f } else s

/-- `retired <- retired + 1` (R193). -/
def State.countRetired (s : State) : State := { s with stats := { s.stats with retired := s.stats.retired + 1 } }

/-- Retirement: the register write, the flags write, the count, in that order (R190 to R193). -/
def State.commit (s : State) (rd : Option Reg) (result : Word) (sets : Bool) (f : Nzcv) : State :=
  ((s.setDest rd result).setFlagsIf sets f).countRetired

/-! ## Run status: raising an error and halting -/

/-- The core ticks: `STATUS = Running` (R27). -/
def State.isRunning (s : State) : Bool := s.status == .running

/-- `raise E(info)`: `STATUS <- Aborted(E, info)`; nothing else is saved and control goes nowhere (R381, R393). That the
tick ends here is the caller's part. -/
def State.raise (s : State) (e : FatalError) : State := { s with status := .aborted e }

/-- `halt(code)`: `STATUS <- Halted(code)`; nothing is drained (R390). -/
def State.halt (s : State) (code : Word) : State := { s with status := .halted code }

/-- Run something only while the core runs: "Once `STATUS` is `Halted` or `Aborted` no state of the core changes again"
(R27). -/
def State.whileRunning (s : State) (f : State → State) : State := if s.isRunning then f s else s

/-! ## Latches (R30, R161) -/

/-- The record of a lane; beyond the lanes there are only bubbles. -/
def slotAt (l : Latch) (lane : Nat) : Slot := l.getD lane Slot.bubble

/-- Whether some lane of a latch is valid. -/
def anyValid (l : Latch) : Bool := l.any (·.valid)

/-- A latch of bubbles. -/
def bubbles (n : Nat) : Latch := List.replicate n Slot.bubble

/-- `IFID[lane] <- r` -/
def State.setIfid (s : State) (lane : Nat) (r : Slot) : State := { s with ifid := s.ifid.set lane r }
/-- `IDEX[lane] <- r` -/
def State.setIdex (s : State) (lane : Nat) (r : Slot) : State := { s with idex := s.idex.set lane r }
/-- `EXMEM[lane] <- r` -/
def State.setExmem (s : State) (lane : Nat) (r : Slot) : State := { s with exmem := s.exmem.set lane r }
/-- `MEMWB[lane] <- r` -/
def State.setMemwb (s : State) (lane : Nat) (r : Slot) : State := { s with memwb := s.memwb.set lane r }

/-- The lanes in the order in which every step visits them: `0, 1, ..., N-1` (R167). -/
def State.lanes (s : State) : List Nat := List.range s.cfg.issueWidth

/-- What a step does after one lane: go on to the next, or end its loop here (R167: "blocks"). -/
inductive LaneStep (σ : Type) where
  | go (s : σ)
  | stop (s : σ)

/-- Visit lanes in order until one ends the loop. -/
def runLanes (f : Nat → σ → LaneStep σ) : List Nat → σ → σ
  | [], s => s
  | lane :: rest, s =>
    match f lane s with
    | .go s' => runLanes f rest s'
    | .stop s' => s'

/-! ## The program counter (R24, R25) -/

/-- `INSTR_BYTES` as an address step. -/
def State.ib (s : State) : Word := BitVec.ofNat 64 s.cfg.instrBytes

/-- The oldest valid record in flight: later latches are older, lower lanes are older (R33). -/
def State.oldest? (s : State) : Option Slot := (s.memwb ++ s.exmem ++ s.idex ++ s.ifid).find? (·.valid)

/-- The architectural program counter (R24): "the `pc` field of the oldest valid record in flight, or `fetch_pc` when no
record is valid and no fetch is pending"; with a fetch pending it is that fetch's address. -/
def State.pc (s : State) : Word :=
  match s.oldest? with
  | some r => r.pc
  | none => if s.fetch.pending.valid then s.fetch.pending.pc else s.fetch.fetchPc

/-- `pc <- t`, "the plain assignment" (R14), on the committed state: no record is in flight afterwards and fetch goes on
at `t`. Records in flight hold nothing committed, so an instruction "executed alone on the committed state" (R120) drops
them. DESIGN CHOICE (log entry 5). -/
def State.setPc (s : State) (t : Word) : State :=
  { s with
    ifid := bubbles s.cfg.issueWidth
    idex := bubbles s.cfg.issueWidth
    exmem := bubbles s.cfg.issueWidth
    memwb := bubbles s.cfg.issueWidth
    fetch := { s.fetch with fetchPc := t, pending := { s.fetch.pending with valid := false }, fetchBlocked := false } }

/-- `pc <- pc + IB`, from the address of the instruction. -/
def State.advance (s : State) (pc : Word) : State := s.setPc (pc + s.ib)

/-! ## Memory access (R66 to R69) -/

/-- The bytes an access moves: `n = 2^msize` (R63). -/
def accessBytes (msize : BitVec 2) : Nat := 2 ^ msize.toNat

/-- A data access is in bounds iff `addr + n <= MEM_SIZE`, "computed without wrap-around" (R69). -/
def State.inBounds (s : State) (addr : Word) (n : Nat) : Bool := decide (addr.toNat + n ≤ s.cfg.memSize)

/-- The requests an access of `n` bytes at `addr` is split into, one per line, ascending (R62, R66): pairs of an address
and a number of bytes. The first argument bounds the number of requests; `n` is enough. -/
def lineRequests (line : Nat) : Nat → Nat → Nat → List (Nat × Nat)
  | 0, _, _ => []
  | fuel + 1, addr, n =>
    if n = 0 then []
    else
      let m := min n (line - addr % line)
      (addr, m) :: lineRequests line fuel (addr + m) (n - m)

/-- A data answer: the conjunction of the hits, the sum of the latencies, the bytes, the state afterwards. -/
structure MemAnswer where
  hit : Bool
  latency : Nat
  bytes : List Byte
  state : State

/-- The loop of `MemRead`, one `L1D.Read` per request; "The latencies of the per-line requests add" (R66). -/
def readRequests (s : State) : List (Nat × Nat) → MemAnswer
  | [] => ⟨true, 0, [], s⟩
  | (a, m) :: rest =>
    let r := s.l1dRead a m
    let q := readRequests (s.withL1d r.level) rest
    ⟨r.hit && q.hit, r.latency + q.latency, r.bytes ++ q.bytes, q.state⟩

/-- `MemRead(addr, n)` (R66); its value is the little-endian number of the bytes (R61). -/
def State.memRead (s : State) (addr : Word) (n : Nat) : MemAnswer :=
  readRequests s (lineRequests s.cfg.l1d.line n addr.toNat n)

/-- The loop of `MemWrite`, one `L1D.Write` per request, each with its share of the bytes (R67). -/
def writeRequests (s : State) : List (Nat × Nat) → List Byte → MemAnswer
  | [], _ => ⟨true, 0, [], s⟩
  | (a, m) :: rest, bytes =>
    let r := s.l1dWrite a (bytes.take m)
    let q := writeRequests (s.withL1d r.level) rest (bytes.drop m)
    ⟨r.hit && q.hit, r.latency + q.latency, [], q.state⟩

/-- `MemWrite(addr, n, v)`: the low `8*n` bits of `v`, little-endian (R67, R61). -/
def State.memWrite (s : State) (addr : Word) (n : Nat) (v : Word) : MemAnswer :=
  writeRequests s (lineRequests s.cfg.l1d.line n addr.toNat n) (leBytes n v.toNat)

/-- `FetchRead(pc)`: `L1I.Read(pc, IB)` (R68). -/
def State.fetchRead (s : State) (pc : Word) : MemAnswer :=
  let r := s.l1iRead pc.toNat s.cfg.instrBytes
  ⟨r.hit, r.latency, r.bytes, s.withL1i r.level⟩

/-- `zext_N(v)`: the low `N` bits of `v`, zeros above (R13). -/
def zext (bits v : Nat) : Word := BitVec.ofNat 64 (v % 2 ^ bits)

/-- `sext_N(v)`: the low `N` bits of `v` with bit `N-1` read as the sign (R13). -/
def sext (bits v : Nat) : Word :=
  if v.testBit (bits - 1) then BitVec.ofInt 64 ((v % 2 ^ bits : Nat) - 2 ^ bits) else zext bits v

/-- The value of a load: `sext_(8n)` or `zext_(8n)` of the little-endian number of its `n` bytes (R131). -/
def extendBytes (signed : Bool) (n : Nat) (bytes : List Byte) : Word :=
  if signed then sext (8 * n) (leNat bytes) else zext (8 * n) (leNat bytes)

/-- What a load does in the memory stage once its bounds are checked: the extended value, the latency, the state (R131). -/
def State.loadData (s : State) (addr : Word) (msize : BitVec 2) (signed : Bool) : Word × Nat × State :=
  let r := s.memRead addr (accessBytes msize)
  (extendBytes signed (accessBytes msize) r.bytes, r.latency, r.state)

/-- What a store does in the memory stage once its bounds are checked: the latency and the state (R132). -/
def State.storeData (s : State) (addr : Word) (msize : BitVec 2) (v : Word) : Nat × State :=
  let r := s.memWrite addr (accessBytes msize) v
  (r.latency, r.state)

end Sys2Proof.Machine
end

