-- ==== Sys2Proof/Machine/Operands.lean ====
section
/-!
DEFINITION. Every operand form of the encoding: the three operand values of an instruction executed alone on the committed
state (`spec/30_encoding.md` R94, R95, `spec/40_operation_classes.md` R120), and the sources of a record
(`spec/47_hazard_forwarding_unit.md` R290).
-/

namespace Sys2Proof.Machine

/-- `a = rn_v ? x[rn] : 0`. -/
def operandA (s : State) (rn : Option Reg) : Word := s.source rn

/-- `b = rm_v ? x[rm] : imm`, the second operand of `ARITH`, `MUL`, `LOAD` and `STORE` (R94, R95). -/
def operandB (s : State) (rm : Option Reg) (imm : Word) : Word :=
  match rm with
  | some r => s.reg r
  | none => imm

/-- `b = rm_v ? x[rm] : 0`, the second operand of a `BRANCH`, "never an immediate" (R94), and of a `SYSCALL`, whose
`imm` is "ignored" and whose absent operand is 0 (R95, R139). DEDUCED for `SYSCALL` (log entry 7). -/
def operandBNoImm (s : State) (rm : Option Reg) : Word := s.source rm

/-- `c = rt_v ? x[rt] : 0`. -/
def operandC (s : State) (rt : Option Reg) : Word := s.source rt

/-- The effective address `a + imm mod 2^64` of a `LOAD` or `STORE` (R95, R97). -/
def effectiveAddr (a imm : Word) : Word := a + imm

/-- The value a record's second operand has when `rm` is absent: 0 for a `BRANCH` (R94) and for a `SYSCALL` (R95, R139:
"absent = 0", "`imm` ignored"; DEDUCED, log entry 7), the immediate for the other classes. -/
def absentB (d : Diw) : Word :=
  match d.cls with
  | .branch | .syscall => 0
  | .arith | .load | .store | .mul => d.imm

/-- The sources of a record, "the registers among `rn`, `rm`, `rt` whose valid bit is 1, in that order" (R290). -/
def diwSources (d : Diw) : List Reg :=
  (optReg d.rnV d.rn).toList ++ (optReg d.rmV d.rm).toList ++ (optReg d.rtV d.rt).toList

/-- The destination of a record. -/
def diwDest (d : Diw) : Option Reg := optReg d.rdV d.rd

end Sys2Proof.Machine
end

