-- ==== Sys2Proof/Machine/Arith.lean ====
section
/-!
DEFINITION. The nine instructions of class `ARITH` (`spec/40_operation_classes.md` R121 to R129): the architectural effect
of each, executed alone on the committed state (R120). A core that does not run changes nothing (`spec/10_state.md` R27).
-/

namespace Sys2Proof.Machine

/-- The end of every `ARITH` and `MUL` rule: `if rd_v: x[rd] <- res`, `if sets_flags: FLAGS <- f`, `pc <- pc + IB`, the
record retired (R121, R193). -/
def State.finishAlu (st : State) (rd : Option Reg) (sets : Bool) (r : Word × Nzcv) : State :=
  (st.commit rd r.1 sets r.2).advance st.pc

/-- `ADD{S}` (R121). -/
def execAdd (s : Bool) (rd rn rm : Option Reg) (imm : Word) (st : State) : Answer :=
  .next (st.whileRunning fun st =>
    st.finishAlu rd s (ref.execFn .arith 0 (operandA st rn) (operandB st rm imm) 0 0))

/-- `SUB{S}` (R122). -/
def execSub (s : Bool) (rd rn rm : Option Reg) (imm : Word) (st : State) : Answer :=
  .next (st.whileRunning fun st =>
    st.finishAlu rd s (ref.execFn .arith 1 (operandA st rn) (operandB st rm imm) 0 0))

/-- `AND{S}` (R123). -/
def execAnd (s : Bool) (rd rn rm : Option Reg) (imm : Word) (st : State) : Answer :=
  .next (st.whileRunning fun st =>
    st.finishAlu rd s (ref.execFn .arith 2 (operandA st rn) (operandB st rm imm) 0 0))

/-- `ORR{S}` (R124). -/
def execOrr (s : Bool) (rd rn rm : Option Reg) (imm : Word) (st : State) : Answer :=
  .next (st.whileRunning fun st =>
    st.finishAlu rd s (ref.execFn .arith 3 (operandA st rn) (operandB st rm imm) 0 0))

/-- `EOR{S}` (R125). -/
def execEor (s : Bool) (rd rn rm : Option Reg) (imm : Word) (st : State) : Answer :=
  .next (st.whileRunning fun st =>
    st.finishAlu rd s (ref.execFn .arith 4 (operandA st rn) (operandB st rm imm) 0 0))

/-- `LSL{S}` (R126). -/
def execLsl (s : Bool) (rd rn rm : Option Reg) (imm : Word) (st : State) : Answer :=
  .next (st.whileRunning fun st =>
    st.finishAlu rd s (ref.execFn .arith 5 (operandA st rn) (operandB st rm imm) 0 0))

/-- `LSR{S}` (R127). -/
def execLsr (s : Bool) (rd rn rm : Option Reg) (imm : Word) (st : State) : Answer :=
  .next (st.whileRunning fun st =>
    st.finishAlu rd s (ref.execFn .arith 6 (operandA st rn) (operandB st rm imm) 0 0))

/-- `ASR{S}` (R128). -/
def execAsr (s : Bool) (rd rn rm : Option Reg) (imm : Word) (st : State) : Answer :=
  .next (st.whileRunning fun st =>
    st.finishAlu rd s (ref.execFn .arith 7 (operandA st rn) (operandB st rm imm) 0 0))

/-- `CSEL{S}` (R129): the only `ARITH` instruction that reads `FLAGS`. -/
def execCsel (s : Bool) (cond : BitVec 4) (rd rn rm : Option Reg) (imm : Word) (st : State) : Answer :=
  .next (st.whileRunning fun st =>
    st.finishAlu rd s (ref.execFn .arith 8 (operandA st rn) (operandB st rm imm) cond st.flags))

end Sys2Proof.Machine
end

