-- ==== Sys2Proof/Machine/BranchPredictor.lean ====
section
/-!
DEFINITION. `branch_predictor_fsm` (`spec/48_branch_predictor_fsm.md` R310 to R325): a tournament of two direction tables
and a direct-mapped target cache.
-/

namespace Sys2Proof.Machine

/-- The reset value of every direction and choice counter: 1 (R50). -/
def counterReset : BitVec 2 := 1

/-- `inc(c) = min(c + 1, 3)` (R311). -/
def counterInc (c : BitVec 2) : BitVec 2 := if c = 3 then 3 else c + 1

/-- `dec(c) = max(c - 1, 0)` (R311). -/
def counterDec (c : BitVec 2) : BitVec 2 := if c = 0 then 0 else c - 1

/-- A direction counter says taken, a choice counter selects `gsh`: its value is `>= 2` (R311). -/
def counterHigh (c : BitVec 2) : Bool := decide (2 ≤ c.toNat)

/-- Train a direction counter with an outcome. -/
def counterTrain (c : BitVec 2) (taken : Bool) : BitVec 2 := if taken then counterInc c else counterDec c

/-- `k = pc div IB`, the instruction number (R312). -/
def instrNumber (cfg : Cfg) (pc : Word) : Nat := pc.toNat / cfg.instrBytes

/-- `ib = k mod BIM_ENTRIES` (R312). -/
def bimIx (cfg : Cfg) (pc : Word) : Nat := instrNumber cfg pc % cfg.bimEntries
/-- `ig = (k xor ghr) mod GSH_ENTRIES` (R312). -/
def gshIx (cfg : Cfg) (ghr : Nat) (pc : Word) : Nat := (instrNumber cfg pc ^^^ ghr) % cfg.gshEntries
/-- `im = k mod META_ENTRIES` (R312). -/
def choiceIx (cfg : Cfg) (pc : Word) : Nat := instrNumber cfg pc % cfg.metaEntries
/-- `it = k mod BTB_ENTRIES` (R312). -/
def btbIx (cfg : Cfg) (pc : Word) : Nat := instrNumber cfg pc % cfg.btbEntries

/-- `bim[ib]` -/
def bimAt (cfg : Cfg) (p : Predictor) (pc : Word) : BitVec 2 := tableGet counterReset p.bim (bimIx cfg pc)
/-- `gsh[ig]` -/
def gshAt (cfg : Cfg) (p : Predictor) (pc : Word) : BitVec 2 := tableGet counterReset p.gsh (gshIx cfg p.ghr pc)
/-- `meta[im]` -/
def choiceAt (cfg : Cfg) (p : Predictor) (pc : Word) : BitVec 2 := tableGet counterReset p.choice (choiceIx cfg pc)
/-- `btb[it]` -/
def btbAt (cfg : Cfg) (p : Predictor) (pc : Word) : BtbEntry := tableGet BtbEntry.empty p.btb (btbIx cfg pc)

/-- What `Predict` answers: `(taken, target, targetKnown)` (R316). -/
structure Prediction where
  taken : Bool
  target : Word
  known : Bool
  deriving DecidableEq, Repr

/-- `Predict(pc)`, a pure read (R316, R317). -/
def predict (cfg : Cfg) (p : Predictor) (pc : Word) : Prediction :=
  let b := counterHigh (bimAt cfg p pc)
  let g := counterHigh (gshAt cfg p pc)
  let taken := if counterHigh (choiceAt cfg p pc) then g else b
  let e := btbAt cfg p pc
  if e.valid && e.tag == pc then ⟨taken, e.target, true⟩ else ⟨taken, 0, false⟩

/-- The choice counter after an outcome: trained only where the two tables disagreed, toward the one that was right (R318). -/
def trainedChoice (cfg : Cfg) (p : Predictor) (pc : Word) (taken : Bool) : BitVec 2 :=
  let b := counterHigh (bimAt cfg p pc)
  let g := counterHigh (gshAt cfg p pc)
  let m := choiceAt cfg p pc
  if b = g then m else if g = taken then counterInc m else counterDec m

/-- `Update(pc, taken, target)` (R318): both direction tables, the chooser, the history, the target cache; the indices
come from the `ghr` before it. -/
def predictorUpdate (cfg : Cfg) (p : Predictor) (pc : Word) (taken : Bool) (target : Word) : Predictor :=
  { bim := tableSet counterReset p.bim (bimIx cfg pc) (counterTrain (bimAt cfg p pc) taken)
    gsh := tableSet counterReset p.gsh (gshIx cfg p.ghr pc) (counterTrain (gshAt cfg p pc) taken)
    choice := tableSet counterReset p.choice (choiceIx cfg pc) (trainedChoice cfg p pc taken)
    ghr := (p.ghr * 2 + taken.toNat) % 2 ^ cfg.ghrBits
    btb := tableSet BtbEntry.empty p.btb (btbIx cfg pc) ⟨true, pc, target⟩ }

/-- `Update` on the state. -/
def State.updatePredictor (s : State) (pc : Word) (taken : Bool) (target : Word) : State :=
  { s with pred := predictorUpdate s.cfg s.pred pc taken target }

end Sys2Proof.Machine
end

