-- ==== Sys2Proof/Machine/Hazard.lean ====
section
/-!
DEFINITION. `hazard_forwarding_unit` (`spec/47_hazard_forwarding_unit.md` R290 to R299): "pure functions over the current
set of in-flight pipeline-stage records". It has no state. `ResolveFlags` (`spec/44_execute_stage.md` R228) stands
beside its register counterpart.
-/

namespace Sys2Proof.Machine

/-- `Writes(p, reg)` for a record (R290). -/
def slotWrites (p : Slot) (reg : Reg) : Bool := p.fault == .none && p.inst.rdV && p.inst.rd == reg

/-- `IsLate(p)`: class `LOAD` or `SYSCALL` (R293). -/
def isLate (p : Slot) : Bool :=
  match p.inst.cls with
  | .load | .syscall => true
  | .arith | .store | .branch | .mul => false

/-- The record in the highest of the lanes `0 .. n-1` of a latch that satisfies a test: "the search takes the nearest one,
which is the youngest". -/
def youngest (l : Latch) (test : Slot → Bool) : Nat → Option Slot
  | 0 => none
  | n + 1 => if test (slotAt l n) then some (slotAt l n) else youngest l test n

/-- The valid writer of a register nearest below lane `n` of a latch. -/
def youngestWriter (l : Latch) (reg : Reg) (n : Nat) : Option Slot :=
  youngest l (fun p => p.valid && slotWrites p reg) n

/-- What `CanIssue` answers (R291). -/
inductive Issue where
  | ok
  | structural
  | raw
  deriving DecidableEq, Repr

/-- The nearest older producer of a register for a candidate in lane `s`: the records issued earlier in this decode step,
then those executed in this tick (R291, R292). -/
def nearestProducer (s : State) (lane : Nat) (reg : Reg) : Option Slot :=
  match youngestWriter s.idex reg lane with
  | some p => some p
  | none => youngestWriter s.exmem reg s.cfg.issueWidth

/-- A source whose nearest older producer is late: no forwarding path exists yet (R291, R294). -/
def rawHazard (s : State) (lane : Nat) (reg : Reg) : Bool :=
  match nearestProducer s lane reg with
  | some p => isLate p
  | none => false

/-- `CanIssue(inst, s, issued_mem)`; the structural test comes first (R291). A consumer that is fetched so late that its load
has left `EXMEM` is not blocked, whatever R437 says of every run. DEDUCED (log entry 21). -/
def canIssue (s : State) (inst : Diw) (lane issuedMem : Nat) : Issue :=
  if inst.cls.isMem && issuedMem == s.cfg.memPorts then .structural
  else if (diwSources inst).any (rawHazard s lane) then .raw
  else .ok

/-- An operand with the mark that its producer has no result yet. -/
structure Operand where
  value : Word
  late : Bool
  deriving DecidableEq, Repr

/-- `ResolveOperand(reg, s)` (R296): earlier lanes of the same pass, then `MEMWB`, then `x[reg]`. The `source` component,
which "has no effect on any state", is not answered (U12). -/
def resolveOperand (s : State) (reg : Reg) (lane : Nat) : Operand :=
  match youngestWriter s.exmem reg lane with
  | some p => ⟨p.result, isLate p⟩
  | none =>
    match youngestWriter s.memwb reg s.cfg.issueWidth with
    | some p => ⟨p.result, false⟩
    | none => ⟨s.reg reg, false⟩

/-- A source of a record: resolved if present, else the given value (R220). -/
def resolveSource (s : State) (r : Option Reg) (absent : Word) (lane : Nat) : Operand :=
  match r with
  | some reg => resolveOperand s reg lane
  | none => ⟨absent, false⟩

/-- The valid flag setter nearest below lane `n` of a latch. -/
def youngestSetter (l : Latch) (n : Nat) : Option Slot := youngest l (fun p => p.valid && p.setsFlags) n

/-- Tiers (b), (c), (d) of `ResolveFlags` (R228): earlier lanes of the same pass, then `MEMWB`, then `FLAGS`. -/
def forwardedFlags (s : State) (lane : Nat) : Nzcv :=
  match youngestSetter s.exmem lane with
  | some p => p.flags
  | none =>
    match youngestSetter s.memwb s.cfg.issueWidth with
    | some p => p.flags
    | none => s.flags

end Sys2Proof.Machine
end

