-- ==== Sys2Proof/Machine/ExecuteStage.lean ====
section
/-!
DEFINITION. The execute stage, step 3 of the tick (`spec/44_execute_stage.md` R220 to R238): occupancy, operand and flag
resolution, results and addresses, branch resolution.
-/

namespace Sys2Proof.Machine

/-- The state of the lane loop: the machine and `flush_req`, none or the correct next address (R162). -/
structure ExecPass where
  st : State
  flush : Option Word

/-- The three resolved operands of a record and whether one of them is late (R220). -/
structure Operands where
  a : Word
  b : Word
  c : Word
  late : Bool
  deriving DecidableEq, Repr

/-- Operand resolution of the record in a lane (R220, R94). -/
def resolveOperands (s : State) (d : Diw) (lane : Nat) : Operands :=
  let a := resolveSource s (optReg d.rnV d.rn) 0 lane
  let b := resolveSource s (optReg d.rmV d.rm) (absentB d) lane
  let c := resolveSource s (optReg d.rtV d.rt) 0 lane
  ⟨a.value, b.value, c.value, a.late || b.late || c.late⟩

/-- The flags a record works with: `reads_flags ? ResolveFlags(i, a, b, s) : 0b0000` (R228, R229). -/
def resolveFlags (F : CoreFns) (s : State) (d : Diw) (a b : Word) (lane : Nat) : Nzcv :=
  if d.readsFlags then
    if d.fused then F.cmpFlags a b else forwardedFlags s lane
  else 0

/-- What a branch does: its outcome, its computed target, the next address (R235). -/
structure BranchOutcome where
  taken : Bool
  target : Word
  next : Word
  deriving DecidableEq, Repr

/-- The outcome of a branch at `pc` whose fall-through address is `seq` (R235, R150). -/
def branchOutcome (taken : Bool) (target seq : Word) : BranchOutcome := ⟨taken, target, if taken then target else seq⟩

/-- The target of a branch: the register if indirect, else `pc + imm mod 2^64` (R235). -/
def branchTarget (d : Diw) (pc a : Word) : Word := if d.indirect then a else pc + d.imm

/-- Whether a branch is taken: `reads_flags ? CondHolds(cond, fl) : true` (R235). -/
def branchTaken (F : CoreFns) (d : Diw) (fl : Nzcv) : Bool := if d.readsFlags then F.condHolds d.cond fl else true

/-- `ResolveBranch(r, i, a, fl)` (R235): the record, the state with its predictor updated, and the flush request of a
misprediction. -/
def resolveBranch (F : CoreFns) (s : State) (r : Slot) (a : Word) (fl : Nzcv) : Slot × State × Option Word :=
  let d := r.inst
  let o := branchOutcome (branchTaken F d fl) (branchTarget d r.pc a) (r.pc + s.ib)
  let r := if d.link then { r with result := r.pc + s.ib } else r
  let r := if d.setsFlags then { r with flags := fl } else r
  (r, s.updatePredictor r.pc o.taken o.target, if o.next = r.predNext then none else some o.next)

/-- The class action on a record whose operands are resolved (R220, R230, R231, R235). -/
def classAction (F : CoreFns) (s : State) (r : Slot) (ops : Operands) (fl : Nzcv) : Slot × State × Option Word :=
  let d := r.inst
  match d.cls with
  | .arith | .mul =>
    let (res, f) := F.execFn d.cls d.fn ops.a ops.b d.cond fl
    ({ r with result := res, flags := if d.setsFlags then f else r.flags }, s, none)
  | .load | .store => ({ r with addr := effectiveAddr ops.a d.imm }, s, none)
  | .branch => resolveBranch F s r ops.a fl
  | .syscall => (r, s, none)

/-- `EXMEM[s] <- r; IDEX[s] <- BUBBLE` (R220). -/
def State.passExecute (s : State) (lane : Nat) (r : Slot) : State := (s.setExmem lane r).setIdex lane Slot.bubble

/-- A record on its last execute tick whose operands are all there: it executes and moves on (R220). -/
def executeRecord (F : CoreFns) (s : State) (lane : Nat) (r : Slot) (ops : Operands) : ExecPass :=
  let d := r.inst
  let fl := resolveFlags F s d ops.a ops.b lane
  let (r, s, flush) := classAction F s { r with a := ops.a, b := ops.b, c := ops.c } ops fl
  { st := s.passExecute lane { r with setsFlags := d.setsFlags }, flush := flush }

/-- One lane of `ExecuteStep` (R220, R223, R226, R236, R237). -/
def executeLane (F : CoreFns) (lane : Nat) (p : ExecPass) : LaneStep ExecPass :=
  let r := slotAt p.st.idex lane
  if !r.valid then .go p
  else if p.flush.isSome then .go { p with st := p.st.setIdex lane Slot.bubble }
  else if 0 < r.exRem then .stop { p with st := p.st.setIdex lane { r with exRem := r.exRem - 1 } }
  else if r.fault ≠ .none then .go { p with st := p.st.passExecute lane r }
  else
    let ops := resolveOperands p.st r.inst lane
    if ops.late then
      .stop { p with st := { p.st with stats := { p.st.stats with stallHazard := p.st.stats.stallHazard + 1 } } }
    else .go (executeRecord F p.st lane r ops)

/-- `ExecuteStep`: the state and the flush request (R220). -/
def executeStep (F : CoreFns) (s : State) : ExecPass := runLanes (executeLane F) s.lanes { st := s, flush := none }

end Sys2Proof.Machine
end

