-- ==== Sys2Proof/Machine/Branch.lean ====
section
/-!
DEFINITION. The six forms of class `BRANCH` (`spec/40_operation_classes.md` R133 to R138): the architectural effect of
each, with the predictor update that every resolved branch makes (R150).
-/

namespace Sys2Proof.Machine

/-- The end of every `BRANCH` rule: the predictor learns the outcome (R150), the link value and the flags are committed,
`pc` is the next address. -/
def State.finishBranch (st : State) (o : BranchOutcome) (rd : Option Reg) (sets : Bool) (fl : Nzcv) : State :=
  ((st.updatePredictor st.pc o.taken o.target).commit rd (st.pc + st.ib) sets fl).setPc o.next

/-- `B` (R133). -/
def execB (imm : Word) (st : State) : Answer :=
  .next (st.whileRunning fun st =>
    st.finishBranch (branchOutcome true (st.pc + imm) (st.pc + st.ib)) none false 0)

/-- `BL` (R134). -/
def execBl (rd : Reg) (imm : Word) (st : State) : Answer :=
  .next (st.whileRunning fun st =>
    st.finishBranch (branchOutcome true (st.pc + imm) (st.pc + st.ib)) (some rd) false 0)

/-- `BR` (R135); `imm` is ignored. -/
def execBr (rn : Reg) (_imm : Word) (st : State) : Answer :=
  .next (st.whileRunning fun st =>
    st.finishBranch (branchOutcome true (operandA st (some rn)) (st.pc + st.ib)) none false 0)

/-- `BLR` (R136): the target is read before the link write; `imm` is ignored. -/
def execBlr (rd rn : Reg) (_imm : Word) (st : State) : Answer :=
  .next (st.whileRunning fun st =>
    st.finishBranch (branchOutcome true (operandA st (some rn)) (st.pc + st.ib)) (some rd) false 0)

/-- `B.cond` (R137). -/
def execBCond (cond : BitVec 4) (imm : Word) (st : State) : Answer :=
  .next (st.whileRunning fun st =>
    st.finishBranch (branchOutcome (ref.condHolds cond st.flags) (st.pc + imm) (st.pc + st.ib)) none false 0)

/-- `CB{S}.cond` (R138): the flags are those of the comparison; it does not read `FLAGS`. -/
def execCbCond (s : Bool) (cond : BitVec 4) (rn rm : Option Reg) (imm : Word) (st : State) : Answer :=
  .next (st.whileRunning fun st =>
    let fl := ref.cmpFlags (operandA st rn) (operandBNoImm st rm)
    st.finishBranch (branchOutcome (ref.condHolds cond fl) (st.pc + imm) (st.pc + st.ib)) none s fl)

end Sys2Proof.Machine
end

