-- ==== Sys2Proof/Machine/LoadStore.lean ====
section
/-!
DEFINITION. The instructions of classes `LOAD` and `STORE` (`spec/40_operation_classes.md` R131, R132): the architectural
effect of each. An access that is not in bounds raises `DataOutOfBounds` (`spec/43_memory_stage.md` R202), tagged with
the number of the current tick, `cycles` of the state.
-/

namespace Sys2Proof.Machine

/-- `LDRB|LDRH|LDRW|LDRX|LDRSB|LDRSH|LDRSW` (R131). -/
def execLdr (msize : BitVec 2) (msigned : Bool) (rd : Option Reg) (rn : Reg) (imm : Word) (st : State) : Answer :=
  .next (st.whileRunning fun st =>
    let addr := effectiveAddr (operandA st (some rn)) imm
    if st.inBounds addr (accessBytes msize) then
      let (v, _, st') := st.loadData addr msize msigned
      (st'.commit rd v false 0).advance st.pc
    else st.raise (.dataOutOfBounds addr st.stats.cycles))

/-- `STRB|STRH|STRW|STRX` (R132). -/
def execStr (msize : BitVec 2) (rt : Option Reg) (rn : Reg) (imm : Word) (st : State) : Answer :=
  .next (st.whileRunning fun st =>
    let addr := effectiveAddr (operandA st (some rn)) imm
    if st.inBounds addr (accessBytes msize) then
      let (_, st') := st.storeData addr msize (operandC st rt)
      (st'.commit none 0 false 0).advance st.pc
    else st.raise (.dataOutOfBounds addr st.stats.cycles))

end Sys2Proof.Machine
end

