-- ==== Sys2Proof/Machine/Mul.lean ====
section
/-!
DEFINITION. The instruction of class `MUL` (`spec/40_operation_classes.md` R130): its architectural effect.
-/

namespace Sys2Proof.Machine

/-- `MUL{S}` (R130). -/
def execMul (s : Bool) (rd rn rm : Option Reg) (imm : Word) (st : State) : Answer :=
  .next (st.whileRunning fun st =>
    st.finishAlu rd s (ref.execFn .mul 0 (operandA st rn) (operandB st rm imm) 0 0))

end Sys2Proof.Machine
end

