-- ==== Sys2Proof/Machine/Syscall.lean ====
section
/-!
DEFINITION. The instruction of class `SYSCALL` (`spec/40_operation_classes.md` R139): its architectural effect.
-/

namespace Sys2Proof.Machine

/-- `SVC` (R139): an exit call halts and does not retire (`spec/60_exceptions.md` R390); a call that returns writes its
value. `imm` is ignored. -/
def execSvc (rd rn rm rt : Option Reg) (_imm : Word) (st : State) : Answer :=
  .next (st.whileRunning fun st =>
    match ref.sys (operandA st rn) (operandBNoImm st rm) (operandC st rt) with
    | .exit code => st.halt code
    | .ret v => (st.commit rd v false 0).advance st.pc)

end Sys2Proof.Machine
end

