-- ==== Sys2Proof/Machine/Dispatch.lean ====
section
/-!
DEFINITION. The meaning of every instruction: one arm per constructor, each one call of its meaning.
-/

namespace Sys2Proof.Machine

/-- The architectural effect of one instruction executed alone on the committed state (`spec/40_operation_classes.md` R120). -/
def exec (i : Instr) (s : State) : Host.Outcome State Fault Refusal :=
  match i with
  | .add sf rd rn rm imm => Sys2Proof.Machine.execAdd sf rd rn rm imm s
  | .sub sf rd rn rm imm => Sys2Proof.Machine.execSub sf rd rn rm imm s
  | .and sf rd rn rm imm => Sys2Proof.Machine.execAnd sf rd rn rm imm s
  | .orr sf rd rn rm imm => Sys2Proof.Machine.execOrr sf rd rn rm imm s
  | .eor sf rd rn rm imm => Sys2Proof.Machine.execEor sf rd rn rm imm s
  | .lsl sf rd rn rm imm => Sys2Proof.Machine.execLsl sf rd rn rm imm s
  | .lsr sf rd rn rm imm => Sys2Proof.Machine.execLsr sf rd rn rm imm s
  | .asr sf rd rn rm imm => Sys2Proof.Machine.execAsr sf rd rn rm imm s
  | .csel sf cond rd rn rm imm => Sys2Proof.Machine.execCsel sf cond rd rn rm imm s
  | .mul sf rd rn rm imm => Sys2Proof.Machine.execMul sf rd rn rm imm s
  | .ldr msize msigned rd rn imm => Sys2Proof.Machine.execLdr msize msigned rd rn imm s
  | .str msize rt rn imm => Sys2Proof.Machine.execStr msize rt rn imm s
  | .b imm => Sys2Proof.Machine.execB imm s
  | .bl rd imm => Sys2Proof.Machine.execBl rd imm s
  | .br rn imm => Sys2Proof.Machine.execBr rn imm s
  | .blr rd rn imm => Sys2Proof.Machine.execBlr rd rn imm s
  | .bCond cond imm => Sys2Proof.Machine.execBCond cond imm s
  | .cbCond sf cond rn rm imm => Sys2Proof.Machine.execCbCond sf cond rn rm imm s
  | .svc rd rn rm rt imm => Sys2Proof.Machine.execSvc rd rn rm rt imm s

end Sys2Proof.Machine
end

