-- ==== Sys2Proof/Machine/DecodeStage.lean ====
section
/-!
DEFINITION. `decode_stage`, step 4 of the tick (`spec/45_decode_stage.md` R250 to R257): in-order issue, port counting,
latency stamp, stall accounting.
-/

namespace Sys2Proof.Machine

/-- The state of the lane loop: the machine and the tick-local `issued_mem` (R162, R252). -/
structure DecodePass where
  st : State
  issuedMem : Nat

/-- `LAT(cls)` (R253). -/
def latencyOf (cfg : Cfg) : OpClass → Nat
  | .arith => cfg.latArith
  | .load => cfg.latLoad
  | .store => cfg.latStore
  | .branch => cfg.latBranch
  | .mul => cfg.latMul
  | .syscall => cfg.latSyscall

/-- `IDEX[s] <- r; IFID[s] <- BUBBLE` (R250): issue. -/
def State.issue (s : State) (lane : Nat) (r : Slot) : State := (s.setIdex lane r).setIfid lane Slot.bubble

/-- One lane of `DecodeStep` (R250, R255). -/
def decodeLane (lane : Nat) (p : DecodePass) : LaneStep DecodePass :=
  let r := slotAt p.st.ifid lane
  if !r.valid then .go p
  else if r.fault = .none then
    match canIssue p.st r.inst lane p.issuedMem with
    | .structural =>
      .stop { p with st := { p.st with stats := { p.st.stats with stallStructural := p.st.stats.stallStructural + 1 } } }
    | .raw => .stop { p with st := { p.st with stats := { p.st.stats with stallHazard := p.st.stats.stallHazard + 1 } } }
    | .ok =>
      .go
        { st := p.st.issue lane { r with exRem := max (latencyOf p.st.cfg r.inst.cls) 1 - 1 }
          issuedMem := if r.inst.cls.isMem then p.issuedMem + 1 else p.issuedMem }
  else .go { p with st := p.st.issue lane { r with exRem := 0 } }

/-- `DecodeStep` (R250). -/
def decodeStep (s : State) : State := (runLanes decodeLane s.lanes { st := s, issuedMem := 0 }).st

end Sys2Proof.Machine
end

