-- ==== Sys2Proof/Machine/FetchStage.lean ====
section
/-!
DEFINITION. `fetch_unit`, step 5 of the tick (`spec/46_fetch_unit.md` R265 to R279): lane filling, the instruction read, the
use of the prediction, the misprediction penalty, poisoned records.
-/

namespace Sys2Proof.Machine

/-- `Poison(s, pc, kind)`: a poisoned record in the lane, and no further fetch until a flush (R265, R275). -/
def State.poison (s : State) (lane : Nat) (pc : Word) (kind : SlotFault) : State :=
  let s := s.setIfid lane { Slot.bubble with valid := true, pc := pc, fault := kind, faultCycle := s.stats.cycles }
  { s with fetch := { s.fetch with fetchBlocked := true } }

/-- The record of a freshly fetched instruction (R265). -/
def freshSlot (pc : Word) (d : Diw) (predNext : Word) : Slot :=
  { Slot.bubble with valid := true, pc := pc, inst := d, predNext := predNext }

/-- The target of a `BRANCH` predicted taken with a known target; none in "every other case" (R272). -/
def predictedTarget (s : State) (pc : Word) (d : Diw) : Option Word :=
  let p := predict s.cfg s.pred pc
  if d.cls = .branch ∧ p.taken = true ∧ p.known = true then some p.target else none

/-- The address fetch continues from after an instruction: the predicted target, else `pc + IB` (R272). -/
def predictedNext (s : State) (pc : Word) (d : Diw) : Word := (predictedTarget s pc d).getD (pc + s.ib)

/-- A word delivered to a lane: decoded, predicted, placed; a word that does not decode is poisoned (R265, R274). A
predicted-taken branch ends the group (R270, R272, decision D20), also one whose target is `pc + IB`, where the test of
R265's code alone would go on. DEDUCED (log entry 22). -/
def deliver (F : CoreFns) (lane : Nat) (s : State) (pc : Word) (word : List Byte) : LaneStep State :=
  match F.decode word pc with
  | none => .stop (s.poison lane pc .decodeFailure)
  | some d =>
    let next := predictedNext s pc d
    let s' := s.setIfid lane (freshSlot pc d next)
    let s' := { s' with fetch := { s'.fetch with fetchPc := next } }
    if (predictedTarget s pc d).isSome then .stop s' else .go s'

/-- A new instruction read at `fetch_pc`: checked, read through `L1I`, delivered at once or parked (R265, R271, R273). -/
def readNext (F : CoreFns) (lane : Nat) (s : State) : LaneStep State :=
  let pc := s.fetch.fetchPc
  if pc.toNat % s.cfg.instrBytes ≠ 0 then .stop (s.poison lane pc .fetchMisaligned)
  else if s.cfg.memSize < pc.toNat + s.cfg.instrBytes then .stop (s.poison lane pc .fetchOutOfBounds)
  else
    let r := s.fetchRead pc
    let s := r.state
    if 1 < max r.latency 1 then
      .stop { s with fetch := { s.fetch with pending := ⟨true, pc, r.bytes, r.latency - 1⟩ } }
    else deliver F lane s pc r.bytes

/-- One turn of the lane loop of `FetchStep` (R265, R270). -/
def fetchLane (F : CoreFns) (lane : Nat) (s : State) : LaneStep State :=
  let p := s.fetch.pending
  if p.valid then
    if 0 < p.remaining then .stop s
    else deliver F lane { s with fetch := { s.fetch with pending := { p with valid := false } } } p.pc p.word
  else readNext F lane s

/-- One tick of a pending read's wait: "the miss proceeds whether or not `IFID` is free" (R265). -/
def tickPending (s : State) : State :=
  let p := s.fetch.pending
  if p.valid && decide (0 < p.remaining) then
    { s with fetch := { s.fetch with pending := { p with remaining := p.remaining - 1 } } }
  else s

/-- One tick of the misprediction penalty (R268). -/
def servePenalty (s : State) : State :=
  { s with
    fetch := { s.fetch with redirectStall := s.fetch.redirectStall - 1 }
    stats := { s.stats with stallMispredict := s.stats.stallMispredict + 1 } }

/-- `FetchStep` (R265). -/
def fetchStep (F : CoreFns) (s : State) : State :=
  if 0 < s.fetch.redirectStall then servePenalty s
  else
    let s := tickPending s
    if anyValid s.ifid || s.fetch.fetchBlocked then s else runLanes (fetchLane F) s.lanes s

end Sys2Proof.Machine
end

