-- ==== Sys2Proof/Machine/MemoryStage.lean ====
section
/-!
DEFINITION. The memory stage, step 2 of the tick (`spec/43_memory_stage.md` R200 to R208): data accesses, ports, occupancy,
system calls; the one place where a run ends.
-/

namespace Sys2Proof.Machine

/-- The state of the lane loop: the machine and the tick-local number of accesses started (R162, R203). -/
structure MemPass where
  st : State
  started : Nat

/-- The fatal error of a poisoned record, with the information recorded at fetch (R205); none for other records. -/
def poisonError (r : Slot) : Option FatalError :=
  match r.fault with
  | .none => none
  | .fetchMisaligned => some (.fetchMisaligned r.pc r.faultCycle)
  | .fetchOutOfBounds => some (.fetchOutOfBounds r.pc r.faultCycle)
  | .decodeFailure => some (.decodeFailure r.pc r.faultCycle)

/-- `MEMWB[s] <- r; EXMEM[s] <- BUBBLE` (R200). -/
def State.passMemory (s : State) (lane : Nat) (r : Slot) : State := (s.setMemwb lane r).setExmem lane Slot.bubble

/-- The end of a memory-class record's turn: it waits while `mem_rem > 0`, else it moves on (R200, R204). -/
def settleMem (p : MemPass) (lane : Nat) (r : Slot) : LaneStep MemPass :=
  if 0 < r.memRem then .stop { p with st := p.st.setExmem lane r }
  else .go { p with st := p.st.passMemory lane r }

/-- The access of a `LOAD` or `STORE` record whose bounds are checked: the record with its result, and the state (R201). -/
def accessMem (s : State) (r : Slot) : Slot × Nat × State :=
  if r.inst.cls = .load then
    let (v, latency, s) := s.loadData r.addr r.inst.msize r.inst.msigned
    ({ r with result := v }, latency, s)
  else
    let (latency, s) := s.storeData r.addr r.inst.msize r.c
    (r, latency, s)

/-- A `LOAD` or `STORE` record: port, bounds, access, occupancy, in this order (R200 to R204). -/
def memClassLane (p : MemPass) (lane : Nat) (r : Slot) : LaneStep MemPass :=
  if r.memStarted then settleMem p lane { r with memRem := r.memRem - 1 }
  else if p.started = p.st.cfg.memPorts then
    .stop { p with st := { p.st with stats := { p.st.stats with stallStructural := p.st.stats.stallStructural + 1 } } }
  else if p.st.inBounds r.addr (accessBytes r.inst.msize) then
    let (r, latency, s) := accessMem p.st r
    settleMem { st := s, started := p.started + 1 } lane { r with memStarted := true, memRem := max latency 1 - 1 }
  else .stop { p with st := p.st.raise (.dataOutOfBounds r.addr p.st.stats.cycles) }

/-- One lane of `MemoryStep` (R200). -/
def memoryLane (F : CoreFns) (lane : Nat) (p : MemPass) : LaneStep MemPass :=
  let r := slotAt p.st.exmem lane
  if r.valid then
    match poisonError r with
    | some e => .stop { p with st := p.st.raise e }
    | none =>
      match r.inst.cls with
      | .syscall =>
        match F.sys r.a r.b r.c with
        | .exit code => .stop { p with st := p.st.halt code }
        | .ret v => .go { p with st := p.st.passMemory lane { r with result := v } }
      | .load | .store => memClassLane p lane r
      | .arith | .mul | .branch => .go { p with st := p.st.passMemory lane r }
  else .go p

/-- `MemoryStep` (R200). When it halts or raises, `STATUS` is no longer `Running` afterwards. -/
def memoryStep (F : CoreFns) (s : State) : State := (runLanes (memoryLane F) s.lanes { st := s, started := 0 }).st

end Sys2Proof.Machine
end

