-- ==== Sys2Proof/Machine/WritebackStage.lean ====
section
/-!
DEFINITION. `writeback_stage`, step 1 of the tick (`spec/42_writeback_stage.md` R190 to R195): the only writer of the
register file and of `FLAGS`.
-/

namespace Sys2Proof.Machine

/-- The destination a retiring record writes: none for a poisoned record (R190). -/
def retireDest (r : Slot) : Option Reg := if r.fault = .none then diwDest r.inst else none

/-- Retire one valid record: its register, its flags, the count (R191 to R193). -/
def retireSlot (s : State) (r : Slot) : State := s.commit (retireDest r) r.result r.setsFlags r.flags

/-- One lane of `WritebackStep` (R190). It never blocks. -/
def writebackLane (lane : Nat) (s : State) : LaneStep State :=
  let r := slotAt s.memwb lane
  if r.valid then .go ((retireSlot s r).setMemwb lane Slot.bubble) else .go s

/-- `WritebackStep` (R190). -/
def writebackStep (s : State) : State := runLanes writebackLane s.lanes s

end Sys2Proof.Machine
end

