-- ==== Sys2Proof/Machine/Orchestrator.lean ====
section
/-!
DEFINITION. `pipeline_orchestrator`: the tick, "the core is one state machine with one transition"
(`spec/41_pipeline_orchestrator.md` R160 to R177), and the flush (R170).
-/

namespace Sys2Proof.Machine

/-- `cycles <- cycles + 1`, the first action of every tick (R41, R160). -/
def State.countCycle (s : State) : State := { s with stats := { s.stats with cycles := s.stats.cycles + 1 } }

/-- `FlushStep` with `flush_req = {correct_pc}` (R170). -/
def flushStep (s : State) (correctPc : Word) : State :=
  { s with
    ifid := bubbles s.cfg.issueWidth
    idex := bubbles s.cfg.issueWidth
    fetch :=
      { fetchPc := correctPc
        pending := { s.fetch.pending with valid := false }
        redirectStall := s.cfg.mispredictPenalty
        fetchBlocked := false }
    stats := { s.stats with flushes := s.stats.flushes + 1 } }

/-- Steps 3 and 4 of the tick with their enables (R160, R165): the execute step runs only into an empty `EXMEM`, the decode
step only if the execute step ran and left `IDEX` empty. -/
def executeAndDecode (F : CoreFns) (s : State) : ExecPass :=
  if anyValid s.exmem then { st := s, flush := none }
  else
    let p := executeStep F s
    if anyValid p.st.idex then p else { p with st := decodeStep p.st }

/-- Steps 3 to 6 of the tick (R160). -/
def frontEnd (F : CoreFns) (s : State) : State :=
  let p := executeAndDecode F s
  let s := fetchStep F p.st
  match p.flush with
  | some pc => flushStep s pc
  | none => s

/-- The tick of a running core (R160): when the memory step halts or raises, the tick ends there. -/
def tickRunning (F : CoreFns) (s : State) : State :=
  let s := memoryStep F (writebackStep s.countCycle)
  if s.isRunning then frontEnd F s else s

/-- The tick (R160): no state changes unless `STATUS = Running` (R27). -/
def tick (F : CoreFns) (s : State) : State := if s.isRunning then tickRunning F s else s

/-- `k` ticks. -/
def ticks (F : CoreFns) : Nat → State → State
  | 0, s => s
  | k + 1, s => ticks F k (tick F s)

end Sys2Proof.Machine
end

