-- ==== Sys2Proof/Machine/Step.lean ====
section
/-!
DEFINITION. The step of the machine: one tick with the reference functions (`spec/41_pipeline_orchestrator.md` R160), and
the placing of an instruction word where the next tick fetches.
-/

namespace Sys2Proof.Machine

/-- One tick: "the core, whose one step is the tick" (`spec/00_scope.md` R16), "one state machine with one transition, the
tick" (R160). The effect of an instruction, `exec`, is spread over the ticks in which its record moves
(`spec/40_operation_classes.md` R120, R146); how the two fit is log entry 1. -/
def step (s : State) : Host.Outcome State Fault Refusal := .next (tick ref s)

/-- The committed state with an instruction word as the word the fetch unit has read at `fetch_pc` and is about to deliver:
the register `pending` with its wait over (`spec/46_fetch_unit.md` R271), nothing in flight and no penalty to serve, so
that the next tick delivers it. No tick does more with it: "a record moves through at most one stage per tick"
(`spec/41_pipeline_orchestrator.md` R161), so that it retires in the fourth tick after that one at the earliest (R168 (a)).
The bits from `nbits` up to bit 127 are 0. That the word is placed there is a DESIGN CHOICE (log entry 8). -/
def State.withFetchWord (s : State) (nbits w : Nat) : State :=
  let s := s.setPc s.fetch.fetchPc
  { s with
    fetch :=
      { s.fetch with
        pending := { valid := true, pc := s.fetch.fetchPc, word := leBytes 16 (w % 2 ^ nbits), remaining := 0 }
        redirectStall := 0 } }

end Sys2Proof.Machine
end

