-- ==== Sys2Proof/Machine/OpcodeTable.lean ====
section
/-!
DEFINITION. The opcode table of `spec/opcode_table.json`, row by row (`spec/30_encoding.md` R103): a word matches a row when
the masked word is the row's pattern. The decoder is written from the layout and the validity conditions (R91, R99); this
table is the spec's second description of the same encodings, and statements hold the two against each other.
-/

namespace Sys2Proof.Machine

/-- One row: the mnemonic, the pattern and the mask. -/
structure OpcodeRow where
  mnemonic : String
  pattern : BitVec 128
  mask : BitVec 128
  deriving DecidableEq, Repr

/-- "A word `w` *matches* a row iff `w and mask = match`" (R103). -/
def OpcodeRow.covers (r : OpcodeRow) (w : BitVec 128) : Bool := w &&& r.mask == r.pattern

/-- The nineteen rows. -/
def opcodeTable : List OpcodeRow :=
  [⟨"ADD", 0x00000000000000000000000000000000, 0x0000000000000000FFFFFF80001FFDFF⟩,
   ⟨"SUB", 0x00000000000000000000000000000008, 0x0000000000000000FFFFFF80001FFDFF⟩,
   ⟨"AND", 0x00000000000000000000000000000010, 0x0000000000000000FFFFFF80001FFDFF⟩,
   ⟨"ORR", 0x00000000000000000000000000000018, 0x0000000000000000FFFFFF80001FFDFF⟩,
   ⟨"EOR", 0x00000000000000000000000000000020, 0x0000000000000000FFFFFF80001FFDFF⟩,
   ⟨"LSL", 0x00000000000000000000000000000028, 0x0000000000000000FFFFFF80001FFDFF⟩,
   ⟨"LSR", 0x00000000000000000000000000000030, 0x0000000000000000FFFFFF80001FFDFF⟩,
   ⟨"ASR", 0x00000000000000000000000000000038, 0x0000000000000000FFFFFF80001FFDFF⟩,
   ⟨"CSEL", 0x00000000000000000000000000000440, 0x0000000000000000FFFFFF80001F85FF⟩,
   ⟨"MUL", 0x00000000000000000000000000000004, 0x0000000000000000FFFFFF80001FFDFF⟩,
   ⟨"LDR", 0x00000000000000000000000008000001, 0x0000000000000000FFFFFFFE0803FFFF⟩,
   ⟨"STR", 0x00000000000000000000000008000002, 0x0000000000000000FFFFE07E0FF3FFFF⟩,
   ⟨"B", 0x00000000000000000000000000000003, 0x0000000000000000FFFFFFFFFFFFFFFF⟩,
   ⟨"BL", 0x00000000000000000000000000210003, 0x0000000000000000FFFFFFFFF83FFFFF⟩,
   ⟨"BR", 0x00000000000000000000000008020003, 0x0000000000000000FFFFFFFE0FFFFFFF⟩,
   ⟨"BLR", 0x00000000000000000000000008230003, 0x0000000000000000FFFFFFFE083FFFFF⟩,
   ⟨"B.cond", 0x00000000000000000000000000000403, 0x0000000000000000FFFFFFFFFFFF87FF⟩,
   ⟨"CB.cond", 0x00000000000000000000000000008403, 0x0000000000000000FFFFFF8007FF85FF⟩,
   ⟨"SVC", 0x00000000000000000000000000000005, 0x0000000000000000FFFFE000001FFFFF⟩]

/-- The mnemonic of an instruction, as the table writes it. -/
def mnemonicOf : Instr → String
  | .add .. => "ADD"
  | .sub .. => "SUB"
  | .and .. => "AND"
  | .orr .. => "ORR"
  | .eor .. => "EOR"
  | .lsl .. => "LSL"
  | .lsr .. => "LSR"
  | .asr .. => "ASR"
  | .csel .. => "CSEL"
  | .mul .. => "MUL"
  | .ldr .. => "LDR"
  | .str .. => "STR"
  | .b .. => "B"
  | .bl .. => "BL"
  | .br .. => "BR"
  | .blr .. => "BLR"
  | .bCond .. => "B.cond"
  | .cbCond .. => "CB.cond"
  | .svc .. => "SVC"

/-- The condition of R99 that a mask cannot express: a register number is 0 when its valid bit is 0. -/
def regNumbersZero (w : BitVec 128) : Bool :=
  (w.getLsbD 21 || w.extractLsb' 22 5 == 0) && (w.getLsbD 27 || w.extractLsb' 28 5 == 0) &&
    (w.getLsbD 33 || w.extractLsb' 34 5 == 0) && (w.getLsbD 39 || w.extractLsb' 40 5 == 0)

end Sys2Proof.Machine
end

