-- ==== Sys2Proof/Machine/Statistics.lean ====
section
/-!
DEFINITION. What the host reads when a run is over: `CPI` (`spec/10_state.md` R46) and the report of
`spec/60_exceptions.md` R392. Reading has no side effect (R40).
-/

namespace Sys2Proof.Machine

/-- `CPI`, an exact rational: `cycles / retired` when `retired > 0`, and 0 when `retired = 0` (R46). -/
def Stats.cpi (t : Stats) : ℚ := if 0 < t.retired then (t.cycles : ℚ) / (t.retired : ℚ) else 0

/-- The four counters of one cache (R45). -/
structure CacheReport where
  hits : Nat
  misses : Nat
  evictions : Nat
  writebacks : Nat
  deriving DecidableEq, Repr

/-- The counters of a cache. -/
def Cache.report (c : Cache) : CacheReport := ⟨c.hits, c.misses, c.evictions, c.writebacks⟩

/-- What the host reads after the end of a run: "the program's declared exit value and final Statistics" (R392). -/
structure RunReport where
  status : Status
  stats : Stats
  cpi : ℚ
  l1i : CacheReport
  l1d : CacheReport
  l2 : CacheReport

/-- The report of a state. -/
def State.report (s : State) : RunReport :=
  ⟨s.status, s.stats, s.stats.cpi, s.l1i.report, s.l1d.report, s.l2.report⟩

end Sys2Proof.Machine
end

