-- ==== Sys2Proof/Safety.lean ====
section
/-!
DEFINITION. What counts as a well-kept state and a safe run, in the terms that statements use: the structural invariants of
the plain data, the lane order of the latches (`spec/10_state.md` R33), the cache invariants (`spec/49_caches.md` R350,
R355) with the data view they protect (`spec/20_memory.md` R72), and the shape of an instruction's effect.
-/

namespace Sys2Proof.Machine

/-! ## Runs -/

/-- The run has not been aborted by a fatal error (R382). -/
def Status.notAborted : Status → Bool
  | .running | .halted _ => true
  | .aborted _ => false

/-- A safe run so far: no fatal error. -/
def State.safe (s : State) : Bool := s.status.notAborted

/-- No record is in flight in any latch. -/
def State.drained (s : State) : Bool :=
  !anyValid s.ifid && !anyValid s.idex && !anyValid s.exmem && !anyValid s.memwb

/-! ## Structure of the plain data -/

/-- Every latch has one record per lane (R30). -/
def State.latchesSized (s : State) : Bool :=
  s.ifid.length == s.cfg.issueWidth && s.idex.length == s.cfg.issueWidth && s.exmem.length == s.cfg.issueWidth &&
    s.memwb.length == s.cfg.issueWidth

/-- The tables of a cache are in canonical form. -/
def Cache.canonical (g : CacheCfg) (c : Cache) : Bool :=
  tableCanonical DirEntry.empty c.dir && tableCanonical (List.replicate g.line 0) c.data

/-- The tables of the predictor are in canonical form. -/
def Predictor.canonical (p : Predictor) : Bool :=
  tableCanonical counterReset p.bim && tableCanonical counterReset p.gsh && tableCanonical counterReset p.choice &&
    tableCanonical BtbEntry.empty p.btb

/-- The structural invariant: latches of `N` lanes, every sparse table and main memory in canonical form, the history
register below `2^GHR_BITS` (R35, R312). -/
def State.wf (s : State) : Bool :=
  s.latchesSized && Memory.wf s.mem && s.l1i.canonical s.cfg.l1i && s.l1d.canonical s.cfg.l1d &&
    s.l2.canonical s.cfg.l2 && s.pred.canonical && decide (s.pred.ghr < 2 ^ s.cfg.ghrBits)

/-! ## Lanes -/

/-- The valid records of a latch occupy a contiguous range of lanes (R33 (c)). -/
def contiguous (l : Latch) : Prop :=
  ∀ i j k, i < j → j < k → (slotAt l i).valid = true → (slotAt l k).valid = true → (slotAt l j).valid = true

/-- R33 (c) for the four latches. -/
def State.lanesContiguous (s : State) : Prop :=
  contiguous s.ifid ∧ contiguous s.idex ∧ contiguous s.exmem ∧ contiguous s.memwb

/-- The number of memory-class records a latch holds. -/
def memClassCount (l : Latch) : Nat := l.countP fun r => r.valid && r.fault == .none && r.inst.cls.isMem

/-- No group past issue holds more memory-class records than there are ports (R203, R252). -/
def State.portsRespected (s : State) : Prop :=
  memClassCount s.idex ≤ s.cfg.memPorts ∧ memClassCount s.exmem ≤ s.cfg.memPorts

/-- No poisoned record is past the memory stage (R193, R205). -/
def State.noPoisonRetires (s : State) : Prop := ∀ r ∈ s.memwb, r.valid = true → r.fault = .none

/-! ## Caches -/

/-- A geometry that a cache can work with: line, ways and sets are at least 1 (R11 (c)). -/
def usable (g : CacheCfg) : Prop := 0 < g.line ∧ 0 < g.assoc ∧ 0 < g.sets

/-- R350: `writebacks <= evictions <= misses`. -/
def Cache.countersOrdered (c : Cache) : Prop := c.writebacks ≤ c.evictions ∧ c.evictions ≤ c.misses

/-- R350 for the three caches. -/
def State.countersOrdered (s : State) : Prop :=
  s.l1i.countersOrdered ∧ s.l1d.countersOrdered ∧ s.l2.countersOrdered

/-- R355 (a): at most one valid entry per `(set, tag)`. -/
def uniqueTags (g : CacheCfg) (c : Cache) : Prop :=
  ∀ set w₁ w₂, set < g.sets → w₁ < g.assoc → w₂ < g.assoc → (dirAt g c set w₁).valid = true →
    (dirAt g c set w₂).valid = true → (dirAt g c set w₁).tag = (dirAt g c set w₂).tag → w₁ = w₂

/-- R355 (e): the recency stamps of the valid entries of a set are pairwise different; no stamp is ahead of the clock. -/
def recencyOrdered (g : CacheCfg) (c : Cache) : Prop :=
  (∀ set w, set < g.sets → w < g.assoc → (dirAt g c set w).lru ≤ c.clock) ∧
  ∀ set w₁ w₂, set < g.sets → w₁ < g.assoc → w₂ < g.assoc → (dirAt g c set w₁).valid = true →
    (dirAt g c set w₂).valid = true → (dirAt g c set w₁).lru = (dirAt g c set w₂).lru → w₁ = w₂

/-- The directory invariants of one cache. -/
def directorySound (g : CacheCfg) (c : Cache) : Prop := uniqueTags g c ∧ recencyOrdered g c

/-- The directory invariants of the three caches. -/
def State.directoriesSound (s : State) : Prop :=
  directorySound s.cfg.l1i s.l1i ∧ directorySound s.cfg.l1d s.l1d ∧ directorySound s.cfg.l2 s.l2

/-- R355 (d): no dirty entry. -/
def neverDirty (g : CacheCfg) (c : Cache) : Prop := ∀ set w, (dirAt g c set w).dirty = false

/-- Every line of the cache holds `LINE` bytes (R36). -/
def linesFull (g : CacheCfg) (c : Cache) : Prop :=
  ∀ set w, set < g.sets → w < g.assoc → (dataAt g c set w).length = g.line

/-- R355 (c): a clean valid entry equals the bytes of the level below for the line; `V` is the view of that level. It is
asked of `L1D` and `L2` alone (log entry 23). -/
def cleanAgrees (g : CacheCfg) (c : Cache) (V : Nat → Byte) : Prop :=
  ∀ set w, set < g.sets → w < g.assoc → (dirAt g c set w).valid = true → (dirAt g c set w).dirty = false →
    ∀ off, off < g.line → (dataAt g c set w).getD off 0 = V (lineBase g set (dirAt g c set w).tag + off)

/-- What the data view of one cache rests on. -/
def cacheSound (g : CacheCfg) (c : Cache) (V : Nat → Byte) : Prop :=
  uniqueTags g c ∧ linesFull g c ∧ cleanAgrees g c V

/-- R355 for the hierarchy: `L2` is sound over main memory, `L1D` over what `L2` shows, `L1I` is never dirty. R355 (b) and
(c) are left out for `L1I`: its clean line goes stale when `L1D` writes the line back to `L2` (R359, R78, U15). DEDUCED (log
entry 23). -/
def State.coherent (s : State) : Prop :=
  cacheSound s.cfg.l2 s.l2 (memByte s.mem) ∧ cacheSound s.cfg.l1d s.l1d s.l2View ∧ neverDirty s.cfg.l1i s.l1i ∧
    linesFull s.cfg.l1i s.l1i

/-- The byte that an instruction fetch finds at an address: that of `L1I` where it holds the line, else what `L2` and main
memory show (R60, R345). -/
def State.fetchView (s : State) (addr : Nat) : Byte :=
  match cacheByte? s.cfg.l1i s.l1i addr with
  | some v => v
  | none => s.l2View addr

/-- The little-endian number of the `n` bytes from `addr` on, as the data view shows them (R61, R72). -/
def State.viewNat (s : State) (addr n : Nat) : Nat := leNat ((List.range n).map fun i => s.dview (addr + i))

/-- Byte `i` of a 64-bit value, byte 0 the least significant (R61). -/
def byteOf (v : Word) (i : Nat) : Byte := v.extractLsb' (8 * i) 8

/-! ## The shape of an instruction's effect -/

/-- Everything but registers, flags, `retired`, the program counter and its latches is as before: configuration, status,
the caches, main memory, the counters other than `retired`. -/
def sameBackground (s t : State) : Prop :=
  t.cfg = s.cfg ∧ t.status = s.status ∧ t.l1i = s.l1i ∧ t.l1d = s.l1d ∧ t.l2 = s.l2 ∧ t.mem = s.mem ∧
    t.stats = { s.stats with retired := s.stats.retired + 1 }

/-- The registers after an instruction whose result is `v`: the destination, if there is one, holds `v`, every other
register is as before. -/
def registersAfter (s t : State) (rd : Option Reg) (v : Word) : Prop :=
  ∀ r, t.reg r = if rd = some r then v else s.reg r

/-- The flags after an instruction that produces `f`: committed only when it sets flags. -/
def flagsAfter (s t : State) (sets : Bool) (f : Nzcv) : Prop := t.flags = if sets = true then f else s.flags

/-- The flags of a result that has no carry and no overflow: `{res[63], res = 0, 0, 0}` (R140). -/
def nzOnly (res : Word) (f : Nzcv) : Prop :=
  flagN f = res.msb ∧ (flagZ f = true ↔ res = 0) ∧ flagC f = false ∧ flagV f = false

/-- The flags of the comparison of `p` with `q`: those of `p - q`, with C meaning no borrow (R122, R142). -/
def compareFlags (p q : Word) (f : Nzcv) : Prop :=
  flagN f = (p - q).msb ∧ (flagZ f = true ↔ p = q) ∧ (flagC f = true ↔ q.toNat ≤ p.toNat) ∧
    (flagV f = true ↔ p.toInt - q.toInt ≠ (p - q).toInt)

/-- The whole effect of an `ARITH` or `MUL` instruction with result `v` and flags `f`: the destination, the flags,
`pc + IB`, one more retired, and nothing else: no cache, no byte of memory, no predictor table changes. -/
def aluEffect (s t : State) (rd : Option Reg) (sets : Bool) (v : Word) (f : Nzcv) : Prop :=
  registersAfter s t rd v ∧ flagsAfter s t sets f ∧ t.pc = s.pc + s.ib ∧ sameBackground s t ∧ t.pred = s.pred ∧
    (∀ a, t.dview a = s.dview a)

/-- The whole effect of a `BRANCH` that goes on at `next`: the link register, the flags of a `CBS`, the predictor's update
with the outcome and the target (R150), one more retired, and nothing else. -/
def branchEffect (s t : State) (rd : Option Reg) (sets : Bool) (f : Nzcv) (taken : Bool) (target next : Word) : Prop :=
  registersAfter s t rd (s.pc + s.ib) ∧ flagsAfter s t sets f ∧ t.pc = next ∧ sameBackground s t ∧
    t.pred = predictorUpdate s.cfg s.pred s.pc taken target ∧ (∀ a, t.dview a = s.dview a)

/-- What a data access may change beside its own effect: `L1D`, `L2` and main memory, whose contents the data view speaks
of. Configuration, status, predictor, `L1I` and the counters other than `retired` are as before. -/
def sameBesideData (s t : State) : Prop :=
  t.cfg = s.cfg ∧ t.status = s.status ∧ t.l1i = s.l1i ∧ t.pred = s.pred ∧ t.flags = s.flags ∧
    t.stats = { s.stats with retired := s.stats.retired + 1 }

/-- Byte `a` of memory is none of the `n` bytes from `addr` on. -/
def outside (addr n a : Nat) : Prop := a < addr ∨ addr + n ≤ a

/-! ## Counters -/

/-- Every counter of one cache is at least what it was (R45, R176). -/
def Cache.countersGrow (c d : Cache) : Prop :=
  c.hits ≤ d.hits ∧ c.misses ≤ d.misses ∧ c.evictions ≤ d.evictions ∧ c.writebacks ≤ d.writebacks

/-- Every statistics counter is at least what it was: "only incremented" (R176). -/
def State.countersGrow (s t : State) : Prop :=
  s.stats.cycles ≤ t.stats.cycles ∧ s.stats.retired ≤ t.stats.retired ∧
    s.stats.stallStructural ≤ t.stats.stallStructural ∧ s.stats.stallHazard ≤ t.stats.stallHazard ∧
    s.stats.stallMispredict ≤ t.stats.stallMispredict ∧ s.stats.flushes ≤ t.stats.flushes ∧
    s.l1i.countersGrow t.l1i ∧ s.l1d.countersGrow t.l1d ∧ s.l2.countersGrow t.l2

/-! ## Configuration -/

/-- What R11 asks of one field: it is present and not negative, and the conditions under its name hold; a relation between
fields stands under the field it names first (R382), and where its divisor is 0, or missing or negative and so
reads as 0, it is not the one violated (log entry 6). -/
def fieldSound (raw : RawCfg) (f : CfgField) : Prop :=
  let c := cfgOfRaw raw
  (∃ v, rawField raw f = some v ∧ 0 ≤ v) ∧
  match f with
  | .issueWidth => 1 ≤ c.issueWidth
  | .memPorts => 1 ≤ c.memPorts
  | .l1iSize => 1 ≤ c.l1i.size ∧ (c.l1i.assoc * c.l1i.line ≠ 0 → c.l1i.size % (c.l1i.assoc * c.l1i.line) = 0)
  | .l1iAssoc => 1 ≤ c.l1i.assoc
  | .l1iLine => 1 ≤ c.l1i.line ∧ (c.instrBytes ≠ 0 → c.l1i.line % c.instrBytes = 0)
  | .l1dSize => 1 ≤ c.l1d.size ∧ (c.l1d.assoc * c.l1d.line ≠ 0 → c.l1d.size % (c.l1d.assoc * c.l1d.line) = 0)
  | .l1dAssoc => 1 ≤ c.l1d.assoc
  | .l1dLine => 1 ≤ c.l1d.line
  | .l2Size => 1 ≤ c.l2.size ∧ (c.l2.assoc * c.l2.line ≠ 0 → c.l2.size % (c.l2.assoc * c.l2.line) = 0)
  | .l2Assoc => 1 ≤ c.l2.assoc
  | .l2Line =>
    1 ≤ c.l2.line ∧ (c.l1i.line ≠ 0 → c.l2.line % c.l1i.line = 0) ∧ (c.l1d.line ≠ 0 → c.l2.line % c.l1d.line = 0)
  | .instrBytes => 1 ≤ c.instrBytes
  | .spReg => c.spReg ≤ 31
  | .memSize => (c.l2.line ≠ 0 → c.memSize % c.l2.line = 0) ∧ c.memSize ≤ 2 ^ 64
  | .bimEntries => 1 ≤ c.bimEntries
  | .gshEntries => 1 ≤ c.gshEntries
  | .metaEntries => 1 ≤ c.metaEntries
  | .ghrBits => c.ghrBits ≤ 64
  | .btbEntries => 1 ≤ c.btbEntries
  | .latArith | .latLoad | .latStore | .latBranch | .latMul | .latSyscall | .mispredictPenalty => True
  | .l1iHitLat | .l1iMissLat | .l1dHitLat | .l1dMissLat | .l2HitLat | .l2MissLat => True

/-! ## Nearest older records -/

/-- Lane `j` of a latch is the nearest lane below `n` whose record passes a test (R296: "closest producer in program order
wins"). -/
def nearestBelow (l : Latch) (test : Slot → Bool) (n j : Nat) : Prop :=
  j < n ∧ test (slotAt l j) = true ∧ ∀ k, j < k → k < n → test (slotAt l k) = false

/-- No lane of a latch below `n` passes a test. -/
def noneBelow (l : Latch) (test : Slot → Bool) (n : Nat) : Prop := ∀ k, k < n → test (slotAt l k) = false

/-- The record is a valid writer of a register (R290). -/
def validWriter (reg : Reg) (p : Slot) : Bool := p.valid && slotWrites p reg

/-- The record is a valid flag setter (R228). -/
def validSetter (p : Slot) : Bool := p.valid && p.setsFlags

/-- Lane `j` holds the oldest valid record of a latch. -/
def firstValid (l : Latch) (n j : Nat) : Prop :=
  j < n ∧ (slotAt l j).valid = true ∧ ∀ k, k < j → (slotAt l k).valid = false

/-! ## One instruction alone in the pipeline -/

/-- The committed state with the record of one instruction as the only one in flight, in lane 0 of `IFID`, fetched from the
program counter, with fetch held so that no other instruction enters. `next` is the address fetch went on to after it. -/
def State.withLoneRecord (s : State) (i : Instr) (next : Word) : State :=
  let s := s.setPc s.pc
  { s with
    ifid := s.ifid.set 0 (freshSlot s.pc i.toDiw next)
    fetch := { s.fetch with fetchPc := next, fetchBlocked := true } }

/-- Two ends of a run that differ at most in the tick number of a data error. -/
def sameEnd : Status → Status → Prop
  | .aborted (.dataOutOfBounds a _), .aborted (.dataOutOfBounds b _) => a = b
  | s, t => s = t

end Sys2Proof.Machine
end

