-- ==== Sys2Proof/Certificates/Slice0/Obligations.lean ====
section
/-!
DEFINITION. The statements for the provers: what each instruction does and leaves, the encoding, the stages and units of the
tick, the invariants that every tick keeps, and reset.
-/

open Sys2Proof Sys2Proof.Machine

/-! ## Classes `ARITH` and `MUL` -/

/-- `ADD{S}` (R121, R144): the wrapped sum, the four flags of the addition as integers give them, and nothing else. -/
def Obligations.AddEffect : Prop :=
  ∀ (sets : Bool) (rd rn rm : Option Reg) (imm : Word) (s : State), s.status = .running →
    let a := operandA s rn
    let b := operandB s rm imm
    ∃ t f, exec (.add sets rd rn rm imm) s = .next t ∧ aluEffect s t rd sets (a + b) f ∧
      flagN f = (a + b).msb ∧ (flagZ f = true ↔ a + b = 0) ∧ (flagC f = true ↔ 2 ^ 64 ≤ a.toNat + b.toNat) ∧
      (flagV f = true ↔ a.toInt + b.toInt ≠ (a + b).toInt)

/-- `SUB{S}` (R122): the wrapped difference, with C meaning no borrow, and nothing else. -/
def Obligations.SubEffect : Prop :=
  ∀ (sets : Bool) (rd rn rm : Option Reg) (imm : Word) (s : State), s.status = .running →
    let a := operandA s rn
    let b := operandB s rm imm
    ∃ t f, exec (.sub sets rd rn rm imm) s = .next t ∧ aluEffect s t rd sets (a - b) f ∧ compareFlags a b f

/-- `AND{S}`, `ORR{S}`, `EOR{S}` (R123 to R125): the bitwise result, N and Z of it, C = V = 0, and nothing else. -/
def Obligations.LogicEffect : Prop :=
  ∀ (sets : Bool) (rd rn rm : Option Reg) (imm : Word) (s : State), s.status = .running →
    let a := operandA s rn
    let b := operandB s rm imm
    (∃ t f, exec (.and sets rd rn rm imm) s = .next t ∧ aluEffect s t rd sets (a &&& b) f ∧ nzOnly (a &&& b) f) ∧
    (∃ t f, exec (.orr sets rd rn rm imm) s = .next t ∧ aluEffect s t rd sets (a ||| b) f ∧ nzOnly (a ||| b) f) ∧
    (∃ t f, exec (.eor sets rd rn rm imm) s = .next t ∧ aluEffect s t rd sets (a ^^^ b) f ∧ nzOnly (a ^^^ b) f)

/-- `LSL{S}`, `LSR{S}`, `ASR{S}` (R126 to R128): the amount is `b mod 64`; the results are the product, the floor quotient
and the signed floor quotient by a power of two; N and Z of the result, C = V = 0, and nothing else. -/
def Obligations.ShiftEffect : Prop :=
  ∀ (sets : Bool) (rd rn rm : Option Reg) (imm : Word) (s : State), s.status = .running →
    let a := operandA s rn
    let n := (operandB s rm imm).toNat % 64
    (∃ t v f, exec (.lsl sets rd rn rm imm) s = .next t ∧ aluEffect s t rd sets v f ∧ nzOnly v f ∧
      v.toNat = a.toNat * 2 ^ n % 2 ^ 64) ∧
    (∃ t v f, exec (.lsr sets rd rn rm imm) s = .next t ∧ aluEffect s t rd sets v f ∧ nzOnly v f ∧
      v.toNat = a.toNat / 2 ^ n) ∧
    (∃ t v f, exec (.asr sets rd rn rm imm) s = .next t ∧ aluEffect s t rd sets v f ∧ nzOnly v f ∧
      v.toInt = a.toInt / 2 ^ n)

/-- `CSEL{S}` (R129): the first operand where the condition holds on the committed flags, else the second; N and Z of the
result, C = V = 0, and nothing else. -/
def Obligations.CselEffect : Prop :=
  ∀ (sets : Bool) (cond : BitVec 4) (rd rn rm : Option Reg) (imm : Word) (s : State), s.status = .running →
    let v := if refCondHolds cond s.flags = true then operandA s rn else operandB s rm imm
    ∃ t f, exec (.csel sets cond rd rn rm imm) s = .next t ∧ aluEffect s t rd sets v f ∧ nzOnly v f

/-- `MUL{S}` (R130): the low 64 bits of the product, on which "signed and unsigned agree"; N and Z of the result, C = V = 0,
and nothing else. -/
def Obligations.MulEffect : Prop :=
  ∀ (sets : Bool) (rd rn rm : Option Reg) (imm : Word) (s : State), s.status = .running →
    let a := operandA s rn
    let b := operandB s rm imm
    ∃ t v f, exec (.mul sets rd rn rm imm) s = .next t ∧ aluEffect s t rd sets v f ∧ nzOnly v f ∧
      v.toNat = a.toNat * b.toNat % 2 ^ 64 ∧ v = BitVec.ofInt 64 (a.toInt * b.toInt)

/-- Condition codes (R141), the whole table, and what they mean after `SUBS` or a fused compare of `p` with `q`, whose flags
are the same (R142). -/
def Obligations.ConditionCodes : Prop :=
  (∀ f : Nzcv,
    refCondHolds 0 f = flagZ f ∧ refCondHolds 1 f = !flagZ f ∧ refCondHolds 2 f = flagC f ∧ refCondHolds 3 f = !flagC f ∧
    refCondHolds 4 f = flagN f ∧ refCondHolds 5 f = !flagN f ∧ refCondHolds 6 f = flagV f ∧ refCondHolds 7 f = !flagV f ∧
    refCondHolds 8 f = (flagC f && !flagZ f) ∧ refCondHolds 9 f = (!flagC f || flagZ f) ∧
    refCondHolds 10 f = (flagN f == flagV f) ∧ refCondHolds 11 f = (flagN f != flagV f) ∧
    refCondHolds 12 f = (!flagZ f && flagN f == flagV f) ∧ refCondHolds 13 f = (flagZ f || flagN f != flagV f) ∧
    refCondHolds 14 f = true ∧ refCondHolds 15 f = true) ∧
  ∀ p q : Word,
    let f := refCmpFlags p q
    (refExecFn .arith 1 p q 0 0).2 = f ∧
    (refCondHolds 0 f = true ↔ p = q) ∧ (refCondHolds 2 f = true ↔ q.toNat ≤ p.toNat) ∧
    (refCondHolds 8 f = true ↔ q.toNat < p.toNat) ∧ (refCondHolds 10 f = true ↔ q.toInt ≤ p.toInt) ∧
    (refCondHolds 11 f = true ↔ p.toInt < q.toInt) ∧ (refCondHolds 12 f = true ↔ q.toInt < p.toInt) ∧
    (refCondHolds 13 f = true ↔ p.toInt ≤ q.toInt)

/-! ## Classes `LOAD` and `STORE` -/

/-- A `LDR` or `STR` whose bytes are in bounds completes, in every state (R131, R132): it retires, goes on at `pc + IB`, and
leaves flags, status, predictor, `L1I` and configuration; a load writes at most its destination, a store no register. -/
def Obligations.DataAccessCompletes : Prop :=
  (∀ (msize : BitVec 2) (msigned : Bool) (rd : Option Reg) (rn : Reg) (imm : Word) (s : State), s.status = .running →
    (effectiveAddr (s.reg rn) imm).toNat + 2 ^ msize.toNat ≤ s.cfg.memSize →
    ∃ t, exec (.ldr msize msigned rd rn imm) s = .next t ∧ (∀ r, rd ≠ some r → t.reg r = s.reg r) ∧
      t.pc = s.pc + s.ib ∧ sameBesideData s t) ∧
  (∀ (msize : BitVec 2) (rt : Option Reg) (rn : Reg) (imm : Word) (s : State), s.status = .running →
    (effectiveAddr (s.reg rn) imm).toNat + 2 ^ msize.toNat ≤ s.cfg.memSize →
    ∃ t, exec (.str msize rt rn imm) s = .next t ∧ (∀ r, t.reg r = s.reg r) ∧ t.pc = s.pc + s.ib ∧ sameBesideData s t)

/-- The value of a load (R131, R72): the destination holds the zero or sign extension of the little-endian number of the
bytes that the data view shows at the effective address; no byte of memory changes, in a coherent state. -/
def Obligations.LoadValue : Prop :=
  ∀ (msize : BitVec 2) (msigned : Bool) (rd : Option Reg) (rn : Reg) (imm : Word) (s : State), s.status = .running →
    cfgValid s.cfg = true → s.coherent →
    let addr := effectiveAddr (s.reg rn) imm
    let n := 2 ^ msize.toNat
    addr.toNat + n ≤ s.cfg.memSize →
    let v := BitVec.ofNat (8 * n) (s.viewNat addr.toNat n)
    ∃ t, exec (.ldr msize msigned rd rn imm) s = .next t ∧
      registersAfter s t rd (if msigned = true then v.signExtend 64 else v.setWidth 64) ∧ t.pc = s.pc + s.ib ∧
      sameBesideData s t ∧ (∀ a, t.dview a = s.dview a) ∧ t.coherent

/-- The bytes of a store (R132, R72): the `2^msize` bytes from the effective address on are the low bytes of the data,
least significant first; every other byte of memory and every register is as before, in a coherent state. -/
def Obligations.StoreBytes : Prop :=
  ∀ (msize : BitVec 2) (rt : Option Reg) (rn : Reg) (imm : Word) (s : State), s.status = .running →
    cfgValid s.cfg = true → s.coherent →
    let addr := effectiveAddr (s.reg rn) imm
    let n := 2 ^ msize.toNat
    addr.toNat + n ≤ s.cfg.memSize →
    ∃ t, exec (.str msize rt rn imm) s = .next t ∧ (∀ r, t.reg r = s.reg r) ∧ t.pc = s.pc + s.ib ∧ sameBesideData s t ∧
      (∀ i, i < n → t.dview (addr.toNat + i) = byteOf (operandC s rt) i) ∧
      (∀ a, outside addr.toNat n a → t.dview a = s.dview a) ∧ t.coherent

/-- `DataOutOfBounds` (R131, R132, R202): an access with `addr + n > MEM_SIZE`, the sum unbounded, ends the run with the
address and the tick; nothing is accessed and nothing else changes. For an instruction executed alone the tick is the count
of the state it starts in (log entry 9). -/
def Obligations.DataAccessOutOfBounds : Prop :=
  (∀ (msize : BitVec 2) (msigned : Bool) (rd : Option Reg) (rn : Reg) (imm : Word) (s : State), s.status = .running →
    let addr := effectiveAddr (s.reg rn) imm
    s.cfg.memSize < addr.toNat + 2 ^ msize.toNat →
    exec (.ldr msize msigned rd rn imm) s =
      .next { s with status := .aborted (.dataOutOfBounds addr s.stats.cycles) }) ∧
  (∀ (msize : BitVec 2) (rt : Option Reg) (rn : Reg) (imm : Word) (s : State), s.status = .running →
    let addr := effectiveAddr (s.reg rn) imm
    s.cfg.memSize < addr.toNat + 2 ^ msize.toNat →
    exec (.str msize rt rn imm) s = .next { s with status := .aborted (.dataOutOfBounds addr s.stats.cycles) })

/-! ## Class `BRANCH` -/

/-- `B` and `BL` (R133, R134, R150): go on at `pc + imm`; `BL` holds `pc + IB` in its link register; the predictor learns
the taken outcome and the target; nothing else changes. -/
def Obligations.DirectBranchEffect : Prop :=
  (∀ (imm : Word) (s : State), s.status = .running →
    ∃ t, exec (.b imm) s = .next t ∧ branchEffect s t none false 0 true (s.pc + imm) (s.pc + imm)) ∧
  (∀ (rd : Reg) (imm : Word) (s : State), s.status = .running →
    ∃ t, exec (.bl rd imm) s = .next t ∧ branchEffect s t (some rd) false 0 true (s.pc + imm) (s.pc + imm))

/-- `BR` and `BLR` (R135, R136, R150): go on at the register's value, read before the link write, also where the link
register is the target register; `imm` is ignored. -/
def Obligations.IndirectBranchEffect : Prop :=
  (∀ (rn : Reg) (imm : Word) (s : State), s.status = .running →
    ∃ t, exec (.br rn imm) s = .next t ∧ branchEffect s t none false 0 true (s.reg rn) (s.reg rn)) ∧
  (∀ (rd rn : Reg) (imm : Word) (s : State), s.status = .running →
    ∃ t, exec (.blr rd rn imm) s = .next t ∧ branchEffect s t (some rd) false 0 true (s.reg rn) (s.reg rn))

/-- `B.cond` (R137, R150): taken exactly where the condition holds on the committed flags; a branch that is not taken still
reports its target to the predictor. -/
def Obligations.ConditionalBranchEffect : Prop :=
  ∀ (cond : BitVec 4) (imm : Word) (s : State), s.status = .running →
    let taken := refCondHolds cond s.flags
    ∃ t, exec (.bCond cond imm) s = .next t ∧
      branchEffect s t none false 0 taken (s.pc + imm) (if taken = true then s.pc + imm else s.pc + s.ib)

/-- `CB{S}.cond` (R138, R142, R150): the condition is taken on the flags of the comparison of its two operands, a register
or 0 each, never on `FLAGS`; `CBS` commits those flags, `CB` leaves `FLAGS`. -/
def Obligations.CompareBranchEffect : Prop :=
  ∀ (sets : Bool) (cond : BitVec 4) (rn rm : Option Reg) (imm : Word) (s : State), s.status = .running →
    ∃ t f, compareFlags (s.source rn) (s.source rm) f ∧
      let taken := refCondHolds cond f
      exec (.cbCond sets cond rn rm imm) s = .next t ∧
        branchEffect s t none sets f taken (s.pc + imm) (if taken = true then s.pc + imm else s.pc + s.ib)

/-! ## Class `SYSCALL` -/

/-- `SVC` with call number 93 (R139, R143, R390): the run halts with the second operand as its code; the call does not
retire and nothing else changes. That an absent second operand is 0, whatever `imm` holds, is the model's reading of
R95 and R139 against R94 (log entry 7). -/
def Obligations.SyscallExit : Prop :=
  ∀ (rd rn rm rt : Option Reg) (imm : Word) (s : State), s.status = .running → s.source rn = 93 →
    exec (.svc rd rn rm rt imm) s = .next { s with status := .halted (s.source rm) }

/-- `SVC` with any other call number (R139, R143): the destination holds 0, the run goes on at `pc + IB`, nothing else
changes. -/
def Obligations.SyscallReturn : Prop :=
  ∀ (rd rn rm rt : Option Reg) (imm : Word) (s : State), s.status = .running → s.source rn ≠ 93 →
    ∃ t, exec (.svc rd rn rm rt imm) s = .next t ∧ aluEffect s t rd false 0 0

/-- `Halted` and `Aborted` are terminal (R27, R394): no instruction and no tick changes any state. -/
def Obligations.StoppedCoreIsFrozen : Prop :=
  ∀ (s : State), s.status ≠ .running → (∀ i, exec i s = .next s) ∧ step s = .next s

/-! ## Encoding -/

/-- Decoding the encoding of a well-formed instruction, as a word and as its 16 bytes, gives the instruction back, with
every operand at every value (R91, R101). -/
def Obligations.DecodeOfEncode : Prop :=
  ∀ i : Instr, i.wellFormed = true → decodeWord (encode i) = some i ∧ decodeBytes (encodeBytes i) = some i

/-- A word that decodes is the encoding of its instruction: no bit of a valid word is dropped or changed (R101). -/
def Obligations.EncodeOfDecode : Prop := ∀ (w : BitVec 128) (i : Instr), decodeWord w = some i → encode i = w

/-- The decoder answers exactly for the words whose record is valid (R99, R101), and the instruction it answers has that
record, unchanged. -/
def Obligations.DecodeExactlyValid : Prop :=
  ∀ w : BitVec 128,
    (∀ i, decodeWord w = some i → ∃ d, unpackDiw w = some d ∧ d.valid = true ∧ i.toDiw = d) ∧
    (∀ d, unpackDiw w = some d → d.valid = true → ∃ i, decodeWord w = some i)

/-- The decoder against the opcode table (R103): no word matches two rows; a word decodes exactly when it matches a row and
names register 0 wherever a register is absent; and then the row is its instruction's. -/
def Obligations.DecodeMatchesOpcodeTable : Prop :=
  (∀ (w : BitVec 128) (r₁ r₂ : OpcodeRow), r₁ ∈ opcodeTable → r₂ ∈ opcodeTable → r₁.covers w = true → r₂.covers w = true →
    r₁ = r₂) ∧
  (∀ w : BitVec 128,
    ((∃ i, decodeWord w = some i) ↔ (∃ r ∈ opcodeTable, r.covers w = true) ∧ regNumbersZero w = true)) ∧
  (∀ (w : BitVec 128) (i : Instr) (r : OpcodeRow), decodeWord w = some i → r ∈ opcodeTable → r.covers w = true →
    r.mnemonic = mnemonicOf i)

/-- Words written out from the encoding (R91, R103), one per class and one for each of two more branch forms, decode to the
instructions they stand for. -/
def Obligations.WrittenWordsDecode : Prop :=
  decodeTableWord 128 0x00000000000000050000000000600018 = some (.orr false (some 1) none none 5) ∧
  decodeTableWord 128 0x00000000000000000000000A18E00204 = some (.mul true (some 3) (some 1) (some 2) 0) ∧
  decodeTableWord 128 0x00000000000000000000000018AC0001 = some (.ldr 3 false (some 2) 1 0) ∧
  decodeTableWord 128 0x00000000000000020000038018040002 = some (.str 1 (some 3) 1 2) ∧
  decodeTableWord 128 0xFFFFFFFFFFFFFFE00000000000000C03 = some (.bCond 1 0xFFFFFFFFFFFFFFE0) ∧
  decodeTableWord 128 0x00000000000000400000000007A10003 = some (.bl 30 0x40) ∧
  decodeTableWord 128 0x00000000000000400000000A1800DE03 = some (.cbCond true 11 (some 1) (some 2) 0x40) ∧
  decodeTableWord 128 0x00000000000000000000000288000005 = some (.svc none (some 8) (some 0) none 0)

/-! ## The tick and an instruction's way through it -/

/-- A step runs the decoded instruction, first part (R160, R265, R272): where the word the fetch unit is about to deliver
decodes to `i`, the step is one tick that puts the record of `i` in lane 0 of `IFID`, at the program counter, with the
predicted next address; the cycle is counted and nothing committed changes. The rest of the way is
`LoneRecordRunsToExec` and `FirstInstructionRunsToExec`. That a word is placed in the fetch unit so is the model's choice
(log entry 8). -/
def Obligations.StepDeliversDecoded : Prop :=
  ∀ (s : State) (nbits w : Nat) (i : Instr), s.status = .running → 1 ≤ s.cfg.issueWidth →
    decodeTableWord nbits w = some i →
    let p := s.fetch.fetchPc
    (s.withFetchWord nbits w).pc = p ∧
    ∃ t, step (s.withFetchWord nbits w) = .next t ∧
      slotAt t.ifid 0 = freshSlot p i.toDiw (predictedNext s p i.toDiw) ∧ t.pc = p ∧
      t.status = .running ∧ t.x = s.x ∧ t.flags = s.flags ∧ t.pred = s.pred ∧ t.l1d = s.l1d ∧
      t.stats = { s.stats with cycles := s.stats.cycles + 1 }

/-- A step runs the decoded instruction, the whole way (R120, R146, R430 for one instruction): with the record of `i` alone
in flight, some number of ticks ends in exactly the registers, flags, predictor, data cache, retirement count and program
counter that `exec i` gives, in the same status, up to the tick number of a data error. The address that fetch went on to
after `i` is arbitrary for a `BRANCH` and `pc + IB` for the other classes (R272). -/
def Obligations.LoneRecordRunsToExec : Prop :=
  ∀ (s : State) (i : Instr) (next : Word), s.status = .running → s.latchesSized = true → 1 ≤ s.cfg.issueWidth →
    1 ≤ s.cfg.memPorts → (i.toDiw.cls ≠ .branch → next = s.pc + s.ib) →
    ∃ k t, exec i s = .next t ∧
      let u := ticks ref k (s.withLoneRecord i next)
      u.x = t.x ∧ u.flags = t.flags ∧ u.pred = t.pred ∧ u.l1d = t.l1d ∧ u.stats.retired = t.stats.retired ∧ u.pc = t.pc ∧
        sameEnd u.status t.status

/-- The first instruction of a run of the one-lane core has the effect that `exec` gives it, whatever follows it into the
pipeline (R120, R146): from the state whose next fetched word decodes to `i`, after some tick `j` the data view is that of
`exec i`, and after some tick `k` the registers, the flags, the retirement count and the program counter are; an instruction
that ends the run ends it so. -/
def Obligations.FirstInstructionRunsToExec : Prop :=
  ∀ (s : State) (nbits w : Nat) (i : Instr), s.status = .running → cfgValid s.cfg = true → s.coherent →
    s.cfg.issueWidth = 1 → decodeTableWord nbits w = some i →
    let s₀ := s.withFetchWord nbits w
    ∃ j k t, exec i s₀ = .next t ∧ j ≤ k ∧ (∀ a, (ticks ref j s₀).dview a = t.dview a) ∧
      let u := ticks ref k s₀
      u.x = t.x ∧ u.flags = t.flags ∧ u.stats.retired = t.stats.retired ∧ u.pc = t.pc ∧
        (t.status ≠ .running → sameEnd u.status t.status)

/-- When a placed word has run (R168 (a), "an instruction fetched in tick `t` retires no earlier than tick `t + 4`"): after
one to four ticks nothing is committed and nothing has retired; in the fifth tick of the one-lane core an `ARITH`, `MUL` or
`BRANCH` of latency at most 1 retires, with the registers, flags, retirement count and program counter of `exec`. The
placing of the word is the model's choice (log entry 8). -/
def Obligations.RetiresInFifthTick : Prop :=
  (∀ (s : State) (nbits w k : Nat), k ≤ 4 →
    let u := ticks ref k (s.withFetchWord nbits w)
    u.x = s.x ∧ u.flags = s.flags ∧ u.stats.retired = s.stats.retired) ∧
  ∀ (s : State) (nbits w : Nat) (i : Instr), s.status = .running → s.cfg.issueWidth = 1 →
    decodeTableWord nbits w = some i → i.toDiw.cls = .arith ∨ i.toDiw.cls = .mul ∨ i.toDiw.cls = .branch →
    latencyOf s.cfg i.toDiw.cls ≤ 1 →
    ∃ t, exec i (s.withFetchWord nbits w) = .next t ∧
      let u := ticks ref 5 (s.withFetchWord nbits w)
      u.x = t.x ∧ u.flags = t.flags ∧ u.stats.retired = t.stats.retired ∧ u.pc = t.pc

/-- `WritebackStep` (R190 to R193): every lane of `MEMWB` is consumed and counted; a register holds the result of the
youngest lane that writes it, the flags are those of the youngest lane that sets them, all else is as before. -/
def Obligations.WritebackCommits : Prop :=
  ∀ s : State, s.memwb.length = s.cfg.issueWidth →
    let t := writebackStep s
    anyValid t.memwb = false ∧
    t.stats = { s.stats with retired := s.stats.retired + s.memwb.countP (·.valid) } ∧
    (∀ r j, nearestBelow s.memwb (validWriter r) s.cfg.issueWidth j → t.reg r = (slotAt s.memwb j).result) ∧
    (∀ r, noneBelow s.memwb (validWriter r) s.cfg.issueWidth → t.reg r = s.reg r) ∧
    (∀ j, nearestBelow s.memwb validSetter s.cfg.issueWidth j → t.flags = (slotAt s.memwb j).flags) ∧
    (noneBelow s.memwb validSetter s.cfg.issueWidth → t.flags = s.flags) ∧
    t = { s with x := t.x, flags := t.flags, memwb := t.memwb, stats := t.stats }

/-- Only writeback commits (R22, R26, R229): the registers and flags after a step are those its writeback left, and the step
retires exactly the records writeback found valid. -/
def Obligations.OnlyWritebackCommits : Prop :=
  ∀ s t : State, s.status = .running → s.memwb.length = s.cfg.issueWidth → step s = .next t →
    t.x = (writebackStep s).x ∧ t.flags = (writebackStep s).flags ∧
      t.stats.retired = s.stats.retired + s.memwb.countP (·.valid)

/-- The oldest record in the memory stage decides how a run ends (R202, R205 to R207, R389): an exit call halts, a poisoned
record raises its fault with the position recorded at fetch, a data access out of bounds raises its address and tick; in
each case nothing else of the step happens. -/
def Obligations.MemoryStageEnds : Prop :=
  ∀ (s : State) (lane : Nat), firstValid s.exmem s.cfg.issueWidth lane →
    let r := slotAt s.exmem lane
    (r.fault = .fetchMisaligned →
      memoryStep ref s = { s with status := .aborted (.fetchMisaligned r.pc r.faultCycle) }) ∧
    (r.fault = .fetchOutOfBounds →
      memoryStep ref s = { s with status := .aborted (.fetchOutOfBounds r.pc r.faultCycle) }) ∧
    (r.fault = .decodeFailure →
      memoryStep ref s = { s with status := .aborted (.decodeFailure r.pc r.faultCycle) }) ∧
    (r.fault = .none → r.inst.cls = .syscall → r.a = 93 → memoryStep ref s = { s with status := .halted r.b }) ∧
    (r.fault = .none → r.inst.cls.isMem = true → r.memStarted = false → 1 ≤ s.cfg.memPorts →
      s.cfg.memSize < r.addr.toNat + 2 ^ r.inst.msize.toNat →
      memoryStep ref s = { s with status := .aborted (.dataOutOfBounds r.addr s.stats.cycles) })

/-- A misprediction comes from a branch alone (R235, R236, R238): where the execute step asks for a flush to `pc`, some lane
of `IDEX` held a `BRANCH` on its last execute tick, none of whose operands was late; `pc` is the next address of that
branch's outcome, taken or not on the flags it resolves and with the target it computes from the operands it resolves, which
its record keeps; fetch had gone on to another address; the records in higher lanes are gone, none of them executed. -/
def Obligations.FlushComesFromBranch : Prop :=
  ∀ (F : CoreFns) (s : State) (pc : Word), s.latchesSized = true → anyValid s.exmem = false →
    (executeStep F s).flush = some pc →
    ∃ lane, lane < s.cfg.issueWidth ∧
      let t := (executeStep F s).st
      let r := slotAt s.idex lane
      let q := slotAt t.exmem lane
      let ops := resolveOperands t r.inst lane
      let fl := resolveFlags F t r.inst ops.a ops.b lane
      let o := branchOutcome (branchTaken F r.inst fl) (branchTarget r.inst r.pc ops.a) (r.pc + s.ib)
      r.valid = true ∧ r.fault = .none ∧ r.inst.cls = .branch ∧ r.exRem = 0 ∧ ops.late = false ∧
      q.valid = true ∧ q.inst = r.inst ∧ q.pc = r.pc ∧ q.a = ops.a ∧ q.b = ops.b ∧
      pc = o.next ∧ r.predNext ≠ pc ∧
      (∀ k, lane < k → (slotAt t.exmem k).valid = false ∧ (slotAt t.idex k).valid = false)

/-- The flush is atomic (R170, R171): at the end of a tick whose execute step mispredicted, `IFID` and `IDEX` hold bubbles,
no read is pending, fetch goes on at the correct address after the penalty, and registers, flags, `EXMEM`, `MEMWB` and
the predictor are as the execute step left them. -/
def Obligations.FlushIsAtomic : Prop :=
  ∀ (s : State) (pc : Word), s.status = .running →
    let m := memoryStep ref (writebackStep s.countCycle)
    let e := executeAndDecode ref m
    m.status = .running → e.flush = some pc →
    ∃ t, step s = .next t ∧ t.ifid = bubbles s.cfg.issueWidth ∧ t.idex = bubbles s.cfg.issueWidth ∧
      t.fetch.pending.valid = false ∧ t.fetch.fetchBlocked = false ∧ t.fetch.fetchPc = pc ∧
      t.fetch.redirectStall = s.cfg.mispredictPenalty ∧ t.stats.flushes = s.stats.flushes + 1 ∧
      t.exmem = e.st.exmem ∧ t.memwb = m.memwb ∧ t.pred = e.st.pred ∧ t.x = m.x ∧ t.flags = m.flags ∧ t.status = .running

/-- The misprediction penalty (R268): while it lasts the fetch step only counts it down and counts the stall; the flush
sets it, clears `pending` and `fetch_blocked` and sets `fetch_pc`. -/
def Obligations.PenaltyHoldsFetch : Prop :=
  (∀ (F : CoreFns) (s : State), 0 < s.fetch.redirectStall →
    fetchStep F s =
      { s with
        fetch := { s.fetch with redirectStall := s.fetch.redirectStall - 1 }
        stats := { s.stats with stallMispredict := s.stats.stallMispredict + 1 } }) ∧
  (∀ (s : State) (pc : Word),
    (flushStep s pc).fetch.redirectStall = s.cfg.mispredictPenalty ∧ (flushStep s pc).fetch.pending.valid = false ∧
      (flushStep s pc).fetch.fetchBlocked = false ∧ (flushStep s pc).fetch.fetchPc = pc)

/-- What the fetch unit does first when it may deliver (R265, R271, R273 to R275): a misaligned or out-of-bounds address
and a word that does not decode give a poisoned record with the position and block fetch; a read of more than one tick
is parked; else the record stands in lane 0, and a branch predicted taken with a known target ends the group there, fetch
going on at the target in a later tick (R270, R272), wherever the target is (log entry 22). What is read: in a coherent
state of a valid configuration the `INSTR_BYTES` bytes from the address on, lowest address first, of the line of `L1I` where
`L1I` holds it, else as `L2` and main memory show them (R60, R61, R68, R345). -/
def Obligations.FetchFirstLane : Prop :=
  (∀ (s : State) (pc : Word), cfgValid s.cfg = true → s.coherent → pc.toNat % s.cfg.instrBytes = 0 →
    pc.toNat + s.cfg.instrBytes ≤ s.cfg.memSize →
    (s.fetchRead pc).bytes = (List.range s.cfg.instrBytes).map fun i => s.fetchView (pc.toNat + i)) ∧
  ∀ (s : State), s.latchesSized = true → 1 ≤ s.cfg.issueWidth → s.fetch.redirectStall = 0 → anyValid s.ifid = false →
    s.fetch.fetchBlocked = false → s.fetch.pending.valid = false →
    let p := s.fetch.fetchPc
    let q := s.fetchRead p
    let t := fetchStep ref s
    (p.toNat % s.cfg.instrBytes ≠ 0 →
      t = { s.setIfid 0 { Slot.bubble with
              valid := true, pc := p, fault := .fetchMisaligned, faultCycle := s.stats.cycles } with
            fetch := { s.fetch with fetchBlocked := true } }) ∧
    (p.toNat % s.cfg.instrBytes = 0 → s.cfg.memSize < p.toNat + s.cfg.instrBytes →
      t = { s.setIfid 0 { Slot.bubble with
              valid := true, pc := p, fault := .fetchOutOfBounds, faultCycle := s.stats.cycles } with
            fetch := { s.fetch with fetchBlocked := true } }) ∧
    (p.toNat % s.cfg.instrBytes = 0 → p.toNat + s.cfg.instrBytes ≤ s.cfg.memSize → 1 < q.latency →
      t = { q.state with fetch := { s.fetch with pending := ⟨true, p, q.bytes, q.latency - 1⟩ } }) ∧
    (p.toNat % s.cfg.instrBytes = 0 → p.toNat + s.cfg.instrBytes ≤ s.cfg.memSize → q.latency ≤ 1 →
      decodeBytes q.bytes = none →
      t = { q.state.setIfid 0 { Slot.bubble with
              valid := true, pc := p, fault := .decodeFailure, faultCycle := s.stats.cycles } with
            fetch := { s.fetch with fetchBlocked := true } }) ∧
    (∀ i, p.toNat % s.cfg.instrBytes = 0 → p.toNat + s.cfg.instrBytes ≤ s.cfg.memSize → q.latency ≤ 1 →
      decodeBytes q.bytes = some i →
      let b := predict s.cfg s.pred p
      let followed : Prop := i.toDiw.cls = .branch ∧ b.taken = true ∧ b.known = true
      (followed → slotAt t.ifid 0 = freshSlot p i.toDiw b.target ∧ t.fetch.fetchPc = b.target ∧
        t.fetch.pending.valid = false ∧ ∀ k, 0 < k → (slotAt t.ifid k).valid = false) ∧
      (¬followed → slotAt t.ifid 0 = freshSlot p i.toDiw (p + s.ib)))

/-! ## Invariants that every step keeps -/

/-- The structural invariant is kept by every step: `N` lanes in every latch, every sparse table and main memory in canonical
form, `ghr < 2^GHR_BITS` (R30, R35, R312). The canonical form is the model's own. -/
def Obligations.StepKeepsStructure : Prop := ∀ s t : State, s.wf = true → step s = .next t → t.wf = true

/-- Reset, with any inputs, gives the structural invariant. The canonical form of tables and memory is the model's own (log
entries 3 and 14), and so is the state beside the status after an invalid configuration (log entry 10). -/
def Obligations.ResetHasStructure : Prop :=
  State.reset.wf = true ∧
    ∀ (raw : RawCfg) (image : List Host.Cell) (entry sp : Word), (State.resetWith raw image entry sp).wf = true

/-- R33 (c): "the valid records of one latch occupy a contiguous range of lanes", kept by every step. -/
def Obligations.StepKeepsLanesContiguous : Prop :=
  ∀ s t : State, s.latchesSized = true → s.lanesContiguous → step s = .next t → t.lanesContiguous

/-- No group past issue holds more memory-class records than there are ports, kept by every step (R203, R252). -/
def Obligations.StepKeepsPortsRespected : Prop :=
  ∀ s t : State, s.portsRespected → step s = .next t → t.portsRespected

/-- Under that invariant the memory stage refuses no record a port: "this block cannot occur in any reachable state" (R203,
U14). -/
def Obligations.MemoryStageNeverRefusesAPort : Prop :=
  ∀ (F : CoreFns) (s : State), s.portsRespected →
    (memoryStep F s).stats.stallStructural = s.stats.stallStructural

/-- R355 (a), (e): tags are unique and recency stamps different in every set of every cache, kept by every step. -/
def Obligations.StepKeepsDirectoriesSound : Prop :=
  ∀ s t : State, cfgValid s.cfg = true → s.directoriesSound → step s = .next t → t.directoriesSound

/-- R355 (a), (c), (d): the coherence of the hierarchy is kept by every step. Of (c), `L1D` and `L2` alone: a clean line of
`L1I` may go stale (R359, R78; log entry 23). -/
def Obligations.StepKeepsCoherent : Prop :=
  ∀ s t : State, cfgValid s.cfg = true → s.coherent → step s = .next t → t.coherent

/-- Only stores change memory (R72, R278): a step in which no lane of `EXMEM` holds a store that has yet to start changes no
byte of the data view, whatever is read, fetched, evicted or written back. -/
def Obligations.OnlyStoresChangeTheView : Prop :=
  ∀ s t : State, cfgValid s.cfg = true → s.coherent → step s = .next t →
    (∀ r ∈ s.exmem, r.valid = true → r.fault = .none → r.inst.cls = .store → r.memStarted = true) →
    ∀ a, t.dview a = s.dview a

/-- R350: `writebacks <= evictions <= misses` in every cache, kept by every step. -/
def Obligations.StepKeepsCountersOrdered : Prop :=
  ∀ s t : State, s.countersOrdered → step s = .next t → t.countersOrdered

/-- R176, R41: no step decreases a counter; a step of a running core is one cycle, a step of a stopped core is none. -/
def Obligations.StepCountersGrow : Prop :=
  ∀ s t : State, step s = .next t →
    s.countersGrow t ∧ t.stats.cycles = s.stats.cycles + (if s.status = .running then 1 else 0)

/-- R47: no step changes the configuration. -/
def Obligations.StepKeepsConfiguration : Prop := ∀ s t : State, step s = .next t → t.cfg = s.cfg

/-- R193, R205: no poisoned record is ever past the memory stage. -/
def Obligations.StepKeepsPoisonOut : Prop := ∀ s t : State, s.noPoisonRetires → step s = .next t → t.noPoisonRetires

/-- The state after reset, with any inputs, has every invariant that the steps keep. After an invalid configuration, whose
state R383 says the host must not read, it is the model's own state that has them (log entry 10). -/
def Obligations.ResetHasInvariants : Prop :=
  ∀ (raw : RawCfg) (image : List Host.Cell) (entry sp : Word),
    let s := State.resetWith raw image entry sp
    s.latchesSized = true ∧ s.lanesContiguous ∧ s.portsRespected ∧ s.directoriesSound ∧ s.coherent ∧ s.countersOrdered ∧
      s.noPoisonRetires

/-! ## Reset and configuration -/

/-- Reset (R50, R410) with a valid configuration: every piece of state at its value. Of memory, three things are the model's
choice: a byte that `IMAGE` does not list reads 0 (log entry 3), a later listing of an address counts, and a listing at or
above `MEM_SIZE` is dropped (log entry 19). -/
def Obligations.ResetValues : Prop :=
  ∀ (raw : RawCfg) (image : List Host.Cell) (entry sp : Word), firstViolation raw = none →
    let s := State.resetWith raw image entry sp
    s.cfg = cfgOfRaw raw ∧ s.status = .running ∧ s.flags = 0 ∧
    (∀ r : Reg, s.reg r = if r.toNat = s.cfg.spReg then sp else 0) ∧
    (∀ j, slotAt s.ifid j = Slot.bubble ∧ slotAt s.idex j = Slot.bubble ∧ slotAt s.exmem j = Slot.bubble ∧
      slotAt s.memwb j = Slot.bubble) ∧
    s.fetch.fetchPc = entry ∧ s.fetch.pending.valid = false ∧ s.fetch.redirectStall = 0 ∧ s.fetch.fetchBlocked = false ∧
    s.pc = entry ∧
    (∀ pc, bimAt s.cfg s.pred pc = 1 ∧ gshAt s.cfg s.pred pc = 1 ∧ choiceAt s.cfg s.pred pc = 1 ∧
      btbAt s.cfg s.pred pc = ⟨false, 0, 0⟩) ∧
    s.pred.ghr = 0 ∧
    (∀ (g : CacheCfg) (c : Cache), c = s.l1i ∨ c = s.l1d ∨ c = s.l2 →
      (∀ set way, dirAt g c set way = ⟨false, false, 0, 0⟩ ∧ dataAt g c set way = List.replicate g.line 0) ∧
      c.clock = 0 ∧ c.sb.valid = false ∧ c.hits = 0 ∧ c.misses = 0 ∧ c.evictions = 0 ∧ c.writebacks = 0) ∧
    (∀ a, memByte s.mem a =
      if a < s.cfg.memSize then ((image.reverse.find? fun e => e.1 == a).map (·.2)).getD 0 else 0) ∧
    s.stats = ⟨0, 0, 0, 0, 0, 0⟩

/-- `ConfigInvalid` (R383): an invalid configuration leaves the run aborted with the first violated field, nothing counted,
and the core never ticks. The field is the first, in the order of the table of R10, whose conditions do not all hold, a
relation between fields counting for the field it names first (R382); that a relation whose divisor is 0, missing or
negative is not the one violated is the model's choice (log entry 6), and so is the raw form of the configuration (log entry 19). -/
def Obligations.ResetOfInvalidConfiguration : Prop :=
  (∀ (raw : RawCfg) (image : List Host.Cell) (entry sp : Word) (field : CfgField), firstViolation raw = some field →
    let s := State.resetWith raw image entry sp
    s.status = .aborted (.configInvalid field) ∧ s.stats.cycles = 0 ∧ s.stats.retired = 0 ∧ step s = .next s) ∧
  ∀ (raw : RawCfg) (field : CfgField),
    firstViolation raw = some field ↔
      ∃ before after, CfgField.inOrder = before ++ field :: after ∧ (∀ g ∈ before, fieldSound raw g) ∧ ¬fieldSound raw field

/-- The validity of a configuration, conditions (a) to (g) of R11: no field is reported exactly when all hold. -/
def Obligations.ValidityConditions : Prop :=
  ∀ raw : RawCfg,
    let c := cfgOfRaw raw
    firstViolation raw = none ↔
      (∀ f, ∃ v, rawField raw f = some v ∧ 0 ≤ v) ∧
      1 ≤ c.issueWidth ∧ 1 ≤ c.memPorts ∧
      (∀ g : CacheCfg, g = c.l1i ∨ g = c.l1d ∨ g = c.l2 →
        1 ≤ g.size ∧ 1 ≤ g.assoc ∧ 1 ≤ g.line ∧ g.size % (g.assoc * g.line) = 0) ∧
      1 ≤ c.instrBytes ∧ c.l1i.line % c.instrBytes = 0 ∧
      c.l2.line % c.l1i.line = 0 ∧ c.l2.line % c.l1d.line = 0 ∧
      c.memSize % c.l2.line = 0 ∧ c.memSize ≤ 2 ^ 64 ∧
      1 ≤ c.bimEntries ∧ 1 ≤ c.gshEntries ∧ 1 ≤ c.metaEntries ∧ 1 ≤ c.btbEntries ∧ c.ghrBits ≤ 64 ∧ c.spReg ≤ 31

/-! ## The hazard and forwarding unit -/

/-- `ResolveOperand` (R296): the nearest older writer in the same pass, else the youngest writer in `MEMWB`, else the
register file; late only for a `LOAD` or `SYSCALL` of the same pass. -/
def Obligations.NearestProducerForwards : Prop :=
  ∀ (s : State) (reg : Reg) (lane : Nat),
    (∀ j, nearestBelow s.exmem (validWriter reg) lane j →
      resolveOperand s reg lane = ⟨(slotAt s.exmem j).result, isLate (slotAt s.exmem j)⟩) ∧
    (noneBelow s.exmem (validWriter reg) lane →
      (∀ j, nearestBelow s.memwb (validWriter reg) s.cfg.issueWidth j →
        resolveOperand s reg lane = ⟨(slotAt s.memwb j).result, false⟩) ∧
      (noneBelow s.memwb (validWriter reg) s.cfg.issueWidth → resolveOperand s reg lane = ⟨s.reg reg, false⟩))

/-- `ResolveFlags` (R228) and flag-forwarding completeness (R431): a fused compare computes its own flags; else the nearest
older setter of the same pass in any lower lane, else the youngest setter in `MEMWB`, else `FLAGS`. -/
def Obligations.NearestSetterForwards : Prop :=
  ∀ (F : CoreFns) (s : State) (d : Diw) (a b : Word) (lane : Nat), d.readsFlags = true →
    (d.fused = true → resolveFlags F s d a b lane = F.cmpFlags a b) ∧
    (d.fused = false →
      (∀ j, nearestBelow s.exmem validSetter lane j → resolveFlags F s d a b lane = (slotAt s.exmem j).flags) ∧
      (noneBelow s.exmem validSetter lane →
        (∀ j, nearestBelow s.memwb validSetter s.cfg.issueWidth j →
          resolveFlags F s d a b lane = (slotAt s.memwb j).flags) ∧
        (noneBelow s.memwb validSetter s.cfg.issueWidth → resolveFlags F s d a b lane = s.flags)))

/-- `CanIssue` (R291): the structural test first; else a read-after-write block exactly when the nearest older writer of
some source, in lower lanes of `IDEX` and then in `EXMEM`, is a `LOAD` or `SYSCALL`. -/
def Obligations.IssueBlocks : Prop :=
  ∀ (s : State) (d : Diw) (lane issued : Nat),
    let structural := d.cls.isMem = true ∧ issued = s.cfg.memPorts
    let raw := ∃ reg ∈ diwSources d,
      (∃ j, nearestBelow s.idex (validWriter reg) lane j ∧ isLate (slotAt s.idex j) = true) ∨
      (noneBelow s.idex (validWriter reg) lane ∧
        ∃ j, nearestBelow s.exmem (validWriter reg) s.cfg.issueWidth j ∧ isLate (slotAt s.exmem j) = true)
    (canIssue s d lane issued = .structural ↔ structural) ∧
    (canIssue s d lane issued = .raw ↔ ¬structural ∧ raw) ∧
    (canIssue s d lane issued = .ok ↔ ¬structural ∧ ¬raw)

/-- The decode stage lane by lane (R250 to R255): a step changes `IFID`, `IDEX` and at most one stall counter, by 1. Once the
lower lanes have issued, `k` memory-class records among them, the candidate of a lane is judged over the records they put
into `IDEX`: refused, the counter of its cause grows by 1 and it and every higher lane stay; accepted or poisoned, it issues
with its latency stamp. Nothing is counted where every lane has issued. So a consumer that stands in `IFID` while its load is
in `IDEX` or `EXMEM` costs a counted stall (R259, R437); one that comes later does not (log entry 21). -/
def Obligations.DecodeCountsAtMostOneStall : Prop :=
  (∀ s : State,
    let t := decodeStep s
    t.stats = s.stats ∨ t.stats = { s.stats with stallStructural := s.stats.stallStructural + 1 } ∨
      t.stats = { s.stats with stallHazard := s.stats.stallHazard + 1 }) ∧
  (∀ s : State,
    let t := decodeStep s
    t = { s with ifid := t.ifid, idex := t.idex, stats := t.stats } ∧
      (noneBelow t.ifid (·.valid) s.cfg.issueWidth → t.stats = s.stats)) ∧
  ∀ (s : State) (lane : Nat),
    let t := decodeStep s
    let r := slotAt s.ifid lane
    let k := memClassCount (s.ifid.take lane)
    let stays := ∀ j, lane ≤ j → slotAt t.ifid j = slotAt s.ifid j ∧ slotAt t.idex j = slotAt s.idex j
    lane < s.cfg.issueWidth → noneBelow t.ifid (·.valid) lane → r.valid = true →
    (r.fault = .none → canIssue t r.inst lane k = .structural →
      stays ∧ t.stats = { s.stats with stallStructural := s.stats.stallStructural + 1 }) ∧
    (r.fault = .none → canIssue t r.inst lane k = .raw →
      stays ∧ t.stats = { s.stats with stallHazard := s.stats.stallHazard + 1 }) ∧
    (s.latchesSized = true → r.fault = .none → canIssue t r.inst lane k = .ok →
      (slotAt t.ifid lane).valid = false ∧
        slotAt t.idex lane = { r with exRem := max (latencyOf s.cfg r.inst.cls) 1 - 1 }) ∧
    (s.latchesSized = true → r.fault ≠ .none →
      (slotAt t.ifid lane).valid = false ∧ slotAt t.idex lane = { r with exRem := 0 })

/-! ## The branch predictor -/

/-- The two-bit counters (R311; R50, R323): saturating at 0 and 3, saying taken from 2 up, reset to 1, "one taken outcome is
enough to make a table say taken"; a choice counter selects `gsh` from 2 up, else `bim`. -/
def Obligations.CounterStates : Prop :=
  (∀ c : BitVec 2,
    (counterInc c).toNat = min (c.toNat + 1) 3 ∧ (counterDec c).toNat = c.toNat - 1 ∧
      (counterHigh c = true ↔ 2 ≤ c.toNat) ∧ counterTrain c true = counterInc c ∧ counterTrain c false = counterDec c) ∧
  (∀ (cfg : Cfg) (p : Predictor) (pc : Word),
    ((predict cfg p pc).taken = true ↔
      if 2 ≤ (choiceAt cfg p pc).toNat then 2 ≤ (gshAt cfg p pc).toNat else 2 ≤ (bimAt cfg p pc).toNat)) ∧
  counterReset.toNat = 1 ∧ counterHigh counterReset = false ∧ counterHigh (counterTrain counterReset true) = true

/-- First encounter (R322): where the counters a pc selects are at their reset value and its target entry is invalid, as
they are for every pc after reset, `Predict` answers not taken, target unknown. The target component 0 is what R316
returns there, where U11 allows any value (log entry 13). -/
def Obligations.FirstEncounterNotTaken : Prop :=
  (∀ (cfg : Cfg) (p : Predictor) (pc : Word), bimAt cfg p pc = 1 → choiceAt cfg p pc = 1 →
    (btbAt cfg p pc).valid = false → predict cfg p pc = ⟨false, 0, false⟩) ∧
  (∀ (cfg : Cfg) (pc : Word), predict cfg Predictor.start pc = ⟨false, 0, false⟩)

/-- `Update` and then `Predict` (R316, R318): the target of an updated pc is known and is the one reported, taken or not;
the tables selected by the pc are trained toward the outcome, the chooser toward the table that was right; every entry
at another index, and the target of a pc with another target-cache index, is as before. -/
def Obligations.UpdateTrains : Prop :=
  ∀ (cfg : Cfg) (p : Predictor) (pc target : Word) (taken : Bool),
    let q := predictorUpdate cfg p pc taken target
    let b := counterHigh (bimAt cfg p pc)
    let g := counterHigh (gshAt cfg p pc)
    (predict cfg q pc).known = true ∧ (predict cfg q pc).target = target ∧
    bimAt cfg q pc = (if taken = true then counterInc (bimAt cfg p pc) else counterDec (bimAt cfg p pc)) ∧
    tableGet counterReset q.gsh (gshIx cfg p.ghr pc) =
      (if taken = true then counterInc (gshAt cfg p pc) else counterDec (gshAt cfg p pc)) ∧
    choiceAt cfg q pc =
      (if b = g then choiceAt cfg p pc
        else if g = taken then counterInc (choiceAt cfg p pc) else counterDec (choiceAt cfg p pc)) ∧
    q.ghr = (2 * p.ghr + (if taken = true then 1 else 0)) % 2 ^ cfg.ghrBits ∧
    (∀ pc', bimIx cfg pc' ≠ bimIx cfg pc → bimAt cfg q pc' = bimAt cfg p pc') ∧
    (∀ k, k ≠ gshIx cfg p.ghr pc → tableGet counterReset q.gsh k = tableGet counterReset p.gsh k) ∧
    (∀ pc', choiceIx cfg pc' ≠ choiceIx cfg pc → choiceAt cfg q pc' = choiceAt cfg p pc') ∧
    (∀ pc', btbIx cfg pc' ≠ btbIx cfg pc → btbAt cfg q pc' = btbAt cfg p pc')

/-! ## The caches -/

/-- The cache round trip and store-to-load forwarding (R345, R348, R351, R352; the source's scenario): a `Write` followed by
a `Read` of the same bytes hits, returns them, and costs one cycle more than a plain hit, once: a second `Read` is a
plain hit with the same bytes. -/
def Obligations.CacheRoundTrip : Prop :=
  ∀ (β : Type) (g : CacheCfg) (B : Backing β) (l : Level β) (a : Nat) (bytes : List Byte), usable g → linesFull g l.cache →
    (∀ b x, (B.read b x g.line).bytes.length = g.line) → 1 ≤ bytes.length → a % g.line + bytes.length ≤ g.line →
    let w := cacheWrite g B l a bytes
    let r := cacheRead g B w.level a bytes.length
    let q := cacheRead g B r.level a bytes.length
    r.hit = true ∧ r.bytes = bytes ∧ r.latency = g.hitLat + 1 ∧ q.hit = true ∧ q.bytes = bytes ∧ q.latency = g.hitLat

/-- Eviction (R340, R349, R350; the source's property): a miss in a full set replaces a least recently used way and counts
one eviction; a dirty victim is written back, byte for byte, before the new line is read, and counts one write-back; a
clean one is not written. The fill's latency is that of the read alone: "an eviction costs no extra time" (R357). -/
def Obligations.EvictionWritesBack : Prop :=
  ∀ (β : Type) (g : CacheCfg) (B : Backing β) (l : Level β) (set tag : Nat), usable g →
    (∀ w, w < g.assoc → (dirAt g l.cache set w).valid = true) →
    let i := install g B l set tag
    let e := dirAt g l.cache set i.way
    i.way < g.assoc ∧ (∀ w, w < g.assoc → e.lru ≤ (dirAt g l.cache set w).lru) ∧
    i.level.cache.evictions = l.cache.evictions + 1 ∧
    (e.dirty = true → i.level.cache.writebacks = l.cache.writebacks + 1 ∧
      i.level.below =
        (B.read (B.write l.below (lineBase g set e.tag) (dataAt g l.cache set i.way)).store (lineBase g set tag)
          g.line).store ∧
      i.fillLatency =
        (B.read (B.write l.below (lineBase g set e.tag) (dataAt g l.cache set i.way)).store (lineBase g set tag)
          g.line).latency) ∧
    (e.dirty = false → i.level.cache.writebacks = l.cache.writebacks ∧
      i.level.below = (B.read l.below (lineBase g set tag) g.line).store ∧
      i.fillLatency = (B.read l.below (lineBase g set tag) g.line).latency) ∧
    dirAt g i.level.cache set i.way = ⟨true, false, tag, l.cache.clock + 1⟩

/-! ## Statistics -/

/-- `CPI` (R46): the exact quotient where something retired, 0 where nothing did. -/
def Obligations.CpiIsExact : Prop :=
  ∀ t : Stats, (0 < t.retired → t.cpi * (t.retired : ℚ) = (t.cycles : ℚ)) ∧ (t.retired = 0 → t.cpi = 0)
end

