-- ==== Sys2Proof/Laws/Table.lean ====
section
/-!
SUPPORT. The laws of the two containers: a table reads back what was written and nothing else, every write keeps the
canonical form, equal canonical tables read equally; the register file likewise.
-/

namespace Sys2Proof.Machine

variable {α : Type}

/-! ## Reading after a change -/

theorem tableGet_insert (d : α) (t : Table α) (i j : Nat) (v : α) :
    tableGet d (tableInsert i v t) j = if i = j then v else tableGet d t j := by
  induction t with
  | nil => simp only [tableInsert, tableGet]
  | cons e rest ih =>
    obtain ⟨k, w⟩ := e
    simp only [tableInsert]
    split_ifs with h1 h2 <;> simp only [tableGet, ih] <;> split_ifs <;> simp_all

theorem tableGet_erase (d : α) (t : Table α) (i j : Nat) :
    tableGet d (tableErase t i) j = if i = j then d else tableGet d t j := by
  induction t with
  | nil => simp [tableErase, tableGet]
  | cons e rest ih =>
    obtain ⟨k, w⟩ := e
    unfold tableErase at ih
    by_cases hk : k = i
    · simp [tableErase, hk, tableGet]
      split_ifs <;> simp_all
    · simp [tableErase, hk, tableGet]
      split_ifs <;> simp_all

/-- A table reads back the entry written, and every other entry as before. -/
theorem tableGet_set [DecidableEq α] (d : α) (t : Table α) (i j : Nat) (v : α) :
    tableGet d (tableSet d t i v) j = if i = j then v else tableGet d t j := by
  unfold tableSet
  split_ifs with h1 h2 <;> simp_all [tableGet_insert, tableGet_erase]

@[simp] theorem tableGet_set_self [DecidableEq α] (d : α) (t : Table α) (i : Nat) (v : α) :
    tableGet d (tableSet d t i v) i = v := by
  rw [tableGet_set, if_pos rfl]

theorem tableGet_set_ne [DecidableEq α] (d : α) (t : Table α) {i j : Nat} (v : α) (h : i ≠ j) :
    tableGet d (tableSet d t i v) j = tableGet d t j := by
  rw [tableGet_set, if_neg h]

@[simp] theorem tableGet_nil (d : α) (i : Nat) : tableGet d [] i = d := rfl

/-! ## The canonical form -/

theorem tableCanonicalFrom_mono [DecidableEq α] (d : α) (t : Table α) {lo lo' : Nat} (h : lo' ≤ lo)
    (ht : tableCanonicalFrom d lo t = true) : tableCanonicalFrom d lo' t = true := by
  cases t with
  | nil => rfl
  | cons e rest =>
    simp only [tableCanonicalFrom, Bool.and_eq_true, decide_eq_true_eq] at ht ⊢
    exact ⟨⟨h.trans ht.1.1, ht.1.2⟩, ht.2⟩

theorem tableCanonicalFrom_insert [DecidableEq α] (d : α) (t : Table α) (lo i : Nat) (v : α) (hv : v ≠ d) (hi : lo ≤ i)
    (ht : tableCanonicalFrom d lo t = true) : tableCanonicalFrom d lo (tableInsert i v t) = true := by
  induction t generalizing lo with
  | nil => simp [tableInsert, tableCanonicalFrom, hv, hi]
  | cons e rest ih =>
    obtain ⟨k, w⟩ := e
    simp only [tableCanonicalFrom, Bool.and_eq_true, decide_eq_true_eq] at ht
    obtain ⟨⟨hk, hw⟩, hr⟩ := ht
    simp only [tableInsert]
    split_ifs with h1 h2
    · simp [tableCanonicalFrom, hv, hi, hw, hr]; omega
    · subst h2; simp [tableCanonicalFrom, hv, hi, hr]
    · simp [tableCanonicalFrom, hk, hw, ih (k + 1) (by omega) hr]

theorem tableCanonicalFrom_erase [DecidableEq α] (d : α) (t : Table α) (lo i : Nat)
    (ht : tableCanonicalFrom d lo t = true) : tableCanonicalFrom d lo (tableErase t i) = true := by
  induction t generalizing lo with
  | nil => rfl
  | cons e rest ih =>
    obtain ⟨k, w⟩ := e
    simp only [tableCanonicalFrom, Bool.and_eq_true, decide_eq_true_eq] at ht
    obtain ⟨⟨hk, hw⟩, hr⟩ := ht
    have h := ih (k + 1) hr
    unfold tableErase at h ⊢
    by_cases hi : k = i
    · simpa [List.filter_cons, hi] using tableCanonicalFrom_mono d _ (by omega : lo ≤ k + 1) (by simpa [hi] using h)
    · simpa [List.filter_cons, hi, tableCanonicalFrom, hk, hw] using h

/-- Every write keeps the canonical form. -/
theorem tableCanonical_set [DecidableEq α] (d : α) (t : Table α) (i : Nat) (v : α)
    (ht : tableCanonical d t = true) : tableCanonical d (tableSet d t i v) = true := by
  unfold tableSet tableCanonical at *
  split_ifs with h
  · exact tableCanonicalFrom_erase d t 0 i ht
  · exact tableCanonicalFrom_insert d t 0 i v h (Nat.zero_le i) ht

@[simp] theorem tableCanonical_nil [DecidableEq α] (d : α) : tableCanonical d ([] : Table α) = true := rfl

theorem tableGet_of_canonicalFrom_lt [DecidableEq α] (d : α) (t : Table α) {lo i : Nat} (h : i < lo)
    (ht : tableCanonicalFrom d lo t = true) : tableGet d t i = d := by
  induction t generalizing lo with
  | nil => rfl
  | cons e rest ih =>
    obtain ⟨k, w⟩ := e
    simp only [tableCanonicalFrom, Bool.and_eq_true, decide_eq_true_eq] at ht
    rw [tableGet, if_neg (by omega)]
    exact ih (by omega) ht.2

/-- Canonical tables that read equally everywhere are equal: "equal arrays are equal data". -/
theorem table_ext [DecidableEq α] (d : α) (t u : Table α) (lo : Nat) (ht : tableCanonicalFrom d lo t = true)
    (hu : tableCanonicalFrom d lo u = true) (h : ∀ i, tableGet d t i = tableGet d u i) : t = u := by
  induction t generalizing u lo with
  | nil =>
    cases u with
    | nil => rfl
    | cons e rest =>
      obtain ⟨k, w⟩ := e
      simp only [tableCanonicalFrom, Bool.and_eq_true, decide_eq_true_eq] at hu
      exact absurd (by simpa [tableGet] using (h k).symm) hu.1.2
  | cons e rest ih =>
    obtain ⟨k, w⟩ := e
    have ht' := ht
    simp only [tableCanonicalFrom, Bool.and_eq_true, decide_eq_true_eq] at ht'
    cases u with
    | nil => exact absurd (by simpa [tableGet] using h k) ht'.1.2
    | cons e' rest' =>
      obtain ⟨k', w'⟩ := e'
      have hu' := hu
      simp only [tableCanonicalFrom, Bool.and_eq_true, decide_eq_true_eq] at hu'
      have hk : k = k' := by
        rcases Nat.lt_trichotomy k k' with hlt | heq | hgt
        · have := h k
          rw [tableGet, if_pos rfl, tableGet, if_neg (by omega),
            tableGet_of_canonicalFrom_lt d rest' (by omega : k < k' + 1) hu'.2] at this
          exact absurd this ht'.1.2
        · exact heq
        · have := h k'
          rw [tableGet, if_neg (by omega), tableGet, if_pos rfl,
            tableGet_of_canonicalFrom_lt d rest (by omega : k' < k + 1) ht'.2] at this
          exact absurd this.symm hu'.1.2
      subst hk
      have hw : w = w' := by simpa [tableGet] using h k
      subst hw
      rw [ih rest' (k + 1) ht'.2 hu'.2]
      intro i
      by_cases hi : i = k
      · rw [hi, tableGet_of_canonicalFrom_lt d rest (by omega : k < k + 1) ht'.2,
          tableGet_of_canonicalFrom_lt d rest' (by omega : k < k + 1) hu'.2]
      · have := h i
        rwa [tableGet, if_neg (fun h => hi h.symm), tableGet, if_neg (fun h => hi h.symm)] at this

/-! ## The register file -/

/-- A register file reads back the register written, and every other register as before. -/
theorem regFileRead_write (x : RegFile) (r q : Reg) (v : Word) :
    regFileRead (regFileWrite x r v) q = if r = q then v else regFileRead x q := by
  unfold regFileRead regFileWrite
  rw [Vector.getElem_set]
  by_cases h : r = q
  · simp [h]
  · rw [if_neg h, if_neg (fun hh => h (BitVec.eq_of_toNat_eq hh))]

@[simp] theorem regFileRead_write_self (x : RegFile) (r : Reg) (v : Word) :
    regFileRead (regFileWrite x r v) r = v := by
  rw [regFileRead_write, if_pos rfl]

end Sys2Proof.Machine
end

