-- ==== Sys2Proof/Laws/Directory.lean ====
section
/-!
SUPPORT. The address split of a cache (`spec/49_caches.md` R337) and its directory: reading an entry after a change, what
`Lookup`, `Victim` and `Touch` can answer.
-/

namespace Sys2Proof.Machine

/-! ## The address split -/

theorem setOf_lt {g : CacheCfg} (hg : usable g) (a : Nat) : setOf g a < g.sets := Nat.mod_lt _ hg.2.2

theorem lineBase_split (g : CacheCfg) (a : Nat) :
    lineBase g (setOf g a) (tagOf g a) = a / g.line * g.line := by
  unfold lineBase setOf tagOf
  rw [Nat.mul_comm (a / g.line / g.sets), Nat.div_add_mod]

theorem lineBase_add_off (g : CacheCfg) (a : Nat) :
    lineBase g (setOf g a) (tagOf g a) + a % g.line = a := by
  rw [lineBase_split, Nat.mul_comm, Nat.div_add_mod]

theorem lineBase_div {g : CacheCfg} (hg : usable g) {set tag off : Nat} (ho : off < g.line) :
    (lineBase g set tag + off) / g.line = tag * g.sets + set := by
  unfold lineBase
  rw [Nat.mul_comm, Nat.mul_add_div hg.1, Nat.div_eq_of_lt ho, Nat.add_zero]

theorem setOf_lineBase {g : CacheCfg} (hg : usable g) {set tag off : Nat} (hs : set < g.sets) (ho : off < g.line) :
    setOf g (lineBase g set tag + off) = set := by
  unfold setOf
  rw [lineBase_div hg ho, Nat.mul_comm, Nat.mul_add_mod, Nat.mod_eq_of_lt hs]

theorem tagOf_lineBase {g : CacheCfg} (hg : usable g) {set tag off : Nat} (hs : set < g.sets) (ho : off < g.line) :
    tagOf g (lineBase g set tag + off) = tag := by
  unfold tagOf
  rw [lineBase_div hg ho, Nat.mul_comm, Nat.mul_add_div hg.2.2, Nat.div_eq_of_lt hs, Nat.add_zero]

theorem lineBase_mod (g : CacheCfg) {set tag off : Nat} (ho : off < g.line) :
    (lineBase g set tag + off) % g.line = off := by
  unfold lineBase
  rw [Nat.mul_comm, Nat.mul_add_mod, Nat.mod_eq_of_lt ho]

/-- An address lies in the line of a set and a tag exactly when its split is that set and that tag. -/
theorem mem_line_iff {g : CacheCfg} (hg : usable g) {set tag : Nat} (hs : set < g.sets) (x : Nat) :
    (lineBase g set tag ≤ x ∧ x < lineBase g set tag + g.line) ↔ (setOf g x = set ∧ tagOf g x = tag) := by
  constructor
  · rintro ⟨h1, h2⟩
    obtain ⟨off, rfl⟩ := Nat.exists_eq_add_of_le h1
    have ho : off < g.line := by omega
    exact ⟨setOf_lineBase hg hs ho, tagOf_lineBase hg hs ho⟩
  · rintro ⟨rfl, rfl⟩
    have h := lineBase_add_off g x
    have := Nat.mod_lt x hg.1
    omega

/-- A request that stays in a line splits like its first byte. -/
theorem split_add {g : CacheCfg} (hg : usable g) {a i : Nat} (h : a % g.line + i < g.line) :
    setOf g (a + i) = setOf g a ∧ tagOf g (a + i) = tagOf g a ∧ (a + i) % g.line = a % g.line + i := by
  have hs := setOf_lt hg a
  have e : a + i = lineBase g (setOf g a) (tagOf g a) + (a % g.line + i) := by
    rw [← Nat.add_assoc, lineBase_add_off]
  exact ⟨by rw [e, setOf_lineBase hg hs h], by rw [e, tagOf_lineBase hg hs h], by rw [e, lineBase_mod g h]⟩

/-! ## Entries after a change -/

theorem entryIx_inj {g : CacheCfg} {s₁ s₂ w₁ w₂ : Nat} (h₁ : w₁ < g.assoc) (h₂ : w₂ < g.assoc) :
    entryIx g s₁ w₁ = entryIx g s₂ w₂ ↔ s₁ = s₂ ∧ w₁ = w₂ := by
  constructor
  · intro h
    unfold entryIx at h
    have hp : 0 < g.assoc := by omega
    have e1 : (g.assoc * s₁ + w₁) / g.assoc = s₁ := by
      rw [Nat.mul_add_div hp, Nat.div_eq_of_lt h₁, Nat.add_zero]
    have e2 : (g.assoc * s₂ + w₂) / g.assoc = s₂ := by
      rw [Nat.mul_add_div hp, Nat.div_eq_of_lt h₂, Nat.add_zero]
    have hs : s₁ = s₂ := by rw [← e1, ← e2, Nat.mul_comm, h, Nat.mul_comm]
    subst hs
    exact ⟨rfl, by omega⟩
  · rintro ⟨rfl, rfl⟩; rfl

theorem dirAt_setDir {g : CacheCfg} (c : Cache) (e : DirEntry) {s₁ s₂ w₁ w₂ : Nat} (h₁ : w₁ < g.assoc) (h₂ : w₂ < g.assoc) :
    dirAt g (setDir g c s₁ w₁ e) s₂ w₂ = if s₁ = s₂ ∧ w₁ = w₂ then e else dirAt g c s₂ w₂ := by
  unfold dirAt setDir
  rw [tableGet_set]
  simp only [entryIx_inj h₁ h₂]

@[simp] theorem dataAt_setDir (g : CacheCfg) (c : Cache) (e : DirEntry) (s₁ w₁ s₂ w₂ : Nat) :
    dataAt g (setDir g c s₁ w₁ e) s₂ w₂ = dataAt g c s₂ w₂ := rfl

@[simp] theorem dirAt_setData (g : CacheCfg) (c : Cache) (b : List Byte) (s₁ w₁ s₂ w₂ : Nat) :
    dirAt g (setData g c s₁ w₁ b) s₂ w₂ = dirAt g c s₂ w₂ := rfl

theorem dataAt_setData {g : CacheCfg} (c : Cache) (b : List Byte) {s₁ s₂ w₁ w₂ : Nat} (h₁ : w₁ < g.assoc)
    (h₂ : w₂ < g.assoc) :
    dataAt g (setData g c s₁ w₁ b) s₂ w₂ = if s₁ = s₂ ∧ w₁ = w₂ then b else dataAt g c s₂ w₂ := by
  unfold dataAt setData
  rw [tableGet_set]
  simp only [entryIx_inj h₁ h₂]

@[simp] theorem dataAt_touch (g : CacheCfg) (c : Cache) (s₁ w₁ s₂ w₂ : Nat) :
    dataAt g (touch g c s₁ w₁) s₂ w₂ = dataAt g c s₂ w₂ := rfl

@[simp] theorem clock_touch (g : CacheCfg) (c : Cache) (set w : Nat) : (touch g c set w).clock = c.clock + 1 := rfl

/-- `Touch` stamps one entry with the new clock and changes nothing else of the directory (R339). -/
theorem dirAt_touch {g : CacheCfg} (c : Cache) {s₁ s₂ w₁ w₂ : Nat} (h₁ : w₁ < g.assoc) (h₂ : w₂ < g.assoc) :
    dirAt g (touch g c s₁ w₁) s₂ w₂ =
      if s₁ = s₂ ∧ w₁ = w₂ then { dirAt g c s₁ w₁ with lru := c.clock + 1 } else dirAt g c s₂ w₂ := by
  simp only [touch]
  rw [dirAt_setDir _ _ h₁ h₂]
  rfl

/-! ## `Lookup` and `Victim` -/

theorem holdsTag_iff (g : CacheCfg) (c : Cache) (set tag w : Nat) :
    holdsTag g c set tag w = true ↔ (dirAt g c set w).valid = true ∧ (dirAt g c set w).tag = tag := by
  simp [holdsTag]

/-- What `Lookup` finds is a valid entry of the set with the tag (R338). -/
theorem lookup_some {g : CacheCfg} {c : Cache} {set tag w : Nat} (h : lookup g c set tag = some w) :
    w < g.assoc ∧ (dirAt g c set w).valid = true ∧ (dirAt g c set w).tag = tag := by
  unfold lookup at h
  have h1 := List.mem_of_find?_eq_some h
  have h2 := List.find?_some h
  rw [List.mem_range] at h1
  rw [holdsTag_iff] at h2
  exact ⟨h1, h2⟩

/-- `Lookup` finds nothing exactly when no way of the set is valid with the tag (R338). -/
theorem lookup_none {g : CacheCfg} {c : Cache} {set tag : Nat} :
    lookup g c set tag = none ↔
      ∀ w, w < g.assoc → ¬((dirAt g c set w).valid = true ∧ (dirAt g c set w).tag = tag) := by
  unfold lookup
  rw [List.find?_eq_none]
  simp only [List.mem_range, holdsTag_iff]

/-- With unique tags, `Lookup` finds the entry that holds the tag. -/
theorem lookup_eq_of_holds {g : CacheCfg} {c : Cache} (hu : uniqueTags g c) {set tag w : Nat} (hs : set < g.sets)
    (hw : w < g.assoc) (hv : (dirAt g c set w).valid = true) (ht : (dirAt g c set w).tag = tag) :
    lookup g c set tag = some w := by
  rcases h : lookup g c set tag with _ | w'
  · exact absurd ⟨hv, ht⟩ (lookup_none.1 h w hw)
  · obtain ⟨h1, h2, h3⟩ := lookup_some h
    rw [hu set w' w hs h1 hw h2 hv (h3.trans ht.symm)]

theorem leastRecent_lt (g : CacheCfg) (c : Cache) (set : Nat) {n : Nat} (ws : List Nat) (hws : ∀ w ∈ ws, w < n)
    {best : Nat} (hb : best < n) : leastRecent g c set best ws < n := by
  induction ws generalizing best with
  | nil => exact hb
  | cons w ws ih =>
    rw [leastRecent]
    apply ih (fun v hv => hws v (List.mem_cons_of_mem _ hv))
    split_ifs
    · exact hws w List.mem_cons_self
    · exact hb

/-- `Victim` answers a way of the set (R340). -/
theorem victim_lt {g : CacheCfg} (hg : usable g) (c : Cache) (set : Nat) : victim g c set < g.assoc := by
  unfold victim
  split
  · rename_i w h
    exact List.mem_range.1 (List.mem_of_find?_eq_some h)
  · exact leastRecent_lt g c set _ (fun w hw => List.mem_range.1 hw) hg.2.1

theorem leastRecent_le (g : CacheCfg) (c : Cache) (set : Nat) (ws : List Nat) (best : Nat) :
    (dirAt g c set (leastRecent g c set best ws)).lru ≤ (dirAt g c set best).lru ∧
      ∀ w ∈ ws, (dirAt g c set (leastRecent g c set best ws)).lru ≤ (dirAt g c set w).lru := by
  induction ws generalizing best with
  | nil => simp [leastRecent]
  | cons w ws ih =>
    rw [leastRecent]
    obtain ⟨h1, h2⟩ := ih (if (dirAt g c set w).lru < (dirAt g c set best).lru then w else best)
    split_ifs at h1 h2 ⊢ with h
    · refine ⟨by omega, ?_⟩
      rintro v (_ | ⟨_, hv⟩)
      · exact h1
      · exact h2 v hv
    · refine ⟨h1, ?_⟩
      rintro v (_ | ⟨_, hv⟩)
      · omega
      · exact h2 v hv

/-- The victim of a full set is a least recently used way (R340). -/
theorem victim_least {g : CacheCfg} (c : Cache) (set : Nat) (hfull : ∀ w, w < g.assoc → (dirAt g c set w).valid = true)
    {w : Nat} (hw : w < g.assoc) : (dirAt g c set (victim g c set)).lru ≤ (dirAt g c set w).lru := by
  unfold victim
  split
  · rename_i v h
    have h1 := List.mem_range.1 (List.mem_of_find?_eq_some h)
    have h2 := List.find?_some h
    simp [hfull v h1] at h2
  · exact (leastRecent_le g c set _ 0).2 w (List.mem_range.2 hw)

end Sys2Proof.Machine
end

