-- ==== Sys2Proof/Laws/Caches.lean ====
section
/-!
SUPPORT. What a cache access does, once for every cache: over a lawful backing store, `Read` answers the bytes of the view
and changes no byte of it, `Write` changes exactly its own bytes, and both keep the cache sound (`spec/49_caches.md` R345,
R348, R349, R355; `spec/20_memory.md` R72). A cache over a lawful store is itself a lawful store, so the laws climb from
main memory to `L2` to the L1 caches.
-/

namespace Sys2Proof.Machine

variable {β : Type}

/-! ## Lawful backing stores and the view of a level -/

/-- The bytes of a view from an address on. -/
def viewBytes (V : Nat → Byte) (a n : Nat) : List Byte := (List.range n).map fun i => V (a + i)

@[simp] theorem viewBytes_length (V : Nat → Byte) (a n : Nat) : (viewBytes V a n).length = n := by
  simp [viewBytes]

theorem viewBytes_getD {V : Nat → Byte} {a n i : Nat} (h : i < n) : (viewBytes V a n).getD i 0 = V (a + i) := by
  simp [viewBytes, List.getD, h]

/-- A view with the bytes of a list written from an address on. -/
def viewWrite (V : Nat → Byte) (a : Nat) (bytes : List Byte) (x : Nat) : Byte :=
  if a ≤ x ∧ x < a + bytes.length then bytes.getD (x - a) 0 else V x

/-- A store whose requests, where `ok` admits them, answer the view `V` and keep the invariant `I`. -/
structure Backing.Lawful (B : Backing β) (ok : Nat → Nat → Prop) (I : β → Prop) (V : β → Nat → Byte) : Prop where
  read_inv : ∀ b a n, I b → ok a n → I (B.read b a n).store
  read_view : ∀ b a n, I b → ok a n → V (B.read b a n).store = V b
  read_bytes : ∀ b a n, I b → ok a n → (B.read b a n).bytes = viewBytes (V b) a n
  write_inv : ∀ b a v, I b → ok a v.length → I (B.write b a v).store
  write_view : ∀ b a v, I b → ok a v.length → V (B.write b a v).store = viewWrite (V b) a v

/-- The byte at an address as a level shows it: the cache's own byte if it holds the line, else the byte below. -/
def levelView (g : CacheCfg) (V : β → Nat → Byte) (l : Level β) (x : Nat) : Byte :=
  match cacheByte? g l.cache x with
  | some v => v
  | none => V l.below x

/-- A level is sound: the store below keeps its invariant and the cache is sound over its view. -/
def levelSound (g : CacheCfg) (I : β → Prop) (V : β → Nat → Byte) (l : Level β) : Prop :=
  I l.below ∧ cacheSound g l.cache (V l.below)

/-- R353: the request has at least one byte and stays in one line. -/
def inOneLine (g : CacheCfg) (a n : Nat) : Prop := 1 ≤ n ∧ a % g.line + n ≤ g.line

/-! ## The byte a cache holds -/

theorem cacheByte?_of_holds {g : CacheCfg} {c : Cache} (hg : usable g) (hu : uniqueTags g c) {w x : Nat}
    (hw : w < g.assoc) (hv : (dirAt g c (setOf g x) w).valid = true) (ht : (dirAt g c (setOf g x) w).tag = tagOf g x) :
    cacheByte? g c x = some ((dataAt g c (setOf g x) w).getD (x % g.line) 0) := by
  rw [cacheByte?, lookup_eq_of_holds hu (setOf_lt hg x) hw hv ht]
  rfl

theorem cacheByte?_of_lookup_none {g : CacheCfg} {c : Cache} {x : Nat} (h : lookup g c (setOf g x) (tagOf g x) = none) :
    cacheByte? g c x = none := by
  rw [cacheByte?, h]
  rfl

/-- Two caches with the same valid, dirty and tag fields and the same lines. -/
def sameLines (g : CacheCfg) (c c' : Cache) : Prop :=
  ∀ set w, w < g.assoc →
    (dirAt g c' set w).valid = (dirAt g c set w).valid ∧ (dirAt g c' set w).dirty = (dirAt g c set w).dirty ∧
      (dirAt g c' set w).tag = (dirAt g c set w).tag ∧ dataAt g c' set w = dataAt g c set w

theorem find?_congr_mem {γ : Type} {p q : γ → Bool} (l : List γ) (h : ∀ x ∈ l, p x = q x) : l.find? p = l.find? q := by
  induction l with
  | nil => rfl
  | cons x xs ih =>
    rw [List.find?_cons, List.find?_cons, h x List.mem_cons_self, ih fun y hy => h y (List.mem_cons_of_mem _ hy)]

theorem sameLines.lookup_eq {g : CacheCfg} {c c' : Cache} (h : sameLines g c c') (set tag : Nat) :
    lookup g c' set tag = lookup g c set tag :=
  find?_congr_mem _ fun w hw => by
    obtain ⟨h1, _, h3, _⟩ := h set w (List.mem_range.1 hw)
    rw [holdsTag, holdsTag, h1, h3]

theorem sameLines.cacheByte?_eq {g : CacheCfg} {c c' : Cache} (h : sameLines g c c') (x : Nat) :
    cacheByte? g c' x = cacheByte? g c x := by
  unfold cacheByte?
  rw [h.lookup_eq]
  rcases hl : lookup g c (setOf g x) (tagOf g x) with _ | w
  · rfl
  · rw [Option.map_some, Option.map_some, (h _ w (lookup_some hl).1).2.2.2]

theorem sameLines_touch (g : CacheCfg) (c : Cache) {set w : Nat} (hw : w < g.assoc) : sameLines g c (touch g c set w) := by
  intro s₂ w₂ h₂
  rw [dirAt_touch c hw h₂]
  split_ifs with h
  · obtain ⟨rfl, rfl⟩ := h
    exact ⟨rfl, rfl, rfl, rfl⟩
  · exact ⟨rfl, rfl, rfl, rfl⟩

theorem sameLines.trans {g : CacheCfg} {c c' c'' : Cache} (h : sameLines g c c') (h' : sameLines g c' c'') :
    sameLines g c c'' := by
  intro set w hw
  obtain ⟨a1, a2, a3, a4⟩ := h set w hw
  obtain ⟨b1, b2, b3, b4⟩ := h' set w hw
  exact ⟨b1.trans a1, b2.trans a2, b3.trans a3, b4.trans a4⟩

/-- A change of the counters, the clock or the store-forward record changes no line. -/
theorem sameLines_of_tables {g : CacheCfg} {c c' : Cache} (hd : c'.dir = c.dir) (ha : c'.data = c.data) :
    sameLines g c c' := by
  intro set w _
  unfold dirAt dataAt
  rw [hd, ha]
  exact ⟨rfl, rfl, rfl, rfl⟩

theorem sameLines.sound {g : CacheCfg} {c c' : Cache} (h : sameLines g c c') {V : Nat → Byte} (hc : cacheSound g c V) :
    cacheSound g c' V := by
  obtain ⟨hu, hl, ha⟩ := hc
  refine ⟨?_, ?_, ?_⟩
  · intro set w₁ w₂ hs h1 h2 hv1 hv2 ht
    rw [(h set w₁ h1).1] at hv1
    rw [(h set w₂ h2).1] at hv2
    rw [(h set w₁ h1).2.2.1, (h set w₂ h2).2.2.1] at ht
    exact hu set w₁ w₂ hs h1 h2 hv1 hv2 ht
  · intro set w hs hw
    rw [(h set w hw).2.2.2]
    exact hl set w hs hw
  · intro set w hs hw hv hd off ho
    obtain ⟨e1, e2, e3, e4⟩ := h set w hw
    rw [e1] at hv
    rw [e2] at hd
    rw [e3, e4]
    exact ha set w hs hw hv hd off ho

theorem levelView_of_holds {g : CacheCfg} {V : β → Nat → Byte} {l : Level β} (hg : usable g) (hu : uniqueTags g l.cache)
    {w x : Nat} (hw : w < g.assoc) (hv : (dirAt g l.cache (setOf g x) w).valid = true)
    (ht : (dirAt g l.cache (setOf g x) w).tag = tagOf g x) :
    levelView g V l x = (dataAt g l.cache (setOf g x) w).getD (x % g.line) 0 := by
  rw [levelView, cacheByte?_of_holds hg hu hw hv ht]

theorem levelView_of_miss {g : CacheCfg} {V : β → Nat → Byte} {l : Level β} {x : Nat}
    (h : ∀ w, w < g.assoc → ¬((dirAt g l.cache (setOf g x) w).valid = true ∧ (dirAt g l.cache (setOf g x) w).tag = tagOf g x)) :
    levelView g V l x = V l.below x := by
  rw [levelView, cacheByte?_of_lookup_none (lookup_none.2 h)]

theorem levelView_sameLines {g : CacheCfg} {V : β → Nat → Byte} {c c' : Cache} (h : sameLines g c c') (b : β) (x : Nat) :
    levelView g V ⟨c', b⟩ x = levelView g V ⟨c, b⟩ x := by
  rw [levelView, levelView, h.cacheByte?_eq]

theorem levelSound.sameLines {g : CacheCfg} {I : β → Prop} {V : β → Nat → Byte} {c c' : Cache} {b : β}
    (h : levelSound g I V ⟨c, b⟩) (hs : sameLines g c c') : levelSound g I V ⟨c', b⟩ :=
  ⟨h.1, hs.sound h.2⟩

/-! ## `Install` (R349) -/

section
variable {g : CacheCfg} {B : Backing β} {ok : Nat → Nat → Prop} {I : β → Prop} {V : β → Nat → Byte}

/-- The store below after the eviction of a way: the victim's line, if it was valid, shows the cache's bytes; every other
byte is as before. -/
theorem evict_spec (hB : B.Lawful ok I V) (hg : usable g) (hok : ∀ set tag, ok (lineBase g set tag) g.line) {l : Level β}
    (hl : levelSound g I V l) {set w : Nat} (hs : set < g.sets) (hw : w < g.assoc) :
    I (evict g B l set w).below ∧ sameLines g l.cache (evict g B l set w).cache ∧
      ∀ x, V (evict g B l set w).below x =
        if (dirAt g l.cache set w).valid = true ∧ setOf g x = set ∧ tagOf g x = (dirAt g l.cache set w).tag then
          (dataAt g l.cache set w).getD (x % g.line) 0
        else V l.below x := by
  obtain ⟨hI, hu, hf, ha⟩ := hl
  have hlen := hf set w hs hw
  unfold evict
  by_cases hv : (dirAt g l.cache set w).valid = true
  · rw [if_pos hv]
    by_cases hd : (dirAt g l.cache set w).dirty = true
    · rw [if_pos hd]
      have hok' : ok (lineBase g set (dirAt g l.cache set w).tag) (dataAt g l.cache set w).length := by
        rw [hlen]; exact hok _ _
      refine ⟨hB.write_inv _ _ _ hI hok', sameLines_of_tables rfl rfl, fun x => ?_⟩
      have e := congrFun (hB.write_view _ _ _ hI hok') x
      refine e.trans ?_
      rw [viewWrite, hlen]
      by_cases hx : setOf g x = set ∧ tagOf g x = (dirAt g l.cache set w).tag
      · rw [if_pos ((mem_line_iff hg hs x).2 hx), if_pos ⟨hv, hx⟩]
        congr 1
        have := lineBase_add_off g x
        rw [hx.1, hx.2] at this
        omega
      · rw [if_neg (fun h => hx ((mem_line_iff hg hs x).1 h)), if_neg (fun h => hx h.2)]
    · rw [if_neg hd]
      refine ⟨hI, sameLines_of_tables rfl rfl, fun x => ?_⟩
      by_cases hx : setOf g x = set ∧ tagOf g x = (dirAt g l.cache set w).tag
      · rw [if_pos ⟨hv, hx⟩, ha set w hs hw hv (by simpa using hd) (x % g.line) (Nat.mod_lt _ hg.1), ← hx.2, ← hx.1,
          lineBase_add_off]
      · rw [if_neg (fun h => hx h.2)]
  · rw [if_neg hv]
    exact ⟨hI, sameLines_of_tables rfl rfl, fun x => (if_neg (fun h => hv h.1)).symm⟩

/-- `Install` of a line the cache does not hold: the level stays sound and shows the same bytes; the answered way is valid,
clean and holds the line (R349). -/
theorem install_spec (hB : B.Lawful ok I V) (hg : usable g) (hok : ∀ set tag, ok (lineBase g set tag) g.line)
    {l : Level β} (hl : levelSound g I V l) {set tag : Nat} (hs : set < g.sets) (hmiss : lookup g l.cache set tag = none) :
    levelSound g I V (install g B l set tag).level ∧
      (∀ x, levelView g V (install g B l set tag).level x = levelView g V l x) ∧
      (install g B l set tag).way < g.assoc ∧
      (dirAt g (install g B l set tag).level.cache set (install g B l set tag).way).valid = true ∧
      (dirAt g (install g B l set tag).level.cache set (install g B l set tag).way).tag = tag := by
  have hw := victim_lt hg l.cache set
  obtain ⟨hI1, hsl, hV1⟩ := evict_spec hB hg hok hl hs hw
  have hI := hl.1
  obtain ⟨hu, hf, ha⟩ := hl.2
  rw [lookup_none] at hmiss
  set w := victim g l.cache set with hwdef
  set l1 := evict g B l set w with hl1
  have hok' := hok set tag
  have hI2 := hB.read_inv l1.below _ _ hI1 hok'
  have hV2 := hB.read_view l1.below _ _ hI1 hok'
  have hb := hB.read_bytes l1.below _ _ hI1 hok'
  set fill := B.read l1.below (lineBase g set tag) g.line with hfill
  have hlevel : (install g B l set tag).level =
      ⟨touch g (setData g (setDir g l1.cache set w ⟨true, false, tag, (dirAt g l1.cache set w).lru⟩) set w fill.bytes) set w,
        fill.store⟩ := rfl
  have hway : (install g B l set tag).way = w := rfl
  rw [hlevel, hway]
  set c2 := touch g (setData g (setDir g l1.cache set w ⟨true, false, tag, (dirAt g l1.cache set w).lru⟩) set w fill.bytes)
    set w with hc2
  have hdir : ∀ s₂ w₂, w₂ < g.assoc → (s₂ = set ∧ w₂ = w →
        (dirAt g c2 s₂ w₂).valid = true ∧ (dirAt g c2 s₂ w₂).dirty = false ∧ (dirAt g c2 s₂ w₂).tag = tag ∧
          dataAt g c2 s₂ w₂ = fill.bytes) ∧
      (¬(s₂ = set ∧ w₂ = w) →
        (dirAt g c2 s₂ w₂).valid = (dirAt g l.cache s₂ w₂).valid ∧ (dirAt g c2 s₂ w₂).dirty = (dirAt g l.cache s₂ w₂).dirty ∧
          (dirAt g c2 s₂ w₂).tag = (dirAt g l.cache s₂ w₂).tag ∧ dataAt g c2 s₂ w₂ = dataAt g l.cache s₂ w₂) := by
    intro s₂ w₂ h₂
    constructor
    · rintro ⟨rfl, rfl⟩
      rw [hc2, dirAt_touch _ hw hw, if_pos ⟨rfl, rfl⟩, dirAt_setData, dirAt_setDir _ _ hw hw, if_pos ⟨rfl, rfl⟩,
        dataAt_touch, dataAt_setData _ _ hw hw, if_pos ⟨rfl, rfl⟩]
      exact ⟨rfl, rfl, rfl, rfl⟩
    · intro hne
      have hne' : ¬(set = s₂ ∧ w = w₂) := fun h => hne ⟨h.1.symm, h.2.symm⟩
      rw [hc2, dirAt_touch _ hw h₂, if_neg hne', dirAt_setData, dirAt_setDir _ _ hw h₂, if_neg hne', dataAt_touch,
        dataAt_setData _ _ hw h₂, if_neg hne', dataAt_setDir]
      exact hsl s₂ w₂ h₂
  obtain ⟨n1, n2, n3, n4⟩ := (hdir set w hw).1 ⟨rfl, rfl⟩
  -- what the store below shows after the fill
  have hVb : ∀ x, V fill.store x = V l1.below x := fun x => congrFun hV2 x
  have hnot : ∀ x, setOf g x = set → tagOf g x = tag → V l1.below x = V l.below x := by
    intro x h1 h2
    rw [hV1, if_neg]
    rintro ⟨hv, -, ht⟩
    exact hmiss w hw ⟨hv, ht.symm.trans h2⟩
  have huniq : uniqueTags g c2 := by
    intro s₂ w₁ w₂ hs2 h1 h2 hv1 hv2 ht
    by_cases e1 : s₂ = set ∧ w₁ = w <;> by_cases e2 : s₂ = set ∧ w₂ = w
    · rw [e1.2, e2.2]
    · obtain ⟨-, -, a3, -⟩ := (hdir s₂ w₁ h1).1 e1
      obtain ⟨b1, -, b3, -⟩ := (hdir s₂ w₂ h2).2 e2
      rw [b1] at hv2
      rw [a3, b3] at ht
      exact absurd ⟨e1.1 ▸ hv2, e1.1 ▸ ht.symm⟩ (hmiss w₂ h2)
    · obtain ⟨-, -, a3, -⟩ := (hdir s₂ w₂ h2).1 e2
      obtain ⟨b1, -, b3, -⟩ := (hdir s₂ w₁ h1).2 e1
      rw [b1] at hv1
      rw [a3, b3] at ht
      exact absurd ⟨e2.1 ▸ hv1, e2.1 ▸ ht⟩ (hmiss w₁ h1)
    · obtain ⟨a1, -, a3, -⟩ := (hdir s₂ w₁ h1).2 e1
      obtain ⟨b1, -, b3, -⟩ := (hdir s₂ w₂ h2).2 e2
      rw [a1] at hv1
      rw [b1] at hv2
      rw [a3, b3] at ht
      exact hu s₂ w₁ w₂ hs2 h1 h2 hv1 hv2 ht
  have hfull : linesFull g c2 := by
    intro s₂ w₂ hs2 h2
    by_cases e : s₂ = set ∧ w₂ = w
    · obtain ⟨-, -, -, a4⟩ := (hdir s₂ w₂ h2).1 e
      rw [a4, hb, viewBytes_length]
    · obtain ⟨-, -, -, a4⟩ := (hdir s₂ w₂ h2).2 e
      rw [a4]
      exact hf s₂ w₂ hs2 h2
  have hclean : cleanAgrees g c2 (V fill.store) := by
    intro s₂ w₂ hs2 h2 hv hd off ho
    by_cases e : s₂ = set ∧ w₂ = w
    · obtain ⟨-, -, a3, a4⟩ := (hdir s₂ w₂ h2).1 e
      rw [a3, a4, hb, viewBytes_getD ho, hVb, e.1]
    · obtain ⟨a1, a2, a3, a4⟩ := (hdir s₂ w₂ h2).2 e
      rw [a1] at hv
      rw [a2] at hd
      rw [a3, a4, hVb, hV1, if_neg, ha s₂ w₂ hs2 h2 hv hd off ho]
      rintro ⟨hvw, h3, h4⟩
      rw [setOf_lineBase hg hs2 ho] at h3
      rw [tagOf_lineBase hg hs2 ho] at h4
      subst h3
      exact e ⟨rfl, hu s₂ w₂ w hs2 h2 hw hv hvw h4⟩
  refine ⟨⟨hI2, huniq, hfull, hclean⟩, fun x => ?_, hw, n1, n3⟩
  by_cases hx : setOf g x = set
  · by_cases ht : tagOf g x = tag
    · rw [levelView_of_holds hg huniq hw (by rw [hx]; exact n1) (by rw [hx, ht]; exact n3), levelView_of_miss]
      · show (dataAt g c2 (setOf g x) w).getD (x % g.line) 0 = V l.below x
        rw [hx, n4, hb, viewBytes_getD (Nat.mod_lt _ hg.1), ← hx, ← ht, lineBase_add_off, hnot x hx ht]
      · intro w₂ h2
        rw [hx, ht]
        exact hmiss w₂ h2
    · by_cases hold : ∃ w₂, w₂ < g.assoc ∧ (dirAt g l.cache set w₂).valid = true ∧ (dirAt g l.cache set w₂).tag = tagOf g x
      · obtain ⟨w₂, h2, hv2, ht2⟩ := hold
        rw [levelView_of_holds (l := l) hg hu h2 (by rw [hx]; exact hv2) (by rw [hx]; exact ht2)]
        by_cases hww : w₂ = w
        · subst hww
          rw [levelView_of_miss]
          · show V fill.store x = _
            rw [hVb, hV1, if_pos ⟨hv2, hx, ht2.symm⟩, hx]
          · intro w₃ h3
            rw [hx]
            by_cases e : w₃ = w
            · subst e
              show ¬((dirAt g c2 set w).valid = true ∧ (dirAt g c2 set w).tag = tagOf g x)
              rw [n3]
              exact fun h => ht h.2.symm
            · obtain ⟨a1, -, a3, -⟩ := (hdir set w₃ h3).2 (fun h => e h.2)
              show ¬((dirAt g c2 set w₃).valid = true ∧ (dirAt g c2 set w₃).tag = tagOf g x)
              rw [a1, a3]
              exact fun h => e (hu set w₃ w hs h3 hw h.1 hv2 (h.2.trans ht2.symm))
        · obtain ⟨a1, -, a3, a4⟩ := (hdir set w₂ h2).2 (fun h => hww h.2)
          rw [levelView_of_holds hg huniq h2 (by rw [hx]; exact a1.trans hv2) (by rw [hx]; exact a3.trans ht2)]
          show (dataAt g c2 (setOf g x) w₂).getD _ _ = _
          rw [hx, a4]
      · have hno : ∀ w₂, w₂ < g.assoc → ¬((dirAt g l.cache set w₂).valid = true ∧ (dirAt g l.cache set w₂).tag = tagOf g x) :=
          fun w₂ h2 h => hold ⟨w₂, h2, h⟩
        rw [levelView_of_miss (l := l) (by rw [hx]; exact hno), levelView_of_miss]
        · show V fill.store x = _
          rw [hVb, hV1, if_neg]
          rintro ⟨hv, -, h4⟩
          exact hno w hw ⟨hv, h4.symm⟩
        · intro w₃ h3
          rw [hx]
          by_cases e : w₃ = w
          · subst e
            show ¬((dirAt g c2 set w).valid = true ∧ (dirAt g c2 set w).tag = tagOf g x)
            rw [n3]
            exact fun h => ht h.2.symm
          · obtain ⟨a1, -, a3, -⟩ := (hdir set w₃ h3).2 (fun h => e h.2)
            show ¬((dirAt g c2 set w₃).valid = true ∧ (dirAt g c2 set w₃).tag = tagOf g x)
            rw [a1, a3]
            exact hno w₃ h3
  · have hsame : ∀ w₂, w₂ < g.assoc → (dirAt g c2 (setOf g x) w₂).valid = (dirAt g l.cache (setOf g x) w₂).valid ∧
        (dirAt g c2 (setOf g x) w₂).tag = (dirAt g l.cache (setOf g x) w₂).tag ∧
        dataAt g c2 (setOf g x) w₂ = dataAt g l.cache (setOf g x) w₂ := by
      intro w₂ h2
      obtain ⟨a1, -, a3, a4⟩ := (hdir (setOf g x) w₂ h2).2 (fun h => hx h.1)
      exact ⟨a1, a3, a4⟩
    by_cases hold : ∃ w₂, w₂ < g.assoc ∧ (dirAt g l.cache (setOf g x) w₂).valid = true ∧
        (dirAt g l.cache (setOf g x) w₂).tag = tagOf g x
    · obtain ⟨w₂, h2, hv2, ht2⟩ := hold
      obtain ⟨a1, a3, a4⟩ := hsame w₂ h2
      rw [levelView_of_holds (l := l) hg hu h2 hv2 ht2, levelView_of_holds hg huniq h2 (a1.trans hv2) (a3.trans ht2)]
      show (dataAt g c2 (setOf g x) w₂).getD _ _ = _
      rw [a4]
    · rw [levelView_of_miss (l := l) (fun w₂ h2 h => hold ⟨w₂, h2, h⟩), levelView_of_miss]
      · show V fill.store x = _
        rw [hVb, hV1, if_neg (fun h => hx h.2.1)]
      · intro w₂ h2 h
        obtain ⟨a1, a3, -⟩ := hsame w₂ h2
        exact hold ⟨w₂, h2, a1 ▸ h.1, a3 ▸ h.2⟩

end

end Sys2Proof.Machine
end

