-- ==== Sys2Proof/Laws/CacheAccess.lean ====
section
/-!
SUPPORT. `Read` and `Write` of a cache over a lawful store, whole (`spec/49_caches.md` R345, R348), and the two lawful
stores of the hierarchy: main memory and `L2` (R336, R355; `spec/20_memory.md` R72, R80).
-/

namespace Sys2Proof.Machine

variable {β : Type}

/-! ## Main memory (R80) -/

theorem mainRead_eq_viewBytes (m : Memory) (a n : Nat) : mainRead m a n = viewBytes (memByte m) a n := by
  induction n generalizing a with
  | zero => rfl
  | succ n ih =>
    rw [mainRead, ih, viewBytes, viewBytes, List.range_succ_eq_map, List.map_cons, List.map_map]
    congr 1
    apply List.map_congr_left
    intro i _
    show memByte m (a + 1 + i) = memByte m (a + (i + 1))
    congr 1
    omega

theorem memByte_mainWrite (m : Memory) (a : Nat) (bytes : List Byte) (x : Nat) :
    memByte (mainWrite m a bytes) x = viewWrite (memByte m) a bytes x := by
  induction bytes generalizing m a with
  | nil => rw [mainWrite, viewWrite, if_neg (by simp)]
  | cons v rest ih =>
    rw [mainWrite, ih]
    unfold viewWrite memByte
    rw [tableGet_set]
    simp only [List.length_cons]
    by_cases h1 : a + 1 ≤ x ∧ x < a + 1 + rest.length
    · rw [if_pos h1, if_pos (by omega)]
      obtain ⟨k, hk⟩ : ∃ k, x - a = k + 1 := ⟨x - a - 1, by omega⟩
      rw [hk, List.getD_cons_succ]
      congr 1
      omega
    · rw [if_neg h1]
      by_cases h2 : a = x
      · subst h2
        rw [if_pos rfl, if_pos (by omega), Nat.sub_self, List.getD_cons_zero]
      · rw [if_neg h2, if_neg (by omega)]

theorem mainWrite_wf (m : Memory) (a : Nat) (bytes : List Byte) (h : Memory.wf m = true) :
    Memory.wf (mainWrite m a bytes) = true := by
  induction bytes generalizing m a with
  | nil => exact h
  | cons v rest ih => exact ih _ _ (tableCanonical_set _ _ _ _ h)

/-- Main memory is a lawful store for every request. -/
theorem memBacking_lawful : memBacking.Lawful (fun _ _ => True) (fun _ => True) memByte where
  read_inv _ _ _ _ _ := trivial
  read_view _ _ _ _ _ := rfl
  read_bytes b a n _ _ := mainRead_eq_viewBytes b a n
  write_inv _ _ _ _ _ := trivial
  write_view b a v _ _ := funext fun x => memByte_mainWrite b a v x

/-! ## The two cases of `Read` and of `Write` -/

theorem cacheRead_hit {g : CacheCfg} {B : Backing β} {l : Level β} {a w : Nat}
    (h : lookup g l.cache (setOf g a) (tagOf g a) = some w) (n : Nat) :
    cacheRead g B l a n =
      { hit := true
        latency := g.hitLat + (if forwards l.cache.sb a n then 1 else 0)
        bytes := lineBytes (dataAt g l.cache (setOf g a) w) (a % g.line) n
        level :=
          { cache := touch g { l.cache with sb := { l.cache.sb with valid := false }, hits := l.cache.hits + 1 }
              (setOf g a) w
            below := l.below } } := by
  have h' : lookup g { l.cache with sb := { l.cache.sb with valid := false } } (setOf g a) (tagOf g a) = some w := h
  simp only [cacheRead, h']
  rfl

theorem cacheRead_miss {g : CacheCfg} {B : Backing β} {l : Level β} {a : Nat}
    (h : lookup g l.cache (setOf g a) (tagOf g a) = none) (n : Nat) :
    cacheRead g B l a n =
      let i := install g B
        ⟨{ l.cache with sb := { l.cache.sb with valid := false }, misses := l.cache.misses + 1 }, l.below⟩
        (setOf g a) (tagOf g a)
      { hit := false, latency := g.missLat + i.fillLatency
        bytes := lineBytes (dataAt g i.level.cache (setOf g a) i.way) (a % g.line) n, level := i.level } := by
  have h' : lookup g { l.cache with sb := { l.cache.sb with valid := false } } (setOf g a) (tagOf g a) = none := h
  simp only [cacheRead, h']

theorem cacheWrite_hit {g : CacheCfg} {B : Backing β} {l : Level β} {a w : Nat}
    (h : lookup g l.cache (setOf g a) (tagOf g a) = some w) (bytes : List Byte) :
    cacheWrite g B l a bytes =
      { hit := true, latency := g.hitLat
        level :=
          { cache := storeBytes g (touch g { l.cache with hits := l.cache.hits + 1 } (setOf g a) w) (setOf g a) w a bytes
            below := l.below } } := by
  simp only [cacheWrite, h]

theorem cacheWrite_miss {g : CacheCfg} {B : Backing β} {l : Level β} {a : Nat}
    (h : lookup g l.cache (setOf g a) (tagOf g a) = none) (bytes : List Byte) :
    cacheWrite g B l a bytes =
      let i := install g B ⟨{ l.cache with misses := l.cache.misses + 1 }, l.below⟩ (setOf g a) (tagOf g a)
      { hit := false, latency := g.missLat + i.fillLatency
        level := { cache := storeBytes g i.level.cache (setOf g a) i.way a bytes, below := i.level.below } } := by
  simp only [cacheWrite, h]

/-! ## `Read` -/

theorem lineBytes_eq_viewBytes {g : CacheCfg} (hg : usable g) {V : β → Nat → Byte} {c : Cache} {b : β}
    (hu : uniqueTags g c) (hf : linesFull g c) {a n w : Nat} (hr : inOneLine g a n) (hw : w < g.assoc)
    (hv : (dirAt g c (setOf g a) w).valid = true) (ht : (dirAt g c (setOf g a) w).tag = tagOf g a) :
    lineBytes (dataAt g c (setOf g a) w) (a % g.line) n = viewBytes (levelView g V ⟨c, b⟩) a n := by
  obtain ⟨h1, h2⟩ := hr
  have hlen := hf _ w (setOf_lt hg a) hw
  have hll : (lineBytes (dataAt g c (setOf g a) w) (a % g.line) n).length = n := by
    rw [lineBytes, List.length_take, List.length_drop, hlen]
    omega
  apply List.ext_getElem (by rw [hll, viewBytes_length])
  intro i hi1 hi2
  rw [hll] at hi1
  obtain ⟨e1, e2, e3⟩ := split_add hg (a := a) (i := i) (by omega)
  have : levelView g V ⟨c, b⟩ (a + i) = (dataAt g c (setOf g a) w).getD (a % g.line + i) 0 := by
    rw [levelView_of_holds (l := ⟨c, b⟩) hg hu hw (by rw [e1]; exact hv) (by rw [e1, e2]; exact ht), e1, e3]
  simp only [viewBytes, List.getElem_map, List.getElem_range, this, lineBytes, List.getElem_take, List.getElem_drop]
  rw [List.getD_eq_getElem _ _ (by omega)]

section
variable {g : CacheCfg} {B : Backing β} {ok : Nat → Nat → Prop} {I : β → Prop} {V : β → Nat → Byte}

/-- Everything `Read` can do to a sound level: it answers the bytes of the view and leaves the view and the soundness; a
hit is answered exactly when the cache holds the line (R345, R72). -/
theorem cacheRead_spec (hB : B.Lawful ok I V) (hg : usable g) (hok : ∀ set tag, ok (lineBase g set tag) g.line)
    {l : Level β} (hl : levelSound g I V l) {a n : Nat} (hr : inOneLine g a n) :
    levelSound g I V (cacheRead g B l a n).level ∧
      levelView g V (cacheRead g B l a n).level = levelView g V l ∧
      (cacheRead g B l a n).bytes = viewBytes (levelView g V l) a n ∧
      (cacheRead g B l a n).hit = (lookup g l.cache (setOf g a) (tagOf g a)).isSome := by
  rcases hlk : lookup g l.cache (setOf g a) (tagOf g a) with _ | w
  · rw [cacheRead_miss hlk]
    have hsl : sameLines g l.cache
        { l.cache with sb := { l.cache.sb with valid := false }, misses := l.cache.misses + 1 } :=
      sameLines_of_tables rfl rfl
    have hl0 := levelSound.sameLines (c := l.cache) (b := l.below) hl hsl
    obtain ⟨h1, h2, h3, h4, h5⟩ := install_spec hB hg hok hl0 (setOf_lt hg a) (tag := tagOf g a) hlk
    have hview := funext fun x => (h2 x).trans (levelView_sameLines (V := V) hsl l.below x)
    refine ⟨h1, hview, ?_, rfl⟩
    rw [show levelView g V l = _ from hview.symm]
    exact lineBytes_eq_viewBytes hg h1.2.1 h1.2.2.1 hr h3 h4 h5
  · rw [cacheRead_hit hlk]
    obtain ⟨hw, hv, ht⟩ := lookup_some hlk
    have hsl : sameLines g l.cache (touch g
        { l.cache with sb := { l.cache.sb with valid := false }, hits := l.cache.hits + 1 } (setOf g a) w) :=
      (sameLines_of_tables rfl rfl : sameLines g l.cache
        { l.cache with sb := { l.cache.sb with valid := false }, hits := l.cache.hits + 1 }).trans (sameLines_touch g _ hw)
    exact ⟨levelSound.sameLines (c := l.cache) hl hsl, funext fun x => levelView_sameLines hsl l.below x,
      lineBytes_eq_viewBytes (b := l.below) hg hl.2.1 hl.2.2.1 hr hw hv ht, rfl⟩

/-! ## `Write` -/

theorem linePatch_length {line bytes : List Byte} {off : Nat} (h : off + bytes.length ≤ line.length) :
    (linePatch line off bytes).length = line.length := by
  simp only [linePatch, List.length_append, List.length_take, List.length_drop]
  omega

theorem linePatch_getD {line bytes : List Byte} {off i : Nat} (h : off + bytes.length ≤ line.length) :
    (linePatch line off bytes).getD i 0 =
      if off ≤ i ∧ i < off + bytes.length then bytes.getD (i - off) 0 else line.getD i 0 := by
  have h1 : (line.take off).length = off := by rw [List.length_take]; omega
  unfold linePatch
  rw [List.append_assoc]
  simp only [List.getD_eq_getElem?_getD]
  by_cases ha : i < off
  · rw [if_neg (by omega), List.getElem?_append_left (by omega), List.getElem?_take_of_lt ha]
  · rw [List.getElem?_append_right (by omega), h1]
    by_cases hb : i < off + bytes.length
    · rw [if_pos (by omega), List.getElem?_append_left (by omega)]
    · rw [if_neg (by omega), List.getElem?_append_right (by omega), List.getElem?_drop]
      congr 2
      omega

/-- The bytes of a write enter a line the cache holds: the level stays sound and shows exactly those bytes new (R348). -/
theorem storeBytes_spec (hg : usable g) {c : Cache} {b : β} (hl : levelSound g I V ⟨c, b⟩) {a w : Nat} {bytes : List Byte}
    (hr : inOneLine g a bytes.length) (hw : w < g.assoc) (hv : (dirAt g c (setOf g a) w).valid = true)
    (ht : (dirAt g c (setOf g a) w).tag = tagOf g a) :
    levelSound g I V ⟨storeBytes g c (setOf g a) w a bytes, b⟩ ∧
      levelView g V ⟨storeBytes g c (setOf g a) w a bytes, b⟩ = viewWrite (levelView g V ⟨c, b⟩) a bytes := by
  obtain ⟨hI, hu, hf, ha⟩ := hl
  obtain ⟨hn, hoff⟩ := hr
  have hlen : (dataAt g c (setOf g a) w).length = g.line := hf _ w (setOf_lt hg a) hw
  set c' := storeBytes g c (setOf g a) w a bytes with hc'
  have hent : ∀ s₂ w₂, w₂ < g.assoc →
      (dirAt g c' s₂ w₂).valid = (dirAt g c s₂ w₂).valid ∧ (dirAt g c' s₂ w₂).tag = (dirAt g c s₂ w₂).tag ∧
      (dirAt g c' s₂ w₂).dirty = (if setOf g a = s₂ ∧ w = w₂ then true else (dirAt g c s₂ w₂).dirty) ∧
      dataAt g c' s₂ w₂ = (if setOf g a = s₂ ∧ w = w₂ then linePatch (dataAt g c (setOf g a) w) (a % g.line) bytes
        else dataAt g c s₂ w₂) := by
    intro s₂ w₂ h2
    have hd : dirAt g c' s₂ w₂ = if setOf g a = s₂ ∧ w = w₂ then { dirAt g c (setOf g a) w with dirty := true }
        else dirAt g c s₂ w₂ := by
      show dirAt g (setDir g (setData g c (setOf g a) w _) (setOf g a) w _) s₂ w₂ = _
      rw [dirAt_setDir _ _ hw h2]
      rfl
    refine ⟨?_, ?_, ?_, dataAt_setData _ _ hw h2⟩ <;>
    · rw [hd]
      split_ifs with h
      · obtain ⟨rfl, rfl⟩ := h
        rfl
      · rfl
  have hu' : uniqueTags g c' := by
    intro s₂ w₁ w₂ hs h1 h2 hv1 hv2 hte
    rw [(hent s₂ w₁ h1).1] at hv1
    rw [(hent s₂ w₂ h2).1] at hv2
    rw [(hent s₂ w₁ h1).2.1, (hent s₂ w₂ h2).2.1] at hte
    exact hu s₂ w₁ w₂ hs h1 h2 hv1 hv2 hte
  refine ⟨⟨hI, hu', ?_, ?_⟩, funext fun x => ?_⟩
  · intro s₂ w₂ hs h2
    rw [(hent s₂ w₂ h2).2.2.2]
    split_ifs
    · rw [linePatch_length (by omega), hlen]
    · exact hf s₂ w₂ hs h2
  · intro s₂ w₂ hs h2 hv2 hd2 off ho
    obtain ⟨e1, e2, e3, e4⟩ := hent s₂ w₂ h2
    rw [e1] at hv2
    rw [e3] at hd2
    rw [e2, e4]
    split_ifs at hd2 ⊢ with h
    exact ha s₂ w₂ hs h2 hv2 hd2 off ho
  · by_cases hold : ∃ w₂, w₂ < g.assoc ∧ (dirAt g c (setOf g x) w₂).valid = true ∧ (dirAt g c (setOf g x) w₂).tag = tagOf g x
    · obtain ⟨w₂, h2, hv2, ht2⟩ := hold
      obtain ⟨e1, e2, e3, e4⟩ := hent (setOf g x) w₂ h2
      rw [levelView_of_holds (l := ⟨c', b⟩) hg hu' h2 (by rw [e1]; exact hv2) (by rw [e2]; exact ht2), e4]
      have hold' := levelView_of_holds (V := V) (l := ⟨c, b⟩) hg hu h2 hv2 ht2
      by_cases hx : setOf g a = setOf g x ∧ w = w₂
      · obtain ⟨hx1, rfl⟩ := hx
        rw [if_pos ⟨hx1, rfl⟩, linePatch_getD (by omega), viewWrite, hold', hx1]
        have htag : tagOf g x = tagOf g a := by rw [← ht2, ← ht, hx1]
        have ex := lineBase_add_off g x
        have ea := lineBase_add_off g a
        rw [← hx1, htag] at ex
        have hmx := Nat.mod_lt x hg.1
        by_cases hin : a ≤ x ∧ x < a + bytes.length
        · rw [if_pos hin, if_pos (by omega)]
          congr 1
          omega
        · rw [if_neg hin, if_neg (by omega)]
      · rw [if_neg hx, viewWrite, if_neg, hold']
        rintro ⟨h3, h4⟩
        obtain ⟨k, rfl⟩ := Nat.exists_eq_add_of_le h3
        obtain ⟨s1, s2, -⟩ := split_add hg (a := a) (i := k) (by omega)
        rw [s1] at hv2 ht2
        rw [s2] at ht2
        exact hx ⟨s1.symm, hu _ w w₂ (setOf_lt hg a) hw h2 hv hv2 (ht.trans ht2.symm)⟩
    · have hno : ∀ w₂, w₂ < g.assoc → ¬((dirAt g c (setOf g x) w₂).valid = true ∧ (dirAt g c (setOf g x) w₂).tag = tagOf g x) :=
        fun w₂ h2 h => hold ⟨w₂, h2, h⟩
      rw [levelView_of_miss (l := ⟨c', b⟩), viewWrite, if_neg, levelView_of_miss (l := ⟨c, b⟩) hno]
      · rintro ⟨h3, h4⟩
        obtain ⟨k, rfl⟩ := Nat.exists_eq_add_of_le h3
        obtain ⟨s1, s2, -⟩ := split_add hg (a := a) (i := k) (by omega)
        apply hno w hw
        rw [s1, s2]
        exact ⟨hv, ht⟩
      · intro w₂ h2
        obtain ⟨e1, e2, -, -⟩ := hent (setOf g x) w₂ h2
        show ¬((dirAt g c' (setOf g x) w₂).valid = true ∧ (dirAt g c' (setOf g x) w₂).tag = tagOf g x)
        rw [e1, e2]
        exact hno w₂ h2

/-- Everything `Write` can do to a sound level: the level stays sound and its view has exactly the written bytes new; a hit
is answered exactly when the cache held the line (R348, R72). -/
theorem cacheWrite_spec (hB : B.Lawful ok I V) (hg : usable g) (hok : ∀ set tag, ok (lineBase g set tag) g.line)
    {l : Level β} (hl : levelSound g I V l) {a : Nat} {bytes : List Byte} (hr : inOneLine g a bytes.length) :
    levelSound g I V (cacheWrite g B l a bytes).level ∧
      levelView g V (cacheWrite g B l a bytes).level = viewWrite (levelView g V l) a bytes ∧
      (cacheWrite g B l a bytes).hit = (lookup g l.cache (setOf g a) (tagOf g a)).isSome := by
  rcases hlk : lookup g l.cache (setOf g a) (tagOf g a) with _ | w
  · rw [cacheWrite_miss hlk]
    have hsl : sameLines g l.cache { l.cache with misses := l.cache.misses + 1 } := sameLines_of_tables rfl rfl
    have hl0 := levelSound.sameLines (c := l.cache) (b := l.below) hl hsl
    obtain ⟨h1, h2, h3, h4, h5⟩ := install_spec hB hg hok hl0 (setOf_lt hg a) (tag := tagOf g a) hlk
    have hview := funext fun x => (h2 x).trans (levelView_sameLines (V := V) hsl l.below x)
    obtain ⟨s1, s2⟩ := storeBytes_spec hg h1 hr h3 h4 h5
    exact ⟨s1, s2.trans (congrArg (fun v => viewWrite v a bytes) hview), rfl⟩
  · rw [cacheWrite_hit hlk]
    obtain ⟨hw, hv, ht⟩ := lookup_some hlk
    have hsl : sameLines g l.cache (touch g { l.cache with hits := l.cache.hits + 1 } (setOf g a) w) :=
      (sameLines_of_tables rfl rfl : sameLines g l.cache { l.cache with hits := l.cache.hits + 1 }).trans
        (sameLines_touch g _ hw)
    have hl' := levelSound.sameLines (c := l.cache) (b := l.below) hl hsl
    have hview := funext fun x => levelView_sameLines (V := V) hsl l.below x
    obtain ⟨s1, s2⟩ := storeBytes_spec hg hl' hr hw ((hsl _ w hw).1.trans hv) ((hsl _ w hw).2.2.1.trans ht)
    exact ⟨s1, s2.trans (congrArg (fun v => viewWrite v a bytes) hview), rfl⟩

end

/-! ## `L2` as a lawful store -/

/-- `L2` is sound over main memory. -/
def l2Sound (g : CacheCfg) (l : L2Level) : Prop := levelSound g (fun _ => True) memByte l

/-- `L2` over main memory is a lawful store for requests that stay in one of its lines (R353, R355). -/
theorem l2Backing_lawful {g : CacheCfg} (hg : usable g) :
    (l2Backing g).Lawful (inOneLine g) (l2Sound g) (levelView g memByte) where
  read_inv _ _ _ hb hr := (cacheRead_spec memBacking_lawful hg (fun _ _ => trivial) hb hr).1
  read_view _ _ _ hb hr := (cacheRead_spec memBacking_lawful hg (fun _ _ => trivial) hb hr).2.1
  read_bytes _ _ _ hb hr := (cacheRead_spec memBacking_lawful hg (fun _ _ => trivial) hb hr).2.2.1
  write_inv _ _ _ hb hr := (cacheWrite_spec memBacking_lawful hg (fun _ _ => trivial) hb hr).1
  write_view _ _ _ hb hr := (cacheWrite_spec memBacking_lawful hg (fun _ _ => trivial) hb hr).2.1

/-- A line of an L1 cache lies in one line of `L2`: `L2_LINE mod L1_LINE = 0` (R11 (e), R353). -/
theorem line_inOneLine {g g2 : CacheCfg} (hg : usable g) (hg2 : usable g2) (hd : g2.line % g.line = 0) (set tag : Nat) :
    inOneLine g2 (lineBase g set tag) g.line := by
  refine ⟨hg.1, ?_⟩
  obtain ⟨k, hk⟩ := Nat.dvd_of_mod_eq_zero hd
  have hk0 : 0 < k := by
    have h2 := hg2.1
    rw [hk] at h2
    exact Nat.pos_of_mul_pos_left h2
  have e : lineBase g set tag % g2.line = g.line * ((tag * g.sets + set) % k) := by
    rw [lineBase, hk, Nat.mul_comm (tag * g.sets + set), Nat.mul_mod_mul_left]
  rw [e, hk]
  have : (tag * g.sets + set) % k + 1 ≤ k := Nat.mod_lt _ hk0
  calc g.line * ((tag * g.sets + set) % k) + g.line = g.line * ((tag * g.sets + set) % k + 1) := by ring
    _ ≤ g.line * k := Nat.mul_le_mul_left _ this

end Sys2Proof.Machine
end

