-- ==== Sys2Proof/Laws/State.lean ====
section
/-!
SUPPORT. One lemma per field per update of the state: what each named update leaves and what it writes, so that no later
proof unfolds a record update. The lemmas of an update that is chosen by a condition say the field of both choices.
-/

namespace Sys2Proof.Machine

/-! ## `setReg` -/
@[simp] theorem State.setReg_cfg (s : State) (r : Reg) (v : Word) : (s.setReg r v).cfg = s.cfg := rfl
@[simp] theorem State.setReg_x (s : State) (r : Reg) (v : Word) : (s.setReg r v).x = regFileWrite s.x r v := rfl
@[simp] theorem State.setReg_flags (s : State) (r : Reg) (v : Word) : (s.setReg r v).flags = s.flags := rfl
@[simp] theorem State.setReg_status (s : State) (r : Reg) (v : Word) : (s.setReg r v).status = s.status := rfl
@[simp] theorem State.setReg_ifid (s : State) (r : Reg) (v : Word) : (s.setReg r v).ifid = s.ifid := rfl
@[simp] theorem State.setReg_idex (s : State) (r : Reg) (v : Word) : (s.setReg r v).idex = s.idex := rfl
@[simp] theorem State.setReg_exmem (s : State) (r : Reg) (v : Word) : (s.setReg r v).exmem = s.exmem := rfl
@[simp] theorem State.setReg_memwb (s : State) (r : Reg) (v : Word) : (s.setReg r v).memwb = s.memwb := rfl
@[simp] theorem State.setReg_fetch (s : State) (r : Reg) (v : Word) : (s.setReg r v).fetch = s.fetch := rfl
@[simp] theorem State.setReg_pred (s : State) (r : Reg) (v : Word) : (s.setReg r v).pred = s.pred := rfl
@[simp] theorem State.setReg_l1i (s : State) (r : Reg) (v : Word) : (s.setReg r v).l1i = s.l1i := rfl
@[simp] theorem State.setReg_l1d (s : State) (r : Reg) (v : Word) : (s.setReg r v).l1d = s.l1d := rfl
@[simp] theorem State.setReg_l2 (s : State) (r : Reg) (v : Word) : (s.setReg r v).l2 = s.l2 := rfl
@[simp] theorem State.setReg_mem (s : State) (r : Reg) (v : Word) : (s.setReg r v).mem = s.mem := rfl
@[simp] theorem State.setReg_stats (s : State) (r : Reg) (v : Word) : (s.setReg r v).stats = s.stats := rfl

/-! ## `setDest` -/
@[simp] theorem State.setDest_cfg (s : State) (r : Option Reg) (v : Word) :
    (s.setDest r v).cfg = s.cfg := by cases r <;> rfl
@[simp] theorem State.setDest_flags (s : State) (r : Option Reg) (v : Word) :
    (s.setDest r v).flags = s.flags := by cases r <;> rfl
@[simp] theorem State.setDest_status (s : State) (r : Option Reg) (v : Word) :
    (s.setDest r v).status = s.status := by cases r <;> rfl
@[simp] theorem State.setDest_ifid (s : State) (r : Option Reg) (v : Word) :
    (s.setDest r v).ifid = s.ifid := by cases r <;> rfl
@[simp] theorem State.setDest_idex (s : State) (r : Option Reg) (v : Word) :
    (s.setDest r v).idex = s.idex := by cases r <;> rfl
@[simp] theorem State.setDest_exmem (s : State) (r : Option Reg) (v : Word) :
    (s.setDest r v).exmem = s.exmem := by cases r <;> rfl
@[simp] theorem State.setDest_memwb (s : State) (r : Option Reg) (v : Word) :
    (s.setDest r v).memwb = s.memwb := by cases r <;> rfl
@[simp] theorem State.setDest_fetch (s : State) (r : Option Reg) (v : Word) :
    (s.setDest r v).fetch = s.fetch := by cases r <;> rfl
@[simp] theorem State.setDest_pred (s : State) (r : Option Reg) (v : Word) :
    (s.setDest r v).pred = s.pred := by cases r <;> rfl
@[simp] theorem State.setDest_l1i (s : State) (r : Option Reg) (v : Word) :
    (s.setDest r v).l1i = s.l1i := by cases r <;> rfl
@[simp] theorem State.setDest_l1d (s : State) (r : Option Reg) (v : Word) :
    (s.setDest r v).l1d = s.l1d := by cases r <;> rfl
@[simp] theorem State.setDest_l2 (s : State) (r : Option Reg) (v : Word) :
    (s.setDest r v).l2 = s.l2 := by cases r <;> rfl
@[simp] theorem State.setDest_mem (s : State) (r : Option Reg) (v : Word) :
    (s.setDest r v).mem = s.mem := by cases r <;> rfl
@[simp] theorem State.setDest_stats (s : State) (r : Option Reg) (v : Word) :
    (s.setDest r v).stats = s.stats := by cases r <;> rfl

/-! ## `setFlagsIf` -/
@[simp] theorem State.setFlagsIf_cfg (s : State) (b : Bool) (f : Nzcv) :
    (s.setFlagsIf b f).cfg = s.cfg := by cases b <;> rfl
@[simp] theorem State.setFlagsIf_x (s : State) (b : Bool) (f : Nzcv) :
    (s.setFlagsIf b f).x = s.x := by cases b <;> rfl
@[simp] theorem State.setFlagsIf_flags (s : State) (b : Bool) (f : Nzcv) :
    (s.setFlagsIf b f).flags = if b then f else s.flags := by cases b <;> rfl
@[simp] theorem State.setFlagsIf_status (s : State) (b : Bool) (f : Nzcv) :
    (s.setFlagsIf b f).status = s.status := by cases b <;> rfl
@[simp] theorem State.setFlagsIf_ifid (s : State) (b : Bool) (f : Nzcv) :
    (s.setFlagsIf b f).ifid = s.ifid := by cases b <;> rfl
@[simp] theorem State.setFlagsIf_idex (s : State) (b : Bool) (f : Nzcv) :
    (s.setFlagsIf b f).idex = s.idex := by cases b <;> rfl
@[simp] theorem State.setFlagsIf_exmem (s : State) (b : Bool) (f : Nzcv) :
    (s.setFlagsIf b f).exmem = s.exmem := by cases b <;> rfl
@[simp] theorem State.setFlagsIf_memwb (s : State) (b : Bool) (f : Nzcv) :
    (s.setFlagsIf b f).memwb = s.memwb := by cases b <;> rfl
@[simp] theorem State.setFlagsIf_fetch (s : State) (b : Bool) (f : Nzcv) :
    (s.setFlagsIf b f).fetch = s.fetch := by cases b <;> rfl
@[simp] theorem State.setFlagsIf_pred (s : State) (b : Bool) (f : Nzcv) :
    (s.setFlagsIf b f).pred = s.pred := by cases b <;> rfl
@[simp] theorem State.setFlagsIf_l1i (s : State) (b : Bool) (f : Nzcv) :
    (s.setFlagsIf b f).l1i = s.l1i := by cases b <;> rfl
@[simp] theorem State.setFlagsIf_l1d (s : State) (b : Bool) (f : Nzcv) :
    (s.setFlagsIf b f).l1d = s.l1d := by cases b <;> rfl
@[simp] theorem State.setFlagsIf_l2 (s : State) (b : Bool) (f : Nzcv) :
    (s.setFlagsIf b f).l2 = s.l2 := by cases b <;> rfl
@[simp] theorem State.setFlagsIf_mem (s : State) (b : Bool) (f : Nzcv) :
    (s.setFlagsIf b f).mem = s.mem := by cases b <;> rfl
@[simp] theorem State.setFlagsIf_stats (s : State) (b : Bool) (f : Nzcv) :
    (s.setFlagsIf b f).stats = s.stats := by cases b <;> rfl

/-! ## `countRetired` -/
@[simp] theorem State.countRetired_cfg (s : State) : (s.countRetired).cfg = s.cfg := rfl
@[simp] theorem State.countRetired_x (s : State) : (s.countRetired).x = s.x := rfl
@[simp] theorem State.countRetired_flags (s : State) : (s.countRetired).flags = s.flags := rfl
@[simp] theorem State.countRetired_status (s : State) : (s.countRetired).status = s.status := rfl
@[simp] theorem State.countRetired_ifid (s : State) : (s.countRetired).ifid = s.ifid := rfl
@[simp] theorem State.countRetired_idex (s : State) : (s.countRetired).idex = s.idex := rfl
@[simp] theorem State.countRetired_exmem (s : State) : (s.countRetired).exmem = s.exmem := rfl
@[simp] theorem State.countRetired_memwb (s : State) : (s.countRetired).memwb = s.memwb := rfl
@[simp] theorem State.countRetired_fetch (s : State) : (s.countRetired).fetch = s.fetch := rfl
@[simp] theorem State.countRetired_pred (s : State) : (s.countRetired).pred = s.pred := rfl
@[simp] theorem State.countRetired_l1i (s : State) : (s.countRetired).l1i = s.l1i := rfl
@[simp] theorem State.countRetired_l1d (s : State) : (s.countRetired).l1d = s.l1d := rfl
@[simp] theorem State.countRetired_l2 (s : State) : (s.countRetired).l2 = s.l2 := rfl
@[simp] theorem State.countRetired_mem (s : State) : (s.countRetired).mem = s.mem := rfl
@[simp] theorem State.countRetired_stats (s : State) :
    (s.countRetired).stats = { s.stats with retired := s.stats.retired + 1 } := rfl

/-! ## `commit` -/
@[simp] theorem State.commit_cfg (s : State) (r : Option Reg) (v : Word) (b : Bool) (f : Nzcv) :
    (s.commit r v b f).cfg = s.cfg := by simp [State.commit]
@[simp] theorem State.commit_x (s : State) (r : Option Reg) (v : Word) (b : Bool) (f : Nzcv) :
    (s.commit r v b f).x = (s.setDest r v).x := by simp [State.commit]
@[simp] theorem State.commit_flags (s : State) (r : Option Reg) (v : Word) (b : Bool) (f : Nzcv) :
    (s.commit r v b f).flags = if b then f else s.flags := by simp [State.commit]
@[simp] theorem State.commit_status (s : State) (r : Option Reg) (v : Word) (b : Bool) (f : Nzcv) :
    (s.commit r v b f).status = s.status := by simp [State.commit]
@[simp] theorem State.commit_ifid (s : State) (r : Option Reg) (v : Word) (b : Bool) (f : Nzcv) :
    (s.commit r v b f).ifid = s.ifid := by simp [State.commit]
@[simp] theorem State.commit_idex (s : State) (r : Option Reg) (v : Word) (b : Bool) (f : Nzcv) :
    (s.commit r v b f).idex = s.idex := by simp [State.commit]
@[simp] theorem State.commit_exmem (s : State) (r : Option Reg) (v : Word) (b : Bool) (f : Nzcv) :
    (s.commit r v b f).exmem = s.exmem := by simp [State.commit]
@[simp] theorem State.commit_memwb (s : State) (r : Option Reg) (v : Word) (b : Bool) (f : Nzcv) :
    (s.commit r v b f).memwb = s.memwb := by simp [State.commit]
@[simp] theorem State.commit_fetch (s : State) (r : Option Reg) (v : Word) (b : Bool) (f : Nzcv) :
    (s.commit r v b f).fetch = s.fetch := by simp [State.commit]
@[simp] theorem State.commit_pred (s : State) (r : Option Reg) (v : Word) (b : Bool) (f : Nzcv) :
    (s.commit r v b f).pred = s.pred := by simp [State.commit]
@[simp] theorem State.commit_l1i (s : State) (r : Option Reg) (v : Word) (b : Bool) (f : Nzcv) :
    (s.commit r v b f).l1i = s.l1i := by simp [State.commit]
@[simp] theorem State.commit_l1d (s : State) (r : Option Reg) (v : Word) (b : Bool) (f : Nzcv) :
    (s.commit r v b f).l1d = s.l1d := by simp [State.commit]
@[simp] theorem State.commit_l2 (s : State) (r : Option Reg) (v : Word) (b : Bool) (f : Nzcv) :
    (s.commit r v b f).l2 = s.l2 := by simp [State.commit]
@[simp] theorem State.commit_mem (s : State) (r : Option Reg) (v : Word) (b : Bool) (f : Nzcv) :
    (s.commit r v b f).mem = s.mem := by simp [State.commit]
@[simp] theorem State.commit_stats (s : State) (r : Option Reg) (v : Word) (b : Bool) (f : Nzcv) :
    (s.commit r v b f).stats = { s.stats with retired := s.stats.retired + 1 } := by simp [State.commit]

/-! ## `raise` -/
@[simp] theorem State.raise_cfg (s : State) (e : FatalError) : (s.raise e).cfg = s.cfg := rfl
@[simp] theorem State.raise_x (s : State) (e : FatalError) : (s.raise e).x = s.x := rfl
@[simp] theorem State.raise_flags (s : State) (e : FatalError) : (s.raise e).flags = s.flags := rfl
@[simp] theorem State.raise_status (s : State) (e : FatalError) : (s.raise e).status = .aborted e := rfl
@[simp] theorem State.raise_ifid (s : State) (e : FatalError) : (s.raise e).ifid = s.ifid := rfl
@[simp] theorem State.raise_idex (s : State) (e : FatalError) : (s.raise e).idex = s.idex := rfl
@[simp] theorem State.raise_exmem (s : State) (e : FatalError) : (s.raise e).exmem = s.exmem := rfl
@[simp] theorem State.raise_memwb (s : State) (e : FatalError) : (s.raise e).memwb = s.memwb := rfl
@[simp] theorem State.raise_fetch (s : State) (e : FatalError) : (s.raise e).fetch = s.fetch := rfl
@[simp] theorem State.raise_pred (s : State) (e : FatalError) : (s.raise e).pred = s.pred := rfl
@[simp] theorem State.raise_l1i (s : State) (e : FatalError) : (s.raise e).l1i = s.l1i := rfl
@[simp] theorem State.raise_l1d (s : State) (e : FatalError) : (s.raise e).l1d = s.l1d := rfl
@[simp] theorem State.raise_l2 (s : State) (e : FatalError) : (s.raise e).l2 = s.l2 := rfl
@[simp] theorem State.raise_mem (s : State) (e : FatalError) : (s.raise e).mem = s.mem := rfl
@[simp] theorem State.raise_stats (s : State) (e : FatalError) : (s.raise e).stats = s.stats := rfl

/-! ## `halt` -/
@[simp] theorem State.halt_cfg (s : State) (code : Word) : (s.halt code).cfg = s.cfg := rfl
@[simp] theorem State.halt_x (s : State) (code : Word) : (s.halt code).x = s.x := rfl
@[simp] theorem State.halt_flags (s : State) (code : Word) : (s.halt code).flags = s.flags := rfl
@[simp] theorem State.halt_status (s : State) (code : Word) : (s.halt code).status = .halted code := rfl
@[simp] theorem State.halt_ifid (s : State) (code : Word) : (s.halt code).ifid = s.ifid := rfl
@[simp] theorem State.halt_idex (s : State) (code : Word) : (s.halt code).idex = s.idex := rfl
@[simp] theorem State.halt_exmem (s : State) (code : Word) : (s.halt code).exmem = s.exmem := rfl
@[simp] theorem State.halt_memwb (s : State) (code : Word) : (s.halt code).memwb = s.memwb := rfl
@[simp] theorem State.halt_fetch (s : State) (code : Word) : (s.halt code).fetch = s.fetch := rfl
@[simp] theorem State.halt_pred (s : State) (code : Word) : (s.halt code).pred = s.pred := rfl
@[simp] theorem State.halt_l1i (s : State) (code : Word) : (s.halt code).l1i = s.l1i := rfl
@[simp] theorem State.halt_l1d (s : State) (code : Word) : (s.halt code).l1d = s.l1d := rfl
@[simp] theorem State.halt_l2 (s : State) (code : Word) : (s.halt code).l2 = s.l2 := rfl
@[simp] theorem State.halt_mem (s : State) (code : Word) : (s.halt code).mem = s.mem := rfl
@[simp] theorem State.halt_stats (s : State) (code : Word) : (s.halt code).stats = s.stats := rfl

/-! ## `setIfid` -/
@[simp] theorem State.setIfid_cfg (s : State) (n : Nat) (r : Slot) : (s.setIfid n r).cfg = s.cfg := rfl
@[simp] theorem State.setIfid_x (s : State) (n : Nat) (r : Slot) : (s.setIfid n r).x = s.x := rfl
@[simp] theorem State.setIfid_flags (s : State) (n : Nat) (r : Slot) : (s.setIfid n r).flags = s.flags := rfl
@[simp] theorem State.setIfid_status (s : State) (n : Nat) (r : Slot) : (s.setIfid n r).status = s.status := rfl
@[simp] theorem State.setIfid_ifid (s : State) (n : Nat) (r : Slot) : (s.setIfid n r).ifid = s.ifid.set n r := rfl
@[simp] theorem State.setIfid_idex (s : State) (n : Nat) (r : Slot) : (s.setIfid n r).idex = s.idex := rfl
@[simp] theorem State.setIfid_exmem (s : State) (n : Nat) (r : Slot) : (s.setIfid n r).exmem = s.exmem := rfl
@[simp] theorem State.setIfid_memwb (s : State) (n : Nat) (r : Slot) : (s.setIfid n r).memwb = s.memwb := rfl
@[simp] theorem State.setIfid_fetch (s : State) (n : Nat) (r : Slot) : (s.setIfid n r).fetch = s.fetch := rfl
@[simp] theorem State.setIfid_pred (s : State) (n : Nat) (r : Slot) : (s.setIfid n r).pred = s.pred := rfl
@[simp] theorem State.setIfid_l1i (s : State) (n : Nat) (r : Slot) : (s.setIfid n r).l1i = s.l1i := rfl
@[simp] theorem State.setIfid_l1d (s : State) (n : Nat) (r : Slot) : (s.setIfid n r).l1d = s.l1d := rfl
@[simp] theorem State.setIfid_l2 (s : State) (n : Nat) (r : Slot) : (s.setIfid n r).l2 = s.l2 := rfl
@[simp] theorem State.setIfid_mem (s : State) (n : Nat) (r : Slot) : (s.setIfid n r).mem = s.mem := rfl
@[simp] theorem State.setIfid_stats (s : State) (n : Nat) (r : Slot) : (s.setIfid n r).stats = s.stats := rfl

/-! ## `setIdex` -/
@[simp] theorem State.setIdex_cfg (s : State) (n : Nat) (r : Slot) : (s.setIdex n r).cfg = s.cfg := rfl
@[simp] theorem State.setIdex_x (s : State) (n : Nat) (r : Slot) : (s.setIdex n r).x = s.x := rfl
@[simp] theorem State.setIdex_flags (s : State) (n : Nat) (r : Slot) : (s.setIdex n r).flags = s.flags := rfl
@[simp] theorem State.setIdex_status (s : State) (n : Nat) (r : Slot) : (s.setIdex n r).status = s.status := rfl
@[simp] theorem State.setIdex_ifid (s : State) (n : Nat) (r : Slot) : (s.setIdex n r).ifid = s.ifid := rfl
@[simp] theorem State.setIdex_idex (s : State) (n : Nat) (r : Slot) : (s.setIdex n r).idex = s.idex.set n r := rfl
@[simp] theorem State.setIdex_exmem (s : State) (n : Nat) (r : Slot) : (s.setIdex n r).exmem = s.exmem := rfl
@[simp] theorem State.setIdex_memwb (s : State) (n : Nat) (r : Slot) : (s.setIdex n r).memwb = s.memwb := rfl
@[simp] theorem State.setIdex_fetch (s : State) (n : Nat) (r : Slot) : (s.setIdex n r).fetch = s.fetch := rfl
@[simp] theorem State.setIdex_pred (s : State) (n : Nat) (r : Slot) : (s.setIdex n r).pred = s.pred := rfl
@[simp] theorem State.setIdex_l1i (s : State) (n : Nat) (r : Slot) : (s.setIdex n r).l1i = s.l1i := rfl
@[simp] theorem State.setIdex_l1d (s : State) (n : Nat) (r : Slot) : (s.setIdex n r).l1d = s.l1d := rfl
@[simp] theorem State.setIdex_l2 (s : State) (n : Nat) (r : Slot) : (s.setIdex n r).l2 = s.l2 := rfl
@[simp] theorem State.setIdex_mem (s : State) (n : Nat) (r : Slot) : (s.setIdex n r).mem = s.mem := rfl
@[simp] theorem State.setIdex_stats (s : State) (n : Nat) (r : Slot) : (s.setIdex n r).stats = s.stats := rfl

/-! ## `setExmem` -/
@[simp] theorem State.setExmem_cfg (s : State) (n : Nat) (r : Slot) : (s.setExmem n r).cfg = s.cfg := rfl
@[simp] theorem State.setExmem_x (s : State) (n : Nat) (r : Slot) : (s.setExmem n r).x = s.x := rfl
@[simp] theorem State.setExmem_flags (s : State) (n : Nat) (r : Slot) : (s.setExmem n r).flags = s.flags := rfl
@[simp] theorem State.setExmem_status (s : State) (n : Nat) (r : Slot) : (s.setExmem n r).status = s.status := rfl
@[simp] theorem State.setExmem_ifid (s : State) (n : Nat) (r : Slot) : (s.setExmem n r).ifid = s.ifid := rfl
@[simp] theorem State.setExmem_idex (s : State) (n : Nat) (r : Slot) : (s.setExmem n r).idex = s.idex := rfl
@[simp] theorem State.setExmem_exmem (s : State) (n : Nat) (r : Slot) :
    (s.setExmem n r).exmem = s.exmem.set n r := rfl
@[simp] theorem State.setExmem_memwb (s : State) (n : Nat) (r : Slot) : (s.setExmem n r).memwb = s.memwb := rfl
@[simp] theorem State.setExmem_fetch (s : State) (n : Nat) (r : Slot) : (s.setExmem n r).fetch = s.fetch := rfl
@[simp] theorem State.setExmem_pred (s : State) (n : Nat) (r : Slot) : (s.setExmem n r).pred = s.pred := rfl
@[simp] theorem State.setExmem_l1i (s : State) (n : Nat) (r : Slot) : (s.setExmem n r).l1i = s.l1i := rfl
@[simp] theorem State.setExmem_l1d (s : State) (n : Nat) (r : Slot) : (s.setExmem n r).l1d = s.l1d := rfl
@[simp] theorem State.setExmem_l2 (s : State) (n : Nat) (r : Slot) : (s.setExmem n r).l2 = s.l2 := rfl
@[simp] theorem State.setExmem_mem (s : State) (n : Nat) (r : Slot) : (s.setExmem n r).mem = s.mem := rfl
@[simp] theorem State.setExmem_stats (s : State) (n : Nat) (r : Slot) : (s.setExmem n r).stats = s.stats := rfl

/-! ## `setMemwb` -/
@[simp] theorem State.setMemwb_cfg (s : State) (n : Nat) (r : Slot) : (s.setMemwb n r).cfg = s.cfg := rfl
@[simp] theorem State.setMemwb_x (s : State) (n : Nat) (r : Slot) : (s.setMemwb n r).x = s.x := rfl
@[simp] theorem State.setMemwb_flags (s : State) (n : Nat) (r : Slot) : (s.setMemwb n r).flags = s.flags := rfl
@[simp] theorem State.setMemwb_status (s : State) (n : Nat) (r : Slot) : (s.setMemwb n r).status = s.status := rfl
@[simp] theorem State.setMemwb_ifid (s : State) (n : Nat) (r : Slot) : (s.setMemwb n r).ifid = s.ifid := rfl
@[simp] theorem State.setMemwb_idex (s : State) (n : Nat) (r : Slot) : (s.setMemwb n r).idex = s.idex := rfl
@[simp] theorem State.setMemwb_exmem (s : State) (n : Nat) (r : Slot) : (s.setMemwb n r).exmem = s.exmem := rfl
@[simp] theorem State.setMemwb_memwb (s : State) (n : Nat) (r : Slot) :
    (s.setMemwb n r).memwb = s.memwb.set n r := rfl
@[simp] theorem State.setMemwb_fetch (s : State) (n : Nat) (r : Slot) : (s.setMemwb n r).fetch = s.fetch := rfl
@[simp] theorem State.setMemwb_pred (s : State) (n : Nat) (r : Slot) : (s.setMemwb n r).pred = s.pred := rfl
@[simp] theorem State.setMemwb_l1i (s : State) (n : Nat) (r : Slot) : (s.setMemwb n r).l1i = s.l1i := rfl
@[simp] theorem State.setMemwb_l1d (s : State) (n : Nat) (r : Slot) : (s.setMemwb n r).l1d = s.l1d := rfl
@[simp] theorem State.setMemwb_l2 (s : State) (n : Nat) (r : Slot) : (s.setMemwb n r).l2 = s.l2 := rfl
@[simp] theorem State.setMemwb_mem (s : State) (n : Nat) (r : Slot) : (s.setMemwb n r).mem = s.mem := rfl
@[simp] theorem State.setMemwb_stats (s : State) (n : Nat) (r : Slot) : (s.setMemwb n r).stats = s.stats := rfl

/-! ## `passMemory` -/
@[simp] theorem State.passMemory_cfg (s : State) (n : Nat) (r : Slot) : (s.passMemory n r).cfg = s.cfg := rfl
@[simp] theorem State.passMemory_x (s : State) (n : Nat) (r : Slot) : (s.passMemory n r).x = s.x := rfl
@[simp] theorem State.passMemory_flags (s : State) (n : Nat) (r : Slot) : (s.passMemory n r).flags = s.flags := rfl
@[simp] theorem State.passMemory_status (s : State) (n : Nat) (r : Slot) : (s.passMemory n r).status = s.status := rfl
@[simp] theorem State.passMemory_ifid (s : State) (n : Nat) (r : Slot) : (s.passMemory n r).ifid = s.ifid := rfl
@[simp] theorem State.passMemory_idex (s : State) (n : Nat) (r : Slot) : (s.passMemory n r).idex = s.idex := rfl
@[simp] theorem State.passMemory_exmem (s : State) (n : Nat) (r : Slot) :
    (s.passMemory n r).exmem = s.exmem.set n Slot.bubble := rfl
@[simp] theorem State.passMemory_memwb (s : State) (n : Nat) (r : Slot) :
    (s.passMemory n r).memwb = s.memwb.set n r := rfl
@[simp] theorem State.passMemory_fetch (s : State) (n : Nat) (r : Slot) : (s.passMemory n r).fetch = s.fetch := rfl
@[simp] theorem State.passMemory_pred (s : State) (n : Nat) (r : Slot) : (s.passMemory n r).pred = s.pred := rfl
@[simp] theorem State.passMemory_l1i (s : State) (n : Nat) (r : Slot) : (s.passMemory n r).l1i = s.l1i := rfl
@[simp] theorem State.passMemory_l1d (s : State) (n : Nat) (r : Slot) : (s.passMemory n r).l1d = s.l1d := rfl
@[simp] theorem State.passMemory_l2 (s : State) (n : Nat) (r : Slot) : (s.passMemory n r).l2 = s.l2 := rfl
@[simp] theorem State.passMemory_mem (s : State) (n : Nat) (r : Slot) : (s.passMemory n r).mem = s.mem := rfl
@[simp] theorem State.passMemory_stats (s : State) (n : Nat) (r : Slot) : (s.passMemory n r).stats = s.stats := rfl

/-! ## `passExecute` -/
@[simp] theorem State.passExecute_cfg (s : State) (n : Nat) (r : Slot) : (s.passExecute n r).cfg = s.cfg := rfl
@[simp] theorem State.passExecute_x (s : State) (n : Nat) (r : Slot) : (s.passExecute n r).x = s.x := rfl
@[simp] theorem State.passExecute_flags (s : State) (n : Nat) (r : Slot) : (s.passExecute n r).flags = s.flags := rfl
@[simp] theorem State.passExecute_status (s : State) (n : Nat) (r : Slot) :
    (s.passExecute n r).status = s.status := rfl
@[simp] theorem State.passExecute_ifid (s : State) (n : Nat) (r : Slot) : (s.passExecute n r).ifid = s.ifid := rfl
@[simp] theorem State.passExecute_idex (s : State) (n : Nat) (r : Slot) :
    (s.passExecute n r).idex = s.idex.set n Slot.bubble := rfl
@[simp] theorem State.passExecute_exmem (s : State) (n : Nat) (r : Slot) :
    (s.passExecute n r).exmem = s.exmem.set n r := rfl
@[simp] theorem State.passExecute_memwb (s : State) (n : Nat) (r : Slot) : (s.passExecute n r).memwb = s.memwb := rfl
@[simp] theorem State.passExecute_fetch (s : State) (n : Nat) (r : Slot) : (s.passExecute n r).fetch = s.fetch := rfl
@[simp] theorem State.passExecute_pred (s : State) (n : Nat) (r : Slot) : (s.passExecute n r).pred = s.pred := rfl
@[simp] theorem State.passExecute_l1i (s : State) (n : Nat) (r : Slot) : (s.passExecute n r).l1i = s.l1i := rfl
@[simp] theorem State.passExecute_l1d (s : State) (n : Nat) (r : Slot) : (s.passExecute n r).l1d = s.l1d := rfl
@[simp] theorem State.passExecute_l2 (s : State) (n : Nat) (r : Slot) : (s.passExecute n r).l2 = s.l2 := rfl
@[simp] theorem State.passExecute_mem (s : State) (n : Nat) (r : Slot) : (s.passExecute n r).mem = s.mem := rfl
@[simp] theorem State.passExecute_stats (s : State) (n : Nat) (r : Slot) : (s.passExecute n r).stats = s.stats := rfl

/-! ## `issue` -/
@[simp] theorem State.issue_cfg (s : State) (n : Nat) (r : Slot) : (s.issue n r).cfg = s.cfg := rfl
@[simp] theorem State.issue_x (s : State) (n : Nat) (r : Slot) : (s.issue n r).x = s.x := rfl
@[simp] theorem State.issue_flags (s : State) (n : Nat) (r : Slot) : (s.issue n r).flags = s.flags := rfl
@[simp] theorem State.issue_status (s : State) (n : Nat) (r : Slot) : (s.issue n r).status = s.status := rfl
@[simp] theorem State.issue_ifid (s : State) (n : Nat) (r : Slot) :
    (s.issue n r).ifid = s.ifid.set n Slot.bubble := rfl
@[simp] theorem State.issue_idex (s : State) (n : Nat) (r : Slot) : (s.issue n r).idex = s.idex.set n r := rfl
@[simp] theorem State.issue_exmem (s : State) (n : Nat) (r : Slot) : (s.issue n r).exmem = s.exmem := rfl
@[simp] theorem State.issue_memwb (s : State) (n : Nat) (r : Slot) : (s.issue n r).memwb = s.memwb := rfl
@[simp] theorem State.issue_fetch (s : State) (n : Nat) (r : Slot) : (s.issue n r).fetch = s.fetch := rfl
@[simp] theorem State.issue_pred (s : State) (n : Nat) (r : Slot) : (s.issue n r).pred = s.pred := rfl
@[simp] theorem State.issue_l1i (s : State) (n : Nat) (r : Slot) : (s.issue n r).l1i = s.l1i := rfl
@[simp] theorem State.issue_l1d (s : State) (n : Nat) (r : Slot) : (s.issue n r).l1d = s.l1d := rfl
@[simp] theorem State.issue_l2 (s : State) (n : Nat) (r : Slot) : (s.issue n r).l2 = s.l2 := rfl
@[simp] theorem State.issue_mem (s : State) (n : Nat) (r : Slot) : (s.issue n r).mem = s.mem := rfl
@[simp] theorem State.issue_stats (s : State) (n : Nat) (r : Slot) : (s.issue n r).stats = s.stats := rfl

/-! ## `setPc` -/
@[simp] theorem State.setPc_cfg (s : State) (t : Word) : (s.setPc t).cfg = s.cfg := rfl
@[simp] theorem State.setPc_x (s : State) (t : Word) : (s.setPc t).x = s.x := rfl
@[simp] theorem State.setPc_flags (s : State) (t : Word) : (s.setPc t).flags = s.flags := rfl
@[simp] theorem State.setPc_status (s : State) (t : Word) : (s.setPc t).status = s.status := rfl
@[simp] theorem State.setPc_ifid (s : State) (t : Word) : (s.setPc t).ifid = bubbles s.cfg.issueWidth := rfl
@[simp] theorem State.setPc_idex (s : State) (t : Word) : (s.setPc t).idex = bubbles s.cfg.issueWidth := rfl
@[simp] theorem State.setPc_exmem (s : State) (t : Word) : (s.setPc t).exmem = bubbles s.cfg.issueWidth := rfl
@[simp] theorem State.setPc_memwb (s : State) (t : Word) : (s.setPc t).memwb = bubbles s.cfg.issueWidth := rfl
@[simp] theorem State.setPc_fetch (s : State) (t : Word) :
    (s.setPc t).fetch = { s.fetch with fetchPc := t, pending := { s.fetch.pending with valid := false }, fetchBlocked := false } := rfl
@[simp] theorem State.setPc_pred (s : State) (t : Word) : (s.setPc t).pred = s.pred := rfl
@[simp] theorem State.setPc_l1i (s : State) (t : Word) : (s.setPc t).l1i = s.l1i := rfl
@[simp] theorem State.setPc_l1d (s : State) (t : Word) : (s.setPc t).l1d = s.l1d := rfl
@[simp] theorem State.setPc_l2 (s : State) (t : Word) : (s.setPc t).l2 = s.l2 := rfl
@[simp] theorem State.setPc_mem (s : State) (t : Word) : (s.setPc t).mem = s.mem := rfl
@[simp] theorem State.setPc_stats (s : State) (t : Word) : (s.setPc t).stats = s.stats := rfl

/-! ## `advance` -/
@[simp] theorem State.advance_cfg (s : State) (t : Word) : (s.advance t).cfg = s.cfg := rfl
@[simp] theorem State.advance_x (s : State) (t : Word) : (s.advance t).x = s.x := rfl
@[simp] theorem State.advance_flags (s : State) (t : Word) : (s.advance t).flags = s.flags := rfl
@[simp] theorem State.advance_status (s : State) (t : Word) : (s.advance t).status = s.status := rfl
@[simp] theorem State.advance_ifid (s : State) (t : Word) : (s.advance t).ifid = bubbles s.cfg.issueWidth := rfl
@[simp] theorem State.advance_idex (s : State) (t : Word) : (s.advance t).idex = bubbles s.cfg.issueWidth := rfl
@[simp] theorem State.advance_exmem (s : State) (t : Word) : (s.advance t).exmem = bubbles s.cfg.issueWidth := rfl
@[simp] theorem State.advance_memwb (s : State) (t : Word) : (s.advance t).memwb = bubbles s.cfg.issueWidth := rfl
@[simp] theorem State.advance_fetch (s : State) (t : Word) :
    (s.advance t).fetch = { s.fetch with fetchPc := t + s.ib, pending := { s.fetch.pending with valid := false }, fetchBlocked := false } := rfl
@[simp] theorem State.advance_pred (s : State) (t : Word) : (s.advance t).pred = s.pred := rfl
@[simp] theorem State.advance_l1i (s : State) (t : Word) : (s.advance t).l1i = s.l1i := rfl
@[simp] theorem State.advance_l1d (s : State) (t : Word) : (s.advance t).l1d = s.l1d := rfl
@[simp] theorem State.advance_l2 (s : State) (t : Word) : (s.advance t).l2 = s.l2 := rfl
@[simp] theorem State.advance_mem (s : State) (t : Word) : (s.advance t).mem = s.mem := rfl
@[simp] theorem State.advance_stats (s : State) (t : Word) : (s.advance t).stats = s.stats := rfl

/-! ## `updatePredictor` -/
@[simp] theorem State.updatePredictor_cfg (s : State) (pc : Word) (taken : Bool) (t : Word) :
    (s.updatePredictor pc taken t).cfg = s.cfg := rfl
@[simp] theorem State.updatePredictor_x (s : State) (pc : Word) (taken : Bool) (t : Word) :
    (s.updatePredictor pc taken t).x = s.x := rfl
@[simp] theorem State.updatePredictor_flags (s : State) (pc : Word) (taken : Bool) (t : Word) :
    (s.updatePredictor pc taken t).flags = s.flags := rfl
@[simp] theorem State.updatePredictor_status (s : State) (pc : Word) (taken : Bool) (t : Word) :
    (s.updatePredictor pc taken t).status = s.status := rfl
@[simp] theorem State.updatePredictor_ifid (s : State) (pc : Word) (taken : Bool) (t : Word) :
    (s.updatePredictor pc taken t).ifid = s.ifid := rfl
@[simp] theorem State.updatePredictor_idex (s : State) (pc : Word) (taken : Bool) (t : Word) :
    (s.updatePredictor pc taken t).idex = s.idex := rfl
@[simp] theorem State.updatePredictor_exmem (s : State) (pc : Word) (taken : Bool) (t : Word) :
    (s.updatePredictor pc taken t).exmem = s.exmem := rfl
@[simp] theorem State.updatePredictor_memwb (s : State) (pc : Word) (taken : Bool) (t : Word) :
    (s.updatePredictor pc taken t).memwb = s.memwb := rfl
@[simp] theorem State.updatePredictor_fetch (s : State) (pc : Word) (taken : Bool) (t : Word) :
    (s.updatePredictor pc taken t).fetch = s.fetch := rfl
@[simp] theorem State.updatePredictor_pred (s : State) (pc : Word) (taken : Bool) (t : Word) :
    (s.updatePredictor pc taken t).pred = predictorUpdate s.cfg s.pred pc taken t := rfl
@[simp] theorem State.updatePredictor_l1i (s : State) (pc : Word) (taken : Bool) (t : Word) :
    (s.updatePredictor pc taken t).l1i = s.l1i := rfl
@[simp] theorem State.updatePredictor_l1d (s : State) (pc : Word) (taken : Bool) (t : Word) :
    (s.updatePredictor pc taken t).l1d = s.l1d := rfl
@[simp] theorem State.updatePredictor_l2 (s : State) (pc : Word) (taken : Bool) (t : Word) :
    (s.updatePredictor pc taken t).l2 = s.l2 := rfl
@[simp] theorem State.updatePredictor_mem (s : State) (pc : Word) (taken : Bool) (t : Word) :
    (s.updatePredictor pc taken t).mem = s.mem := rfl
@[simp] theorem State.updatePredictor_stats (s : State) (pc : Word) (taken : Bool) (t : Word) :
    (s.updatePredictor pc taken t).stats = s.stats := rfl

/-! ## `countCycle` -/
@[simp] theorem State.countCycle_cfg (s : State) : (s.countCycle).cfg = s.cfg := rfl
@[simp] theorem State.countCycle_x (s : State) : (s.countCycle).x = s.x := rfl
@[simp] theorem State.countCycle_flags (s : State) : (s.countCycle).flags = s.flags := rfl
@[simp] theorem State.countCycle_status (s : State) : (s.countCycle).status = s.status := rfl
@[simp] theorem State.countCycle_ifid (s : State) : (s.countCycle).ifid = s.ifid := rfl
@[simp] theorem State.countCycle_idex (s : State) : (s.countCycle).idex = s.idex := rfl
@[simp] theorem State.countCycle_exmem (s : State) : (s.countCycle).exmem = s.exmem := rfl
@[simp] theorem State.countCycle_memwb (s : State) : (s.countCycle).memwb = s.memwb := rfl
@[simp] theorem State.countCycle_fetch (s : State) : (s.countCycle).fetch = s.fetch := rfl
@[simp] theorem State.countCycle_pred (s : State) : (s.countCycle).pred = s.pred := rfl
@[simp] theorem State.countCycle_l1i (s : State) : (s.countCycle).l1i = s.l1i := rfl
@[simp] theorem State.countCycle_l1d (s : State) : (s.countCycle).l1d = s.l1d := rfl
@[simp] theorem State.countCycle_l2 (s : State) : (s.countCycle).l2 = s.l2 := rfl
@[simp] theorem State.countCycle_mem (s : State) : (s.countCycle).mem = s.mem := rfl
@[simp] theorem State.countCycle_stats (s : State) :
    (s.countCycle).stats = { s.stats with cycles := s.stats.cycles + 1 } := rfl

/-! ## `withL1d` -/
@[simp] theorem State.withL1d_cfg (s : State) (l : Level L2Level) : (s.withL1d l).cfg = s.cfg := rfl
@[simp] theorem State.withL1d_x (s : State) (l : Level L2Level) : (s.withL1d l).x = s.x := rfl
@[simp] theorem State.withL1d_flags (s : State) (l : Level L2Level) : (s.withL1d l).flags = s.flags := rfl
@[simp] theorem State.withL1d_status (s : State) (l : Level L2Level) : (s.withL1d l).status = s.status := rfl
@[simp] theorem State.withL1d_ifid (s : State) (l : Level L2Level) : (s.withL1d l).ifid = s.ifid := rfl
@[simp] theorem State.withL1d_idex (s : State) (l : Level L2Level) : (s.withL1d l).idex = s.idex := rfl
@[simp] theorem State.withL1d_exmem (s : State) (l : Level L2Level) : (s.withL1d l).exmem = s.exmem := rfl
@[simp] theorem State.withL1d_memwb (s : State) (l : Level L2Level) : (s.withL1d l).memwb = s.memwb := rfl
@[simp] theorem State.withL1d_fetch (s : State) (l : Level L2Level) : (s.withL1d l).fetch = s.fetch := rfl
@[simp] theorem State.withL1d_pred (s : State) (l : Level L2Level) : (s.withL1d l).pred = s.pred := rfl
@[simp] theorem State.withL1d_l1i (s : State) (l : Level L2Level) : (s.withL1d l).l1i = s.l1i := rfl
@[simp] theorem State.withL1d_l1d (s : State) (l : Level L2Level) : (s.withL1d l).l1d = l.cache := rfl
@[simp] theorem State.withL1d_l2 (s : State) (l : Level L2Level) : (s.withL1d l).l2 = l.below.cache := rfl
@[simp] theorem State.withL1d_mem (s : State) (l : Level L2Level) : (s.withL1d l).mem = l.below.below := rfl
@[simp] theorem State.withL1d_stats (s : State) (l : Level L2Level) : (s.withL1d l).stats = s.stats := rfl

/-! ## `withL1i` -/
@[simp] theorem State.withL1i_cfg (s : State) (l : Level L2Level) : (s.withL1i l).cfg = s.cfg := rfl
@[simp] theorem State.withL1i_x (s : State) (l : Level L2Level) : (s.withL1i l).x = s.x := rfl
@[simp] theorem State.withL1i_flags (s : State) (l : Level L2Level) : (s.withL1i l).flags = s.flags := rfl
@[simp] theorem State.withL1i_status (s : State) (l : Level L2Level) : (s.withL1i l).status = s.status := rfl
@[simp] theorem State.withL1i_ifid (s : State) (l : Level L2Level) : (s.withL1i l).ifid = s.ifid := rfl
@[simp] theorem State.withL1i_idex (s : State) (l : Level L2Level) : (s.withL1i l).idex = s.idex := rfl
@[simp] theorem State.withL1i_exmem (s : State) (l : Level L2Level) : (s.withL1i l).exmem = s.exmem := rfl
@[simp] theorem State.withL1i_memwb (s : State) (l : Level L2Level) : (s.withL1i l).memwb = s.memwb := rfl
@[simp] theorem State.withL1i_fetch (s : State) (l : Level L2Level) : (s.withL1i l).fetch = s.fetch := rfl
@[simp] theorem State.withL1i_pred (s : State) (l : Level L2Level) : (s.withL1i l).pred = s.pred := rfl
@[simp] theorem State.withL1i_l1i (s : State) (l : Level L2Level) : (s.withL1i l).l1i = l.cache := rfl
@[simp] theorem State.withL1i_l1d (s : State) (l : Level L2Level) : (s.withL1i l).l1d = s.l1d := rfl
@[simp] theorem State.withL1i_l2 (s : State) (l : Level L2Level) : (s.withL1i l).l2 = l.below.cache := rfl
@[simp] theorem State.withL1i_mem (s : State) (l : Level L2Level) : (s.withL1i l).mem = l.below.below := rfl
@[simp] theorem State.withL1i_stats (s : State) (l : Level L2Level) : (s.withL1i l).stats = s.stats := rfl

/-! ## `poison` -/
@[simp] theorem State.poison_cfg (s : State) (n : Nat) (pc : Word) (k : SlotFault) :
    (s.poison n pc k).cfg = s.cfg := rfl
@[simp] theorem State.poison_x (s : State) (n : Nat) (pc : Word) (k : SlotFault) : (s.poison n pc k).x = s.x := rfl
@[simp] theorem State.poison_flags (s : State) (n : Nat) (pc : Word) (k : SlotFault) :
    (s.poison n pc k).flags = s.flags := rfl
@[simp] theorem State.poison_status (s : State) (n : Nat) (pc : Word) (k : SlotFault) :
    (s.poison n pc k).status = s.status := rfl
@[simp] theorem State.poison_ifid (s : State) (n : Nat) (pc : Word) (k : SlotFault) :
    (s.poison n pc k).ifid = s.ifid.set n { Slot.bubble with valid := true, pc := pc, fault := k, faultCycle := s.stats.cycles } := rfl
@[simp] theorem State.poison_idex (s : State) (n : Nat) (pc : Word) (k : SlotFault) :
    (s.poison n pc k).idex = s.idex := rfl
@[simp] theorem State.poison_exmem (s : State) (n : Nat) (pc : Word) (k : SlotFault) :
    (s.poison n pc k).exmem = s.exmem := rfl
@[simp] theorem State.poison_memwb (s : State) (n : Nat) (pc : Word) (k : SlotFault) :
    (s.poison n pc k).memwb = s.memwb := rfl
@[simp] theorem State.poison_fetch (s : State) (n : Nat) (pc : Word) (k : SlotFault) :
    (s.poison n pc k).fetch = { s.fetch with fetchBlocked := true } := rfl
@[simp] theorem State.poison_pred (s : State) (n : Nat) (pc : Word) (k : SlotFault) :
    (s.poison n pc k).pred = s.pred := rfl
@[simp] theorem State.poison_l1i (s : State) (n : Nat) (pc : Word) (k : SlotFault) :
    (s.poison n pc k).l1i = s.l1i := rfl
@[simp] theorem State.poison_l1d (s : State) (n : Nat) (pc : Word) (k : SlotFault) :
    (s.poison n pc k).l1d = s.l1d := rfl
@[simp] theorem State.poison_l2 (s : State) (n : Nat) (pc : Word) (k : SlotFault) : (s.poison n pc k).l2 = s.l2 := rfl
@[simp] theorem State.poison_mem (s : State) (n : Nat) (pc : Word) (k : SlotFault) :
    (s.poison n pc k).mem = s.mem := rfl
@[simp] theorem State.poison_stats (s : State) (n : Nat) (pc : Word) (k : SlotFault) :
    (s.poison n pc k).stats = s.stats := rfl

/-! ## `flushStep` -/
@[simp] theorem flushStep_cfg (s : State) (pc : Word) : (flushStep s pc).cfg = s.cfg := rfl
@[simp] theorem flushStep_x (s : State) (pc : Word) : (flushStep s pc).x = s.x := rfl
@[simp] theorem flushStep_flags (s : State) (pc : Word) : (flushStep s pc).flags = s.flags := rfl
@[simp] theorem flushStep_status (s : State) (pc : Word) : (flushStep s pc).status = s.status := rfl
@[simp] theorem flushStep_ifid (s : State) (pc : Word) : (flushStep s pc).ifid = bubbles s.cfg.issueWidth := rfl
@[simp] theorem flushStep_idex (s : State) (pc : Word) : (flushStep s pc).idex = bubbles s.cfg.issueWidth := rfl
@[simp] theorem flushStep_exmem (s : State) (pc : Word) : (flushStep s pc).exmem = s.exmem := rfl
@[simp] theorem flushStep_memwb (s : State) (pc : Word) : (flushStep s pc).memwb = s.memwb := rfl
@[simp] theorem flushStep_fetch (s : State) (pc : Word) :
    (flushStep s pc).fetch = { fetchPc := pc, pending := { s.fetch.pending with valid := false }, redirectStall := s.cfg.mispredictPenalty, fetchBlocked := false } := rfl
@[simp] theorem flushStep_pred (s : State) (pc : Word) : (flushStep s pc).pred = s.pred := rfl
@[simp] theorem flushStep_l1i (s : State) (pc : Word) : (flushStep s pc).l1i = s.l1i := rfl
@[simp] theorem flushStep_l1d (s : State) (pc : Word) : (flushStep s pc).l1d = s.l1d := rfl
@[simp] theorem flushStep_l2 (s : State) (pc : Word) : (flushStep s pc).l2 = s.l2 := rfl
@[simp] theorem flushStep_mem (s : State) (pc : Word) : (flushStep s pc).mem = s.mem := rfl
@[simp] theorem flushStep_stats (s : State) (pc : Word) :
    (flushStep s pc).stats = { s.stats with flushes := s.stats.flushes + 1 } := rfl

/-! ## `servePenalty` -/
@[simp] theorem servePenalty_cfg (s : State) : (servePenalty s).cfg = s.cfg := rfl
@[simp] theorem servePenalty_x (s : State) : (servePenalty s).x = s.x := rfl
@[simp] theorem servePenalty_flags (s : State) : (servePenalty s).flags = s.flags := rfl
@[simp] theorem servePenalty_status (s : State) : (servePenalty s).status = s.status := rfl
@[simp] theorem servePenalty_ifid (s : State) : (servePenalty s).ifid = s.ifid := rfl
@[simp] theorem servePenalty_idex (s : State) : (servePenalty s).idex = s.idex := rfl
@[simp] theorem servePenalty_exmem (s : State) : (servePenalty s).exmem = s.exmem := rfl
@[simp] theorem servePenalty_memwb (s : State) : (servePenalty s).memwb = s.memwb := rfl
@[simp] theorem servePenalty_fetch (s : State) :
    (servePenalty s).fetch = { s.fetch with redirectStall := s.fetch.redirectStall - 1 } := rfl
@[simp] theorem servePenalty_pred (s : State) : (servePenalty s).pred = s.pred := rfl
@[simp] theorem servePenalty_l1i (s : State) : (servePenalty s).l1i = s.l1i := rfl
@[simp] theorem servePenalty_l1d (s : State) : (servePenalty s).l1d = s.l1d := rfl
@[simp] theorem servePenalty_l2 (s : State) : (servePenalty s).l2 = s.l2 := rfl
@[simp] theorem servePenalty_mem (s : State) : (servePenalty s).mem = s.mem := rfl
@[simp] theorem servePenalty_stats (s : State) :
    (servePenalty s).stats = { s.stats with stallMispredict := s.stats.stallMispredict + 1 } := rfl

/-! ## `setDest` on the register file, `whileRunning` -/

@[simp] theorem State.setDest_none (s : State) (v : Word) : s.setDest none v = s := rfl
@[simp] theorem State.setDest_some (s : State) (r : Reg) (v : Word) : s.setDest (some r) v = s.setReg r v := rfl

/-- A committed destination holds the result; every other register is as before (R191, R23). -/
theorem State.commit_reg (s : State) (rd : Option Reg) (v : Word) (b : Bool) (f : Nzcv) (r : Reg) :
    (s.commit rd v b f).reg r = if rd = some r then v else s.reg r := by
  cases rd with
  | none => simp [State.reg]
  | some q => simp [State.reg, regFileRead_write]

theorem State.isRunning_iff (s : State) : s.isRunning = true ↔ s.status = .running := by simp [State.isRunning]

theorem State.whileRunning_running {s : State} (h : s.status = .running) (f : State → State) :
    s.whileRunning f = f s := by simp [State.whileRunning, State.isRunning, h]

theorem State.whileRunning_stopped {s : State} (h : s.status ≠ .running) (f : State → State) :
    s.whileRunning f = s := by simp [State.whileRunning, State.isRunning, h]

end Sys2Proof.Machine
end

