-- ==== Sys2Proof/Laws/DataView.lean ====
section
/-!
SUPPORT. The access primitives of the core on a coherent state (`spec/20_memory.md` R66 to R68, R72): `MemRead` answers the
bytes of the data view and changes none, `MemWrite` changes exactly its own bytes, an instruction read changes none; each
keeps the state coherent and leaves everything but its caches and main memory as it was.
-/

namespace Sys2Proof.Machine

/-! ## Geometry of a valid configuration (R11) -/

theorem cfgValid_field {c : Cfg} (h : cfgValid c = true) (f : CfgField) : fieldValueOk c f = true := by
  have := List.all_eq_true.1 h f
  apply this
  cases f <;> decide

theorem usable_of_conditions {g : CacheCfg} (hs : cacheSizeOk g = true) (ha : decide (1 ≤ g.assoc) = true) (hl : 1 ≤ g.line) :
    usable g := by
  simp only [cacheSizeOk, dividesEvenly, Bool.and_eq_true, decide_eq_true_eq, Bool.or_eq_true] at hs ha
  refine ⟨hl, ha, ?_⟩
  have hp : 0 < g.assoc * g.line := Nat.mul_pos ha hl
  rcases hs.2 with h | h
  · omega
  · exact Nat.div_pos (Nat.le_of_dvd hs.1 (Nat.dvd_of_mod_eq_zero h)) hp

theorem cfgValid_usable_l1i {c : Cfg} (h : cfgValid c = true) : usable c.l1i := by
  have h1 := cfgValid_field h .l1iLine
  simp only [fieldValueOk, Bool.and_eq_true, decide_eq_true_eq] at h1
  exact usable_of_conditions (cfgValid_field h .l1iSize) (cfgValid_field h .l1iAssoc) h1.1

theorem cfgValid_usable_l1d {c : Cfg} (h : cfgValid c = true) : usable c.l1d :=
  usable_of_conditions (cfgValid_field h .l1dSize) (cfgValid_field h .l1dAssoc)
    (by have h1 := cfgValid_field h .l1dLine; simpa [fieldValueOk] using h1)

theorem cfgValid_usable_l2 {c : Cfg} (h : cfgValid c = true) : usable c.l2 := by
  have h1 := cfgValid_field h .l2Line
  simp only [fieldValueOk, Bool.and_eq_true, decide_eq_true_eq] at h1
  exact usable_of_conditions (cfgValid_field h .l2Size) (cfgValid_field h .l2Assoc) h1.1.1

/-- R11 (e): an `L2` line is a whole number of lines of each L1 cache. -/
theorem cfgValid_lines_nest {c : Cfg} (h : cfgValid c = true) :
    c.l2.line % c.l1i.line = 0 ∧ c.l2.line % c.l1d.line = 0 := by
  have h1 := cfgValid_field h .l2Line
  have hi := (cfgValid_usable_l1i h).1
  have hd := (cfgValid_usable_l1d h).1
  simp only [fieldValueOk, dividesEvenly, Bool.and_eq_true, Bool.or_eq_true, decide_eq_true_eq] at h1
  exact ⟨h1.1.2.resolve_left (by omega), h1.2.resolve_left (by omega)⟩

/-! ## The data view as a view of levels -/

theorem State.l2View_eq (s : State) : s.l2View = levelView s.cfg.l2 memByte s.l2Level := rfl

theorem State.dview_eq (s : State) :
    s.dview = levelView s.cfg.l1d (levelView s.cfg.l2 memByte) ⟨s.l1d, s.l2Level⟩ := rfl

/-- The L1 data path of a coherent state is a sound level over a sound `L2`. -/
theorem State.coherent.l1dSound {s : State} (h : s.coherent) :
    levelSound s.cfg.l1d (l2Sound s.cfg.l2) (levelView s.cfg.l2 memByte) ⟨s.l1d, s.l2Level⟩ :=
  ⟨⟨trivial, h.1⟩, h.2.1⟩

theorem coherent_of_l1dSound {s : State} {l : Level L2Level}
    (h : levelSound s.cfg.l1d (l2Sound s.cfg.l2) (levelView s.cfg.l2 memByte) l) (hi : neverDirty s.cfg.l1i s.l1i)
    (hf : linesFull s.cfg.l1i s.l1i) : (s.withL1d l).coherent :=
  ⟨h.1.2, h.2, hi, hf⟩

/-- What a state keeps when only its data caches and main memory change. -/
def onlyDataChanged (s t : State) : Prop := t = { s with l1d := t.l1d, l2 := t.l2, mem := t.mem }

theorem onlyDataChanged_withL1d (s : State) (l : Level L2Level) : onlyDataChanged s (s.withL1d l) := rfl

theorem onlyDataChanged.refl (s : State) : onlyDataChanged s s := rfl

theorem onlyDataChanged.trans {s t u : State} (h : onlyDataChanged s t) (h' : onlyDataChanged t u) : onlyDataChanged s u := by
  unfold onlyDataChanged at *
  rw [h'] at *
  rw [h]

/-- One request to `L1D`: a read of the view (R345). -/
theorem l1dRead_spec {s : State} (hc : cfgValid s.cfg = true) (h : s.coherent) {a n : Nat} (hr : inOneLine s.cfg.l1d a n) :
    (s.withL1d (s.l1dRead a n).level).coherent ∧ (s.withL1d (s.l1dRead a n).level).dview = s.dview ∧
      (s.l1dRead a n).bytes = viewBytes s.dview a n := by
  obtain ⟨h1, h2, h3, -⟩ := cacheRead_spec (l2Backing_lawful (cfgValid_usable_l2 hc)) (cfgValid_usable_l1d hc)
    (line_inOneLine (cfgValid_usable_l1d hc) (cfgValid_usable_l2 hc) (cfgValid_lines_nest hc).2) h.l1dSound hr
  exact ⟨coherent_of_l1dSound h1 h.2.2.1 h.2.2.2, h2, h3⟩

/-- One request to `L1D`: a write into the view (R348). -/
theorem l1dWrite_spec {s : State} (hc : cfgValid s.cfg = true) (h : s.coherent) {a : Nat} {bytes : List Byte}
    (hr : inOneLine s.cfg.l1d a bytes.length) :
    (s.withL1d (s.l1dWrite a bytes).level).coherent ∧
      (s.withL1d (s.l1dWrite a bytes).level).dview = viewWrite s.dview a bytes := by
  obtain ⟨h1, h2, -⟩ := cacheWrite_spec (l2Backing_lawful (cfgValid_usable_l2 hc)) (cfgValid_usable_l1d hc)
    (line_inOneLine (cfgValid_usable_l1d hc) (cfgValid_usable_l2 hc) (cfgValid_lines_nest hc).2) h.l1dSound hr
  exact ⟨coherent_of_l1dSound h1 h.2.2.1 h.2.2.2, h2⟩

/-! ## `MemRead` and `MemWrite` -/

theorem viewBytes_append (V : Nat → Byte) (a m k : Nat) : viewBytes V a m ++ viewBytes V (a + m) k = viewBytes V a (m + k) := by
  unfold viewBytes
  rw [List.range_add, List.map_append, List.map_map]
  congr 1
  apply List.map_congr_left
  intro i _
  show V (a + m + i) = V (a + (m + i))
  rw [Nat.add_assoc]

theorem viewWrite_append (V : Nat → Byte) (a : Nat) (b₁ b₂ : List Byte) :
    viewWrite (viewWrite V a b₁) (a + b₁.length) b₂ = viewWrite V a (b₁ ++ b₂) := by
  funext x
  simp only [viewWrite, List.length_append, List.getD_eq_getElem?_getD]
  by_cases h1 : a + b₁.length ≤ x ∧ x < a + b₁.length + b₂.length
  · rw [if_pos h1, if_pos (by omega), List.getElem?_append_right (by omega)]
    congr 2
    omega
  · rw [if_neg h1]
    by_cases h2 : a ≤ x ∧ x < a + b₁.length
    · rw [if_pos h2, if_pos (by omega), List.getElem?_append_left (by omega)]
    · rw [if_neg h2, if_neg (by omega)]

/-- The first request of an access stays in its line, and the rest is shorter. -/
theorem firstRequest {line a n : Nat} (hl : 0 < line) (hn : n ≠ 0) :
    1 ≤ min n (line - a % line) ∧ a % line + min n (line - a % line) ≤ line := by
  have := Nat.mod_lt a hl
  omega

/-- The loop of `MemRead` over the requests of an access. -/
theorem readRequests_spec {line : Nat} (fuel : Nat) : ∀ (s : State) (a n : Nat), cfgValid s.cfg = true → s.coherent →
    s.cfg.l1d.line = line → n ≤ fuel →
    let q := readRequests s (lineRequests line fuel a n)
    q.state.coherent ∧ q.state.dview = s.dview ∧ q.bytes = viewBytes s.dview a n ∧ onlyDataChanged s q.state := by
  induction fuel with
  | zero =>
    intro s a n _ h _ hn
    obtain rfl : n = 0 := by omega
    exact ⟨h, rfl, rfl, rfl⟩
  | succ fuel ih =>
    intro s a n hc h hline hn
    simp only [lineRequests]
    split_ifs with h0
    · subst h0
      exact ⟨h, rfl, rfl, rfl⟩
    · have hl : 0 < line := hline ▸ (cfgValid_usable_l1d hc).1
      obtain ⟨f1, f2⟩ := firstRequest (a := a) hl h0
      set m := min n (line - a % line) with hm
      have hr : inOneLine s.cfg.l1d a m := by rw [inOneLine, hline]; exact ⟨f1, f2⟩
      obtain ⟨r1, r2, r3⟩ := l1dRead_spec hc h hr
      obtain ⟨q1, q2, q3, q4⟩ := ih (s.withL1d (s.l1dRead a m).level) (a + m) (n - m) hc r1 hline (by omega)
      refine ⟨q1, q2.trans r2, ?_, (onlyDataChanged_withL1d s _).trans q4⟩
      show (s.l1dRead a m).bytes ++ _ = _
      rw [r3, q3, r2, viewBytes_append]
      congr 1
      omega

/-- Everything `MemRead` can do on a coherent state: it answers the bytes of the data view, changes none of them, and
changes nothing but the data caches and main memory (R66, R72). -/
theorem memRead_spec {s : State} (hc : cfgValid s.cfg = true) (h : s.coherent) (addr : Word) (n : Nat) :
    (s.memRead addr n).state.coherent ∧ (s.memRead addr n).state.dview = s.dview ∧
      (s.memRead addr n).bytes = viewBytes s.dview addr.toNat n ∧ onlyDataChanged s (s.memRead addr n).state :=
  readRequests_spec n s addr.toNat n hc h rfl le_rfl

/-- The loop of `MemWrite` over the requests of an access. -/
theorem writeRequests_spec {line : Nat} (fuel : Nat) : ∀ (s : State) (a : Nat) (bytes : List Byte), cfgValid s.cfg = true →
    s.coherent → s.cfg.l1d.line = line → bytes.length ≤ fuel →
    let q := writeRequests s (lineRequests line fuel a bytes.length) bytes
    q.state.coherent ∧ q.state.dview = viewWrite s.dview a bytes ∧ onlyDataChanged s q.state := by
  have hnil : ∀ (V : Nat → Byte) (a : Nat), viewWrite V a [] = V := fun V a => funext fun x => by
    rw [viewWrite, if_neg (by simp)]
  induction fuel with
  | zero =>
    intro s a bytes _ h _ hn
    obtain rfl : bytes = [] := List.length_eq_zero_iff.1 (by omega)
    exact ⟨h, (hnil _ _).symm, rfl⟩
  | succ fuel ih =>
    intro s a bytes hc h hline hn
    simp only [lineRequests]
    split_ifs with h0
    · obtain rfl : bytes = [] := List.length_eq_zero_iff.1 h0
      exact ⟨h, (hnil _ _).symm, rfl⟩
    · have hl : 0 < line := hline ▸ (cfgValid_usable_l1d hc).1
      obtain ⟨f1, f2⟩ := firstRequest (a := a) hl h0
      set m := min bytes.length (line - a % line) with hm
      have hmle : m ≤ bytes.length := by omega
      have hlen : (bytes.take m).length = m := by rw [List.length_take]; omega
      have hr : inOneLine s.cfg.l1d a (bytes.take m).length := by rw [inOneLine, hline, hlen]; exact ⟨f1, f2⟩
      obtain ⟨r1, r2⟩ := l1dWrite_spec hc h hr
      obtain ⟨q1, q2, q3⟩ := ih (s.withL1d (s.l1dWrite a (bytes.take m)).level) (a + m) (bytes.drop m) hc r1 hline
        (by rw [List.length_drop]; omega)
      rw [List.length_drop] at q1 q2 q3
      refine ⟨q1, q2.trans ?_, (onlyDataChanged_withL1d s _).trans q3⟩
      have e := viewWrite_append s.dview a (bytes.take m) (bytes.drop m)
      rw [hlen, List.take_append_drop] at e
      rw [r2, e]

@[simp] theorem leBytes_length (n v : Nat) : (leBytes n v).length = n := by
  induction n generalizing v with
  | zero => rfl
  | succ n ih => rw [leBytes, List.length_cons, ih]

/-- Everything `MemWrite` can do on a coherent state: exactly its own bytes of the data view change, and nothing but the
data caches and main memory (R67, R72). -/
theorem memWrite_spec {s : State} (hc : cfgValid s.cfg = true) (h : s.coherent) (addr : Word) (n : Nat) (v : Word) :
    (s.memWrite addr n v).state.coherent ∧
      (s.memWrite addr n v).state.dview = viewWrite s.dview addr.toNat (leBytes n v.toNat) ∧
      onlyDataChanged s (s.memWrite addr n v).state := by
  have := writeRequests_spec (line := s.cfg.l1d.line) n s addr.toNat (leBytes n v.toNat) hc h rfl (by rw [leBytes_length])
  rw [leBytes_length] at this
  exact this

/-! ## The instruction path -/

theorem neverDirty_setDir {g : CacheCfg} {c : Cache} (h : neverDirty g c) {e : DirEntry} (he : e.dirty = false) (set w : Nat) :
    neverDirty g (setDir g c set w e) := by
  intro s₂ w₂
  unfold dirAt setDir
  rw [tableGet_set]
  split_ifs
  · exact he
  · exact h s₂ w₂

theorem neverDirty_touch {g : CacheCfg} {c : Cache} (h : neverDirty g c) (set w : Nat) : neverDirty g (touch g c set w) :=
  neverDirty_setDir (c := { c with clock := c.clock + 1 })
    (e := { dirAt g { c with clock := c.clock + 1 } set w with lru := c.clock + 1 }) h (h set w) set w

/-- Evicting from a cache that is never dirty writes nothing back (R349). -/
theorem evict_clean {β : Type} {g : CacheCfg} {B : Backing β} {l : Level β} (h : neverDirty g l.cache) (set w : Nat) :
    (evict g B l set w).below = l.below ∧ (evict g B l set w).cache.dir = l.cache.dir ∧
      (evict g B l set w).cache.data = l.cache.data := by
  have hd := h set w
  unfold evict
  by_cases hv : (dirAt g l.cache set w).valid = true
  · rw [if_pos hv, if_neg (by rw [hd]; exact Bool.false_ne_true)]
    exact ⟨rfl, rfl, rfl⟩
  · rw [if_neg hv]
    exact ⟨rfl, rfl, rfl⟩

/-- A read through a cache that is never dirty reads the store below and writes nothing to it: at most one line is read,
and the cache stays as it has to be (R345, R349, R355 (d)). -/
theorem cacheRead_clean {β : Type} {g : CacheCfg} {B : Backing β} {l : Level β} (hg : usable g) (h : neverDirty g l.cache)
    (hf : linesFull g l.cache) {a : Nat}
    (hlen : (B.read l.below (lineBase g (setOf g a) (tagOf g a)) g.line).bytes.length = g.line) (n : Nat) :
    neverDirty g (cacheRead g B l a n).level.cache ∧ linesFull g (cacheRead g B l a n).level.cache ∧
      ((cacheRead g B l a n).level.below = l.below ∨
        (cacheRead g B l a n).level.below = (B.read l.below (lineBase g (setOf g a) (tagOf g a)) g.line).store) := by
  rcases hlk : lookup g l.cache (setOf g a) (tagOf g a) with _ | w
  · rw [cacheRead_miss hlk]
    simp only [install]
    set c0 : Cache := { l.cache with sb := { l.cache.sb with valid := false }, misses := l.cache.misses + 1 } with hc0
    have hw := victim_lt hg c0 (setOf g a)
    obtain ⟨e1, e2, e3⟩ := evict_clean (B := B) (l := ⟨c0, l.below⟩) h (setOf g a) (victim g c0 (setOf g a))
    set l1 := evict g B ⟨c0, l.below⟩ (setOf g a) (victim g c0 (setOf g a)) with hl1
    have h1 : neverDirty g l1.cache := fun s₂ w₂ => by
      unfold dirAt
      rw [e2]
      exact h s₂ w₂
    have h2 := neverDirty_setDir h1
      (e := ⟨true, false, tagOf g a, (dirAt g l1.cache (setOf g a) (victim g c0 (setOf g a))).lru⟩) rfl (setOf g a)
      (victim g c0 (setOf g a))
    refine ⟨neverDirty_touch (c := setData g (setDir g l1.cache (setOf g a) (victim g c0 (setOf g a)) _) (setOf g a)
      (victim g c0 (setOf g a)) _) h2 _ _, ?_, Or.inr (by rw [e1])⟩
    intro s₂ w₂ hs₂ h2
    rw [dataAt_touch, dataAt_setData _ _ hw h2, dataAt_setDir]
    split_ifs
    · rw [e1]
      exact hlen
    · unfold dataAt
      rw [e3]
      exact hf s₂ w₂ hs₂ h2
  · rw [cacheRead_hit hlk]
    exact ⟨neverDirty_touch
        (c := { l.cache with sb := { l.cache.sb with valid := false }, hits := l.cache.hits + 1 }) h _ _,
      fun s₂ w₂ hs₂ h2 => hf s₂ w₂ hs₂ h2, Or.inl rfl⟩

/-- What a state keeps when only its instruction cache, `L2` and main memory change. -/
def onlyFetchChanged (s t : State) : Prop := t = { s with l1i := t.l1i, l2 := t.l2, mem := t.mem }

/-- Everything an instruction read can do on a coherent state: it changes `L1I`, `L2` and main memory, and no byte of the
data view (R68, R278). -/
theorem fetchRead_spec {s : State} (hc : cfgValid s.cfg = true) (h : s.coherent) (pc : Word) :
    (s.fetchRead pc).state.coherent ∧ (s.fetchRead pc).state.dview = s.dview ∧ onlyFetchChanged s (s.fetchRead pc).state := by
  have hL := l2Backing_lawful (cfgValid_usable_l2 hc)
  have hl2 : l2Sound s.cfg.l2 s.l2Level := ⟨trivial, h.1⟩
  have hr := line_inOneLine (cfgValid_usable_l1i hc) (cfgValid_usable_l2 hc) (cfgValid_lines_nest hc).1
    (setOf s.cfg.l1i pc.toNat) (tagOf s.cfg.l1i pc.toNat)
  have hlen := congrArg List.length (hL.read_bytes s.l2Level _ _ hl2 hr)
  rw [viewBytes_length] at hlen
  obtain ⟨c1, c2, c3⟩ := cacheRead_clean (l := ⟨s.l1i, s.l2Level⟩) (B := l2Backing s.cfg.l2) (cfgValid_usable_l1i hc)
    h.2.2.1 h.2.2.2 hlen s.cfg.instrBytes
  set lv := (s.l1iRead pc.toNat s.cfg.instrBytes).level with hlv
  have hb : l2Sound s.cfg.l2 lv.below ∧ levelView s.cfg.l2 memByte lv.below = s.l2View := by
    rcases c3 with e | e
    · have e' : lv.below = s.l2Level := e
      rw [e']
      exact ⟨hl2, rfl⟩
    · have e' : lv.below = _ := e
      rw [e']
      exact ⟨hL.read_inv _ _ _ hl2 hr, hL.read_view _ _ _ hl2 hr⟩
  have hview : (s.withL1i lv).l2View = s.l2View := hb.2
  refine ⟨⟨hb.1.2, ?_, c1, c2⟩, ?_, rfl⟩
  · show cacheSound s.cfg.l1d s.l1d (s.withL1i lv).l2View
    rw [hview]
    exact h.2.1
  · funext x
    show (s.withL1i lv).dview x = s.dview x
    simp only [State.dview, State.withL1i_cfg, State.withL1i_l1d, hview]

end Sys2Proof.Machine
end

