-- ==== Sys2Proof/Laws/Encoding.lean ====
section
/-!
SUPPORT. The bits of a packed field (`spec/30_encoding.md` R91), for proofs about packing and unpacking.
-/

namespace Sys2Proof

theorem getLsbD_fieldAt {n : Nat} (lo : Nat) (v : BitVec n) (i : Nat) :
    (fieldAt lo v).getLsbD i = (decide (i < 128) && decide (lo ≤ i) && v.getLsbD (i - lo)) := by
  unfold fieldAt
  rw [BitVec.getLsbD_shiftLeft, BitVec.getLsbD_setWidth]
  by_cases h1 : i < 128
  · by_cases h2 : i < lo
    · simp [h2, Nat.not_le.2 h2]
    · have h3 : i - lo < 128 := by omega
      simp [h1, h2, h3, Nat.not_lt.1 h2]
  · simp [h1]

theorem getLsbD_bitAt (lo : Nat) (v : Bool) (i : Nat) :
    (bitAt lo v).getLsbD i = (decide (i < 128) && decide (i = lo) && v) := by
  unfold bitAt
  rw [getLsbD_fieldAt, BitVec.getLsbD_ofBool]
  by_cases h : i = lo
  · subst h; simp
  · by_cases h' : lo ≤ i
    · have : i - lo ≠ 0 := by omega
      simp [h, this]
    · simp [h, h']

@[simp] theorem clsOfCode_code (c : OpClass) : clsOfCode c.code = some c := by cases c <;> rfl

@[simp] theorem optReg_regV (r : Option Reg) : optReg (regV r) (regNum r) = r := by cases r <;> rfl

end Sys2Proof
end

