-- ==== Sys2Proof/Laws/Exec.lean ====
section
/-!
SUPPORT. What an instruction executed alone does, once per shared operation: the end of an `ARITH` or `MUL`, of a `BRANCH`, of
a data access (`spec/40_operation_classes.md` R120, R150), the program counter they leave (`spec/10_state.md` R24), and the
frame of the data view.
-/

namespace Sys2Proof.Machine

/-! ## The program counter -/

theorem find?_bubbles (n : Nat) : (bubbles n).find? (·.valid) = none := by
  rw [List.find?_eq_none]
  intro x hx
  rw [bubbles, List.mem_replicate] at hx
  rw [hx.2]
  exact Bool.false_ne_true

/-- After the plain assignment `pc <- t` the program counter is `t`. -/
@[simp] theorem State.pc_setPc (s : State) (t : Word) : (s.setPc t).pc = t := by
  unfold State.pc State.oldest?
  simp [List.find?_append, find?_bubbles]

@[simp] theorem State.pc_advance (s : State) (t : Word) : (s.advance t).pc = t + s.ib := State.pc_setPc _ _

theorem State.ib_eq_of_cfg {s t : State} (h : t.cfg = s.cfg) : t.ib = s.ib := by rw [State.ib, State.ib, h]

/-- The data view depends on the configuration, the data caches and main memory alone. -/
theorem dview_congr {s t : State} (hc : t.cfg = s.cfg) (h1 : t.l1d = s.l1d) (h2 : t.l2 = s.l2) (hm : t.mem = s.mem) :
    t.dview = s.dview := by
  funext a
  simp only [State.dview, State.l2View, hc, h1, h2, hm]

/-! ## The ends of the instruction rules -/

/-- The whole effect of the end of an `ARITH` or `MUL` rule (R121). -/
theorem finishAlu_effect (s : State) (rd : Option Reg) (sets : Bool) (r : Word × Nzcv) :
    aluEffect s (s.finishAlu rd sets r) rd sets r.1 r.2 := by
  unfold State.finishAlu
  refine ⟨fun q => ?_, ?_, ?_, ?_, ?_, fun a => ?_⟩
  · rw [← State.commit_reg s rd r.1 sets r.2 q]
    simp only [State.reg, State.advance_x]
  · simp only [flagsAfter, State.advance_flags, State.commit_flags]
  · rw [State.pc_advance, State.ib_eq_of_cfg (State.commit_cfg s rd r.1 sets r.2)]
  · unfold sameBackground
    simp only [State.advance_cfg, State.advance_status, State.advance_l1i, State.advance_l1d, State.advance_l2,
      State.advance_mem, State.advance_stats, State.commit_cfg, State.commit_status, State.commit_l1i, State.commit_l1d,
      State.commit_l2, State.commit_mem, State.commit_stats, and_self]
  · simp only [State.advance_pred, State.commit_pred]
  · rw [dview_congr] <;> simp

/-- The whole effect of the end of a `BRANCH` rule (R150). -/
theorem finishBranch_effect (s : State) (o : BranchOutcome) (rd : Option Reg) (sets : Bool) (f : Nzcv) :
    branchEffect s (s.finishBranch o rd sets f) rd sets f o.taken o.target o.next := by
  unfold State.finishBranch
  refine ⟨fun q => ?_, ?_, ?_, ?_, ?_, fun a => ?_⟩
  · have h := State.commit_reg (s.updatePredictor s.pc o.taken o.target) rd (s.pc + s.ib) sets f q
    simp only [State.reg, State.setPc_x, State.updatePredictor_x] at h ⊢
    exact h
  · simp only [flagsAfter, State.setPc_flags, State.commit_flags, State.updatePredictor_flags]
  · rw [State.pc_setPc]
  · unfold sameBackground
    simp
  · simp
  · rw [dview_congr] <;> simp

/-! ## Execution -/

/-- A core that does not run is changed by no instruction (R27). -/
theorem exec_stopped (i : Instr) {s : State} (h : s.status ≠ .running) : exec i s = .next s := by
  cases i <;> exact congrArg _ (State.whileRunning_stopped h _)

/-- Every instruction answers a next state. -/
theorem exec_next (i : Instr) (s : State) : ∃ t, exec i s = .next t := by
  cases i <;> exact ⟨_, rfl⟩

end Sys2Proof.Machine
end

