-- ==== Sys2Proof/Laws/MemoryForm.lean ====
section
/-!
SUPPORT. Main memory keeps its canonical form: whatever a store operation keeps, a cache over that store keeps, so the form
is kept by every access through the hierarchy, by the loading of an image, and holds at reset (`spec/10_state.md` R37,
R50).
-/

namespace Sys2Proof.Machine

variable {β : Type}

/-! ## What a backing store keeps, the cache over it keeps -/

/-- A property of a store that its reads and writes keep. -/
def Backing.Keeps (B : Backing β) (P : β → Prop) : Prop :=
  (∀ b a n, P b → P (B.read b a n).store) ∧ ∀ b a v, P b → P (B.write b a v).store

theorem evict_keeps {g : CacheCfg} {B : Backing β} {P : β → Prop} (hB : B.Keeps P) {l : Level β} (h : P l.below)
    (set way : Nat) : P (evict g B l set way).below := by
  unfold evict
  dsimp only
  split_ifs
  · exact hB.2 _ _ _ h
  · exact h
  · exact h

theorem install_keeps {g : CacheCfg} {B : Backing β} {P : β → Prop} (hB : B.Keeps P) {l : Level β} (h : P l.below)
    (set tag : Nat) : P (install g B l set tag).level.below :=
  hB.1 _ _ _ (evict_keeps hB h set (victim g l.cache set))

theorem cacheRead_keeps {g : CacheCfg} {B : Backing β} {P : β → Prop} (hB : B.Keeps P) {l : Level β} (h : P l.below)
    (a n : Nat) : P (cacheRead g B l a n).level.below := by
  rcases hl : lookup g l.cache (setOf g a) (tagOf g a) with _ | w
  · rw [cacheRead_miss hl]
    exact install_keeps hB (by exact h) _ _
  · rw [cacheRead_hit hl]
    exact h

theorem cacheWrite_keeps {g : CacheCfg} {B : Backing β} {P : β → Prop} (hB : B.Keeps P) {l : Level β} (h : P l.below)
    (a : Nat) (bytes : List Byte) : P (cacheWrite g B l a bytes).level.below := by
  rcases hl : lookup g l.cache (setOf g a) (tagOf g a) with _ | w
  · rw [cacheWrite_miss hl]
    exact install_keeps hB (by exact h) _ _
  · rw [cacheWrite_hit hl]
    exact h

/-! ## The canonical form of main memory -/

theorem memBacking_keeps_wf : memBacking.Keeps fun m => Memory.wf m = true :=
  ⟨fun _ _ _ h => h, fun m a bytes h => mainWrite_wf m a bytes h⟩

theorem l2Backing_keeps_wf (g : CacheCfg) : (l2Backing g).Keeps fun l => Memory.wf l.below = true :=
  ⟨fun _ a n h => cacheRead_keeps memBacking_keeps_wf h a n, fun _ a bytes h => cacheWrite_keeps memBacking_keeps_wf h a bytes⟩

theorem readRequests_wf (rs : List (Nat × Nat)) (s : State) (h : Memory.wf s.mem = true) :
    Memory.wf (readRequests s rs).state.mem = true := by
  induction rs generalizing s with
  | nil => exact h
  | cons r rest ih => exact ih _ (cacheRead_keeps (l2Backing_keeps_wf s.cfg.l2) (l := ⟨s.l1d, s.l2Level⟩) h r.1 r.2)

theorem writeRequests_wf (rs : List (Nat × Nat)) (s : State) (bytes : List Byte) (h : Memory.wf s.mem = true) :
    Memory.wf (writeRequests s rs bytes).state.mem = true := by
  induction rs generalizing s bytes with
  | nil => exact h
  | cons r rest ih =>
    exact ih _ _ (cacheWrite_keeps (l2Backing_keeps_wf s.cfg.l2) (l := ⟨s.l1d, s.l2Level⟩) h r.1 (bytes.take r.2))

/-- `MemRead` keeps the canonical form. -/
theorem memRead_wf {s : State} (h : Memory.wf s.mem = true) (addr : Word) (n : Nat) :
    Memory.wf (s.memRead addr n).state.mem = true := readRequests_wf _ s h

/-- `MemWrite` keeps the canonical form. -/
theorem memWrite_wf {s : State} (h : Memory.wf s.mem = true) (addr : Word) (n : Nat) (v : Word) :
    Memory.wf (s.memWrite addr n v).state.mem = true := writeRequests_wf _ s _ h

/-- `FetchRead` keeps the canonical form. -/
theorem fetchRead_wf {s : State} (h : Memory.wf s.mem = true) (pc : Word) : Memory.wf (s.fetchRead pc).state.mem = true :=
  cacheRead_keeps (l2Backing_keeps_wf s.cfg.l2) (l := ⟨s.l1i, s.l2Level⟩) h pc.toNat s.cfg.instrBytes

/-- Loading an image keeps the canonical form. -/
theorem loadImage_wf (memSize : Nat) (image : List Host.Cell) : Memory.wf (loadImage memSize image) = true := by
  suffices h : ∀ m : Memory, Memory.wf m = true →
      Memory.wf (image.foldl (fun m e => if e.1 < memSize then tableSet unlistedByte m e.1 e.2 else m) m) = true from
    h [] rfl
  induction image with
  | nil => exact fun _ h => h
  | cons e rest ih =>
    intro m h
    rw [List.foldl_cons]
    apply ih
    split_ifs
    · exact tableCanonical_set _ _ _ _ h
    · exact h

/-- The memory of the named reset state has the canonical form. -/
theorem reset_mem_wf : Memory.wf State.reset.mem = true := loadImage_wf cfgDefault.memSize []

end Sys2Proof.Machine
end

