-- ==== Sys2Proof/Laws/PerInstr.lean ====
section
/-!
SUPPORT. One lemma per constructor of `Instr`, for statements about every instruction. `RecordValid`: the record of every
instruction is valid by `spec/30_encoding.md` R99 and R100, whatever its operands.
-/

namespace Sys2Proof.Laws.RecordValid

/-- The record of the instruction is a valid Decoded Instruction (R99). -/
def Statement (i : Instr) : Prop := i.wellFormed = true

/-- An `ARITH` or `MUL` record that reads no flags names register 0 where a register is absent. -/
theorem absentRegsZero_ofAlu (c : OpClass) (fn : BitVec 6) (s : Bool) (rd rn rm : Option Reg) (imm : Word) :
    (Diw.ofAlu c fn s rd rn rm imm).absentRegsZero = true := by
  cases rd <;> cases rn <;> cases rm <;> rfl

theorem add (s : Bool) (rd : Option Reg) (rn : Option Reg) (rm : Option Reg) (imm : Word) : Statement (.add s rd rn rm imm) := by
  have h := absentRegsZero_ofAlu .arith 0 s rd rn rm imm
  simp only [Statement, Instr.wellFormed, Instr.toDiw, Diw.valid, Diw.generalOk, h]
  rfl

theorem sub (s : Bool) (rd : Option Reg) (rn : Option Reg) (rm : Option Reg) (imm : Word) : Statement (.sub s rd rn rm imm) := by
  have h := absentRegsZero_ofAlu .arith 1 s rd rn rm imm
  simp only [Statement, Instr.wellFormed, Instr.toDiw, Diw.valid, Diw.generalOk, h]
  rfl

theorem and (s : Bool) (rd : Option Reg) (rn : Option Reg) (rm : Option Reg) (imm : Word) : Statement (.and s rd rn rm imm) := by
  have h := absentRegsZero_ofAlu .arith 2 s rd rn rm imm
  simp only [Statement, Instr.wellFormed, Instr.toDiw, Diw.valid, Diw.generalOk, h]
  rfl

theorem orr (s : Bool) (rd : Option Reg) (rn : Option Reg) (rm : Option Reg) (imm : Word) : Statement (.orr s rd rn rm imm) := by
  have h := absentRegsZero_ofAlu .arith 3 s rd rn rm imm
  simp only [Statement, Instr.wellFormed, Instr.toDiw, Diw.valid, Diw.generalOk, h]
  rfl

theorem eor (s : Bool) (rd : Option Reg) (rn : Option Reg) (rm : Option Reg) (imm : Word) : Statement (.eor s rd rn rm imm) := by
  have h := absentRegsZero_ofAlu .arith 4 s rd rn rm imm
  simp only [Statement, Instr.wellFormed, Instr.toDiw, Diw.valid, Diw.generalOk, h]
  rfl

theorem lsl (s : Bool) (rd : Option Reg) (rn : Option Reg) (rm : Option Reg) (imm : Word) : Statement (.lsl s rd rn rm imm) := by
  have h := absentRegsZero_ofAlu .arith 5 s rd rn rm imm
  simp only [Statement, Instr.wellFormed, Instr.toDiw, Diw.valid, Diw.generalOk, h]
  rfl

theorem lsr (s : Bool) (rd : Option Reg) (rn : Option Reg) (rm : Option Reg) (imm : Word) : Statement (.lsr s rd rn rm imm) := by
  have h := absentRegsZero_ofAlu .arith 6 s rd rn rm imm
  simp only [Statement, Instr.wellFormed, Instr.toDiw, Diw.valid, Diw.generalOk, h]
  rfl

theorem asr (s : Bool) (rd : Option Reg) (rn : Option Reg) (rm : Option Reg) (imm : Word) : Statement (.asr s rd rn rm imm) := by
  have h := absentRegsZero_ofAlu .arith 7 s rd rn rm imm
  simp only [Statement, Instr.wellFormed, Instr.toDiw, Diw.valid, Diw.generalOk, h]
  rfl

theorem csel (s : Bool) (cond : BitVec 4) (rd : Option Reg) (rn : Option Reg) (rm : Option Reg) (imm : Word) : Statement (.csel s cond rd rn rm imm) := by
  cases rd <;> cases rn <;> cases rm <;> rfl

theorem mul (s : Bool) (rd : Option Reg) (rn : Option Reg) (rm : Option Reg) (imm : Word) : Statement (.mul s rd rn rm imm) := by
  have h := absentRegsZero_ofAlu .mul 0 s rd rn rm imm
  simp only [Statement, Instr.wellFormed, Instr.toDiw, Diw.valid, Diw.generalOk, h]
  rfl

theorem ldr (msize : BitVec 2) (msigned : Bool) (rd : Option Reg) (rn : Reg) (imm : Word) : Statement (.ldr msize msigned rd rn imm) := by
  cases rd <;> rfl

theorem str (msize : BitVec 2) (rt : Option Reg) (rn : Reg) (imm : Word) : Statement (.str msize rt rn imm) := by
  cases rt <;> rfl

theorem b (imm : Word) : Statement (.b imm) := rfl

theorem bl (rd : Reg) (imm : Word) : Statement (.bl rd imm) := rfl

theorem br (rn : Reg) (imm : Word) : Statement (.br rn imm) := rfl

theorem blr (rd : Reg) (rn : Reg) (imm : Word) : Statement (.blr rd rn imm) := rfl

theorem bCond (cond : BitVec 4) (imm : Word) : Statement (.bCond cond imm) := rfl

theorem cbCond (s : Bool) (cond : BitVec 4) (rn : Option Reg) (rm : Option Reg) (imm : Word) : Statement (.cbCond s cond rn rm imm) := by
  cases rn <;> cases rm <;> rfl

theorem svc (rd : Option Reg) (rn : Option Reg) (rm : Option Reg) (rt : Option Reg) (imm : Word) : Statement (.svc rd rn rm rt imm) := by
  cases rd <;> cases rn <;> cases rm <;> cases rt <;> rfl

end Sys2Proof.Laws.RecordValid
end

