-- ==== Sys2Proof/Laws/Stages.lean ====
section
/-!
SUPPORT. What each stage of the tick can touch: the frame of each step, for every state, and what one turn of each lane loop
can do, case by case (`spec/41_pipeline_orchestrator.md` R160, R167, and the rules of the stage files).
-/

namespace Sys2Proof.Machine

/-! ## Lane loops -/

/-- The state a turn of a lane loop leaves, whether or not it ends the loop. -/
def LaneStep.val {σ : Type} : LaneStep σ → σ
  | .go s => s
  | .stop s => s

@[simp] theorem LaneStep.val_go {σ : Type} (s : σ) : (LaneStep.go s).val = s := rfl
@[simp] theorem LaneStep.val_stop {σ : Type} (s : σ) : (LaneStep.stop s).val = s := rfl

/-- What holds at the start of a lane loop and is kept by each turn holds at its end. -/
theorem runLanes_induct {σ : Type} (P : σ → Prop) (f : Nat → σ → LaneStep σ) (lanes : List Nat)
    (h : ∀ lane ∈ lanes, ∀ s, P s → P (f lane s).val) (s : σ) (hs : P s) : P (runLanes f lanes s) := by
  induction lanes generalizing s with
  | nil => exact hs
  | cons lane rest ih =>
    have h1 := h lane List.mem_cons_self s hs
    rw [runLanes]
    rcases hf : f lane s with s' | s'
    · rw [hf] at h1
      exact ih (fun l hl => h l (List.mem_cons_of_mem _ hl)) s' h1
    · rw [hf] at h1
      exact h1

/-- A lane loop that relates each turn's state to the one before relates its end to its start. -/
theorem runLanes_frame {σ : Type} (R : σ → σ → Prop) (hr : ∀ s, R s s) (ht : ∀ a b c, R a b → R b c → R a c)
    (f : Nat → σ → LaneStep σ) (lanes : List Nat) (h : ∀ lane ∈ lanes, ∀ s, R s (f lane s).val) (s : σ) :
    R s (runLanes f lanes s) :=
  runLanes_induct (R s) f lanes (fun lane hl t hs => ht s t _ hs (h lane hl t)) s (hr s)

/-! ## Latches -/

theorem slotAt_set (l : Latch) (i j : Nat) (r : Slot) :
    slotAt (l.set i r) j = if i = j ∧ i < l.length then r else slotAt l j := by
  unfold slotAt
  rw [List.getD_eq_getElem?_getD, List.getD_eq_getElem?_getD, List.getElem?_set]
  by_cases h : i = j
  · subst h
    by_cases hl : i < l.length <;> simp [hl]
  · simp [h]

@[simp] theorem slotAt_bubbles (n j : Nat) : slotAt (bubbles n) j = Slot.bubble := by
  unfold slotAt bubbles
  rw [List.getD_eq_getElem?_getD, List.getElem?_replicate]
  split_ifs <;> rfl

theorem slotAt_of_length_le {l : Latch} {j : Nat} (h : l.length ≤ j) : slotAt l j = Slot.bubble := by
  unfold slotAt
  rw [List.getD_eq_getElem?_getD, List.getElem?_eq_none h]
  rfl

theorem anyValid_eq_false {l : Latch} : anyValid l = false ↔ ∀ j, (slotAt l j).valid = false := by
  unfold anyValid
  rw [List.any_eq_false]
  constructor
  · intro h j
    by_cases hj : j < l.length
    · have : slotAt l j = l[j] := by
        unfold slotAt
        rw [List.getD_eq_getElem?_getD, List.getElem?_eq_getElem hj]
        rfl
      rw [this]
      simpa using h _ (List.getElem_mem hj)
    · rw [slotAt_of_length_le (by omega)]
      rfl
  · intro h r hr
    obtain ⟨j, hj, rfl⟩ := List.getElem_of_mem hr
    have := h j
    unfold slotAt at this
    rw [List.getD_eq_getElem?_getD, List.getElem?_eq_getElem hj] at this
    simpa using this

/-! ## Writeback (R190, R195) -/

/-- Writeback changes the register file, the flags, `MEMWB` and the statistics. -/
def writebackFrame (s t : State) : Prop := t = { s with x := t.x, flags := t.flags, memwb := t.memwb, stats := t.stats }

theorem retireSlot_eq (s : State) (r : Slot) :
    retireSlot s r =
      { s with
        x := (s.setDest (retireDest r) r.result).x, flags := if r.setsFlags then r.flags else s.flags
        stats := { s.stats with retired := s.stats.retired + 1 } } := by
  unfold retireSlot State.commit State.setFlagsIf State.setDest
  cases retireDest r <;> cases r.setsFlags <;> rfl

theorem writebackLane_cases (lane : Nat) (s : State) :
    ((slotAt s.memwb lane).valid = false ∧ writebackLane lane s = .go s) ∨
      ((slotAt s.memwb lane).valid = true ∧
        writebackLane lane s = .go ((retireSlot s (slotAt s.memwb lane)).setMemwb lane Slot.bubble)) := by
  unfold writebackLane
  rcases h : (slotAt s.memwb lane).valid with _ | _
  · exact Or.inl ⟨rfl, by simp [h]⟩
  · exact Or.inr ⟨rfl, by simp [h]⟩

theorem writebackStep_frame (s : State) : writebackFrame s (writebackStep s) := by
  apply runLanes_frame writebackFrame (fun _ => rfl)
  · intro a b c h h'
    unfold writebackFrame at *
    rw [h', h]
  · intro lane _ t
    rcases writebackLane_cases lane t with ⟨-, h⟩ | ⟨-, h⟩ <;> rw [h]
    · rfl
    · rw [LaneStep.val_go, retireSlot_eq]
      rfl

/-! ## Memory (R200, R208) -/

/-- The memory step changes the status, `EXMEM`, `MEMWB`, the data caches, main memory and the statistics. -/
def memoryFrame (s t : State) : Prop :=
  t = { s with status := t.status, exmem := t.exmem, memwb := t.memwb, l1d := t.l1d, l2 := t.l2, mem := t.mem, stats := t.stats }

theorem memoryFrame.trans {a b c : State} (h : memoryFrame a b) (h' : memoryFrame b c) : memoryFrame a c := by
  unfold memoryFrame at *
  rw [h', h]

theorem memoryFrame_of_onlyData {s t : State} (h : onlyDataChanged s t) : memoryFrame s t := by
  unfold onlyDataChanged at h
  unfold memoryFrame
  rw [h]

theorem readRequests_onlyData (rs : List (Nat × Nat)) (s : State) : onlyDataChanged s (readRequests s rs).state := by
  induction rs generalizing s with
  | nil => rfl
  | cons r rest ih => exact (onlyDataChanged_withL1d s _).trans (ih _)

theorem writeRequests_onlyData (rs : List (Nat × Nat)) (s : State) (bytes : List Byte) :
    onlyDataChanged s (writeRequests s rs bytes).state := by
  induction rs generalizing s bytes with
  | nil => rfl
  | cons r rest ih => exact (onlyDataChanged_withL1d s _).trans (ih _ _)

theorem loadData_onlyData (s : State) (addr : Word) (m : BitVec 2) (sg : Bool) :
    onlyDataChanged s (s.loadData addr m sg).2.2 := readRequests_onlyData _ s

theorem storeData_onlyData (s : State) (addr : Word) (m : BitVec 2) (v : Word) :
    onlyDataChanged s (s.storeData addr m v).2 := writeRequests_onlyData _ s _

theorem accessMem_onlyData (s : State) (r : Slot) : onlyDataChanged s (accessMem s r).2.2 := by
  unfold accessMem
  split_ifs
  · exact loadData_onlyData s r.addr r.inst.msize r.inst.msigned
  · exact storeData_onlyData s r.addr r.inst.msize r.c

/-- The access changes nothing of the record but its result (R200, R201). -/
theorem accessMem_record (s : State) (r : Slot) : (accessMem s r).1 = { r with result := (accessMem s r).1.result } := by
  unfold accessMem
  split_ifs <;> rfl

/-- Everything one turn of the memory step can do (R200). -/
theorem memoryLane_cases (F : CoreFns) (lane : Nat) (p : MemPass) :
    let r := slotAt p.st.exmem lane
    (r.valid = false ∧ memoryLane F lane p = .go p) ∨
    (∃ e, r.valid = true ∧ poisonError r = some e ∧ memoryLane F lane p = .stop { p with st := p.st.raise e }) ∨
    (∃ code, r.valid = true ∧ poisonError r = none ∧ r.inst.cls = .syscall ∧ F.sys r.a r.b r.c = .exit code ∧
      memoryLane F lane p = .stop { p with st := p.st.halt code }) ∨
    (∃ v, r.valid = true ∧ poisonError r = none ∧ r.inst.cls = .syscall ∧ F.sys r.a r.b r.c = .ret v ∧
      memoryLane F lane p = .go { p with st := p.st.passMemory lane { r with result := v } }) ∨
    (r.valid = true ∧ poisonError r = none ∧ (r.inst.cls = .arith ∨ r.inst.cls = .mul ∨ r.inst.cls = .branch) ∧
      memoryLane F lane p = .go { p with st := p.st.passMemory lane r }) ∨
    (r.valid = true ∧ poisonError r = none ∧ r.inst.cls.isMem = true ∧ memoryLane F lane p = memClassLane p lane r) := by
  simp only [memoryLane]
  generalize slotAt p.st.exmem lane = r
  rcases hv : r.valid with _ | _
  · exact Or.inl ⟨rfl, if_neg Bool.false_ne_true⟩
  · rcases he : poisonError r with _ | e
    · rcases hc : r.inst.cls with _ | _ | _ | _ | _ | _
      · simp
      · simp [OpClass.isMem]
      · simp [OpClass.isMem]
      · simp
      · simp
      · rcases hs : F.sys r.a r.b r.c with code | v <;> simp
    · exact Or.inr (Or.inl ⟨e, rfl, rfl, rfl⟩)

/-- Everything the turn of a `LOAD` or `STORE` record can do (R200 to R204). -/
theorem memClassLane_cases (p : MemPass) (lane : Nat) (r : Slot) :
    (r.memStarted = true ∧ memClassLane p lane r = settleMem p lane { r with memRem := r.memRem - 1 }) ∨
    (r.memStarted = false ∧ p.started = p.st.cfg.memPorts ∧
      memClassLane p lane r =
        .stop { p with st := { p.st with stats := { p.st.stats with stallStructural := p.st.stats.stallStructural + 1 } } }) ∨
    (r.memStarted = false ∧ p.started ≠ p.st.cfg.memPorts ∧ p.st.inBounds r.addr (accessBytes r.inst.msize) = false ∧
      memClassLane p lane r = .stop { p with st := p.st.raise (.dataOutOfBounds r.addr p.st.stats.cycles) }) ∨
    (r.memStarted = false ∧ p.started ≠ p.st.cfg.memPorts ∧ p.st.inBounds r.addr (accessBytes r.inst.msize) = true ∧
      memClassLane p lane r =
        settleMem { st := (accessMem p.st r).2.2, started := p.started + 1 } lane
          { (accessMem p.st r).1 with memStarted := true, memRem := max (accessMem p.st r).2.1 1 - 1 }) := by
  unfold memClassLane
  rcases h1 : r.memStarted with _ | _
  · right
    by_cases h2 : p.started = p.st.cfg.memPorts
    · exact Or.inl ⟨rfl, h2, by simp [h2]⟩
    · right
      rcases h3 : p.st.inBounds r.addr (accessBytes r.inst.msize) with _ | _
      · exact Or.inl ⟨rfl, h2, rfl, by simp [h2]⟩
      · exact Or.inr ⟨rfl, h2, rfl, by simp [h2]⟩
  · exact Or.inl ⟨rfl, by simp⟩

theorem settleMem_cases (p : MemPass) (lane : Nat) (r : Slot) :
    (0 < r.memRem ∧ settleMem p lane r = .stop { p with st := p.st.setExmem lane r }) ∨
      (r.memRem = 0 ∧ settleMem p lane r = .go { p with st := p.st.passMemory lane r }) := by
  unfold settleMem
  by_cases h : 0 < r.memRem
  · exact Or.inl ⟨h, if_pos h⟩
  · exact Or.inr ⟨by omega, if_neg h⟩

theorem settleMem_frame (p : MemPass) (lane : Nat) (r : Slot) : memoryFrame p.st (settleMem p lane r).val.st := by
  rcases settleMem_cases p lane r with ⟨-, h⟩ | ⟨-, h⟩ <;> rw [h] <;> rfl

theorem memoryLane_frame (F : CoreFns) (lane : Nat) (p : MemPass) : memoryFrame p.st (memoryLane F lane p).val.st := by
  rcases memoryLane_cases F lane p with ⟨-, h⟩ | ⟨e, -, -, h⟩ | ⟨c, -, -, -, -, h⟩ | ⟨v, -, -, -, -, h⟩ | ⟨-, -, -, h⟩ |
    ⟨-, -, -, h⟩ <;> rw [h]
  · rfl
  · rfl
  · rfl
  · rfl
  · rfl
  · rcases memClassLane_cases p lane (slotAt p.st.exmem lane) with ⟨-, h⟩ | ⟨-, -, h⟩ | ⟨-, -, -, h⟩ | ⟨-, -, -, h⟩ <;> rw [h]
    · exact settleMem_frame _ _ _
    · rfl
    · rfl
    · exact (memoryFrame_of_onlyData (accessMem_onlyData p.st (slotAt p.st.exmem lane))).trans (settleMem_frame _ _ _)

theorem memoryStep_frame (F : CoreFns) (s : State) : memoryFrame s (memoryStep F s) := by
  have := runLanes_frame (fun a b : MemPass => memoryFrame a.st b.st) (fun _ => rfl) (fun _ _ _ => memoryFrame.trans)
    (memoryLane F) s.lanes (fun lane _ p => memoryLane_frame F lane p) { st := s, started := 0 }
  exact this

/-! ## Execute (R220, R229) -/

/-- The execute step changes `IDEX`, `EXMEM`, the predictor and the statistics. -/
def executeFrame (s t : State) : Prop :=
  t = { s with idex := t.idex, exmem := t.exmem, pred := t.pred, stats := t.stats }

theorem executeFrame.trans {a b c : State} (h : executeFrame a b) (h' : executeFrame b c) : executeFrame a c := by
  unfold executeFrame at *
  rw [h', h]

/-- The class action changes nothing of the state but the predictor, and that for a `BRANCH` alone (R230, R231, R235). -/
theorem classAction_state (F : CoreFns) (s : State) (r : Slot) (ops : Operands) (fl : Nzcv) :
    (classAction F s r ops fl).2.1 = { s with pred := (classAction F s r ops fl).2.1.pred } := by
  simp only [classAction]
  rcases h : r.inst.cls <;> rfl

/-- The class action changes no field of the record but its result, flags and address. -/
theorem classAction_record (F : CoreFns) (s : State) (r : Slot) (ops : Operands) (fl : Nzcv) :
    (classAction F s r ops fl).1 =
      { r with
        result := (classAction F s r ops fl).1.result, flags := (classAction F s r ops fl).1.flags
        addr := (classAction F s r ops fl).1.addr } := by
  simp only [classAction]
  rcases h : r.inst.cls <;> try rfl
  simp only [resolveBranch]
  split_ifs <;> rfl

theorem executeRecord_frame (F : CoreFns) (s : State) (lane : Nat) (r : Slot) (ops : Operands) :
    executeFrame s (executeRecord F s lane r ops).st := by
  unfold executeRecord
  simp only
  rw [classAction_state]
  rfl

/-- Everything one turn of the execute step can do (R220). -/
theorem executeLane_cases (F : CoreFns) (lane : Nat) (p : ExecPass) :
    let r := slotAt p.st.idex lane
    (r.valid = false ∧ executeLane F lane p = .go p) ∨
    (r.valid = true ∧ p.flush.isSome = true ∧ executeLane F lane p = .go { p with st := p.st.setIdex lane Slot.bubble }) ∨
    (r.valid = true ∧ p.flush = none ∧ 0 < r.exRem ∧
      executeLane F lane p = .stop { p with st := p.st.setIdex lane { r with exRem := r.exRem - 1 } }) ∨
    (r.valid = true ∧ p.flush = none ∧ r.exRem = 0 ∧ r.fault ≠ .none ∧
      executeLane F lane p = .go { p with st := p.st.passExecute lane r }) ∨
    (r.valid = true ∧ p.flush = none ∧ r.exRem = 0 ∧ r.fault = .none ∧ (resolveOperands p.st r.inst lane).late = true ∧
      executeLane F lane p =
        .stop { p with st := { p.st with stats := { p.st.stats with stallHazard := p.st.stats.stallHazard + 1 } } }) ∨
    (r.valid = true ∧ p.flush = none ∧ r.exRem = 0 ∧ r.fault = .none ∧ (resolveOperands p.st r.inst lane).late = false ∧
      executeLane F lane p = .go (executeRecord F p.st lane r (resolveOperands p.st r.inst lane))) := by
  simp only [executeLane]
  generalize slotAt p.st.idex lane = r
  rcases hv : r.valid with _ | _
  · exact Or.inl ⟨rfl, rfl⟩
  · rcases hf : p.flush with _ | c
    · by_cases h1 : 0 < r.exRem
      · simp [h1]
      · have h1' : r.exRem = 0 := by omega
        by_cases h2 : r.fault = .none
        · rcases h3 : (resolveOperands p.st r.inst lane).late with _ | _ <;> simp [h1', h2]
        · simp [h1', h2]
    · simp

theorem executeLane_frame (F : CoreFns) (lane : Nat) (p : ExecPass) : executeFrame p.st (executeLane F lane p).val.st := by
  rcases executeLane_cases F lane p with ⟨-, h⟩ | ⟨-, -, h⟩ | ⟨-, -, -, h⟩ | ⟨-, -, -, -, h⟩ | ⟨-, -, -, -, -, h⟩ |
    ⟨-, -, -, -, -, h⟩ <;> rw [h]
  · rfl
  · rfl
  · rfl
  · rfl
  · rfl
  · exact executeRecord_frame F p.st lane _ _

theorem executeStep_frame (F : CoreFns) (s : State) : executeFrame s (executeStep F s).st := by
  have := runLanes_frame (fun a b : ExecPass => executeFrame a.st b.st) (fun _ => rfl) (fun _ _ _ => executeFrame.trans)
    (executeLane F) s.lanes (fun lane _ p => executeLane_frame F lane p) { st := s, flush := none }
  exact this

/-! ## Decode (R250, R256) -/

/-- The decode step changes `IFID`, `IDEX` and the statistics. -/
def decodeFrame (s t : State) : Prop := t = { s with ifid := t.ifid, idex := t.idex, stats := t.stats }

theorem decodeFrame.trans {a b c : State} (h : decodeFrame a b) (h' : decodeFrame b c) : decodeFrame a c := by
  unfold decodeFrame at *
  rw [h', h]

/-- Everything one turn of the decode step can do (R250, R255). -/
theorem decodeLane_cases (lane : Nat) (p : DecodePass) :
    let r := slotAt p.st.ifid lane
    (r.valid = false ∧ decodeLane lane p = .go p) ∨
    (r.valid = true ∧ r.fault ≠ .none ∧ decodeLane lane p = .go { p with st := p.st.issue lane { r with exRem := 0 } }) ∨
    (r.valid = true ∧ r.fault = .none ∧ canIssue p.st r.inst lane p.issuedMem = .structural ∧
      decodeLane lane p =
        .stop { p with st := { p.st with stats := { p.st.stats with stallStructural := p.st.stats.stallStructural + 1 } } }) ∨
    (r.valid = true ∧ r.fault = .none ∧ canIssue p.st r.inst lane p.issuedMem = .raw ∧
      decodeLane lane p =
        .stop { p with st := { p.st with stats := { p.st.stats with stallHazard := p.st.stats.stallHazard + 1 } } }) ∨
    (r.valid = true ∧ r.fault = .none ∧ canIssue p.st r.inst lane p.issuedMem = .ok ∧
      decodeLane lane p =
        .go
          { st := p.st.issue lane { r with exRem := max (latencyOf p.st.cfg r.inst.cls) 1 - 1 }
            issuedMem := if r.inst.cls.isMem then p.issuedMem + 1 else p.issuedMem }) := by
  simp only [decodeLane]
  generalize slotAt p.st.ifid lane = r
  rcases hv : r.valid with _ | _
  · exact Or.inl ⟨rfl, rfl⟩
  · by_cases h2 : r.fault = .none
    · rcases h3 : canIssue p.st r.inst lane p.issuedMem with _ | _ | _ <;> simp [h2]
    · simp [h2]

theorem decodeStep_frame (s : State) : decodeFrame s (decodeStep s) := by
  have := runLanes_frame (fun a b : DecodePass => decodeFrame a.st b.st) (fun _ => rfl) (fun _ _ _ => decodeFrame.trans)
    decodeLane s.lanes (fun lane _ p => by
      rcases decodeLane_cases lane p with ⟨-, h⟩ | ⟨-, -, h⟩ | ⟨-, -, -, h⟩ | ⟨-, -, -, h⟩ | ⟨-, -, -, h⟩ <;> rw [h] <;> rfl)
    { st := s, issuedMem := 0 }
  exact this

/-! ## Fetch (R265, R279) -/

/-- The fetch step changes `IFID`, the fetch unit, `L1I`, `L2`, main memory and the statistics. -/
def fetchFrame (s t : State) : Prop :=
  t = { s with ifid := t.ifid, fetch := t.fetch, l1i := t.l1i, l2 := t.l2, mem := t.mem, stats := t.stats }

theorem fetchFrame.trans {a b c : State} (h : fetchFrame a b) (h' : fetchFrame b c) : fetchFrame a c := by
  unfold fetchFrame at *
  rw [h', h]

/-- Everything the delivery of a word can do (R265, R272, R274): poison, end the group after a predicted-taken branch, or go
on. -/
theorem deliver_cases (F : CoreFns) (lane : Nat) (s : State) (pc : Word) (word : List Byte) :
    (F.decode word pc = none ∧ deliver F lane s pc word = .stop (s.poison lane pc .decodeFailure)) ∨
    ∃ d t, F.decode word pc = some d ∧
      t = { s.setIfid lane (freshSlot pc d (predictedNext s pc d)) with
            fetch := { s.fetch with fetchPc := predictedNext s pc d } } ∧
      deliver F lane s pc word = if (predictedTarget s pc d).isSome then .stop t else .go t := by
  unfold deliver
  rcases h : F.decode word pc with _ | d
  · exact Or.inl ⟨rfl, rfl⟩
  · exact Or.inr ⟨d, _, rfl, rfl, rfl⟩

theorem deliver_frame (F : CoreFns) (lane : Nat) (s : State) (pc : Word) (word : List Byte) :
    fetchFrame s (deliver F lane s pc word).val := by
  rcases deliver_cases F lane s pc word with ⟨-, h⟩ | ⟨d, t, -, rfl, h⟩ <;> rw [h]
  · rfl
  · split_ifs <;> rfl

theorem fetchRead_frame (s : State) (pc : Word) : fetchFrame s (s.fetchRead pc).state := rfl

theorem readNext_frame (F : CoreFns) (lane : Nat) (s : State) : fetchFrame s (readNext F lane s).val := by
  unfold readNext
  simp only
  split_ifs
  · rfl
  · rfl
  · exact (fetchRead_frame s s.fetch.fetchPc).trans rfl
  · exact (fetchRead_frame s s.fetch.fetchPc).trans (deliver_frame F lane _ _ _)

theorem fetchLane_frame (F : CoreFns) (lane : Nat) (s : State) : fetchFrame s (fetchLane F lane s).val := by
  unfold fetchLane
  simp only
  split_ifs
  · rfl
  · exact fetchFrame.trans (b := { s with fetch := { s.fetch with pending := { s.fetch.pending with valid := false } } }) rfl
      (deliver_frame F lane _ _ _)
  · exact readNext_frame F lane s

theorem fetchStep_frame (F : CoreFns) (s : State) : fetchFrame s (fetchStep F s) := by
  have ht : fetchFrame s (tickPending s) := by
    unfold tickPending
    simp only
    split_ifs <;> rfl
  unfold fetchStep
  simp only
  split_ifs
  · rfl
  · exact ht
  · exact ht.trans (runLanes_frame fetchFrame (fun _ => rfl) (fun _ _ _ => fetchFrame.trans) (fetchLane F) _
      (fun lane _ t => fetchLane_frame F lane t) (tickPending s))

/-! ## The tick (R160) -/

/-- What the front end, steps 3 to 6 of the tick, never touches: the committed registers and flags, the status, `MEMWB`, the
data cache and the configuration. -/
def frontEndFrame (s t : State) : Prop :=
  t.cfg = s.cfg ∧ t.x = s.x ∧ t.flags = s.flags ∧ t.status = s.status ∧ t.memwb = s.memwb ∧ t.l1d = s.l1d

theorem executeAndDecode_cases (F : CoreFns) (s : State) :
    (anyValid s.exmem = true ∧ executeAndDecode F s = { st := s, flush := none }) ∨
    (anyValid s.exmem = false ∧ anyValid (executeStep F s).st.idex = true ∧ executeAndDecode F s = executeStep F s) ∨
    (anyValid s.exmem = false ∧ anyValid (executeStep F s).st.idex = false ∧
      executeAndDecode F s = { executeStep F s with st := decodeStep (executeStep F s).st }) := by
  unfold executeAndDecode
  rcases h1 : anyValid s.exmem with _ | _
  · rcases h2 : anyValid (executeStep F s).st.idex with _ | _ <;> simp [h2]
  · simp

theorem executeAndDecode_frame (F : CoreFns) (s : State) :
    (executeAndDecode F s).st =
      { s with
        ifid := (executeAndDecode F s).st.ifid, idex := (executeAndDecode F s).st.idex
        exmem := (executeAndDecode F s).st.exmem, pred := (executeAndDecode F s).st.pred
        stats := (executeAndDecode F s).st.stats } := by
  have h := executeStep_frame F s
  unfold executeFrame at h
  rcases executeAndDecode_cases F s with ⟨-, e⟩ | ⟨-, -, e⟩ | ⟨-, -, e⟩ <;> rw [e]
  · rw [h]
  · have h' := decodeStep_frame (executeStep F s).st
    unfold decodeFrame at h'
    simp only
    rw [h', h]

theorem frontEnd_frame (F : CoreFns) (s : State) : frontEndFrame s (frontEnd F s) := by
  have h1 := executeAndDecode_frame F s
  have h2 := fetchStep_frame F (executeAndDecode F s).st
  unfold fetchFrame at h2
  unfold frontEnd frontEndFrame
  simp only
  rcases (executeAndDecode F s).flush with _ | pc <;> simp only [flushStep] <;> rw [h2, h1] <;> simp

/-- The tick of a running core, in its two cases: the memory step ended the run, or the front end went on (R160, R381). -/
theorem tick_running (F : CoreFns) {s : State} (h : s.status = .running) :
    tick F s =
      if (memoryStep F (writebackStep s.countCycle)).status = .running then
        frontEnd F (memoryStep F (writebackStep s.countCycle))
      else memoryStep F (writebackStep s.countCycle) := by
  unfold tick tickRunning
  rw [if_pos ((State.isRunning_iff s).2 h)]
  by_cases hm : (memoryStep F (writebackStep s.countCycle)).status = .running
  · rw [if_pos hm, if_pos ((State.isRunning_iff _).2 hm)]
  · rw [if_neg hm, if_neg (fun hh => hm ((State.isRunning_iff _).1 hh))]

theorem tick_stopped (F : CoreFns) {s : State} (h : s.status ≠ .running) : tick F s = s := by
  unfold tick
  rw [if_neg (fun hh => h ((State.isRunning_iff s).1 hh))]

/-- Every step of the machine is a next state: the tick (R439). -/
theorem step_eq (s : State) : step s = .next (tick ref s) := rfl

end Sys2Proof.Machine
end

