-- ==== Sys2Proof/Laws/Values.lean ====
section
/-!
SUPPORT. Values: the packed flags read back (`spec/00_scope.md` R13), little-endian numbers (`spec/20_memory.md` R61), zero and
sign extension (R13), the bits of a packed field (`spec/30_encoding.md` R91).
-/

namespace Sys2Proof.Machine

/-! ## Flags -/

@[simp] theorem flagN_packFlags (n z c v : Bool) : flagN (packFlags n z c v) = n := by
  cases n <;> cases z <;> cases c <;> cases v <;> rfl
@[simp] theorem flagZ_packFlags (n z c v : Bool) : flagZ (packFlags n z c v) = z := by
  cases n <;> cases z <;> cases c <;> cases v <;> rfl
@[simp] theorem flagC_packFlags (n z c v : Bool) : flagC (packFlags n z c v) = c := by
  cases n <;> cases z <;> cases c <;> cases v <;> rfl
@[simp] theorem flagV_packFlags (n z c v : Bool) : flagV (packFlags n z c v) = v := by
  cases n <;> cases z <;> cases c <;> cases v <;> rfl

/-- A flags value is its four flags. -/
theorem nzcv_ext {f h : Nzcv} (hn : flagN f = flagN h) (hz : flagZ f = flagZ h) (hc : flagC f = flagC h)
    (hv : flagV f = flagV h) : f = h := by
  apply BitVec.eq_of_getLsbD_eq
  intro i hi
  unfold flagN flagZ flagC flagV at *
  have : i = 0 ∨ i = 1 ∨ i = 2 ∨ i = 3 := by omega
  rcases this with rfl | rfl | rfl | rfl <;> assumption

/-! ## Little-endian numbers -/

theorem leNat_lt (bytes : List Byte) : leNat bytes < 256 ^ bytes.length := by
  induction bytes with
  | nil => decide
  | cons x xs ih =>
    have hx := x.isLt
    rw [leNat, List.length_cons, Nat.pow_succ]
    omega

theorem leNat_leBytes (n v : Nat) : leNat (leBytes n v) = v % 256 ^ n := by
  induction n generalizing v with
  | zero => simp [leBytes, leNat, Nat.mod_one]
  | succ n ih =>
    rw [leBytes, leNat, ih, BitVec.toNat_ofNat, Nat.pow_succ' (n := n), Nat.mod_mul]

/-! ## Extension -/

theorem zext_eq (bits v : Nat) : zext bits v = (BitVec.ofNat bits v).setWidth 64 := by
  apply BitVec.eq_of_toNat_eq
  simp [zext]

/-- `sext_N` is two's-complement sign extension of the low `N` bits (R13). -/
theorem sext_eq {bits : Nat} (hb : 1 ≤ bits) (v : Nat) : sext bits v = (BitVec.ofNat bits v).signExtend 64 := by
  obtain ⟨k, rfl⟩ : ∃ k, bits = k + 1 := ⟨bits - 1, by omega⟩
  have hbit : (BitVec.ofNat (k + 1) v).msb = v.testBit k := by
    rw [BitVec.msb_eq_getLsbD_last, BitVec.getLsbD_ofNat]
    simp
  unfold sext
  rw [Nat.add_sub_cancel]
  rcases h : v.testBit k with _ | _
  · rw [if_neg Bool.false_ne_true, zext_eq, BitVec.signExtend_eq_setWidth_of_msb_false (by rw [hbit, h])]
  · rw [if_pos rfl]
    unfold BitVec.signExtend
    congr 1
    rw [BitVec.toInt_eq_msb_cond, hbit, h, if_pos rfl, BitVec.toNat_ofNat]
    push_cast
    rfl

end Sys2Proof.Machine
end

