-- ==== Sys2Proof/Machine/Assembly.lean ====
section
/-!
DEFINITION. The assembler syntax of `spec/30_encoding.md` R110, as text: "`ZR` in a register position means the register is
absent". Displacements are written as the 64-bit numbers that are stored.
-/

namespace Sys2Proof.Machine

/-- `R0` to `R31`. -/
def regText (r : Reg) : String := "R" ++ toString r.toNat

/-- A register operand; `ZR` where it is absent. -/
def optRegText (r : Option Reg) : String :=
  match r with
  | some r => regText r
  | none => "ZR"

/-- `#imm`. -/
def immText (imm : Word) : String := "#" ++ toString imm.toNat

/-- The names of the condition codes 0 to 15 (R96, R110). -/
def condText (c : BitVec 4) : String :=
  match c.toNat with
  | 0 => "EQ" | 1 => "NE" | 2 => "CS" | 3 => "CC" | 4 => "MI" | 5 => "PL" | 6 => "VS" | 7 => "VC"
  | 8 => "HI" | 9 => "LS" | 10 => "GE" | 11 => "LT" | 12 => "GT" | 13 => "LE" | 14 => "AL" | _ => "NV"

/-- A trailing `S` for `sets_flags = 1`. -/
def flagsSuffix (s : Bool) : String := if s then "S" else ""

/-- The second operand: a register, or the immediate. -/
def secondText (rm : Option Reg) (imm : Word) : String :=
  match rm with
  | some r => regText r
  | none => immText imm

/-- The form `Rd, Rn, Rm` or `Rd, Rn, #imm`. -/
def aluText (name : String) (s : Bool) (rd rn rm : Option Reg) (imm : Word) : String :=
  name ++ flagsSuffix s ++ " " ++ optRegText rd ++ ", " ++ optRegText rn ++ ", " ++ secondText rm imm

/-- The width letter of a memory mnemonic: `B`, `H`, `W`, `X`. -/
def widthText (msize : BitVec 2) : String :=
  match msize.toNat with
  | 0 => "B" | 1 => "H" | 2 => "W" | _ => "X"

/-- The mnemonic of a load; "`msize = 3` with `msigned = 1` ... behaves as `LDRX`, and has no mnemonic of its own". -/
def loadText (msize : BitVec 2) (msigned : Bool) : String :=
  "LDR" ++ (if msigned && msize != 3 then "S" else "") ++ widthText msize

/-- `[Rn, #imm]`. -/
def addressText (rn : Reg) (imm : Word) : String := "[" ++ regText rn ++ ", " ++ immText imm ++ "]"

/-- An instruction in the syntax of R110. -/
def assemblyText : Instr → String
  | .add s rd rn rm imm => aluText "ADD" s rd rn rm imm
  | .sub s rd rn rm imm => aluText "SUB" s rd rn rm imm
  | .and s rd rn rm imm => aluText "AND" s rd rn rm imm
  | .orr s rd rn rm imm => aluText "ORR" s rd rn rm imm
  | .eor s rd rn rm imm => aluText "EOR" s rd rn rm imm
  | .lsl s rd rn rm imm => aluText "LSL" s rd rn rm imm
  | .lsr s rd rn rm imm => aluText "LSR" s rd rn rm imm
  | .asr s rd rn rm imm => aluText "ASR" s rd rn rm imm
  | .csel s cond rd rn rm imm => aluText "CSEL" s rd rn rm imm ++ ", " ++ condText cond
  | .mul s rd rn rm imm => aluText "MUL" s rd rn rm imm
  | .ldr msize msigned rd rn imm => loadText msize msigned ++ " " ++ optRegText rd ++ ", " ++ addressText rn imm
  | .str msize rt rn imm => "STR" ++ widthText msize ++ " " ++ optRegText rt ++ ", " ++ addressText rn imm
  | .b imm => "B " ++ immText imm
  | .bl rd imm => "BL " ++ regText rd ++ ", " ++ immText imm
  | .br rn _ => "BR " ++ regText rn
  | .blr rd rn _ => "BLR " ++ regText rd ++ ", " ++ regText rn
  | .bCond cond imm => "B." ++ condText cond ++ " " ++ immText imm
  | .cbCond s cond rn rm imm =>
    "CB" ++ flagsSuffix s ++ "." ++ condText cond ++ " " ++ optRegText rn ++ ", " ++ optRegText rm ++ ", " ++ immText imm
  | .svc rd rn rm rt _ =>
    "SVC " ++ optRegText rd ++ ", " ++ optRegText rn ++ ", " ++ optRegText rm ++ ", " ++ optRegText rt

end Sys2Proof.Machine
end

