-- ==== Sys2Proof/Tests/Slice0.lean ====
section
/-!
SUPPORT. Tests. Every expected value comes from `spec/95_test_vectors.md` (the section is named) or from the example of the
instruction's rule. The last part holds, for each obligation with hypotheses, concrete states and operands that meet them.
-/

namespace Sys2Proof.Machine

/-! ## Ill-formed records, one per check of R99 and R100 (section 2.2) -/

/-- The record of a word is there and is not valid. -/
def illFormed (w : BitVec 128) : Bool :=
  match unpackDiw w with
  | some d => !d.valid
  | none => false

theorem test_reserved_class_codes : unpackDiw 0x6 = none ∧ unpackDiw 0x7 = none := by decide
/-- reserved low, reserved high -/
theorem test_ill_formed_general :
    [0x200000000000, 0x8000000000000000].all illFormed = true := by
  decide
/-- arith fn9, csel without reads flags, add reads flags, arith rt, arith msize, arith msigned, arith fused, arith link, arith indirect -/
theorem test_ill_formed_arith :
    [0x48, 0x40, 0x400, 0x8000000000, 0x40000, 0x100000, 0x8000, 0x10000, 0x20000].all illFormed = true := by
  decide
/-- cond without reads flags, rd number absent, rn number absent, rm number absent, rt number absent -/
theorem test_ill_formed_absent :
    [0x800, 0x400000, 0x10000000, 0x400000000, 0x10000000000].all illFormed = true := by
  decide
/-- mul fn, mul reads flags -/
theorem test_ill_formed_mul :
    [0xC, 0x404].all illFormed = true := by
  decide
/-- load rn, load rm, load rt, load sets flags, load fn -/
theorem test_ill_formed_load :
    [0x1, 0x208000001, 0x8008000001, 0x8000201, 0x8000009].all illFormed = true := by
  decide
/-- store rn, store rd, store msigned, store rm -/
theorem test_ill_formed_store :
    [0x2, 0x8200002, 0x8100002, 0x208000002].all illFormed = true := by
  decide
/-- link without rd, rd without link, indirect without rn, b sets flags, fused without reads flags, cb link, cb indirect, bcond rn, b rn, bl rn, br rm, branch msize, branch rt, branch fn -/
theorem test_ill_formed_branch :
    [0x10003, 0x200003, 0x20003, 0x203, 0x8003, 0x218403, 0x8028403, 0x8000403, 0x8000003, 0x8210003, 0x208020003, 0x40003, 0x8000000003, 0xB].all illFormed = true := by
  decide
/-- svc sets flags, svc fn, svc msize, svc link -/
theorem test_ill_formed_syscall :
    [0x205, 0xD, 0x40005, 0x10005].all illFormed = true := by
  decide
/-- The words of the second table of section 2.2 are valid although they look odd. -/
theorem test_odd_words_valid :
    [0x0, 0x081C0001, 0x08000002, 0xF603, 0x5, 0xFFFFFFFFFFFFFFFF0000000008020003, 0x7C03, 0x200, 0x440, 0x48E28600005].all
      (fun w => (decodeWord w).isSome) = true := by
  decide

/-! ## Decoding: each constructor from a word written out from the encoding (section 2.1 and the rules' examples) -/

theorem test_decode_nop : decodeWord 0x0 = some .nop := by decide
theorem test_decode_add : decodeWord 0x00000000000000010000000028E00000 = some (.add false (some 3) (some 2) none 1) := by decide
theorem test_decode_adds : decodeWord 0x0A18E00200 = some (.add true (some 3) (some 1) (some 2) 0) := by decide
theorem test_decode_sub : decodeWord 0x000000000000001000000001FFE00008 = some (.sub false (some 31) (some 31) none 16) := by decide
theorem test_decode_subs : decodeWord 0x00000000000000010000000018600208 = some (.sub true (some 1) (some 1) none 1) := by decide
theorem test_decode_ands : decodeWord 0x00000000000000FF0000000018000210 = some (.tstImm 1 0xFF) := by decide
theorem test_decode_orr : decodeWord 0x00000000000000000000001200E00018 = some (.movReg 3 4) := by decide
theorem test_decode_eor : decodeWord 0x00000000000000000000001659600020 = some (.eor false (some 5) (some 5) (some 5) 0) := by decide
theorem test_decode_lsls : decodeWord 0x00000000000000000000001669E00228 = some (.lsl true (some 7) (some 6) (some 5) 0) := by decide
theorem test_decode_lsr : decodeWord 0x00000000000000040000000069E00030 = some (.lsr false (some 7) (some 6) none 4) := by decide
theorem test_decode_asr : decodeWord 0x000000000000003F0000000069E00038 = some (.asr false (some 7) (some 6) none 63) := by decide
theorem test_decode_csels : decodeWord 0x00000000000000000000000A18205E40 = some (.csel true 11 (some 0) (some 1) (some 2) 0) := by decide
theorem test_decode_mul : decodeWord 0x000000000000000A0000000039200004 = some (.mul false (some 4) (some 3) none 10) := by decide
theorem test_decode_ldrsb : decodeWord 0xFFFFFFFFFFFFFFFF0000000018B00001 = some (.ldr 0 true (some 2) 1 0xFFFFFFFFFFFFFFFF) := by decide
theorem test_decode_ldrx : decodeWord 0x00000000000020000000000018AC0001 = some (.ldr 3 false (some 2) 1 0x2000) := by decide
theorem test_decode_strx : decodeWord 0x000000000000000800001E81F80C0002 = some (.str 3 (some 30) 31 8) := by decide
theorem test_decode_strb : decodeWord 0x00000000000000000000000018000002 = some (.str 0 none 1 0) := by decide
theorem test_decode_b : decodeWord 0xFFFFFFFFFFFFFFE00000000000000003 = some (.b 0xFFFFFFFFFFFFFFE0) := by decide
theorem test_decode_bl : decodeWord 0x00000000000000400000000007A10003 = some (.bl 30 0x40) := by decide
theorem test_decode_ret : decodeWord 0x000000000000000000000001E8020003 = some .ret := by decide
theorem test_decode_blr : decodeWord 0x0000000000000000000000005FA30003 = some (.blr 30 5 0) := by decide
theorem test_decode_bcond : decodeWord 0xFFFFFFFFFFFFFFE00000000000000C03 = some (.bCond 1 0xFFFFFFFFFFFFFFE0) := by decide
theorem test_decode_cbnz : decodeWord 0xFFFFFFFFFFFFFFE00000000018008C03 = some (.cbnz 1 0xFFFFFFFFFFFFFFE0) := by decide
theorem test_decode_cbs : decodeWord 0x0000000000000020000000062800DE03 = some (.cbCond true 11 (some 2) (some 1) 0x20) := by decide
theorem test_decode_svc : decodeWord 0x00000000000000000000018288200005 = some (.svc (some 0) (some 8) (some 0) (some 1) 0) := by decide

/-- The byte order of R112's example: `SUBS R1, R1, #1`. -/
theorem test_decode_bytes :
    decodeBytes [0x08, 0x02, 0x60, 0x18, 0, 0, 0, 0, 1, 0, 0, 0, 0, 0, 0, 0] = some (.sub true (some 1) (some 1) none 1) := by
  decide

theorem test_encode_strx : encode (.str 3 (some 30) 31 8) = 0x000000000000000800001E81F80C0002 := by decide

theorem test_print_csel : assemblyText (.csel true 11 (some 0) (some 1) (some 2) 0) = "CSELS R0, R1, R2, LT" := by decide

/-! ## The meanings -/

/-- What an answer leaves, or the given state where it is no next state. -/
def nextOr (o : Answer) (d : State) : State :=
  match o with
  | .next t => t
  | .fault _ => d
  | .refused _ => d

/-- The state after one instruction. -/
def after (i : Instr) (s : State) : State := nextOr (exec i s) s

/-- The state after one step. -/
def stepped (s : State) : State := nextOr (step s) s

/-- The state after reset with two registers set and the program counter moved. -/
def with2 (r₁ : Reg) (v₁ : Word) (r₂ : Reg) (v₂ : Word) (pc : Word) : State :=
  ((State.reset.setReg r₁ v₁).setReg r₂ v₂).setPc pc

/-- The state after reset with other flags. -/
def withFlags (f : Nzcv) (s : State) : State := { s with flags := f }

/-- R121's example: the sum wraps, Z and C. -/
theorem test_add :
    let t := after (.add true (some 3) (some 1) (some 2) 0) (with2 1 0xFFFFFFFFFFFFFFFF 2 1 0x1000)
    t.reg 3 = 0 ∧ t.flags = 0b0110 ∧ t.pc = 0x1010 ∧ t.stats.retired = 1 := by
  decide

/-- Section 2.3: signed overflow, an immediate. -/
theorem test_add_overflow :
    let t := after (.add true (some 3) (some 1) none 1) (with2 1 0x7FFFFFFFFFFFFFFF 2 0 0x1000)
    t.reg 3 = 0x8000000000000000 ∧ t.flags = 0b1001 ∧ t.pc = 0x1010 ∧ t.stats.retired = 1 := by
  decide

/-- Section 2.3: overflow and borrow. -/
theorem test_sub_borrow :
    let t := after (.sub true (some 3) (some 1) (some 2) 0) (with2 1 0 2 0x8000000000000000 0x1000)
    t.reg 3 = 0x8000000000000000 ∧ t.flags = 0b1001 ∧ t.pc = 0x1010 ∧ t.stats.retired = 1 := by
  decide

/-- R122's example: no register is written, C = 0 is a borrow. -/
theorem test_sub_no_destination :
    let t := after (.sub true none (some 1) none 1) (with2 1 0 2 7 0x1000)
    t.x = (with2 1 0 2 7 0x1000).x ∧ t.flags = 0b1000 := by
  decide

/-- R123's example. -/
theorem test_and :
    let t := after (.and true (some 3) (some 1) none 0xF0) (with2 1 0x1234 2 0 0x1000)
    t.reg 3 = 0x30 ∧ t.flags = 0b0000 ∧ t.pc = 0x1010 ∧ t.stats.retired = 1 := by
  decide

/-- R124's example: `FLAGS` unchanged. -/
theorem test_orr_keeps_flags :
    let t := after (.orr false (some 1) none none 5) (withFlags 0b1011 State.reset)
    t.reg 1 = 5 ∧ t.flags = 0b1011 := by
  decide

/-- R125's example. -/
theorem test_eor :
    let t := after (.eor true (some 3) (some 1) (some 1) 0) (with2 1 0x1234 2 9 0x1000)
    t.reg 3 = 0 ∧ t.flags = 0b0100 ∧ t.pc = 0x1010 ∧ t.stats.retired = 1 := by
  decide

/-- R126's example: the amount modulo 64. -/
theorem test_lsl_modulo_64 :
    let t := after (.lsl true (some 3) (some 1) none 65) (with2 1 3 2 0 0x1000)
    t.reg 3 = 6 ∧ t.flags = 0b0000 ∧ t.pc = 0x1010 ∧ t.stats.retired = 1 := by
  decide

/-- Section 2.3: the bit shifted out is lost. -/
theorem test_lsl_lost_bit :
    let t := after (.lsl true (some 3) (some 1) (some 2) 0) (with2 1 0x8000000000000001 2 1 0x1000)
    t.reg 3 = 2 ∧ t.flags = 0b0000 ∧ t.pc = 0x1010 ∧ t.stats.retired = 1 := by
  decide

/-- R127's example. -/
theorem test_lsr :
    let t := after (.lsr true (some 3) (some 1) none 4) (with2 1 0x8000000000000000 2 0 0x1000)
    t.reg 3 = 0x0800000000000000 ∧ t.flags = 0b0000 ∧ t.pc = 0x1010 ∧ t.stats.retired = 1 := by
  decide

/-- R128's example. -/
theorem test_asr :
    let t := after (.asr true (some 3) (some 1) none 4) (with2 1 0x8000000000000000 2 0 0x1000)
    t.reg 3 = 0xF800000000000000 ∧ t.flags = 0b1000 ∧ t.pc = 0x1010 ∧ t.stats.retired = 1 := by
  decide

/-- Section 2.3: amount 127 is amount 63. -/
theorem test_asr_amount_127 :
    let t := after (.asr true (some 3) (some 1) (some 2) 0) (with2 1 0xFFFFFFFFFFFFFFFF 2 127 0x1000)
    t.reg 3 = 0xFFFFFFFFFFFFFFFF ∧ t.flags = 0b1000 ∧ t.pc = 0x1010 ∧ t.stats.retired = 1 := by
  decide

/-- R129's example: `NE` fails. -/
theorem test_csel_fails :
    (after (.csel false 1 (some 3) (some 1) (some 2) 0) (withFlags 0b0100 (with2 1 10 2 20 0x1000))).reg 3 = 20 := by
  decide

/-- Section 2.4: `NV` always holds. -/
theorem test_csel_nv :
    (after (.csel false 15 (some 3) (some 1) none 0) (withFlags 0b1111 (with2 1 11 2 0 0x1000))).reg 3 = 11 := by
  decide

/-- R130's example: the product wraps to 0. -/
theorem test_mul :
    let t := after (.mul true (some 3) (some 1) (some 2) 0) (with2 1 0x100000000 2 0x100000000 0x1000)
    t.reg 3 = 0 ∧ t.flags = 0b0100 ∧ t.pc = 0x1010 ∧ t.stats.retired = 1 := by
  decide

/-- Section 2.3. -/
theorem test_mul_negative :
    let t := after (.mul true (some 3) (some 1) none 2) (with2 1 0xFFFFFFFFFFFFFFFF 2 0 0x1000)
    t.reg 3 = 0xFFFFFFFFFFFFFFFE ∧ t.flags = 0b1000 ∧ t.pc = 0x1010 ∧ t.stats.retired = 1 := by
  decide

/-- R131's example: the offset is added modulo `2^64`, the sign is copied. -/
theorem test_ldrsb :
    (after (.ldr 0 true (some 2) 1 0xFFFFFFFFFFFFFFFF)
      { with2 1 0x2001 2 0 0x1000 with mem := [(0x2000, 0x80)] }).reg 2 = 0xFFFFFFFFFFFFFF80 := by
  decide

/-- Section 2.7: two cache requests. -/
theorem test_ldrx_crosses_line :
    let t := after (.ldr 3 false (some 6) 1 0x3C)
      { with2 1 0x2000 2 0 0x1000 with mem := [(0x203E, 0xFE), (0x203F, 0xFF), (0x2040, 0xFF), (0x2041, 0xFF)] }
    t.reg 6 = 0x0000FFFFFFFE0000 ∧ t.l1d.misses = 2 := by
  decide

/-- R132's example; the base register stays. -/
theorem test_strh :
    let t := after (.str 1 (some 3) 1 2) (with2 1 0x2000 3 0x12345678 0x1000)
    t.dview 0x2002 = 0x78 ∧ t.dview 0x2003 = 0x56 ∧ t.dview 0x2004 = 0 ∧ t.dview 0x2001 = 0 ∧ t.reg 1 = 0x2000 ∧ t.pc = 0x1010 := by
  decide

/-- Section 2.7: the sum `addr + 8` is not wrapped. -/
theorem test_strx_out_of_bounds :
    after (.str 3 (some 2) 2 0) (with2 1 0 2 0xFFFFFFFFFFFFFFFF 0x1000) =
      { with2 1 0 2 0xFFFFFFFFFFFFFFFF 0x1000 with status := .aborted (.dataOutOfBounds 0xFFFFFFFFFFFFFFFF 0) } := by
  decide

/-- R133's example. -/
theorem test_b :
    (after (.b 0xFFFFFFFFFFFFFFE0) (with2 1 0 2 0 0x1040)).pc = 0x1020 := by
  decide

/-- R134's example. -/
theorem test_bl :
    let t := after (.bl 30 0x100) (with2 1 0 2 0 0x1000)
    t.reg 30 = 0x1010 ∧ t.pc = 0x1100 := by
  decide

/-- R135's example, `imm` all ones and ignored. -/
theorem test_br :
    (after (.br 30 0xFFFFFFFFFFFFFFFF) (with2 30 0x1010 1 0 0x10D0)).pc = 0x1010 := by
  decide

/-- Section 2.8: the target is read before the link write. -/
theorem test_blr_same_register :
    let t := after (.blr 5 5 0) (with2 5 0x2000 1 0 0x1000)
    t.pc = 0x2000 ∧ t.reg 5 = 0x1010 := by
  decide

/-- Section 2.8: `B.NE` taken and not taken. -/
theorem test_bcond :
    (after (.bCond 1 0xFFFFFFFFFFFFFFE0) (with2 1 0 2 0 0x1040)).pc = 0x1020 ∧
    (after (.bCond 1 0xFFFFFFFFFFFFFFE0) (withFlags 0b0110 (with2 1 0 2 0 0x1040))).pc = 0x1050 := by
  decide

/-- Section 2.8: `CBS.LT` taken, its flags committed. -/
theorem test_cbs :
    let t := after (.cbCond true 11 (some 1) (some 2) 64) (with2 1 1 2 2 0x1000)
    t.pc = 0x1040 ∧ t.flags = 0b1000 := by
  decide

/-- Section 2.8: `CBNZ` on 0 falls through, `FLAGS` unchanged. -/
theorem test_cbnz_keeps_flags :
    let t := after (.cbnz 1 0xFFFFFFFFFFFFFFE0) (withFlags 0b1001 (with2 1 0 2 0 0x1040))
    t.pc = 0x1050 ∧ t.flags = 0b1001 := by
  decide

/-- Section 2.8: the call does not retire. -/
theorem test_svc_exit :
    let t := after (.svc none (some 8) (some 0) none 0) (with2 8 93 0 7 0x1000)
    t.status = .halted 7 ∧ t.stats.retired = 0 := by
  decide

/-- Section 2.8. -/
theorem test_svc_return :
    let t := after (.svc (some 0) (some 8) (some 0) (some 1) 0) (with2 8 64 0 1 0x1000)
    t.status = .running ∧ t.reg 0 = 0 ∧ t.pc = 0x1010 ∧ t.stats.retired = 1 := by
  decide

/-! ## The step -/

/-- Reset with the conventions of the vectors is the named reset state. -/
theorem test_reset_with : State.resetWith cfgDefault.toRaw [] 0x1000 0x8000 = State.reset := by decide

/-- The next tick delivers the placed word: `ADD R3, R2, #1` stands in lane 0 of `IFID` (R271). -/
theorem test_step_delivers :
    let t := stepped (State.reset.withFetchWord 128 0x00000000000000010000000028E00000)
    (slotAt t.ifid 0).inst = (Instr.add false (some 3) (some 2) none 1).toDiw ∧ (slotAt t.ifid 0).pc = 0x1000 ∧
      t.stats.cycles = 1 := by
  decide

/-- A word that does not decode is delivered as a poisoned record (R274). -/
theorem test_step_poisons :
    let t := stepped (State.reset.withFetchWord 128 0x6)
    (slotAt t.ifid 0).fault = .decodeFailure ∧ (slotAt t.ifid 0).faultCycle = 1 ∧ t.fetch.fetchBlocked = true := by
  decide

/-- The state after reset whose predictor has seen a branch at 0x1000 taken once. -/
def trained (target : Word) : State :=
  { State.reset with pred := predictorUpdate cfgDefault Predictor.start 0x1000 true target }

/-- The second encounter of a taken `B #16`: predicted taken with the known target `pc + IB`, it ends the group, and no
other instruction is read in its tick (R270, D20). -/
theorem test_step_taken_branch_ends_group :
    let t := stepped ((trained 0x1010).withFetchWord 128 0x00000000000000100000000000000003)
    (slotAt t.ifid 0).inst = (Instr.b 0x10).toDiw ∧ (slotAt t.ifid 0).predNext = 0x1010 ∧
      (slotAt t.ifid 1).valid = false ∧ t.fetch.fetchPc = 0x1010 ∧ t.l1i.misses = 0 ∧ t.fetch.pending.valid = false := by
  decide

/-- The same branch, never seen, is predicted not taken, and the group goes on to a read at `pc + IB` (R272). -/
theorem test_step_unseen_branch_goes_on :
    let t := stepped (State.reset.withFetchWord 128 0x00000000000000100000000000000003)
    (slotAt t.ifid 0).predNext = 0x1010 ∧ t.l1i.misses = 1 ∧ t.fetch.pending.pc = 0x1010 := by
  decide

/-- The first fetch misses in `L1I` and `L2` and, with `CFG_DEFAULT`, waits a tick (R271, R345). -/
theorem test_step_first_fetch :
    let t := stepped State.reset
    t.fetch.pending = ⟨true, 0x1000, List.replicate 16 0, 1⟩ ∧ t.l1i.misses = 1 ∧ t.l2.misses = 1 := by
  decide

/-! ## Witnesses: hypotheses of the obligations that can be met -/

/-- A running core. Meets the hypotheses of `AddEffect`, `SubEffect`, `LogicEffect`, `ShiftEffect`, `CselEffect`, `MulEffect`,
`DirectBranchEffect`, `IndirectBranchEffect`, `ConditionalBranchEffect`, `CompareBranchEffect`. -/
theorem test_witness_running : State.reset.status = .running := by decide

/-- `DataAccessCompletes`: the last eight bytes of memory, the boundary of the range. -/
theorem test_witness_in_bounds :
    (with2 1 0xFFFF8 2 0 0x1000).status = .running ∧
      (effectiveAddr ((with2 1 0xFFFF8 2 0 0x1000).reg 1) 0).toNat + 2 ^ (3 : BitVec 2).toNat ≤
        (with2 1 0xFFFF8 2 0 0x1000).cfg.memSize := by
  decide

/-- `DataAccessOutOfBounds`: one byte further, and the last address of all. -/
theorem test_witness_out_of_bounds :
    (with2 1 0xFFFF8 2 0 0x1000).status = .running ∧
      (with2 1 0xFFFF8 2 0 0x1000).cfg.memSize <
        (effectiveAddr ((with2 1 0xFFFF8 2 0 0x1000).reg 1) 1).toNat + 2 ^ (3 : BitVec 2).toNat ∧
      (with2 1 0xFFFF8 2 0 0x1000).cfg.memSize <
        (effectiveAddr ((with2 1 0xFFFF8 2 0 0x1000).reg 2) 0xFFFFFFFFFFFFFFFF).toNat + 2 ^ (0 : BitVec 2).toNat := by
  decide

theorem dirAt_empty (g : CacheCfg) (set w : Nat) : dirAt g Cache.empty set w = DirEntry.empty := rfl

theorem dataAt_empty (g : CacheCfg) (set w : Nat) : dataAt g Cache.empty set w = List.replicate g.line 0 := rfl

theorem linesFull_empty (g : CacheCfg) : linesFull g Cache.empty := by
  intro set w _ _
  rw [dataAt_empty, List.length_replicate]

theorem cacheSound_empty (g : CacheCfg) (V : Nat → Byte) : cacheSound g Cache.empty V :=
  ⟨fun _ _ _ _ _ _ h _ _ => absurd h (by rw [dirAt_empty]; decide), linesFull_empty g,
    fun _ _ _ _ h _ => absurd h (by rw [dirAt_empty]; decide)⟩

/-- Caches that hold nothing are coherent over any memory. -/
theorem coherent_of_empty {s : State} (h1 : s.l1i = Cache.empty) (h2 : s.l1d = Cache.empty) (h3 : s.l2 = Cache.empty) :
    s.coherent := by
  unfold State.coherent
  rw [h1, h2, h3]
  exact ⟨cacheSound_empty _ _, cacheSound_empty _ _, fun _ _ => rfl, linesFull_empty _⟩

/-- `LoadValue`, `StoreBytes`: a valid configuration, coherent caches and an access in bounds. -/
theorem test_witness_coherent_access :
    (with2 1 0xFFFF8 2 0 0x1000).status = .running ∧ cfgValid (with2 1 0xFFFF8 2 0 0x1000).cfg = true ∧
      (with2 1 0xFFFF8 2 0 0x1000).coherent ∧
      (effectiveAddr ((with2 1 0xFFFF8 2 0 0x1000).reg 1) 0).toNat + 2 ^ (3 : BitVec 2).toNat ≤
        (with2 1 0xFFFF8 2 0 0x1000).cfg.memSize :=
  ⟨by decide, by decide, coherent_of_empty rfl rfl rfl, by decide⟩

/-- `SyscallExit`. -/
theorem test_witness_exit :
    (with2 8 93 0 7 0x1000).status = .running ∧ (with2 8 93 0 7 0x1000).source (some 8) = 93 := by
  decide

/-- `SyscallReturn`, also with the first operand absent. -/
theorem test_witness_return :
    (with2 8 64 0 7 0x1000).status = .running ∧ (with2 8 64 0 7 0x1000).source (some 8) ≠ 93 ∧
      (with2 8 64 0 7 0x1000).source none ≠ 93 := by
  decide

/-- `StoppedCoreIsFrozen`. -/
theorem test_witness_stopped :
    (State.reset.halt 7).status ≠ .running ∧ (State.reset.raise (.dataOutOfBounds 0 0)).status ≠ .running := by
  decide

/-- `DecodeOfEncode`. -/
theorem test_witness_well_formed :
    (Instr.csel true 11 (some 31) none (some 0) 5).wellFormed = true ∧ (Instr.cbCond false 0 none none 0).wellFormed = true := by
  decide

/-- `EncodeOfDecode`, and both clauses of `DecodeExactlyValid`. -/
theorem test_witness_decodes :
    decodeWord 0x7C03 = some (.bCond 15 0) ∧ unpackDiw 0x7C03 = some (Instr.bCond 15 0).toDiw ∧
      (Instr.bCond 15 0).toDiw.valid = true := by
  decide

/-- `DecodeMatchesOpcodeTable`: the row that covers a word. -/
theorem test_witness_covers :
    (opcodeTable.filter fun r => r.covers 0x7C03).map (·.mnemonic) = ["B.cond"] ∧ regNumbersZero 0x7C03 = true := by
  decide

/-- `StepDeliversDecoded`. -/
theorem test_witness_delivers :
    State.reset.status = .running ∧ 1 ≤ State.reset.cfg.issueWidth ∧ decodeTableWord 128 0 = some .nop := by
  decide

/-- `LoneRecordRunsToExec`, for a `BRANCH` and for another class. -/
theorem test_witness_lone :
    State.reset.status = .running ∧ State.reset.latchesSized = true ∧ 1 ≤ State.reset.cfg.issueWidth ∧
      1 ≤ State.reset.cfg.memPorts ∧ (Instr.b 0x40).toDiw.cls = .branch ∧ Instr.nop.toDiw.cls ≠ .branch ∧
      (0x1010 : Word) = State.reset.pc + State.reset.ib := by
  decide

/-- A one-lane core after reset. -/
def oneLane : State := State.build .running { cfgDefault with issueWidth := 1 } [] 0x1000 0x8000

/-- `FirstInstructionRunsToExec`; the second word ends the run. -/
theorem test_witness_first_instruction :
    oneLane.status = .running ∧ cfgValid oneLane.cfg = true ∧ oneLane.coherent ∧ oneLane.cfg.issueWidth = 1 ∧
      decodeTableWord 128 0 = some .nop ∧
      decodeTableWord 128 0xFFFFFFFFFFFFFFFF0000000008000001 = some (.ldr 0 false none 0 0xFFFFFFFFFFFFFFFF) :=
  ⟨by decide, by decide, coherent_of_empty rfl rfl rfl, by decide, by decide, by decide⟩

/-- `RetiresInFifthTick`: the last of the four ticks, and an instruction of each of the three classes. -/
theorem test_witness_fifth_tick :
    (4 ≤ 4) ∧ oneLane.status = .running ∧ oneLane.cfg.issueWidth = 1 ∧
      decodeTableWord 128 0 = some .nop ∧ Instr.nop.toDiw.cls = .arith ∧
      decodeTableWord 128 0x4 = some (.mul false none none none 0) ∧ (Instr.mul false none none none 0).toDiw.cls = .mul ∧
      decodeTableWord 128 0x400000000000000000000000000003 = some (.b 0x40000000000000) ∧
      (Instr.b 0x40000000000000).toDiw.cls = .branch ∧ latencyOf oneLane.cfg .arith ≤ 1 ∧
      latencyOf oneLane.cfg .branch ≤ 1 ∧ latencyOf { oneLane.cfg with latMul := 1 } .mul ≤ 1 := by
  decide

/-- A record of an instruction past execution, with its result. -/
def doneSlot (i : Instr) (result : Word) (flags : Nzcv) : Slot :=
  { freshSlot 0x1000 i.toDiw 0x1010 with result := result, setsFlags := i.toDiw.setsFlags, flags := flags }

/-- Two writers of `R3` in `MEMWB`; the younger one sets flags. -/
def retiring : State :=
  { State.reset with
    memwb := [doneSlot (.add false (some 3) none none 0) 1 0, doneSlot (.add true (some 3) none none 0) 2 0b1000] }

/-- `WritebackCommits`, `OnlyWritebackCommits`: lane 1 is the youngest writer and setter, `R4` has no writer. -/
theorem test_witness_writeback :
    retiring.status = .running ∧ retiring.memwb.length = retiring.cfg.issueWidth ∧
      nearestBelow retiring.memwb (validWriter 3) retiring.cfg.issueWidth 1 ∧
      noneBelow retiring.memwb (validWriter 4) retiring.cfg.issueWidth ∧
      nearestBelow retiring.memwb validSetter retiring.cfg.issueWidth 1 ∧
      noneBelow State.reset.memwb validSetter State.reset.cfg.issueWidth ∧ step retiring = .next (tick ref retiring) := by
  have hn : retiring.cfg.issueWidth = 2 := rfl
  refine ⟨by decide, by decide, ⟨by decide, by decide, fun k h1 h2 => ?_⟩, fun k h => ?_,
    ⟨by decide, by decide, fun k h1 h2 => ?_⟩, fun k _ => ?_, rfl⟩
  · omega
  · have : k = 0 ∨ k = 1 := by omega
    rcases this with rfl | rfl <;> decide
  · omega
  · have h : slotAt State.reset.memwb k = Slot.bubble := slotAt_bubbles 2 k
    rw [h]
    decide

/-- A state with one record in lane 1 of `EXMEM`. -/
def inMemory (r : Slot) : State := { State.reset with exmem := [Slot.bubble, r] }

theorem firstValid_inMemory (r : Slot) (h : r.valid = true) : firstValid (inMemory r).exmem (inMemory r).cfg.issueWidth 1 :=
  ⟨by unfold inMemory; exact Nat.one_lt_two, h, fun k hk => by
    obtain rfl : k = 0 := by omega
    rfl⟩

/-- `MemoryStageEnds`: the four clauses on a record's own class and fault. -/
theorem test_witness_memory_ends :
    firstValid (inMemory { Slot.bubble with valid := true, fault := .fetchMisaligned }).exmem 2 1 ∧
      firstValid (inMemory { Slot.bubble with valid := true, fault := .fetchOutOfBounds }).exmem 2 1 ∧
      firstValid (inMemory { Slot.bubble with valid := true, fault := .decodeFailure }).exmem 2 1 ∧
      firstValid (inMemory { doneSlot (.svc none (some 8) (some 0) none 0) 0 0 with a := 93, b := 7 }).exmem 2 1 :=
  ⟨firstValid_inMemory _ rfl, firstValid_inMemory _ rfl, firstValid_inMemory _ rfl, firstValid_inMemory _ rfl⟩

/-- `MemoryStageEnds`: a data access one byte beyond the end of memory. -/
theorem test_witness_memory_bounds :
    let r := { doneSlot (.ldr 3 false (some 1) 2 0) 0 0 with addr := 0xFFFF9 }
    firstValid (inMemory r).exmem (inMemory r).cfg.issueWidth 1 ∧ r.fault = .none ∧ r.inst.cls.isMem = true ∧
      r.memStarted = false ∧ 1 ≤ (inMemory r).cfg.memPorts ∧
      (inMemory r).cfg.memSize < r.addr.toNat + 2 ^ r.inst.msize.toNat :=
  ⟨firstValid_inMemory _ rfl, by decide⟩

/-- A taken branch in lane 0 of `IDEX`, fetched past to the next address, with a younger record behind it. -/
def mispredicting : State :=
  { State.reset with
    idex := [freshSlot 0x1000 (Instr.b 0x40).toDiw 0x1010, freshSlot 0x1010 Instr.nop.toDiw 0x1020] }

/-- `FlushComesFromBranch`. -/
theorem test_witness_flush :
    mispredicting.latchesSized = true ∧ anyValid mispredicting.exmem = false ∧
      (executeStep ref mispredicting).flush = some 0x1040 := by
  decide

/-- `FlushIsAtomic`. -/
theorem test_witness_flush_tick :
    mispredicting.status = .running ∧ (memoryStep ref (writebackStep mispredicting.countCycle)).status = .running ∧
      (executeAndDecode ref (memoryStep ref (writebackStep mispredicting.countCycle))).flush = some 0x1040 := by
  decide

/-- `PenaltyHoldsFetch`. -/
theorem test_witness_penalty : 0 < (flushStep State.reset 0x1040).fetch.redirectStall := by decide

/-- The state after reset that fetches from an address. -/
def fetchingAt (pc : Word) : State := { State.reset with fetch := FetchUnit.start pc }

/-- `FetchFirstLane`, the shared hypotheses and the first three clauses: misaligned; the first aligned address out of
bounds; a read of two ticks at the last address in bounds. -/
theorem test_witness_fetch :
    (∀ pc, (fetchingAt pc).latchesSized = true ∧ 1 ≤ (fetchingAt pc).cfg.issueWidth ∧
      (fetchingAt pc).fetch.redirectStall = 0 ∧ anyValid (fetchingAt pc).ifid = false ∧
      (fetchingAt pc).fetch.fetchBlocked = false ∧ (fetchingAt pc).fetch.pending.valid = false) ∧
    (0x1048 : Word).toNat % (fetchingAt 0x1048).cfg.instrBytes ≠ 0 ∧
    (fetchingAt 0x100000).cfg.memSize < (0x100000 : Word).toNat + (fetchingAt 0x100000).cfg.instrBytes ∧
    (0xFFFF0 : Word).toNat + (fetchingAt 0xFFFF0).cfg.instrBytes ≤ (fetchingAt 0xFFFF0).cfg.memSize ∧
    1 < ((fetchingAt 0xFFFF0).fetchRead 0xFFFF0).latency :=
  ⟨fun _ => ⟨rfl, Nat.le_of_lt Nat.one_lt_two, rfl, rfl, rfl, rfl⟩, by decide, by decide, by decide, by decide⟩

/-- A core whose caches answer a miss in one tick, with one byte of its program set. -/
def quick (v : Byte) : State :=
  State.build .running
    { cfgDefault with
      l1i := { cfgDefault.l1i with missLat := 0 }
      l2 := { cfgDefault.l2 with missLat := 0 } }
    [(0x1000, v)] 0x1000 0x8000

/-- `FetchFirstLane`, the last two clauses: a word that decodes and one that does not, each read in one tick. -/
theorem test_witness_fetch_at_once :
    ((quick 0).fetchRead 0x1000).latency ≤ 1 ∧ decodeBytes ((quick 0).fetchRead 0x1000).bytes = some .nop ∧
      ((quick 6).fetchRead 0x1000).latency ≤ 1 ∧ decodeBytes ((quick 6).fetchRead 0x1000).bytes = none ∧
      (quick 0).latchesSized = true ∧ (quick 6).latchesSized = true := by
  decide

/-- `FetchFirstLane`, the bytes read: a line that `L1I` does not hold, and the same line once it has been read. -/
theorem test_witness_fetch_bytes :
    let s := quick 3
    let t := (s.fetchRead 0x1000).state
    (cfgValid s.cfg = true ∧ s.coherent ∧ cacheByte? s.cfg.l1i s.l1i 0x1000 = none) ∧
      cfgValid t.cfg = true ∧ t.coherent ∧ cacheByte? t.cfg.l1i t.l1i 0x1000 = some 3 ∧
      (0x1000 : Word).toNat % t.cfg.instrBytes = 0 ∧ (0x1000 : Word).toNat + t.cfg.instrBytes ≤ t.cfg.memSize :=
  have hv : cfgValid (quick 3).cfg = true := by decide
  have hc : (quick 3).coherent := coherent_of_empty rfl rfl rfl
  ⟨⟨hv, hc, by decide⟩, by decide, (fetchRead_spec hv hc 0x1000).1, by decide, by decide, by decide⟩

/-- `FetchFirstLane`, a branch that is followed: `B #16` read in one tick, predicted taken with a known target. -/
theorem test_witness_fetch_followed :
    let s : State :=
      { quick 3 with
        mem := [(0x1000, 3), (0x1008, 0x10)]
        pred := predictorUpdate (quick 3).cfg Predictor.start 0x1000 true 0x1010 }
    s.latchesSized = true ∧ 1 ≤ s.cfg.issueWidth ∧ s.fetch.redirectStall = 0 ∧ anyValid s.ifid = false ∧
      s.fetch.fetchBlocked = false ∧ s.fetch.pending.valid = false ∧ s.fetch.fetchPc = 0x1000 ∧
      (s.fetchRead 0x1000).latency ≤ 1 ∧ decodeBytes (s.fetchRead 0x1000).bytes = some (.b 0x10) ∧
      (Instr.b 0x10).toDiw.cls = .branch ∧ predict s.cfg s.pred 0x1000 = ⟨true, 0x1010, true⟩ := by
  decide

/-- The state after reset has the invariants, and steps: `StepKeepsStructure`, `StepKeepsLanesContiguous`,
`StepKeepsPortsRespected`, `MemoryStageNeverRefusesAPort`, `StepKeepsDirectoriesSound`, `StepKeepsCoherent`,
`OnlyStoresChangeTheView`, `StepKeepsCountersOrdered`, `StepCountersGrow`, `StepKeepsConfiguration`, `StepKeepsPoisonOut`. -/
theorem test_witness_invariants :
    State.reset.wf = true ∧ State.reset.latchesSized = true ∧ State.reset.lanesContiguous ∧ State.reset.portsRespected ∧
      cfgValid State.reset.cfg = true ∧ State.reset.directoriesSound ∧ State.reset.coherent ∧
      State.reset.countersOrdered ∧ State.reset.noPoisonRetires ∧ (∀ r ∈ State.reset.exmem, r.valid = false) ∧
      step State.reset = .next (tick ref State.reset) := by
  have hc : contiguous (bubbles 2) := fun i j k _ _ h _ => absurd h (by rw [slotAt_bubbles]; decide)
  have he : Cache.empty.countersOrdered := by unfold Cache.countersOrdered; decide
  have hd : ∀ g, directorySound g Cache.empty := fun g =>
    ⟨(cacheSound_empty g fun _ => 0).1, fun _ _ _ _ => Nat.le_refl _,
      fun _ _ _ _ _ _ h _ _ => absurd h (by rw [dirAt_empty]; decide)⟩
  refine ⟨by decide, by decide, ⟨hc, hc, hc, hc⟩, by unfold State.portsRespected; decide, by decide, ⟨hd _, hd _, hd _⟩, coherent_of_empty rfl rfl rfl,
    ⟨he, he, he⟩, ?_, ?_, rfl⟩
  · unfold State.noPoisonRetires
    decide
  · decide

/-- `ResetValues`: the two named configurations are valid. -/
theorem test_witness_valid_configurations :
    firstViolation cfgDefault.toRaw = none ∧ firstViolation cfgSmall.toRaw = none := by
  decide

/-- `ResetOfInvalidConfiguration`: a missing field and a zero one (the end of section 2.12), a zero divisor, a missing
one, a relation named for its first field, the first number of `SP_REG` beyond the registers. -/
theorem test_witness_invalid_configurations :
    firstViolation [] = some .latArith ∧
      firstViolation { cfgDefault with issueWidth := 0 }.toRaw = some .issueWidth ∧
      firstViolation { cfgDefault with l1i := { cfgDefault.l1i with assoc := 0 } }.toRaw = some .l1iAssoc ∧
      firstViolation (cfgDefault.toRaw.filter fun e => e.1 != .instrBytes) = some .instrBytes ∧
      firstViolation { cfgDefault with l1d := { cfgDefault.l1d with size := 100 } }.toRaw = some .l1dSize ∧
      firstViolation { cfgDefault with spReg := 32 }.toRaw = some .spReg := by
  decide

/-- A writer of `R3` that is late in lane 0 of `EXMEM` and one in lane 1 of `MEMWB`. -/
def forwarding : State :=
  { State.reset with
    exmem := [doneSlot (.ldr 3 false (some 3) 1 0) 0 0, Slot.bubble]
    memwb := [Slot.bubble, doneSlot (.sub true (some 3) none none 0) 2 0b0110] }

/-- `NearestProducerForwards`, `NearestSetterForwards`: a nearest producer in each place, and none. -/
theorem test_witness_forwarding :
    nearestBelow forwarding.exmem (validWriter 3) 1 0 ∧ noneBelow forwarding.exmem (validWriter 3) 0 ∧
      nearestBelow forwarding.memwb (validWriter 3) 2 1 ∧ noneBelow State.reset.memwb (validWriter 3) 2 ∧
      (Instr.cbCond true 0 none none 0).toDiw.fused = true ∧ (Instr.bCond 0 0).toDiw.readsFlags = true ∧
      (Instr.bCond 0 0).toDiw.fused = false ∧ noneBelow forwarding.exmem validSetter 1 ∧
      nearestBelow forwarding.memwb validSetter 2 1 ∧ nearestBelow retiring.memwb validSetter 2 1 := by
  refine ⟨⟨by decide, by decide, fun k h1 h2 => ?_⟩, fun k h => ?_, ⟨by decide, by decide, fun k h1 h2 => ?_⟩, fun k _ => ?_,
    by decide, by decide, by decide, fun k h => ?_, ⟨by decide, by decide, fun k h1 h2 => ?_⟩,
    ⟨by decide, by decide, fun k h1 h2 => ?_⟩⟩
  · omega
  · omega
  · omega
  · have h : slotAt State.reset.memwb k = Slot.bubble := slotAt_bubbles 2 k
    rw [h]
    decide
  · obtain rfl : k = 0 := by omega
    decide
  · omega
  · omega

/-- `IssueBlocks`: each answer occurs. -/
theorem test_witness_issue :
    canIssue forwarding (Instr.ldr 0 false none 1 0).toDiw 0 1 = .structural ∧
      canIssue forwarding (Instr.movReg 1 3).toDiw 0 0 = .raw ∧ canIssue forwarding (Instr.movReg 1 4).toDiw 0 0 = .ok := by
  decide

/-- The state after reset, with one memory port, about to decode two records. -/
def decoding (r₀ r₁ : Slot) : State :=
  { State.reset with cfg := { cfgDefault with memPorts := 1 }, ifid := [r₀, r₁] }

/-- The record of an instruction just fetched. -/
def fetched (i : Instr) : Slot := freshSlot 0x1000 i.toDiw 0x1010

/-- The configuration of the witnesses below is valid. -/
theorem test_witness_one_port : cfgValid (decoding Slot.bubble Slot.bubble).cfg = true := by decide

/-- `DecodeCountsAtMostOneStall`, structural: a second load where one port is taken by the load issued in lane 0. -/
theorem test_witness_refused_structural :
    let s := decoding (fetched (.ldr 3 false (some 2) 1 0)) (fetched (.ldr 3 false (some 4) 1 8))
    let t := decodeStep s
    s.latchesSized = true ∧ (slotAt t.ifid 0).valid = false ∧ (slotAt s.ifid 1).valid = true ∧
      memClassCount (s.ifid.take 1) = 1 ∧ canIssue t (slotAt s.ifid 1).inst 1 1 = .structural ∧
      t.stats.stallStructural = 1 := by
  decide

/-- `DecodeCountsAtMostOneStall`, read-after-write: the pair of R259 in one group, its first tick. -/
theorem test_witness_refused_raw :
    let s := decoding (fetched (.ldr 3 false (some 2) 1 0)) (fetched (.add false (some 3) (some 2) none 1))
    let t := decodeStep s
    (slotAt t.ifid 0).valid = false ∧ (slotAt s.ifid 1).valid = true ∧ canIssue t (slotAt s.ifid 1).inst 1 1 = .raw ∧
      (slotAt t.ifid 1).valid = true ∧ t.stats.stallHazard = 1 := by
  decide

/-- `DecodeCountsAtMostOneStall`: a candidate that issues beside a poisoned record, and nothing counted. -/
theorem test_witness_accepted :
    let s := decoding (fetched (.ldr 3 false (some 2) 1 0)) { Slot.bubble with valid := true, fault := .fetchMisaligned }
    let t := decodeStep s
    s.latchesSized = true ∧ canIssue t (slotAt s.ifid 0).inst 0 0 = .ok ∧ (slotAt s.ifid 1).fault ≠ .none ∧
      (slotAt t.ifid 0).valid = false ∧ (slotAt t.ifid 1).valid = false ∧ t.stats = s.stats := by
  decide

/-- `FirstEncounterNotTaken`. -/
theorem test_witness_first_encounter :
    bimAt cfgDefault Predictor.start 0x1000 = 1 ∧ choiceAt cfgDefault Predictor.start 0x1000 = 1 ∧
      (btbAt cfgDefault Predictor.start 0x1000).valid = false := by
  decide

/-- `UpdateTrains`: two addresses with different indices in every table. -/
theorem test_witness_other_index :
    bimIx cfgDefault 0x1010 ≠ bimIx cfgDefault 0x1000 ∧ choiceIx cfgDefault 0x1010 ≠ choiceIx cfgDefault 0x1000 ∧
      btbIx cfgDefault 0x1010 ≠ btbIx cfgDefault 0x1000 ∧ 0 ≠ gshIx cfgDefault 0 0x1010 := by
  decide

theorem usable_l1d : usable cfgDefault.l1d := by unfold usable; decide

theorem mainRead_length (m : Memory) (a n : Nat) : (mainRead m a n).length = n := by
  rw [mainRead_eq_viewBytes, viewBytes_length]

/-- `CacheRoundTrip`: four bytes up to the end of a line, over main memory. -/
theorem test_witness_round_trip :
    usable cfgDefault.l1d ∧ linesFull cfgDefault.l1d Cache.empty ∧
      (∀ (b : Memory) (x : Nat), (memBacking.read b x cfgDefault.l1d.line).bytes.length = cfgDefault.l1d.line) ∧
      1 ≤ [(1 : Byte), 2, 3, 4].length ∧ 60 % cfgDefault.l1d.line + [(1 : Byte), 2, 3, 4].length ≤ cfgDefault.l1d.line :=
  ⟨usable_l1d, linesFull_empty _, fun b x => mainRead_length b x _, by decide, by decide⟩

/-- `BWrite` (R336): main memory answers latency 0; `L2` that of its `Write`, here with hit latency 3 and miss
latency 20: 20 + 0 for a miss over main memory, 3 for a hit (R354). -/
theorem test_write_latency :
    let g : CacheCfg := ⟨64, 1, 64, 3, 20⟩
    let first := (l2Backing g).write { cache := Cache.empty, below := [] } 0x2000 [0x88]
    (memBacking.write [] 0x2000 [0x88]).latency = 0 ∧ first.latency = 20 ∧
      ((l2Backing g).write first.store 0x2000 [0x77]).latency = 3 := by
  decide

/-- `EvictionWritesBack`: a full set of a direct-mapped cache, with a dirty line and with a clean one. -/
theorem test_witness_full_set (dirty : Bool) :
    let g : CacheCfg := ⟨128, 1, 64, 1, 1⟩
    let c : Cache := { Cache.empty with dir := [(1, ⟨true, dirty, 5, 3⟩)] }
    usable g ∧ (∀ w, w < g.assoc → (dirAt g c 1 w).valid = true) ∧ (dirAt g c 1 0).dirty = dirty :=
  ⟨by unfold usable; decide, fun w hw => by obtain rfl : w = 0 := Nat.lt_one_iff.mp hw; cases dirty <;> rfl,
    by cases dirty <;> rfl⟩

/-- `CpiIsExact`: the two cases; P1 with one lane has `CPI = 8/3` (section 3). -/
theorem test_witness_cpi :
    0 < (⟨8, 3, 0, 0, 0, 0⟩ : Stats).retired ∧ Stats.zero.retired = 0 ∧ (⟨8, 3, 0, 0, 0, 0⟩ : Stats).cpi = 8 / 3 := by
  refine ⟨by decide, rfl, ?_⟩
  norm_num [Stats.cpi]

end Sys2Proof.Machine
end

section
/-!
PROOFS. The validity of a configuration (`spec/00_scope.md` R11). The model checks each condition under the field it names
first and lets a relation with divisor 0 pass (R382, log entry 6); where every divisor is positive, a condition of its own,
the checks together are exactly R11.
-/

namespace Sys2Proof.Machine

/-! ## The checks of one field -/

theorem CfgField.mem_inOrder (f : CfgField) : f ∈ CfgField.inOrder := by
  cases f <;> decide

theorem fieldPresent_iff {raw : RawCfg} {f : CfgField} :
    fieldPresent raw f = true ↔ ∃ v, rawField raw f = some v ∧ 0 ≤ v := by
  unfold fieldPresent
  cases rawField raw f with
  | none => simp
  | some v => simp

/-- With a positive divisor the exception of log entry 6 does not apply. -/
theorem dividesEvenly_iff_of_pos {b a : Nat} (hb : 1 ≤ b) : dividesEvenly b a = true ↔ a % b = 0 := by
  have hne : b ≠ 0 := Nat.one_le_iff_ne_zero.1 hb
  simp [dividesEvenly, hne]

theorem cacheSizeOk_iff_of_pos {g : CacheCfg} (ha : 1 ≤ g.assoc) (hl : 1 ≤ g.line) :
    cacheSizeOk g = true ↔ 1 ≤ g.size ∧ g.size % (g.assoc * g.line) = 0 := by
  have hset : 1 ≤ g.assoc * g.line := Nat.mul_pos ha hl
  simp [cacheSizeOk, dividesEvenly_iff_of_pos hset]

/-! ## The checks of all fields -/

theorem cfgValid_iff_forall {c : Cfg} : cfgValid c = true ↔ ∀ f, fieldValueOk c f = true :=
  ⟨cfgValid_field, fun h => List.all_eq_true.2 fun f _ => h f⟩

theorem firstViolation_eq_none_iff {raw : RawCfg} :
    firstViolation raw = none ↔
      (∀ f, ∃ v, rawField raw f = some v ∧ 0 ≤ v) ∧ cfgValid (cfgOfRaw raw) = true := by
  have hnone : firstViolation raw = none ↔
      ∀ f, fieldPresent raw f = true ∧ fieldValueOk (cfgOfRaw raw) f = true := by
    simp [firstViolation, List.find?_eq_none, CfgField.mem_inOrder]
  simp only [hnone, forall_and, fieldPresent_iff, cfgValid_iff_forall]

/-! ## What a valid configuration satisfies, clause by clause of R11 -/

/-- R11 (c). -/
theorem cfgValid_caches {c : Cfg} (h : cfgValid c = true) (g : CacheCfg) (hg : g = c.l1i ∨ g = c.l1d ∨ g = c.l2) :
    1 ≤ g.size ∧ 1 ≤ g.assoc ∧ 1 ≤ g.line ∧ g.size % (g.assoc * g.line) = 0 := by
  have ⟨hsize, hline, hassoc⟩ : cacheSizeOk g = true ∧ 1 ≤ g.line ∧ 1 ≤ g.assoc := by
    obtain rfl | rfl | rfl := hg
    · exact ⟨cfgValid_field h .l1iSize, (cfgValid_usable_l1i h).1, (cfgValid_usable_l1i h).2.1⟩
    · exact ⟨cfgValid_field h .l1dSize, (cfgValid_usable_l1d h).1, (cfgValid_usable_l1d h).2.1⟩
    · exact ⟨cfgValid_field h .l2Size, (cfgValid_usable_l2 h).1, (cfgValid_usable_l2 h).2.1⟩
  obtain ⟨hpos, hsets⟩ := (cacheSizeOk_iff_of_pos hassoc hline).1 hsize
  exact ⟨hpos, hassoc, hline, hsets⟩

/-- R11 (d). -/
theorem cfgValid_instrBytes {c : Cfg} (h : cfgValid c = true) :
    1 ≤ c.instrBytes ∧ c.l1i.line % c.instrBytes = 0 := by
  have hib : 1 ≤ c.instrBytes := by simpa [fieldValueOk] using cfgValid_field h .instrBytes
  have hline := cfgValid_field h .l1iLine
  simp only [fieldValueOk, Bool.and_eq_true, dividesEvenly_iff_of_pos hib] at hline
  exact ⟨hib, hline.2⟩

/-- R11 (f). -/
theorem cfgValid_memSize {c : Cfg} (h : cfgValid c = true) : c.memSize % c.l2.line = 0 ∧ c.memSize ≤ 2 ^ 64 := by
  have hmem := cfgValid_field h .memSize
  simpa only [fieldValueOk, Bool.and_eq_true, dividesEvenly_iff_of_pos (cfgValid_usable_l2 h).1, decide_eq_true_eq] using hmem

/-- Settles O50. From the checks to R11 clause by clause; back, R11 makes every divisor positive, so that each field's check
is the conditions it names. -/
theorem validityConditions : Obligations.ValidityConditions := by
  intro raw c
  refine firstViolation_eq_none_iff.trans (and_congr_right fun _ => ⟨fun h => ?_, ?_⟩)
  · have field := cfgValid_field h
    obtain ⟨hib, hfetch⟩ := cfgValid_instrBytes h
    obtain ⟨hnestI, hnestD⟩ := cfgValid_lines_nest h
    obtain ⟨hmem, hmax⟩ := cfgValid_memSize h
    exact ⟨of_decide_eq_true (field .issueWidth), of_decide_eq_true (field .memPorts), cfgValid_caches h, hib, hfetch,
      hnestI, hnestD, hmem, hmax, of_decide_eq_true (field .bimEntries), of_decide_eq_true (field .gshEntries),
      of_decide_eq_true (field .metaEntries), of_decide_eq_true (field .btbEntries), of_decide_eq_true (field .ghrBits),
      of_decide_eq_true (field .spReg)⟩
  · rintro ⟨hwidth, hports, hcaches, hib, hfetch, hnestI, hnestD, hmem, hmax, hbim, hgsh, hmeta, hbtb, hghr, hsp⟩
    obtain ⟨hsizeI, hassocI, hlineI, hsetsI⟩ := hcaches _ (.inl rfl)
    obtain ⟨hsizeD, hassocD, hlineD, hsetsD⟩ := hcaches _ (.inr (.inl rfl))
    obtain ⟨hsize2, hassoc2, hline2, hsets2⟩ := hcaches _ (.inr (.inr rfl))
    refine cfgValid_iff_forall.2 fun f => ?_
    cases f with
    | l1iSize => exact (cacheSizeOk_iff_of_pos hassocI hlineI).2 ⟨hsizeI, hsetsI⟩
    | l1dSize => exact (cacheSizeOk_iff_of_pos hassocD hlineD).2 ⟨hsizeD, hsetsD⟩
    | l2Size => exact (cacheSizeOk_iff_of_pos hassoc2 hline2).2 ⟨hsize2, hsets2⟩
    | l1iLine =>
      exact Bool.and_eq_true_iff.2 ⟨decide_eq_true hlineI, (dividesEvenly_iff_of_pos hib).2 hfetch⟩
    | l2Line =>
      have hover : decide (1 ≤ c.l2.line) && dividesEvenly c.l1i.line c.l2.line :=
        Bool.and_eq_true_iff.2 ⟨decide_eq_true hline2, (dividesEvenly_iff_of_pos hlineI).2 hnestI⟩
      exact Bool.and_eq_true_iff.2 ⟨hover, (dividesEvenly_iff_of_pos hlineD).2 hnestD⟩
    | memSize => exact Bool.and_eq_true_iff.2 ⟨(dividesEvenly_iff_of_pos hline2).2 hmem, decide_eq_true hmax⟩
    | issueWidth | memPorts | l1iAssoc | l1dAssoc | l1dLine | l2Assoc | instrBytes | spReg | bimEntries | gshEntries
    | metaEntries | ghrBits | btbEntries => apply decide_eq_true; assumption
    | latArith | latLoad | latStore | latBranch | latMul | latSyscall | mispredictPenalty
    | l1iHitLat | l1iMissLat | l1dHitLat | l1dMissLat | l2HitLat | l2MissLat => rfl

end Sys2Proof.Machine
end

section
/-!
PROOFS. The state (`spec/10_state.md`): what every tick keeps of it and where reset puts it. Two ideas carry the invariants.
Each lane loop of the pipeline moves the valid records of one latch into an empty one, in lane order (R33, R167), which gives
the number and the order of the lanes; and whatever writes a table writes it through `tableSet`, which keeps the canonical
form.
-/

namespace Sys2Proof.Machine

/-! ## Lane loops with an invariant that counts the lanes -/

/-- The state a turn leaves satisfies `P` if the loop goes on and `Q` if it ends there. -/
def LaneStep.meets {σ : Type} (P Q : σ → Prop) : LaneStep σ → Prop
  | .go s => P s
  | .stop s => Q s

@[simp] theorem LaneStep.meets_go {σ : Type} (P Q : σ → Prop) (s : σ) : (LaneStep.go s).meets P Q ↔ P s := Iff.rfl
@[simp] theorem LaneStep.meets_stop {σ : Type} (P Q : σ → Prop) (s : σ) : (LaneStep.stop s).meets P Q ↔ Q s := Iff.rfl

theorem LaneStep.meets.mono {σ : Type} {P P' Q Q' : σ → Prop} {a : LaneStep σ} (h : a.meets P Q) (hP : ∀ s, P s → P' s)
    (hQ : ∀ s, Q s → Q' s) : a.meets P' Q' := by
  cases a with
  | go s => exact hP s h
  | stop s => exact hQ s h

/-- `runLanes_range`, stated for the lanes from any first one on, as its induction needs. -/
theorem runLanes_range' {σ : Type} (P : Nat → σ → Prop) (Q : σ → Prop) (f : Nat → σ → LaneStep σ) (n first : Nat)
    (hturn : ∀ k, first ≤ k → k < first + n → ∀ s, P k s → (f k s).meets (P (k + 1)) Q)
    (hend : ∀ s, P (first + n) s → Q s) (s : σ) (hs : P first s) : Q (runLanes f (List.range' first n) s) := by
  induction n generalizing first s with
  | zero => exact hend s hs
  | succ n ih =>
    have hfirst := hturn first (Nat.le_refl first) (by omega) s hs
    rw [List.range'_succ, runLanes]
    cases hf : f first s with
    | stop t => rwa [hf] at hfirst
    | go t =>
      rw [hf] at hfirst
      refine ih (first + 1) (fun k hk hk' => hturn k (by omega) (by omega)) (fun u hu => hend u ?_) t hfirst
      rwa [Nat.add_assoc, Nat.add_comm 1 n] at hu

/-- A lane loop whose turn at lane `k` takes `P k` to `P (k + 1)`, or ends the loop in `Q`, ends in `Q`. -/
theorem runLanes_range {σ : Type} (P : Nat → σ → Prop) (Q : σ → Prop) {f : Nat → σ → LaneStep σ} {n : Nat}
    (hturn : ∀ k < n, ∀ s, P k s → (f k s).meets (P (k + 1)) Q) (hend : ∀ s, P n s → Q s) {s : σ} (hs : P 0 s) :
    Q (runLanes f (List.range n) s) := by
  rw [List.range_eq_range']
  exact runLanes_range' P Q f n 0 (fun k _ hk => hturn k (by omega)) (by simpa using hend) s hs

/-- A turn, its state changed by `g`. -/
def LaneStep.map {σ : Type} (g : σ → σ) : LaneStep σ → LaneStep σ
  | .go s => .go (g s)
  | .stop s => .stop (g s)

/-- A change of the state that commutes with every turn commutes with the loop. -/
theorem runLanes_comm {σ : Type} (g : σ → σ) (f : Nat → σ → LaneStep σ) (h : ∀ lane s, f lane (g s) = (f lane s).map g)
    (lanes : List Nat) (s : σ) : runLanes f lanes (g s) = g (runLanes f lanes s) := by
  induction lanes generalizing s with
  | nil => rfl
  | cons lane rest ih =>
    rw [runLanes, runLanes, h]
    cases f lane s with
    | go t => exact ih t
    | stop t => rfl

/-! ## Records moving from one latch to the next -/

/-- Which lanes of a latch hold a record. -/
def held (l : Latch) (j : Nat) : Bool := (slotAt l j).valid

/-- A latch of `n` lanes that holds, of the lanes `p`, those from `up` on. -/
def waitsFrom (n : Nat) (p : Nat → Bool) (up : Nat) (l : Latch) : Prop :=
  l.length = n ∧ ∀ j, (slotAt l j).valid = (p j && decide (up ≤ j))

/-- A latch of `n` lanes that holds, of the lanes `p`, those below `below`. -/
def arrivedBelow (n : Nat) (p : Nat → Bool) (below : Nat) (l : Latch) : Prop :=
  l.length = n ∧ ∀ j, (slotAt l j).valid = (p j && decide (j < below))

section
variable {n k : Nat} {p : Nat → Bool} {l : Latch} {r : Slot}

/-- Beside lane `k` the bounds at `k` and at `k + 1` say the same. -/
theorem bounds_succ_of_ne {j : Nat} (h : j ≠ k) :
    decide (k + 1 ≤ j) = decide (k ≤ j) ∧ decide (j < k + 1) = decide (j < k) := by
  constructor <;> rw [decide_eq_decide] <;> omega

theorem slotAt_set_of_ne {j : Nat} (h : j ≠ k) : slotAt (l.set k r) j = slotAt l j := by
  rw [slotAt_set, if_neg fun hk => h hk.1.symm]

theorem slotAt_set_self (h : k < l.length) : slotAt (l.set k r) k = r := by
  rw [slotAt_set, if_pos ⟨rfl, h⟩]

theorem waitsFrom.first (h : waitsFrom n p k l) : (slotAt l k).valid = p k := by simp [h.2 k]

theorem waitsFrom.skip (h : waitsFrom n p k l) (hk : (slotAt l k).valid = false) : waitsFrom n p (k + 1) l := by
  refine ⟨h.1, fun j => ?_⟩
  obtain rfl | hj := eq_or_ne j k
  · simp [hk]
  · rw [(bounds_succ_of_ne hj).1, h.2 j]

theorem waitsFrom.clear (h : waitsFrom n p k l) (hk : k < n) : waitsFrom n p (k + 1) (l.set k Slot.bubble) := by
  refine ⟨by rw [List.length_set, h.1], fun j => ?_⟩
  obtain rfl | hj := eq_or_ne j k
  · rw [slotAt_set_self (by rwa [h.1])]
    simp [Slot.bubble]
  · rw [slotAt_set_of_ne hj, (bounds_succ_of_ne hj).1, h.2 j]

/-- A valid record is written back to its lane, to wait there. -/
theorem waitsFrom.hold {up : Nat} (h : waitsFrom n p up l) (hk : (slotAt l k).valid = true) (hr : r.valid = true) :
    waitsFrom n p up (l.set k r) := by
  refine ⟨by rw [List.length_set, h.1], fun j => ?_⟩
  rw [slotAt_set, ← h.2 j]
  split_ifs with hkj
  · rw [← hkj.1, hk, hr]
  · rfl

theorem arrivedBelow.skip (h : arrivedBelow n p k l) (hk : p k = false) : arrivedBelow n p (k + 1) l := by
  refine ⟨h.1, fun j => ?_⟩
  rw [h.2 j]
  obtain rfl | hj := eq_or_ne j k
  · simp [hk]
  · rw [(bounds_succ_of_ne hj).2]

theorem arrivedBelow.put (h : arrivedBelow n p k l) (hkn : k < n) (hk : p k = true) (hr : r.valid = true) :
    arrivedBelow n p (k + 1) (l.set k r) := by
  refine ⟨by rw [List.length_set, h.1], fun j => ?_⟩
  obtain rfl | hj := eq_or_ne j k
  · rw [slotAt_set_self (by rwa [h.1])]
    simp [hk, hr]
  · rw [slotAt_set_of_ne hj, (bounds_succ_of_ne hj).2, h.2 j]

theorem arrivedBelow_zero (hl : l.length = n) (he : anyValid l = false) (p : Nat → Bool) : arrivedBelow n p 0 l :=
  ⟨hl, fun j => by simp [anyValid_eq_false.1 he j]⟩

/-- The lanes from some lane on of a contiguous range are a contiguous range. -/
theorem waitsFrom.contiguous {l₀ : Latch} (h : waitsFrom n (held l₀) k l) (hc : contiguous l₀) : contiguous l := by
  intro i j m hij hjm hi hm
  rw [h.2, Bool.and_eq_true, decide_eq_true_eq] at hi hm ⊢
  exact ⟨hc i j m hij hjm hi.1 hm.1, by omega⟩

/-- The lanes below some lane of a contiguous range are a contiguous range. -/
theorem arrivedBelow.contiguous {l₀ : Latch} (h : arrivedBelow n (held l₀) k l) (hc : contiguous l₀) : contiguous l := by
  intro i j m hij hjm hi hm
  rw [h.2, Bool.and_eq_true, decide_eq_true_eq] at hi hm ⊢
  exact ⟨hc i j m hij hjm hi.1 hm.1, by omega⟩

end

/-- In the midst of a lane loop that moves the records of a latch, held in the lanes `p` at its start, into an empty one:
those of the lanes below `below` stand in the next latch, those of the lanes from `up` on still wait, those in between, if
any, were dropped. -/
def moving (n : Nat) (p : Nat → Bool) (below up : Nat) (src dst : Latch) : Prop :=
  waitsFrom n p up src ∧ arrivedBelow n p below dst

/-- What such a loop leaves, wherever it ended. -/
def moved (n : Nat) (p : Nat → Bool) (src dst : Latch) : Prop := ∃ below up, moving n p below up src dst

section
variable {n below k : Nat} {p : Nat → Bool} {src dst : Latch} {r : Slot}

theorem moving.moved (h : moving n p below k src dst) : moved n p src dst := ⟨below, k, h⟩

theorem moving_start (hs : src.length = n) (hd : dst.length = n) (he : anyValid dst = false) :
    moving n (held src) 0 0 src dst :=
  ⟨⟨hs, fun j => by simp [held]⟩, arrivedBelow_zero hd he _⟩

/-- A bubble: the loop goes on. -/
theorem moving.skip (h : moving n p k k src dst) (hk : (slotAt src k).valid = false) :
    moving n p (k + 1) (k + 1) src dst :=
  ⟨h.1.skip hk, h.2.skip (h.1.first.symm.trans hk)⟩

/-- A valid record moves on. -/
theorem moving.pass (h : moving n p k k src dst) (hkn : k < n) (hk : (slotAt src k).valid = true) (hr : r.valid = true) :
    moving n p (k + 1) (k + 1) (src.set k Slot.bubble) (dst.set k r) :=
  ⟨h.1.clear hkn, h.2.put hkn (h.1.first.symm.trans hk) hr⟩

theorem moving.hold (h : moving n p below k src dst) {j : Nat} (hj : (slotAt src j).valid = true) (hr : r.valid = true) :
    moving n p below k (src.set j r) dst :=
  ⟨h.1.hold hj hr, h.2⟩

theorem moved.sized (h : moved n p src dst) : src.length = n ∧ dst.length = n := by
  obtain ⟨_, _, hsrc, hdst⟩ := h
  exact ⟨hsrc.1, hdst.1⟩

theorem moved.contiguous {l₀ : Latch} (h : moved n (held l₀) src dst) (hc : contiguous l₀) :
    contiguous src ∧ contiguous dst := by
  obtain ⟨_, _, hsrc, hdst⟩ := h
  exact ⟨hsrc.contiguous hc, hdst.contiguous hc⟩

end

theorem contiguous_bubbles (n : Nat) : contiguous (bubbles n) := fun i _ _ _ _ hi _ => by
  rw [slotAt_bubbles] at hi
  exact absurd hi Bool.false_ne_true

/-! ## The latches through the stages -/

theorem State.latchesSized_iff (s : State) :
    s.latchesSized = true ↔
      s.ifid.length = s.cfg.issueWidth ∧ s.idex.length = s.cfg.issueWidth ∧ s.exmem.length = s.cfg.issueWidth ∧
        s.memwb.length = s.cfg.issueWidth := by
  simp [State.latchesSized, and_assoc]

/-! ### Writeback -/

theorem countP_take_succ (l : Latch) (p : Slot → Bool) (hp : p Slot.bubble = false) (k : Nat) :
    (l.take (k + 1)).countP p = (l.take k).countP p + (if p (slotAt l k) = true then 1 else 0) := by
  rw [List.take_add_one, List.countP_append, slotAt, List.getD_eq_getElem?_getD]
  cases hk : l[k]? with
  | none => simp [hp]
  | some r => simp [List.countP_singleton]

/-- The writeback loop before lane `k`: the lower lanes are consumed and counted, the others stand. -/
def retiringBelow (s : State) (k : Nat) (t : State) : Prop :=
  t.memwb.length = s.memwb.length ∧ (∀ j < k, (slotAt t.memwb j).valid = false) ∧
    (∀ j, k ≤ j → slotAt t.memwb j = slotAt s.memwb j) ∧
    t.stats = { s.stats with retired := s.stats.retired + (s.memwb.take k).countP (·.valid) }

theorem writebackLane_retires {s t : State} {k : Nat} (hk : k < s.memwb.length) (h : retiringBelow s k t)
    (Q : State → Prop) : (writebackLane k t).meets (retiringBelow s (k + 1)) Q := by
  obtain ⟨hlen, hdone, hwait, hstats⟩ := h
  have hslot : slotAt t.memwb k = slotAt s.memwb k := hwait k (Nat.le_refl k)
  have hcount := countP_take_succ s.memwb (·.valid) rfl k
  rw [← hslot] at hcount
  obtain ⟨hv, hlane⟩ | ⟨hv, hlane⟩ := writebackLane_cases k t <;> rw [hlane, LaneStep.meets_go]
  · refine ⟨hlen, fun j hj => ?_, fun j hj => hwait j (by omega), by rw [hstats, hcount, hv]; rfl⟩
    obtain hj | rfl := Nat.lt_succ_iff_lt_or_eq.1 hj
    · exact hdone j hj
    · exact hv
  · refine ⟨by simp [retireSlot, hlen], fun j hj => ?_, fun j hj => ?_, ?_⟩
    · simp only [State.setMemwb_memwb, retireSlot, State.commit_memwb, slotAt_set, hlen]
      obtain hj | rfl := Nat.lt_succ_iff_lt_or_eq.1 hj
      · rw [if_neg (by omega)]
        exact hdone j hj
      · rw [if_pos ⟨rfl, hk⟩]
        rfl
    · simp only [State.setMemwb_memwb, retireSlot, State.commit_memwb, slotAt_set]
      rw [if_neg (by omega)]
      exact hwait j (by omega)
    · simp [retireSlot, hstats, hcount, hv, Nat.add_assoc]

theorem writebackStep_retiringBelow {s : State} (h : s.memwb.length = s.cfg.issueWidth) :
    retiringBelow s s.cfg.issueWidth (writebackStep s) :=
  runLanes_range (retiringBelow s) (retiringBelow s s.cfg.issueWidth)
    (fun _ hk _ ht => writebackLane_retires (by rwa [h]) ht _) (fun _ => id)
    ⟨rfl, fun j hj => absurd hj (Nat.not_lt_zero j), fun _ _ => rfl, rfl⟩

/-- Writeback leaves `MEMWB` empty (R190). -/
theorem writebackStep_memwb {s : State} (h : s.memwb.length = s.cfg.issueWidth) :
    (writebackStep s).memwb.length = s.cfg.issueWidth ∧ anyValid (writebackStep s).memwb = false := by
  obtain ⟨hlen, hdone, -, -⟩ := writebackStep_retiringBelow h
  refine ⟨hlen.trans h, anyValid_eq_false.2 fun j => ?_⟩
  by_cases hj : j < s.cfg.issueWidth
  · exact hdone j hj
  · rw [slotAt_of_length_le (by omega)]
    rfl

/-- Writeback counts the valid records of `MEMWB` (R193). -/
theorem writebackStep_stats {s : State} (h : s.memwb.length = s.cfg.issueWidth) :
    (writebackStep s).stats = { s.stats with retired := s.stats.retired + s.memwb.countP (·.valid) } := by
  obtain ⟨-, -, -, hstats⟩ := writebackStep_retiringBelow h
  rwa [List.take_of_length_le (Nat.le_of_eq h)] at hstats

theorem retireSlot_countCycle (s : State) (r : Slot) : retireSlot s.countCycle r = (retireSlot s r).countCycle := by
  rw [retireSlot_eq, retireSlot_eq]
  cases retireDest r <;> rfl

/-- The cycle count has no part in writeback. -/
theorem writebackStep_countCycle (s : State) : writebackStep s.countCycle = (writebackStep s).countCycle := by
  refine runLanes_comm State.countCycle writebackLane (fun lane t => ?_) s.lanes s
  unfold writebackLane
  simp only [State.countCycle_memwb, retireSlot_countCycle]
  split_ifs <;> rfl

/-! ### Memory, execute, decode -/

theorem onlyDataChanged.latches {s t : State} (h : onlyDataChanged s t) : t.exmem = s.exmem ∧ t.memwb = s.memwb := by
  rw [show t = _ from h]
  exact ⟨rfl, rfl⟩

theorem settleMem_moving {n k : Nat} {lanes : Nat → Bool} {p : MemPass} {r : Slot} (hk : k < n)
    (h : moving n lanes k k p.st.exmem p.st.memwb) (hv : (slotAt p.st.exmem k).valid = true) (hr : r.valid = true) :
    (settleMem p k r).meets (fun q => moving n lanes (k + 1) (k + 1) q.st.exmem q.st.memwb)
      (fun q => moved n lanes q.st.exmem q.st.memwb) := by
  obtain ⟨-, e⟩ | ⟨-, e⟩ := settleMem_cases p k r <;> rw [e]
  · exact (h.hold hv hr).moved
  · exact h.pass hk hv hr

theorem memClassLane_moving {n k : Nat} {lanes : Nat → Bool} {p : MemPass} {r : Slot} (hk : k < n)
    (h : moving n lanes k k p.st.exmem p.st.memwb) (hv : (slotAt p.st.exmem k).valid = true) (hr : r.valid = true) :
    (memClassLane p k r).meets (fun q => moving n lanes (k + 1) (k + 1) q.st.exmem q.st.memwb)
      (fun q => moved n lanes q.st.exmem q.st.memwb) := by
  obtain ⟨-, e⟩ | ⟨-, -, e⟩ | ⟨-, -, -, e⟩ | ⟨-, -, -, e⟩ := memClassLane_cases p k r <;> rw [e]
  · exact settleMem_moving hk h hv hr
  · exact h.moved
  · exact h.moved
  · obtain ⟨hexmem, hmemwb⟩ := (accessMem_onlyData p.st r).latches
    refine settleMem_moving hk (by rwa [hexmem, hmemwb]) (by rwa [hexmem]) ?_
    rw [accessMem_record]
    exact hr

theorem memoryLane_moving (F : CoreFns) {n k : Nat} {lanes : Nat → Bool} {p : MemPass} (hk : k < n)
    (h : moving n lanes k k p.st.exmem p.st.memwb) :
    (memoryLane F k p).meets (fun q => moving n lanes (k + 1) (k + 1) q.st.exmem q.st.memwb)
      (fun q => moved n lanes q.st.exmem q.st.memwb) := by
  obtain ⟨hv, e⟩ | ⟨_, -, -, e⟩ | ⟨_, -, -, -, -, e⟩ | ⟨_, hv, -, -, -, e⟩ | ⟨hv, -, -, e⟩ | ⟨hv, -, -, e⟩ :=
    memoryLane_cases F k p <;> rw [e]
  · exact h.skip hv
  · exact h.moved
  · exact h.moved
  · exact h.pass hk hv hv
  · exact h.pass hk hv hv
  · exact memClassLane_moving hk h hv hv

/-- The memory step moves the records of `EXMEM` into an empty `MEMWB`, up to the lane where it ends (R200). -/
theorem memoryStep_moved (F : CoreFns) {s : State} (hs : s.exmem.length = s.cfg.issueWidth)
    (hd : s.memwb.length = s.cfg.issueWidth) (he : anyValid s.memwb = false) :
    moved s.cfg.issueWidth (held s.exmem) (memoryStep F s).exmem (memoryStep F s).memwb :=
  runLanes_range (fun k (p : MemPass) => moving s.cfg.issueWidth (held s.exmem) k k p.st.exmem p.st.memwb)
    (fun p => moved s.cfg.issueWidth (held s.exmem) p.st.exmem p.st.memwb) (fun _ hk _ h => memoryLane_moving F hk h)
    (fun _ h => h.moved) (s := ⟨s, 0⟩) (moving_start hs hd he)

theorem classAction_valid (F : CoreFns) (s : State) (r : Slot) (ops : Operands) (fl : Nzcv) :
    (classAction F s r ops fl).1.valid = r.valid := by
  rw [classAction_record]

theorem classAction_latches (F : CoreFns) (s : State) (r : Slot) (ops : Operands) (fl : Nzcv) :
    (classAction F s r ops fl).2.1.idex = s.idex ∧ (classAction F s r ops fl).2.1.exmem = s.exmem := by
  rw [classAction_state]
  exact ⟨rfl, rfl⟩

/-- An executed record enters `EXMEM` valid, and its lane of `IDEX` becomes a bubble (R220). -/
theorem executeRecord_latches (F : CoreFns) (s : State) (lane : Nat) (r : Slot) (ops : Operands) :
    ∃ q : Slot, q.valid = r.valid ∧ (executeRecord F s lane r ops).st.idex = s.idex.set lane Slot.bubble ∧
      (executeRecord F s lane r ops).st.exmem = s.exmem.set lane q := by
  unfold executeRecord
  obtain ⟨hidex, hexmem⟩ :=
    classAction_latches F s { r with a := ops.a, b := ops.b, c := ops.c } ops (resolveFlags F s r.inst ops.a ops.b lane)
  simp only [State.passExecute_idex, State.passExecute_exmem, hidex, hexmem, true_and]
  exact ⟨_, by exact classAction_valid F s _ ops _, rfl⟩

/-- The execute loop before lane `k`: the lower lanes have moved on; once a branch has asked for a flush, the lanes above it
are dropped (R236). -/
def executingBelow (n : Nat) (lanes : Nat → Bool) (k : Nat) (p : ExecPass) : Prop :=
  ∃ below, moving n lanes below k p.st.idex p.st.exmem ∧ (p.flush = none → below = k)

theorem executeLane_moving (F : CoreFns) {n k : Nat} {lanes : Nat → Bool} {p : ExecPass} (hk : k < n)
    (h : executingBelow n lanes k p) :
    (executeLane F k p).meets (executingBelow n lanes (k + 1)) (fun q => moved n lanes q.st.idex q.st.exmem) := by
  obtain ⟨below, h, hbelow⟩ := h
  obtain ⟨hv, e⟩ | ⟨hv, hf, e⟩ | ⟨hv, hf, -, e⟩ | ⟨hv, hf, -, -, e⟩ | ⟨hv, hf, -, -, -, e⟩ | ⟨hv, hf, -, -, -, e⟩ :=
    executeLane_cases F k p <;> rw [e]
  · rcases hf : p.flush with _ | pc
    · obtain rfl := hbelow hf
      exact ⟨_, h.skip hv, fun _ => rfl⟩
    · exact ⟨_, ⟨h.1.skip hv, h.2⟩, fun hf' => absurd (hf.symm.trans hf') (Option.some_ne_none pc)⟩
  · exact ⟨_, ⟨h.1.clear hk, h.2⟩, fun hf' => absurd hf (by simp [show p.flush = none from hf'])⟩
  · show moved n lanes (p.st.idex.set k _) p.st.exmem
    exact moving.moved (h.hold hv (by exact hv))
  · obtain rfl := hbelow hf
    exact ⟨_, h.pass hk hv hv, fun _ => rfl⟩
  · exact h.moved
  · obtain rfl := hbelow hf
    obtain ⟨q, hq, hidex, hexmem⟩ :=
      executeRecord_latches F p.st below (slotAt p.st.idex below) (resolveOperands p.st (slotAt p.st.idex below).inst below)
    refine ⟨_, ?_, fun _ => rfl⟩
    rw [hidex, hexmem]
    exact h.pass hk hv (hq.trans hv)

theorem executeStep_moved (F : CoreFns) {s : State} (hs : s.idex.length = s.cfg.issueWidth)
    (hd : s.exmem.length = s.cfg.issueWidth) (he : anyValid s.exmem = false) :
    moved s.cfg.issueWidth (held s.idex) (executeStep F s).st.idex (executeStep F s).st.exmem :=
  runLanes_range (executingBelow s.cfg.issueWidth (held s.idex)) (fun p => moved s.cfg.issueWidth (held s.idex) p.st.idex p.st.exmem)
    (fun _ hk _ h => executeLane_moving F hk h) (fun _ ⟨_, h, _⟩ => h.moved) ⟨0, moving_start hs hd he, fun _ => rfl⟩

theorem decodeLane_moving {n k : Nat} {lanes : Nat → Bool} {p : DecodePass} (hk : k < n)
    (h : moving n lanes k k p.st.ifid p.st.idex) :
    (decodeLane k p).meets (fun q => moving n lanes (k + 1) (k + 1) q.st.ifid q.st.idex)
      (fun q => moved n lanes q.st.ifid q.st.idex) := by
  obtain ⟨hv, e⟩ | ⟨hv, -, e⟩ | ⟨-, -, -, e⟩ | ⟨-, -, -, e⟩ | ⟨hv, -, -, e⟩ := decodeLane_cases k p <;> rw [e]
  · exact h.skip hv
  · exact h.pass hk hv hv
  · exact h.moved
  · exact h.moved
  · exact h.pass hk hv hv

theorem decodeStep_moved {s : State} (hs : s.ifid.length = s.cfg.issueWidth) (hd : s.idex.length = s.cfg.issueWidth)
    (he : anyValid s.idex = false) : moved s.cfg.issueWidth (held s.ifid) (decodeStep s).ifid (decodeStep s).idex :=
  runLanes_range (fun k (p : DecodePass) => moving s.cfg.issueWidth (held s.ifid) k k p.st.ifid p.st.idex)
    (fun p => moved s.cfg.issueWidth (held s.ifid) p.st.ifid p.st.idex) (fun _ hk _ h => decodeLane_moving hk h)
    (fun _ h => h.moved) (s := ⟨s, 0⟩) (moving_start hs hd he)

/-! ### Fetch -/

/-- A valid record was put into a lane of `IFID`. -/
def fillsLane (lane : Nat) (s t : State) : Prop := ∃ r : Slot, r.valid = true ∧ t.ifid = s.ifid.set lane r

theorem poison_fillsLane (s : State) (lane : Nat) (pc : Word) (kind : SlotFault) :
    fillsLane lane s (s.poison lane pc kind) :=
  ⟨_, rfl, State.poison_ifid s lane pc kind⟩

theorem deliver_fillsLane (F : CoreFns) (lane : Nat) (s : State) (pc : Word) (word : List Byte) :
    (deliver F lane s pc word).meets (fillsLane lane s) (fillsLane lane s) := by
  obtain ⟨-, e⟩ | ⟨d, t, -, rfl, e⟩ := deliver_cases F lane s pc word <;> rw [e]
  · exact poison_fillsLane s lane pc .decodeFailure
  · split_ifs <;> exact ⟨freshSlot pc d (predictedNext s pc d), rfl, rfl⟩

/-- A turn of the fetch loop that goes on has filled its lane; one that ends the loop has filled its lane or none (R265). -/
theorem fetchLane_fillsLane (F : CoreFns) (lane : Nat) (s : State) :
    (fetchLane F lane s).meets (fillsLane lane s) (fun t => t.ifid = s.ifid ∨ fillsLane lane s t) := by
  unfold fetchLane readNext
  simp only
  split_ifs
  · exact .inl rfl
  · exact (deliver_fillsLane F lane _ _ _).mono (fun _ => id) (fun _ => .inr)
  · exact .inr (poison_fillsLane s lane _ _)
  · exact .inr (poison_fillsLane s lane _ _)
  · exact .inl rfl
  · exact (deliver_fillsLane F lane _ _ _).mono (fun _ => id) (fun _ => .inr)

/-- `IFID` in the midst of the fetch loop: `n` lanes, those below `k` valid. -/
def filledBelow (n k : Nat) (l : Latch) : Prop := arrivedBelow n (fun _ => true) k l

theorem filledBelow.contiguous {n k : Nat} {l : Latch} (h : filledBelow n k l) : contiguous l := by
  intro i j m _ hjm _ hm
  rw [h.2, Bool.true_and, decide_eq_true_eq] at hm ⊢
  omega

theorem fillsLane.filledBelow {n k : Nat} {s t : State} (h : fillsLane k s t) (hs : filledBelow n k s.ifid) (hk : k < n) :
    filledBelow n (k + 1) t.ifid := by
  obtain ⟨r, hr, ht⟩ := h
  rw [ht]
  exact hs.put hk rfl hr

theorem fetchLanes_filledBelow (F : CoreFns) {s : State} (hlen : s.ifid.length = s.cfg.issueWidth)
    (he : anyValid s.ifid = false) :
    ∃ k, filledBelow s.cfg.issueWidth k (runLanes (fetchLane F) s.lanes s).ifid := by
  refine runLanes_range (fun k (t : State) => filledBelow s.cfg.issueWidth k t.ifid)
    (fun t : State => ∃ k, filledBelow s.cfg.issueWidth k t.ifid) (fun k hk t ht => ?_) (fun _ h => ⟨_, h⟩)
    (arrivedBelow_zero hlen he _)
  refine (fetchLane_fillsLane F k t).mono (fun u hu => hu.filledBelow ht hk) (fun u hu => ?_)
  obtain hsame | hfill := hu
  · exact ⟨k, by rwa [hsame]⟩
  · exact ⟨k + 1, hfill.filledBelow ht hk⟩

theorem tickPending_ifid (s : State) : (tickPending s).ifid = s.ifid := by
  unfold tickPending
  simp only
  split_ifs <;> rfl

theorem tickPending_cfg (s : State) : (tickPending s).cfg = s.cfg := by
  unfold tickPending
  simp only
  split_ifs <;> rfl

/-- The fetch step leaves `IFID` or fills its lowest lanes (R265). -/
theorem fetchStep_ifid (F : CoreFns) {s : State} (hlen : s.ifid.length = s.cfg.issueWidth) :
    (fetchStep F s).ifid = s.ifid ∨ ∃ k, filledBelow s.cfg.issueWidth k (fetchStep F s).ifid := by
  unfold fetchStep
  simp only
  split_ifs with hpenalty hheld
  · exact .inl rfl
  · exact .inl (tickPending_ifid s)
  · rw [Bool.or_eq_true, not_or, Bool.not_eq_true] at hheld
    rw [← tickPending_cfg s]
    exact .inr (fetchLanes_filledBelow F (by rw [tickPending_ifid, tickPending_cfg, hlen]) hheld.1)

/-! ## The frame of each stage, field by field -/

@[simp] theorem writebackStep_cfg (s : State) : (writebackStep s).cfg = s.cfg := by
  rw [show writebackStep s = _ from writebackStep_frame s]
@[simp] theorem writebackStep_ifid (s : State) : (writebackStep s).ifid = s.ifid := by
  rw [show writebackStep s = _ from writebackStep_frame s]
@[simp] theorem writebackStep_idex (s : State) : (writebackStep s).idex = s.idex := by
  rw [show writebackStep s = _ from writebackStep_frame s]
@[simp] theorem writebackStep_exmem (s : State) : (writebackStep s).exmem = s.exmem := by
  rw [show writebackStep s = _ from writebackStep_frame s]
@[simp] theorem writebackStep_pred (s : State) : (writebackStep s).pred = s.pred := by
  rw [show writebackStep s = _ from writebackStep_frame s]
@[simp] theorem writebackStep_l1i (s : State) : (writebackStep s).l1i = s.l1i := by
  rw [show writebackStep s = _ from writebackStep_frame s]
@[simp] theorem writebackStep_l1d (s : State) : (writebackStep s).l1d = s.l1d := by
  rw [show writebackStep s = _ from writebackStep_frame s]
@[simp] theorem writebackStep_l2 (s : State) : (writebackStep s).l2 = s.l2 := by
  rw [show writebackStep s = _ from writebackStep_frame s]
@[simp] theorem writebackStep_mem (s : State) : (writebackStep s).mem = s.mem := by
  rw [show writebackStep s = _ from writebackStep_frame s]
@[simp] theorem memoryStep_cfg (F : CoreFns) (s : State) : (memoryStep F s).cfg = s.cfg := by
  rw [show memoryStep F s = _ from memoryStep_frame F s]
@[simp] theorem memoryStep_x (F : CoreFns) (s : State) : (memoryStep F s).x = s.x := by
  rw [show memoryStep F s = _ from memoryStep_frame F s]
@[simp] theorem memoryStep_flags (F : CoreFns) (s : State) : (memoryStep F s).flags = s.flags := by
  rw [show memoryStep F s = _ from memoryStep_frame F s]
@[simp] theorem memoryStep_ifid (F : CoreFns) (s : State) : (memoryStep F s).ifid = s.ifid := by
  rw [show memoryStep F s = _ from memoryStep_frame F s]
@[simp] theorem memoryStep_idex (F : CoreFns) (s : State) : (memoryStep F s).idex = s.idex := by
  rw [show memoryStep F s = _ from memoryStep_frame F s]
@[simp] theorem memoryStep_pred (F : CoreFns) (s : State) : (memoryStep F s).pred = s.pred := by
  rw [show memoryStep F s = _ from memoryStep_frame F s]
@[simp] theorem executeStep_cfg (F : CoreFns) (s : State) : (executeStep F s).st.cfg = s.cfg := by
  rw [show (executeStep F s).st = _ from executeStep_frame F s]
@[simp] theorem executeStep_ifid (F : CoreFns) (s : State) : (executeStep F s).st.ifid = s.ifid := by
  rw [show (executeStep F s).st = _ from executeStep_frame F s]
@[simp] theorem executeStep_memwb (F : CoreFns) (s : State) : (executeStep F s).st.memwb = s.memwb := by
  rw [show (executeStep F s).st = _ from executeStep_frame F s]
@[simp] theorem decodeStep_cfg (s : State) : (decodeStep s).cfg = s.cfg := by
  rw [show decodeStep s = _ from decodeStep_frame s]
@[simp] theorem decodeStep_exmem (s : State) : (decodeStep s).exmem = s.exmem := by
  rw [show decodeStep s = _ from decodeStep_frame s]
@[simp] theorem decodeStep_memwb (s : State) : (decodeStep s).memwb = s.memwb := by
  rw [show decodeStep s = _ from decodeStep_frame s]
@[simp] theorem decodeStep_pred (s : State) : (decodeStep s).pred = s.pred := by
  rw [show decodeStep s = _ from decodeStep_frame s]
@[simp] theorem fetchStep_cfg (F : CoreFns) (s : State) : (fetchStep F s).cfg = s.cfg := by
  rw [show fetchStep F s = _ from fetchStep_frame F s]
@[simp] theorem fetchStep_idex (F : CoreFns) (s : State) : (fetchStep F s).idex = s.idex := by
  rw [show fetchStep F s = _ from fetchStep_frame F s]
@[simp] theorem fetchStep_exmem (F : CoreFns) (s : State) : (fetchStep F s).exmem = s.exmem := by
  rw [show fetchStep F s = _ from fetchStep_frame F s]
@[simp] theorem fetchStep_memwb (F : CoreFns) (s : State) : (fetchStep F s).memwb = s.memwb := by
  rw [show fetchStep F s = _ from fetchStep_frame F s]
@[simp] theorem fetchStep_pred (F : CoreFns) (s : State) : (fetchStep F s).pred = s.pred := by
  rw [show fetchStep F s = _ from fetchStep_frame F s]

/-- R47: the tick changes no configuration. -/
@[simp] theorem tick_cfg (F : CoreFns) (s : State) : (tick F s).cfg = s.cfg := by
  by_cases hs : s.status = .running
  · rw [tick_running F hs]
    split_ifs
    · obtain ⟨hcfg, -⟩ := frontEnd_frame F (memoryStep F (writebackStep s.countCycle))
      simpa using hcfg
    · simp
  · rw [tick_stopped F hs]

/-! ## Sizes and order of the lanes through the tick -/

/-- The latches still hold one record per lane, and contiguous lanes stay contiguous. -/
def keepsLanes (s t : State) : Prop := t.latchesSized = true ∧ (s.lanesContiguous → t.lanesContiguous)

theorem keepsLanes.trans {a b c : State} (h : keepsLanes a b) (h' : keepsLanes b c) : keepsLanes a c :=
  ⟨h'.1, fun ha => h'.2 (h.2 ha)⟩

/-- Steps 1 and 2 of the tick: writeback empties `MEMWB`, the memory step fills it from `EXMEM`. -/
theorem backEnd_keepsLanes (F : CoreFns) {s : State} (h : s.latchesSized = true) :
    keepsLanes s (memoryStep F (writebackStep s.countCycle)) := by
  obtain ⟨hifid, hidex, hexmem, hmemwb⟩ := s.latchesSized_iff.1 h
  obtain ⟨hlen, hempty⟩ := writebackStep_memwb (s := s.countCycle) hmemwb
  have hmoved := memoryStep_moved F (s := writebackStep s.countCycle) (by simpa using hexmem) (by simpa using hlen) hempty
  simp only [writebackStep_cfg, writebackStep_exmem, State.countCycle_cfg, State.countCycle_exmem] at hmoved
  obtain ⟨hsrc, hdst⟩ := hmoved.sized
  refine ⟨(State.latchesSized_iff _).2 (by simp [hifid, hidex, hsrc, hdst]), fun ⟨cifid, cidex, cexmem, _⟩ => ?_⟩
  exact ⟨by simpa using cifid, by simpa using cidex, hmoved.contiguous cexmem⟩

theorem executeStep_keepsLanes (F : CoreFns) {s : State} (h : s.latchesSized = true) (he : anyValid s.exmem = false) :
    keepsLanes s (executeStep F s).st := by
  obtain ⟨hifid, hidex, hexmem, hmemwb⟩ := s.latchesSized_iff.1 h
  have hmoved := executeStep_moved F hidex hexmem he
  obtain ⟨hsrc, hdst⟩ := hmoved.sized
  refine ⟨(State.latchesSized_iff _).2 (by simp [hifid, hmemwb, hsrc, hdst]), fun ⟨cifid, cidex, _, cmemwb⟩ => ?_⟩
  obtain ⟨csrc, cdst⟩ := hmoved.contiguous cidex
  exact ⟨by simpa using cifid, csrc, cdst, by simpa using cmemwb⟩

theorem decodeStep_keepsLanes {s : State} (h : s.latchesSized = true) (he : anyValid s.idex = false) :
    keepsLanes s (decodeStep s) := by
  obtain ⟨hifid, hidex, hexmem, hmemwb⟩ := s.latchesSized_iff.1 h
  have hmoved := decodeStep_moved hifid hidex he
  obtain ⟨hsrc, hdst⟩ := hmoved.sized
  refine ⟨(State.latchesSized_iff _).2 (by simp [hexmem, hmemwb, hsrc, hdst]), fun ⟨cifid, _, cexmem, cmemwb⟩ => ?_⟩
  obtain ⟨csrc, cdst⟩ := hmoved.contiguous cifid
  exact ⟨csrc, cdst, by simpa using cexmem, by simpa using cmemwb⟩

theorem executeAndDecode_keepsLanes (F : CoreFns) {s : State} (h : s.latchesSized = true) :
    keepsLanes s (executeAndDecode F s).st := by
  obtain ⟨-, e⟩ | ⟨he, -, e⟩ | ⟨he, hd, e⟩ := executeAndDecode_cases F s <;> rw [e]
  · exact ⟨h, id⟩
  · exact executeStep_keepsLanes F h he
  · have hexecute := executeStep_keepsLanes F h he
    exact hexecute.trans (decodeStep_keepsLanes hexecute.1 hd)

theorem fetchStep_keepsLanes (F : CoreFns) {s : State} (h : s.latchesSized = true) : keepsLanes s (fetchStep F s) := by
  obtain ⟨hifid, hidex, hexmem, hmemwb⟩ := s.latchesSized_iff.1 h
  have hlatch : (fetchStep F s).ifid.length = s.cfg.issueWidth ∧ (contiguous s.ifid → contiguous (fetchStep F s).ifid) := by
    obtain hsame | ⟨k, hfilled⟩ := fetchStep_ifid F hifid
    · exact ⟨by rw [hsame, hifid], by rw [hsame]; exact id⟩
    · exact ⟨hfilled.1, fun _ => hfilled.contiguous⟩
  refine ⟨(State.latchesSized_iff _).2 (by simp [hidex, hexmem, hmemwb, hlatch.1]), fun ⟨cifid, cidex, cexmem, cmemwb⟩ => ?_⟩
  exact ⟨hlatch.2 cifid, by simpa using cidex, by simpa using cexmem, by simpa using cmemwb⟩

theorem flushStep_keepsLanes {s : State} (h : s.latchesSized = true) (pc : Word) : keepsLanes s (flushStep s pc) := by
  obtain ⟨-, -, hexmem, hmemwb⟩ := s.latchesSized_iff.1 h
  refine ⟨(State.latchesSized_iff _).2 (by simp [bubbles, hexmem, hmemwb]), fun ⟨_, _, cexmem, cmemwb⟩ => ?_⟩
  exact ⟨contiguous_bubbles _, contiguous_bubbles _, cexmem, cmemwb⟩

theorem frontEnd_keepsLanes (F : CoreFns) {s : State} (h : s.latchesSized = true) : keepsLanes s (frontEnd F s) := by
  have hexecute := executeAndDecode_keepsLanes F h
  have hfetch := hexecute.trans (fetchStep_keepsLanes F hexecute.1)
  unfold frontEnd
  simp only
  cases (executeAndDecode F s).flush with
  | none => exact hfetch
  | some pc => exact hfetch.trans (flushStep_keepsLanes hfetch.1 pc)

theorem tick_keepsLanes (F : CoreFns) {s : State} (h : s.latchesSized = true) : keepsLanes s (tick F s) := by
  by_cases hs : s.status = .running
  · have hback := backEnd_keepsLanes F h
    rw [tick_running F hs]
    split_ifs
    · exact hback.trans (frontEnd_keepsLanes F hback.1)
    · exact hback
  · rw [tick_stopped F hs]
    exact ⟨h, id⟩

theorem tick_eq_of_step {s t : State} (h : step s = .next t) : tick ref s = t := Host.Outcome.next.inj h

/-- Settles O37. Every stage moves records from one latch into an empty one in lane order, fills the lowest lanes, or
drops all of a latch. -/
theorem stepKeepsLanesContiguous : Obligations.StepKeepsLanesContiguous := by
  intro s t hsized hlanes hstep
  obtain rfl := tick_eq_of_step hstep
  exact (tick_keepsLanes ref hsized).2 hlanes

/-! ## The canonical form of the caches -/

section
variable {β : Type} {g : CacheCfg} {B : Backing β} {P : β → Prop} {c : Cache} {l : Level β}

theorem setDir_canonical (h : c.canonical g = true) (set way : Nat) (e : DirEntry) :
    (setDir g c set way e).canonical g = true := by
  rw [Cache.canonical, Bool.and_eq_true] at h ⊢
  exact ⟨tableCanonical_set _ _ _ _ h.1, h.2⟩

theorem setData_canonical (h : c.canonical g = true) (set way : Nat) (bytes : List Byte) :
    (setData g c set way bytes).canonical g = true := by
  rw [Cache.canonical, Bool.and_eq_true] at h ⊢
  exact ⟨h.1, tableCanonical_set _ _ _ _ h.2⟩

theorem touch_canonical (h : c.canonical g = true) (set way : Nat) : (touch g c set way).canonical g = true :=
  setDir_canonical (c := { c with clock := c.clock + 1 }) h set way _

theorem storeBytes_canonical (h : c.canonical g = true) (set way addr : Nat) (bytes : List Byte) :
    (storeBytes g c set way addr bytes).canonical g = true :=
  setDir_canonical (setData_canonical h set way _) set way _

theorem evict_canonical (h : l.cache.canonical g = true) (set way : Nat) :
    (evict g B l set way).cache.canonical g = true := by
  unfold evict
  simp only
  split_ifs <;> exact h

theorem install_canonical (h : l.cache.canonical g = true) (set tag : Nat) :
    (install g B l set tag).level.cache.canonical g = true :=
  touch_canonical (setData_canonical (setDir_canonical (evict_canonical h set _) set _ _) set _ _) set _

theorem cacheRead_canonical (h : l.cache.canonical g = true) (a n : Nat) :
    (cacheRead g B l a n).level.cache.canonical g = true := by
  rcases hl : lookup g l.cache (setOf g a) (tagOf g a) with _ | w
  · rw [cacheRead_miss hl]
    exact install_canonical (by exact h) _ _
  · rw [cacheRead_hit hl]
    exact touch_canonical (by exact h) _ _

theorem cacheWrite_canonical (h : l.cache.canonical g = true) (a : Nat) (bytes : List Byte) :
    (cacheWrite g B l a bytes).level.cache.canonical g = true := by
  rcases hl : lookup g l.cache (setOf g a) (tagOf g a) with _ | w
  · rw [cacheWrite_miss hl]
    exact storeBytes_canonical (install_canonical (by exact h) _ _) _ _ _ _
  · rw [cacheWrite_hit hl]
    exact storeBytes_canonical (touch_canonical (by exact h) _ _) _ _ _ _

/-- The cache of a level is in canonical form and the store below it has a property. -/
def levelCanonical (g : CacheCfg) (P : β → Prop) (l : Level β) : Prop := l.cache.canonical g = true ∧ P l.below

theorem levelCanonical.read (hB : B.Keeps P) (h : levelCanonical g P l) (a n : Nat) :
    levelCanonical g P (cacheRead g B l a n).level :=
  ⟨cacheRead_canonical h.1 a n, cacheRead_keeps hB h.2 a n⟩

theorem levelCanonical.write (hB : B.Keeps P) (h : levelCanonical g P l) (a : Nat) (bytes : List Byte) :
    levelCanonical g P (cacheWrite g B l a bytes).level :=
  ⟨cacheWrite_canonical h.1 a bytes, cacheWrite_keeps hB h.2 a bytes⟩

end

/-- `L2` and main memory are in canonical form. -/
def l2Canonical (g : CacheCfg) (l : L2Level) : Prop := levelCanonical g (fun m => Memory.wf m = true) l

theorem l2Backing_keeps_canonical (g : CacheCfg) : (l2Backing g).Keeps (l2Canonical g) :=
  ⟨fun _ a n h => h.read memBacking_keeps_wf a n, fun _ a bytes h => h.write memBacking_keeps_wf a bytes⟩

/-- The three caches and main memory are in canonical form. -/
def State.hierarchyCanonical (s : State) : Prop :=
  s.l1i.canonical s.cfg.l1i = true ∧ s.l1d.canonical s.cfg.l1d = true ∧ l2Canonical s.cfg.l2 s.l2Level

theorem hierarchyCanonical_withL1d {s : State} {l : Level L2Level} (h : s.hierarchyCanonical)
    (hl : levelCanonical s.cfg.l1d (l2Canonical s.cfg.l2) l) : (s.withL1d l).hierarchyCanonical :=
  ⟨h.1, hl⟩

theorem readRequests_hierarchyCanonical (rs : List (Nat × Nat)) {s : State} (h : s.hierarchyCanonical) :
    (readRequests s rs).state.hierarchyCanonical := by
  induction rs generalizing s with
  | nil => exact h
  | cons r rest ih =>
    exact ih (hierarchyCanonical_withL1d h
      (levelCanonical.read (l2Backing_keeps_canonical s.cfg.l2) (l := ⟨s.l1d, s.l2Level⟩) h.2 r.1 r.2))

theorem writeRequests_hierarchyCanonical (rs : List (Nat × Nat)) {s : State} (bytes : List Byte)
    (h : s.hierarchyCanonical) : (writeRequests s rs bytes).state.hierarchyCanonical := by
  induction rs generalizing s bytes with
  | nil => exact h
  | cons r rest ih =>
    exact ih _ (hierarchyCanonical_withL1d h
      (levelCanonical.write (l2Backing_keeps_canonical s.cfg.l2) (l := ⟨s.l1d, s.l2Level⟩) h.2 r.1 (bytes.take r.2)))

theorem fetchRead_hierarchyCanonical {s : State} (h : s.hierarchyCanonical) (pc : Word) :
    (s.fetchRead pc).state.hierarchyCanonical := by
  obtain ⟨hi, hd, h2⟩ := h
  obtain ⟨hi', h2'⟩ := levelCanonical.read (l2Backing_keeps_canonical s.cfg.l2) (l := ⟨s.l1i, s.l2Level⟩) ⟨hi, h2⟩
    pc.toNat s.cfg.instrBytes
  exact ⟨hi', hd, h2'⟩

theorem accessMem_hierarchyCanonical {s : State} (h : s.hierarchyCanonical) (r : Slot) :
    (accessMem s r).2.2.hierarchyCanonical := by
  unfold accessMem
  split_ifs
  · exact readRequests_hierarchyCanonical _ h
  · exact writeRequests_hierarchyCanonical _ _ h

theorem settleMem_hierarchyCanonical {p : MemPass} (h : p.st.hierarchyCanonical) (lane : Nat) (r : Slot) :
    (settleMem p lane r).val.st.hierarchyCanonical := by
  obtain ⟨-, e⟩ | ⟨-, e⟩ := settleMem_cases p lane r <;> rw [e] <;> exact h

theorem memClassLane_hierarchyCanonical {p : MemPass} (h : p.st.hierarchyCanonical) (lane : Nat) (r : Slot) :
    (memClassLane p lane r).val.st.hierarchyCanonical := by
  obtain ⟨-, e⟩ | ⟨-, -, e⟩ | ⟨-, -, -, e⟩ | ⟨-, -, -, e⟩ := memClassLane_cases p lane r <;> rw [e]
  · exact settleMem_hierarchyCanonical h lane _
  · exact h
  · exact h
  · exact settleMem_hierarchyCanonical (by exact accessMem_hierarchyCanonical h r) lane _

theorem memoryLane_hierarchyCanonical (F : CoreFns) (lane : Nat) {p : MemPass} (h : p.st.hierarchyCanonical) :
    (memoryLane F lane p).val.st.hierarchyCanonical := by
  obtain ⟨-, e⟩ | ⟨_, -, -, e⟩ | ⟨_, -, -, -, -, e⟩ | ⟨_, -, -, -, -, e⟩ | ⟨-, -, -, e⟩ | ⟨-, -, -, e⟩ :=
    memoryLane_cases F lane p <;> rw [e]
  · exact h
  · exact h
  · exact h
  · exact h
  · exact h
  · exact memClassLane_hierarchyCanonical h lane _

theorem memoryStep_hierarchyCanonical (F : CoreFns) {s : State} (h : s.hierarchyCanonical) :
    (memoryStep F s).hierarchyCanonical :=
  runLanes_induct (fun p : MemPass => p.st.hierarchyCanonical) (memoryLane F) s.lanes
    (fun lane _ _ hp => memoryLane_hierarchyCanonical F lane hp) ⟨s, 0⟩ h

theorem deliver_hierarchyCanonical (F : CoreFns) (lane : Nat) {s : State} (h : s.hierarchyCanonical) (pc : Word)
    (word : List Byte) : (deliver F lane s pc word).val.hierarchyCanonical := by
  obtain ⟨-, e⟩ | ⟨_, _, -, rfl, e⟩ := deliver_cases F lane s pc word <;> rw [e]
  · exact h
  · split_ifs <;> exact h

theorem fetchLane_hierarchyCanonical (F : CoreFns) (lane : Nat) {s : State} (h : s.hierarchyCanonical) :
    (fetchLane F lane s).val.hierarchyCanonical := by
  unfold fetchLane readNext
  simp only
  split_ifs
  · exact h
  · exact deliver_hierarchyCanonical F lane (by exact h) _ _
  · exact h
  · exact h
  · exact fetchRead_hierarchyCanonical h _
  · exact deliver_hierarchyCanonical F lane (fetchRead_hierarchyCanonical h _) _ _

theorem tickPending_hierarchyCanonical {s : State} (h : s.hierarchyCanonical) : (tickPending s).hierarchyCanonical := by
  unfold tickPending
  simp only
  split_ifs <;> exact h

theorem fetchStep_hierarchyCanonical (F : CoreFns) {s : State} (h : s.hierarchyCanonical) :
    (fetchStep F s).hierarchyCanonical := by
  have hp := tickPending_hierarchyCanonical h
  unfold fetchStep
  simp only
  split_ifs
  · exact h
  · exact hp
  · exact runLanes_induct State.hierarchyCanonical (fetchLane F) _
      (fun lane _ _ ht => fetchLane_hierarchyCanonical F lane ht) _ hp

theorem hierarchyCanonical_congr {s t : State} (hcfg : t.cfg = s.cfg) (hi : t.l1i = s.l1i) (hd : t.l1d = s.l1d)
    (h2 : t.l2 = s.l2) (hm : t.mem = s.mem) (h : s.hierarchyCanonical) : t.hierarchyCanonical := by
  unfold State.hierarchyCanonical State.l2Level at h ⊢
  rwa [hcfg, hi, hd, h2, hm]

theorem writebackStep_hierarchyCanonical {s : State} (h : s.hierarchyCanonical) : (writebackStep s).hierarchyCanonical :=
  hierarchyCanonical_congr (by simp) (by simp) (by simp) (by simp) (by simp) h

theorem executeAndDecode_hierarchyCanonical (F : CoreFns) {s : State} (h : s.hierarchyCanonical) :
    (executeAndDecode F s).st.hierarchyCanonical := by
  rw [executeAndDecode_frame]
  exact h

theorem frontEnd_hierarchyCanonical (F : CoreFns) {s : State} (h : s.hierarchyCanonical) :
    (frontEnd F s).hierarchyCanonical := by
  have hfetch := fetchStep_hierarchyCanonical F (executeAndDecode_hierarchyCanonical F h)
  unfold frontEnd
  simp only
  cases (executeAndDecode F s).flush <;> exact hfetch

/-! ## The predictor -/

/-- The tables of the predictor are in canonical form and `ghr < 2^GHR_BITS` (R35, R312). -/
def Predictor.wf (cfg : Cfg) (p : Predictor) : Prop := p.canonical = true ∧ p.ghr < 2 ^ cfg.ghrBits

theorem predictorUpdate_wf {cfg : Cfg} {p : Predictor} (h : p.wf cfg) (pc : Word) (taken : Bool) (target : Word) :
    (predictorUpdate cfg p pc taken target).wf cfg := by
  obtain ⟨hcanonical, -⟩ := h
  refine ⟨?_, Nat.mod_lt _ (Nat.two_pow_pos _)⟩
  simp only [Predictor.canonical, Bool.and_eq_true] at hcanonical ⊢
  obtain ⟨⟨⟨hbim, hgsh⟩, hchoice⟩, hbtb⟩ := hcanonical
  exact ⟨⟨⟨tableCanonical_set _ _ _ _ hbim, tableCanonical_set _ _ _ _ hgsh⟩, tableCanonical_set _ _ _ _ hchoice⟩,
    tableCanonical_set _ _ _ (BtbEntry.mk true pc target) hbtb⟩

theorem classAction_pred_wf (F : CoreFns) {s : State} (h : s.pred.wf s.cfg) (r : Slot) (ops : Operands) (fl : Nzcv) :
    (classAction F s r ops fl).2.1.pred.wf s.cfg := by
  unfold classAction
  simp only
  cases r.inst.cls with
  | branch => exact predictorUpdate_wf h _ _ _
  | arith | load | store | mul | syscall => exact h

theorem executeRecord_pred_wf (F : CoreFns) {s : State} (h : s.pred.wf s.cfg) (lane : Nat) (r : Slot) (ops : Operands) :
    (executeRecord F s lane r ops).st.pred.wf s.cfg := by
  unfold executeRecord
  exact classAction_pred_wf F h _ ops _

theorem executeLane_pred_wf (F : CoreFns) (lane : Nat) {p : ExecPass} (h : p.st.pred.wf p.st.cfg) :
    (executeLane F lane p).val.st.pred.wf p.st.cfg := by
  obtain ⟨-, e⟩ | ⟨-, -, e⟩ | ⟨-, -, -, e⟩ | ⟨-, -, -, -, e⟩ | ⟨-, -, -, -, -, e⟩ | ⟨-, -, -, -, -, e⟩ :=
    executeLane_cases F lane p <;> rw [e]
  · exact h
  · exact h
  · exact h
  · exact h
  · exact h
  · exact executeRecord_pred_wf F h lane _ _

theorem executeStep_pred_wf (F : CoreFns) {s : State} (h : s.pred.wf s.cfg) : (executeStep F s).st.pred.wf s.cfg := by
  have hend := runLanes_induct (fun p : ExecPass => p.st.pred.wf p.st.cfg) (executeLane F) s.lanes
    (fun lane _ p hp => by
      rw [show (executeLane F lane p).val.st.cfg = p.st.cfg by rw [show _ = _ from executeLane_frame F lane p]]
      exact executeLane_pred_wf F lane hp) ⟨s, none⟩ h
  rwa [show (runLanes (executeLane F) s.lanes ⟨s, none⟩).st.cfg = s.cfg from executeStep_cfg F s] at hend

theorem executeAndDecode_pred_wf (F : CoreFns) {s : State} (h : s.pred.wf s.cfg) :
    (executeAndDecode F s).st.pred.wf s.cfg := by
  obtain ⟨-, e⟩ | ⟨-, -, e⟩ | ⟨-, -, e⟩ := executeAndDecode_cases F s <;> rw [e]
  · exact h
  · exact executeStep_pred_wf F h
  · rw [decodeStep_pred]
    exact executeStep_pred_wf F h

theorem frontEnd_pred_wf (F : CoreFns) {s : State} (h : s.pred.wf s.cfg) : (frontEnd F s).pred.wf s.cfg := by
  have hfetch : (fetchStep F (executeAndDecode F s).st).pred.wf s.cfg := by
    rw [fetchStep_pred]
    exact executeAndDecode_pred_wf F h
  unfold frontEnd
  simp only
  cases (executeAndDecode F s).flush <;> exact hfetch

/-! ## The structural invariant -/

theorem State.wf_iff (s : State) :
    s.wf = true ↔ s.latchesSized = true ∧ s.hierarchyCanonical ∧ s.pred.wf s.cfg := by
  simp only [State.wf, State.hierarchyCanonical, l2Canonical, levelCanonical, State.l2Level, Predictor.wf,
    Bool.and_eq_true, decide_eq_true_eq]
  tauto

theorem tick_hierarchyCanonical (F : CoreFns) {s : State} (h : s.hierarchyCanonical) : (tick F s).hierarchyCanonical := by
  by_cases hs : s.status = .running
  · have hback : (memoryStep F (writebackStep s.countCycle)).hierarchyCanonical :=
      memoryStep_hierarchyCanonical F (writebackStep_hierarchyCanonical (by exact h))
    rw [tick_running F hs]
    split_ifs
    · exact frontEnd_hierarchyCanonical F hback
    · exact hback
  · rwa [tick_stopped F hs]

theorem tick_pred_wf (F : CoreFns) {s : State} (h : s.pred.wf s.cfg) : (tick F s).pred.wf s.cfg := by
  by_cases hs : s.status = .running
  · have hback : (memoryStep F (writebackStep s.countCycle)).pred.wf s.cfg := by simpa using h
    rw [tick_running F hs]
    split_ifs
    · simpa using frontEnd_pred_wf F (s := memoryStep F (writebackStep s.countCycle)) (by simpa using h)
    · exact hback
  · rwa [tick_stopped F hs]

theorem tick_wf (F : CoreFns) {s : State} (h : s.wf = true) : (tick F s).wf = true := by
  obtain ⟨hsized, hhierarchy, hpred⟩ := s.wf_iff.1 h
  exact (State.wf_iff _).2 ⟨(tick_keepsLanes F hsized).1, tick_hierarchyCanonical F hhierarchy, by
    rw [tick_cfg]; exact tick_pred_wf F hpred⟩

/-- Settles O35. The number of lanes is kept by the movement of the records, the canonical form by every write to a table. -/
theorem stepKeepsStructure : Obligations.StepKeepsStructure := by
  intro s t hwf hstep
  obtain rfl := tick_eq_of_step hstep
  exact tick_wf ref hwf

/-! ## Retirement -/

/-- A step of the tick between whose states nothing retires. -/
def keepsRetired (s t : State) : Prop := t.stats.retired = s.stats.retired

theorem keepsRetired.trans {a b c : State} (h : keepsRetired a b) (h' : keepsRetired b c) : keepsRetired a c :=
  Eq.trans h' h

theorem settleMem_keepsRetired (p : MemPass) (lane : Nat) (r : Slot) :
    keepsRetired p.st (settleMem p lane r).val.st := by
  obtain ⟨-, e⟩ | ⟨-, e⟩ := settleMem_cases p lane r <;> rw [e] <;> rfl

theorem accessMem_keepsRetired (s : State) (r : Slot) : keepsRetired s (accessMem s r).2.2 := by
  unfold keepsRetired
  rw [show (accessMem s r).2.2 = _ from accessMem_onlyData s r]

theorem memClassLane_keepsRetired (p : MemPass) (lane : Nat) (r : Slot) :
    keepsRetired p.st (memClassLane p lane r).val.st := by
  obtain ⟨-, e⟩ | ⟨-, -, e⟩ | ⟨-, -, -, e⟩ | ⟨-, -, -, e⟩ := memClassLane_cases p lane r <;> rw [e]
  · exact settleMem_keepsRetired p lane _
  · rfl
  · rfl
  · exact (accessMem_keepsRetired p.st r).trans (settleMem_keepsRetired _ lane _)

theorem memoryLane_keepsRetired (F : CoreFns) (lane : Nat) (p : MemPass) :
    keepsRetired p.st (memoryLane F lane p).val.st := by
  obtain ⟨-, e⟩ | ⟨_, -, -, e⟩ | ⟨_, -, -, -, -, e⟩ | ⟨_, -, -, -, -, e⟩ | ⟨-, -, -, e⟩ | ⟨-, -, -, e⟩ :=
    memoryLane_cases F lane p <;> rw [e]
  · rfl
  · rfl
  · rfl
  · rfl
  · rfl
  · exact memClassLane_keepsRetired p lane _

theorem memoryStep_keepsRetired (F : CoreFns) (s : State) : keepsRetired s (memoryStep F s) :=
  runLanes_frame (fun p q : MemPass => keepsRetired p.st q.st) (fun _ => rfl) (fun _ _ _ => keepsRetired.trans)
    (memoryLane F) s.lanes (fun lane _ p => memoryLane_keepsRetired F lane p) ⟨s, 0⟩

theorem executeRecord_keepsRetired (F : CoreFns) (s : State) (lane : Nat) (r : Slot) (ops : Operands) :
    keepsRetired s (executeRecord F s lane r ops).st := by
  unfold executeRecord
  simp only
  rw [classAction_state]
  rfl

theorem executeLane_keepsRetired (F : CoreFns) (lane : Nat) (p : ExecPass) :
    keepsRetired p.st (executeLane F lane p).val.st := by
  obtain ⟨-, e⟩ | ⟨-, -, e⟩ | ⟨-, -, -, e⟩ | ⟨-, -, -, -, e⟩ | ⟨-, -, -, -, -, e⟩ | ⟨-, -, -, -, -, e⟩ :=
    executeLane_cases F lane p <;> rw [e]
  · rfl
  · rfl
  · rfl
  · rfl
  · rfl
  · exact executeRecord_keepsRetired F p.st lane _ _

theorem executeStep_keepsRetired (F : CoreFns) (s : State) : keepsRetired s (executeStep F s).st :=
  runLanes_frame (fun p q : ExecPass => keepsRetired p.st q.st) (fun _ => rfl) (fun _ _ _ => keepsRetired.trans)
    (executeLane F) s.lanes (fun lane _ p => executeLane_keepsRetired F lane p) ⟨s, none⟩

theorem decodeLane_keepsRetired (lane : Nat) (p : DecodePass) : keepsRetired p.st (decodeLane lane p).val.st := by
  obtain ⟨-, e⟩ | ⟨-, -, e⟩ | ⟨-, -, -, e⟩ | ⟨-, -, -, e⟩ | ⟨-, -, -, e⟩ := decodeLane_cases lane p <;> rw [e] <;> rfl

theorem decodeStep_keepsRetired (s : State) : keepsRetired s (decodeStep s) :=
  runLanes_frame (fun p q : DecodePass => keepsRetired p.st q.st) (fun _ => rfl) (fun _ _ _ => keepsRetired.trans)
    decodeLane s.lanes (fun lane _ p => decodeLane_keepsRetired lane p) ⟨s, 0⟩

theorem executeAndDecode_keepsRetired (F : CoreFns) (s : State) : keepsRetired s (executeAndDecode F s).st := by
  obtain ⟨-, e⟩ | ⟨-, -, e⟩ | ⟨-, -, e⟩ := executeAndDecode_cases F s <;> rw [e]
  · rfl
  · exact executeStep_keepsRetired F s
  · exact (executeStep_keepsRetired F s).trans (decodeStep_keepsRetired _)

theorem deliver_keepsRetired (F : CoreFns) (lane : Nat) (s : State) (pc : Word) (word : List Byte) :
    keepsRetired s (deliver F lane s pc word).val := by
  obtain ⟨-, e⟩ | ⟨_, _, -, rfl, e⟩ := deliver_cases F lane s pc word <;> rw [e]
  · rfl
  · split_ifs <;> rfl

theorem fetchLane_keepsRetired (F : CoreFns) (lane : Nat) (s : State) : keepsRetired s (fetchLane F lane s).val := by
  unfold fetchLane readNext
  simp only
  split_ifs
  · rfl
  · exact deliver_keepsRetired F lane _ _ _
  · rfl
  · rfl
  · rfl
  · exact deliver_keepsRetired F lane _ _ _

theorem tickPending_keepsRetired (s : State) : keepsRetired s (tickPending s) := by
  unfold tickPending
  simp only
  split_ifs <;> rfl

theorem fetchStep_keepsRetired (F : CoreFns) (s : State) : keepsRetired s (fetchStep F s) := by
  have hp := tickPending_keepsRetired s
  unfold fetchStep
  simp only
  split_ifs
  · rfl
  · exact hp
  · exact hp.trans (runLanes_frame keepsRetired (fun _ => rfl) (fun _ _ _ => keepsRetired.trans) (fetchLane F) _
      (fun lane _ t => fetchLane_keepsRetired F lane t) _)

theorem frontEnd_keepsRetired (F : CoreFns) (s : State) : keepsRetired s (frontEnd F s) := by
  have hfetch := (executeAndDecode_keepsRetired F s).trans (fetchStep_keepsRetired F _)
  unfold frontEnd
  simp only
  cases (executeAndDecode F s).flush <;> exact hfetch

/-- After writeback the tick leaves the registers, the flags and the retirement count (R22, R26). -/
theorem tick_committed (F : CoreFns) {s : State} (hs : s.status = .running) :
    (tick F s).x = (writebackStep s).x ∧ (tick F s).flags = (writebackStep s).flags ∧
      (tick F s).stats.retired = (writebackStep s).stats.retired := by
  have hback : keepsRetired (writebackStep s).countCycle (memoryStep F (writebackStep s).countCycle) :=
    memoryStep_keepsRetired F _
  rw [tick_running F hs, writebackStep_countCycle]
  split_ifs
  · obtain ⟨-, hx, hflags, -⟩ := frontEnd_frame F (memoryStep F (writebackStep s).countCycle)
    rw [hx, hflags, memoryStep_x, memoryStep_flags]
    exact ⟨rfl, rfl, hback.trans (frontEnd_keepsRetired F _)⟩
  · rw [memoryStep_x, memoryStep_flags]
    exact ⟨rfl, rfl, hback⟩

/-- Settles O29. Counting the cycle first changes nothing that writeback does, and no later stage commits. -/
theorem onlyWritebackCommits : Obligations.OnlyWritebackCommits := by
  intro s t hs hsized hstep
  obtain rfl := tick_eq_of_step hstep
  obtain ⟨hx, hflags, hretired⟩ := tick_committed ref hs
  exact ⟨hx, hflags, by rw [hretired, writebackStep_stats hsized]⟩

/-! ## Configuration, stopped core, CPI -/

/-- Settles O45: no stage writes `CFG`. -/
theorem stepKeepsConfiguration : Obligations.StepKeepsConfiguration := by
  intro s t hstep
  obtain rfl := tick_eq_of_step hstep
  exact tick_cfg ref s

/-- Settles O18: every meaning and the tick test the status first. -/
theorem stoppedCoreIsFrozen : Obligations.StoppedCoreIsFrozen := fun s hs =>
  ⟨fun i => exec_stopped i hs, by rw [step_eq, tick_stopped ref hs]⟩

/-- Settles O60, by the two cases of the quotient. -/
theorem cpiIsExact : Obligations.CpiIsExact := by
  intro t
  constructor
  · intro hretired
    rw [Stats.cpi, if_pos hretired]
    exact div_mul_cancel₀ _ (Nat.cast_ne_zero.2 hretired.ne')
  · intro hretired
    rw [Stats.cpi, if_neg hretired.not_gt]

/-! ## Reset -/

/-- Reset builds the state, with a status that depends on the validity of the configuration (R410). -/
theorem resetWith_eq_build (raw : RawCfg) (image : List Host.Cell) (entry sp : Word) :
    ∃ status, State.resetWith raw image entry sp = State.build status (cfgOfRaw raw) image entry sp := by
  unfold State.resetWith
  cases firstViolation raw with
  | none => exact ⟨_, rfl⟩
  | some field => exact ⟨_, rfl⟩

theorem resetWith_of_valid {raw : RawCfg} (h : firstViolation raw = none) (image : List Host.Cell) (entry sp : Word) :
    State.resetWith raw image entry sp = State.build .running (cfgOfRaw raw) image entry sp := by
  unfold State.resetWith
  rw [h]

section
variable (status : Status) (cfg : Cfg) (image : List Host.Cell) (entry sp : Word)

theorem build_wf : (State.build status cfg image entry sp).wf = true := by
  refine (State.wf_iff _).2 ⟨(State.latchesSized_iff _).2 ?_, ⟨rfl, rfl, rfl, loadImage_wf cfg.memSize image⟩, rfl,
    Nat.two_pow_pos _⟩
  simp [State.build]

end

/-- Settles O36: empty tables are canonical, and the image is loaded through `tableSet`. -/
theorem resetHasStructure : Obligations.ResetHasStructure := by
  refine ⟨build_wf .running cfgDefault [] 0x1000 0x8000, fun raw image entry sp => ?_⟩
  obtain ⟨status, e⟩ := resetWith_eq_build raw image entry sp
  rw [e]
  exact build_wf status (cfgOfRaw raw) image entry sp

theorem memClassCount_bubbles (n : Nat) : memClassCount (bubbles n) = 0 := by
  rw [memClassCount, bubbles, List.countP_replicate]
  rfl

theorem valid_of_mem_bubbles {n : Nat} {r : Slot} (h : r ∈ bubbles n) : r.valid = false := by
  rw [List.eq_of_mem_replicate h]
  rfl

/-! The tests hold like facts about the empty cache as witnesses; the proofs do not rest on the tests. -/

/-- No entry of a cache after reset is valid (R50). -/
theorem empty_not_valid (g : CacheCfg) (set way : Nat) : ¬(dirAt g Cache.empty set way).valid = true :=
  Bool.false_ne_true

theorem empty_directorySound (g : CacheCfg) : directorySound g Cache.empty :=
  ⟨fun set w₁ _ _ _ _ h _ _ => absurd h (empty_not_valid g set w₁), fun _ _ _ _ => Nat.le_refl 0,
    fun set w₁ _ _ _ _ h _ _ => absurd h (empty_not_valid g set w₁)⟩

theorem empty_linesFull (g : CacheCfg) : linesFull g Cache.empty := fun _ _ _ _ => List.length_replicate

theorem empty_cacheSound (g : CacheCfg) (V : Nat → Byte) : cacheSound g Cache.empty V :=
  ⟨(empty_directorySound g).1, empty_linesFull g, fun set way _ _ h => absurd h (empty_not_valid g set way)⟩

theorem empty_countersOrdered : Cache.empty.countersOrdered := ⟨Nat.le_refl 0, Nat.le_refl 0⟩

/-- Settles O47: with bubbles in every latch and no valid entry in any cache, nothing can break an invariant. -/
theorem resetHasInvariants : Obligations.ResetHasInvariants := by
  intro raw image entry sp
  obtain ⟨status, e⟩ := resetWith_eq_build raw image entry sp
  rw [e]
  intro s
  have hlanes := contiguous_bubbles (cfgOfRaw raw).issueWidth
  have hports : memClassCount (bubbles (cfgOfRaw raw).issueWidth) ≤ (cfgOfRaw raw).memPorts := by
    rw [memClassCount_bubbles]
    exact Nat.zero_le _
  have hsized : s.latchesSized = true := ((State.wf_iff s).1 (build_wf status _ image entry sp)).1
  have hcoherent : s.coherent :=
    ⟨empty_cacheSound _ _, empty_cacheSound _ _, fun _ _ => rfl, empty_linesFull _⟩
  refine ⟨hsized, ⟨hlanes, hlanes, hlanes, hlanes⟩, ⟨hports, hports⟩,
    ⟨empty_directorySound _, empty_directorySound _, empty_directorySound _⟩, hcoherent,
    ⟨empty_countersOrdered, empty_countersOrdered, empty_countersOrdered⟩, fun r hr hv => ?_⟩
  rw [valid_of_mem_bubbles hr] at hv
  exact absurd hv Bool.false_ne_true

/-! ### The values of reset -/

/-- The byte that an image gives an address: the last listing of the address counts, an unlisted byte is 0. -/
def imageByte (image : List Host.Cell) (a : Nat) : Byte := ((image.reverse.find? fun e => e.1 == a).map (·.2)).getD 0

theorem imageByte_concat (image : List Host.Cell) (e : Host.Cell) (a : Nat) :
    imageByte (image ++ [e]) a = if e.1 = a then e.2 else imageByte image a := by
  unfold imageByte
  rw [List.reverse_append, List.reverse_singleton, List.singleton_append]
  by_cases h : e.1 = a
  · rw [List.find?_cons_of_pos (by simpa using h), if_pos h]
    rfl
  · rw [List.find?_cons_of_neg (by simpa using h), if_neg h]

theorem loadImage_concat (memSize : Nat) (image : List Host.Cell) (e : Host.Cell) :
    loadImage memSize (image ++ [e]) =
      if e.1 < memSize then tableSet unlistedByte (loadImage memSize image) e.1 e.2 else loadImage memSize image := by
  rw [loadImage, List.foldl_append]
  rfl

theorem memByte_loadImage (memSize : Nat) (image : List Host.Cell) (a : Nat) :
    memByte (loadImage memSize image) a = if a < memSize then imageByte image a else 0 := by
  induction image using List.reverseRecOn with
  | nil => exact (ite_self 0).symm
  | append_singleton image e ih =>
    rw [loadImage_concat, imageByte_concat]
    unfold memByte at ih ⊢
    by_cases he : e.1 < memSize
    · rw [if_pos he, tableGet_set, ih]
      by_cases hea : e.1 = a
      · rw [if_pos hea, if_pos hea, if_pos (hea ▸ he)]
      · rw [if_neg hea, if_neg hea]
    · rw [if_neg he, ih]
      by_cases hea : e.1 = a
      · rw [if_neg (hea ▸ he), if_neg (hea ▸ he)]
      · rw [if_neg hea]

section
variable (status : Status) (cfg : Cfg) (image : List Host.Cell) (entry sp : Word)

theorem build_reg (hsp : cfg.spReg ≤ 31) (r : Reg) :
    (State.build status cfg image entry sp).reg r = if r.toNat = cfg.spReg then sp else 0 := by
  have hreg : BitVec.ofNat 5 cfg.spReg = r ↔ r.toNat = cfg.spReg := by
    rw [← BitVec.toNat_inj, BitVec.toNat_ofNat, Nat.mod_eq_of_lt (by omega), eq_comm]
  simp only [State.reg, State.build, regFileRead_write, hreg]
  congr 1
  simp [regFileRead]

/-- The program counter after reset is the entry address: nothing is in flight, as after a plain assignment. -/
theorem build_pc : (State.build status cfg image entry sp).pc = entry :=
  State.pc_setPc (State.build status cfg image entry sp) entry

end

/-- Settles O48. Three points take a lemma: the stack pointer's register, the program counter, the bytes of the image. -/
theorem resetValues : Obligations.ResetValues := by
  intro raw image entry sp hvalid
  rw [resetWith_of_valid hvalid]
  intro s
  have hsp : (cfgOfRaw raw).spReg ≤ 31 := of_decide_eq_true (cfgValid_field (firstViolation_eq_none_iff.1 hvalid).2 .spReg)
  have hlatch := slotAt_bubbles (cfgOfRaw raw).issueWidth
  have hcaches : ∀ c, c = s.l1i ∨ c = s.l1d ∨ c = s.l2 → c = Cache.empty := by
    rintro c (h | h | h) <;> exact h
  refine ⟨rfl, rfl, rfl, build_reg _ _ image entry sp hsp, fun j => ⟨hlatch j, hlatch j, hlatch j, hlatch j⟩, rfl, rfl, rfl,
    rfl, build_pc _ _ image entry sp, fun _ => ⟨rfl, rfl, rfl, rfl⟩, rfl, fun g c hc => ?_,
    memByte_loadImage (cfgOfRaw raw).memSize image, rfl⟩
  obtain rfl := hcaches c hc
  exact ⟨fun _ _ => ⟨rfl, rfl⟩, rfl, rfl, rfl, rfl, rfl, rfl⟩

end Sys2Proof.Machine
end

section
/-!
PROOFS. The data view through the tick (`spec/20_memory.md` R72, `spec/46_fetch_unit.md` R278). Only two operations of the
tick reach the caches: an access of the memory stage and an instruction read. An instruction read and a load show the same
view before and after; so a tick whose memory stage begins no store shows the same view, whatever moves between the caches
on the way.
-/

namespace Sys2Proof.Machine

/-! ## Coherent states that show a view -/

/-- A coherent state of a valid configuration whose data view is `V`. -/
def State.showsView (V : Nat → Byte) (s : State) : Prop := cfgValid s.cfg = true ∧ s.coherent ∧ s.dview = V

section
variable {V : Nat → Byte} {s t : State}

/-- What the data view rests on: the configuration, the caches and main memory. -/
theorem showsView_congr (hcfg : t.cfg = s.cfg) (hi : t.l1i = s.l1i) (hd : t.l1d = s.l1d) (h2 : t.l2 = s.l2)
    (hm : t.mem = s.mem) (h : s.showsView V) : t.showsView V := by
  have hl2 : t.l2View = s.l2View := by rw [State.l2View_eq, State.l2View_eq, State.l2Level, State.l2Level, hcfg, h2, hm]
  have hdview : t.dview = s.dview := by funext a; rw [State.dview, State.dview, hl2, hcfg, hd]
  obtain ⟨hvalid, hcoherent, hview⟩ := h
  refine ⟨by rwa [hcfg], ?_, hdview.trans hview⟩
  unfold State.coherent at hcoherent ⊢
  rwa [hl2, hcfg, hi, hd, h2, hm]

/-- A load shows the same view before and after, in whichever cache it finds its line (R66, R201). -/
theorem accessMem_showsView_of_load (h : s.showsView V) {r : Slot} (hr : r.inst.cls = .load) :
    (accessMem s r).2.2.showsView V := by
  obtain ⟨hvalid, hcoherent, hview⟩ := h
  obtain ⟨hread, hsame, -, hframe⟩ := memRead_spec hvalid hcoherent r.addr (accessBytes r.inst.msize)
  have hstate : (accessMem s r).2.2 = (s.memRead r.addr (accessBytes r.inst.msize)).state := by
    rw [accessMem, if_pos hr]
    rfl
  rw [hstate]
  exact ⟨by rwa [hframe], hread, hsame.trans hview⟩

/-- An instruction read shows the same view before and after (R68, R278). -/
theorem fetchRead_showsView (h : s.showsView V) (pc : Word) : (s.fetchRead pc).state.showsView V := by
  obtain ⟨hvalid, hcoherent, hview⟩ := h
  obtain ⟨hread, hsame, -⟩ := fetchRead_spec hvalid hcoherent pc
  exact ⟨hvalid, hread, hsame.trans hview⟩

end

/-! ## The memory stage without a store to begin -/

/-- The turn of the record begins no store: it is no store, or a store whose access has been performed (R201). -/
def Slot.beginsNoStore (r : Slot) : Prop :=
  r.valid = true → r.fault = .none → r.inst.cls = .store → r.memStarted = true

/-- No record of the latch begins a store. -/
def beginsNoStore (l : Latch) : Prop := ∀ r ∈ l, r.beginsNoStore

theorem Slot.beginsNoStore_of_started {r : Slot} (h : r.memStarted = true) : r.beginsNoStore := fun _ _ _ => h

theorem Slot.beginsNoStore_bubble : Slot.bubble.beginsNoStore := fun h => absurd h Bool.false_ne_true

theorem beginsNoStore.slotAt {l : Latch} (h : beginsNoStore l) (lane : Nat) : (slotAt l lane).beginsNoStore := by
  rw [Machine.slotAt, List.getD_eq_getElem?_getD]
  cases hlane : l[lane]? with
  | none => exact Slot.beginsNoStore_bubble
  | some r => exact h r (List.mem_of_getElem? hlane)

theorem beginsNoStore.set {l : Latch} (h : beginsNoStore l) (lane : Nat) {r : Slot} (hr : r.beginsNoStore) :
    beginsNoStore (l.set lane r) := fun q hq =>
  (List.mem_or_eq_of_mem_set hq).elim (h q) fun hqr => hqr ▸ hr

theorem poisonError_eq_none_iff {r : Slot} : poisonError r = none ↔ r.fault = .none := by
  unfold poisonError
  cases r.fault <;> simp

/-- The state in the midst of the memory step: the view `V`, and no store to begin in `EXMEM`. -/
def State.storeFree (V : Nat → Byte) (s : State) : Prop := s.showsView V ∧ beginsNoStore s.exmem

section
variable {V : Nat → Byte} {p : MemPass}

theorem passMemory_storeFree {s : State} (h : s.storeFree V) (lane : Nat) (r : Slot) :
    (s.passMemory lane r).storeFree V :=
  ⟨h.1, h.2.set lane Slot.beginsNoStore_bubble⟩

theorem settleMem_storeFree (h : p.st.storeFree V) (lane : Nat) {r : Slot} (hr : r.memStarted = true) :
    (settleMem p lane r).val.st.storeFree V := by
  obtain ⟨-, e⟩ | ⟨-, e⟩ := settleMem_cases p lane r <;> rw [e]
  · exact ⟨h.1, h.2.set lane (Slot.beginsNoStore_of_started hr)⟩
  · exact passMemory_storeFree h lane r

/-- An access that begins where no store does is a load. -/
theorem Slot.beginsNoStore.load {r : Slot} (h : r.beginsNoStore) (hv : r.valid = true) (hf : r.fault = .none)
    (hm : r.inst.cls.isMem = true) (hs : r.memStarted = false) : r.inst.cls = .load := by
  have hstore : r.inst.cls ≠ .store := fun hc => Bool.false_ne_true (hs.symm.trans (h hv hf hc))
  cases hc : r.inst.cls with
  | load => rfl
  | store => exact absurd hc hstore
  | arith | branch | mul | syscall => rw [hc] at hm; exact absurd hm Bool.false_ne_true

theorem memClassLane_storeFree (h : p.st.storeFree V) (lane : Nat) {r : Slot}
    (hload : r.memStarted = false → r.inst.cls = .load) : (memClassLane p lane r).val.st.storeFree V := by
  obtain ⟨hs, e⟩ | ⟨-, -, e⟩ | ⟨-, -, -, e⟩ | ⟨hs, -, -, e⟩ := memClassLane_cases p lane r <;> rw [e]
  · exact settleMem_storeFree h lane hs
  · exact h
  · exact h
  · have hexmem : (accessMem p.st r).2.2.exmem = p.st.exmem := (accessMem_onlyData p.st r).latches.1
    exact settleMem_storeFree ⟨accessMem_showsView_of_load h.1 (hload hs), hexmem ▸ h.2⟩ lane rfl

theorem memoryLane_storeFree (F : CoreFns) (lane : Nat) (h : p.st.storeFree V) :
    (memoryLane F lane p).val.st.storeFree V := by
  obtain ⟨-, e⟩ | ⟨_, -, -, e⟩ | ⟨_, -, -, -, -, e⟩ | ⟨_, -, -, -, -, e⟩ | ⟨-, -, -, e⟩ | ⟨hv, hp, hm, e⟩ :=
    memoryLane_cases F lane p <;> rw [e]
  · exact h
  · exact h
  · exact h
  · exact passMemory_storeFree h lane _
  · exact passMemory_storeFree h lane _
  · exact memClassLane_storeFree h lane ((h.2.slotAt lane).load hv (poisonError_eq_none_iff.1 hp) hm)

theorem memoryStep_showsView (F : CoreFns) {s : State} (h : s.showsView V) (hno : beginsNoStore s.exmem) :
    (memoryStep F s).showsView V :=
  (runLanes_induct (fun p : MemPass => p.st.storeFree V) (memoryLane F) s.lanes
    (fun lane _ _ hp => memoryLane_storeFree F lane hp) ⟨s, 0⟩ ⟨h, hno⟩).1

end

/-! ## The other stages, and the tick -/

section
variable {V : Nat → Byte} {s : State}

theorem deliver_showsView (F : CoreFns) (lane : Nat) (h : s.showsView V) (pc : Word) (word : List Byte) :
    (deliver F lane s pc word).val.showsView V := by
  obtain ⟨-, e⟩ | ⟨_, _, -, rfl, e⟩ := deliver_cases F lane s pc word <;> rw [e]
  · exact h
  · split_ifs <;> exact h

theorem readNext_showsView (F : CoreFns) (lane : Nat) (h : s.showsView V) : (readNext F lane s).val.showsView V := by
  have hread := fetchRead_showsView h s.fetch.fetchPc
  unfold readNext
  simp only
  split_ifs with hmisaligned houtside hwait
  · exact h
  · exact h
  · exact hread
  · exact deliver_showsView F lane hread _ _

theorem fetchLane_showsView (F : CoreFns) (lane : Nat) (h : s.showsView V) : (fetchLane F lane s).val.showsView V := by
  unfold fetchLane
  simp only
  split_ifs with hpending hwait
  · exact h
  · exact deliver_showsView F lane (by exact h) _ _
  · exact readNext_showsView F lane h

theorem tickPending_showsView (h : s.showsView V) : (tickPending s).showsView V := by
  unfold tickPending
  simp only
  split_ifs <;> exact h

theorem fetchStep_showsView (F : CoreFns) (h : s.showsView V) : (fetchStep F s).showsView V := by
  have hpending := tickPending_showsView h
  unfold fetchStep
  simp only
  split_ifs with hpenalty hheld
  · exact h
  · exact hpending
  · exact runLanes_induct (State.showsView V) (fetchLane F) _ (fun lane _ _ ht => fetchLane_showsView F lane ht) _ hpending

theorem writebackStep_showsView (h : s.showsView V) : (writebackStep s).showsView V :=
  showsView_congr (by simp) (by simp) (by simp) (by simp) (by simp) h

theorem executeAndDecode_showsView (F : CoreFns) (h : s.showsView V) : (executeAndDecode F s).st.showsView V := by
  rw [executeAndDecode_frame]
  exact h

theorem frontEnd_showsView (F : CoreFns) (h : s.showsView V) : (frontEnd F s).showsView V := by
  have hfetch := fetchStep_showsView F (executeAndDecode_showsView F h)
  unfold frontEnd
  simp only
  cases (executeAndDecode F s).flush <;> exact hfetch

theorem tick_showsView (F : CoreFns) (h : s.showsView V) (hno : beginsNoStore s.exmem) : (tick F s).showsView V := by
  by_cases hs : s.status = .running
  · have hback : (memoryStep F (writebackStep s.countCycle)).showsView V :=
      memoryStep_showsView F (writebackStep_showsView (by exact h)) (by simpa using hno)
    rw [tick_running F hs]
    split_ifs
    · exact frontEnd_showsView F hback
    · exact hback
  · rwa [tick_stopped F hs]

end

/-- Settles O42. The view of the state before the tick is the view of every state in its midst. -/
theorem onlyStoresChangeTheView : Obligations.OnlyStoresChangeTheView := by
  intro s t hvalid hcoherent hstep hno
  obtain rfl := tick_eq_of_step hstep
  obtain ⟨-, -, hview⟩ := tick_showsView ref ⟨hvalid, hcoherent, rfl⟩ hno
  exact congrFun hview

end Sys2Proof.Machine
end

section
/-!
PROOFS. The layout of the Decoded Instruction record (`spec/30_encoding.md` R91): the twenty fields lie side by side and
fill the 128 bits, so packing and unpacking are inverse to each other.
-/

namespace Sys2Proof.Machine

/-! ## One field -/

theorem extractLsb'_fieldAt_same {n lo : Nat} (v : BitVec n) (h : lo + n ≤ 128) :
    (fieldAt lo v).extractLsb' lo n = v := by
  apply BitVec.eq_of_getLsbD_eq
  intro i hi
  have hlt : lo + i < 128 := by omega
  rw [BitVec.getLsbD_extractLsb', getLsbD_fieldAt]
  simp [hi, hlt]

theorem extractLsb'_fieldAt_apart {n lo start len : Nat} (v : BitVec n) (h : start + len ≤ lo ∨ lo + n ≤ start) :
    (fieldAt lo v).extractLsb' start len = 0#len := by
  apply BitVec.eq_of_getLsbD_eq
  intro i hi
  rw [BitVec.getLsbD_extractLsb', getLsbD_fieldAt, BitVec.getLsbD_zero]
  obtain h | h := h
  · have : ¬ lo ≤ start + i := by omega
    simp [this]
  · rw [BitVec.getLsbD_of_ge v _ (by omega)]
    simp

/-! ## All fields: adjacent fields join to one, from bit 0 up -/

/-- The low `k` bits of a word, the others 0. -/
def lowBits (w : BitVec 128) (k : Nat) : BitVec 128 := fieldAt 0 (w.extractLsb' 0 k)

theorem getLsbD_lowBits (w : BitVec 128) (k i : Nat) : (lowBits w k).getLsbD i = (decide (i < k) && w.getLsbD i) := by
  rw [lowBits, getLsbD_fieldAt, BitVec.getLsbD_extractLsb']
  by_cases hi : i < 128
  · simp [hi]
  · simp [BitVec.getLsbD_of_ge w i (by omega)]

theorem lowBits_or_fieldAt (w : BitVec 128) (k n : Nat) :
    lowBits w k ||| fieldAt k (w.extractLsb' k n) = lowBits w (k + n) := by
  apply BitVec.eq_of_getLsbD_eq
  intro i hi
  rw [BitVec.getLsbD_or, getLsbD_lowBits, getLsbD_lowBits, getLsbD_fieldAt, BitVec.getLsbD_extractLsb']
  by_cases hk : k ≤ i
  · have hlow : ¬ i < k := by omega
    have hwidth : i - k < n ↔ i < k + n := by omega
    simp [hi, hk, hlow, hwidth]
  · have hlow : i < k + n := by omega
    simp [hk, hlow, Nat.lt_of_not_le hk]

theorem lowBits_or_bitAt (w : BitVec 128) (k : Nat) : lowBits w k ||| bitAt k (w.getLsbD k) = lowBits w (k + 1) := by
  rw [← lowBits_or_fieldAt, bitAt]
  congr 2
  apply BitVec.eq_of_getLsbD_eq
  intro i hi
  obtain rfl : i = 0 := by omega
  simp

theorem lowBits_all (w : BitVec 128) : lowBits w 128 = w := by
  apply BitVec.eq_of_getLsbD_eq
  intro i hi
  rw [getLsbD_lowBits, decide_eq_true hi, Bool.true_and]

/-- A word is the packing of its own fields. -/
theorem fields_join (w : BitVec 128) :
    fieldAt 0 (w.extractLsb' 0 3) ||| fieldAt 3 (w.extractLsb' 3 6) ||| bitAt 9 (w.getLsbD 9) |||
      bitAt 10 (w.getLsbD 10) ||| fieldAt 11 (w.extractLsb' 11 4) ||| bitAt 15 (w.getLsbD 15) ||| bitAt 16 (w.getLsbD 16) |||
      bitAt 17 (w.getLsbD 17) ||| fieldAt 18 (w.extractLsb' 18 2) ||| bitAt 20 (w.getLsbD 20) ||| bitAt 21 (w.getLsbD 21) |||
      fieldAt 22 (w.extractLsb' 22 5) ||| bitAt 27 (w.getLsbD 27) ||| fieldAt 28 (w.extractLsb' 28 5) |||
      bitAt 33 (w.getLsbD 33) ||| fieldAt 34 (w.extractLsb' 34 5) ||| bitAt 39 (w.getLsbD 39) |||
      fieldAt 40 (w.extractLsb' 40 5) ||| fieldAt 45 (w.extractLsb' 45 19) ||| fieldAt 64 (w.extractLsb' 64 64) = w := by
  rw [← lowBits]
  simp only [lowBits_or_fieldAt, lowBits_or_bitAt, Nat.reduceAdd, lowBits_all]

/-! ## A word and its record -/

/-- The word `w` holds the record `d`, each field at its bits (R91). -/
structure HoldsRecord (w : BitVec 128) (d : Diw) : Prop where
  cls : w.extractLsb' 0 3 = d.cls.code
  fn : w.extractLsb' 3 6 = d.fn
  setsFlags : w.getLsbD 9 = d.setsFlags
  readsFlags : w.getLsbD 10 = d.readsFlags
  cond : w.extractLsb' 11 4 = d.cond
  fused : w.getLsbD 15 = d.fused
  link : w.getLsbD 16 = d.link
  indirect : w.getLsbD 17 = d.indirect
  msize : w.extractLsb' 18 2 = d.msize
  msigned : w.getLsbD 20 = d.msigned
  rdV : w.getLsbD 21 = d.rdV
  rd : w.extractLsb' 22 5 = d.rd
  rnV : w.getLsbD 27 = d.rnV
  rn : w.extractLsb' 28 5 = d.rn
  rmV : w.getLsbD 33 = d.rmV
  rm : w.extractLsb' 34 5 = d.rm
  rtV : w.getLsbD 39 = d.rtV
  rt : w.extractLsb' 40 5 = d.rt
  reserved : w.extractLsb' 45 19 = d.reserved
  imm : w.extractLsb' 64 64 = d.imm

theorem clsOfCode_eq_some_iff {k : BitVec 3} {c : OpClass} : clsOfCode k = some c ↔ k = c.code := by
  constructor
  · intro h
    simp only [clsOfCode] at h
    split_ifs at h <;> cases h <;> assumption
  · rintro rfl
    exact clsOfCode_code c

theorem unpackDiw_eq_some_iff {w : BitVec 128} {d : Diw} : unpackDiw w = some d ↔ HoldsRecord w d := by
  constructor
  · intro h
    unfold unpackDiw at h
    rcases hc : clsOfCode (w.extractLsb' 0 3) with _ | c
    · simp [hc] at h
    · simp only [hc, Option.some.injEq] at h
      subst h
      exact
        { cls := clsOfCode_eq_some_iff.1 hc
          fn := rfl, setsFlags := rfl, readsFlags := rfl, cond := rfl, fused := rfl, link := rfl, indirect := rfl
          msize := rfl, msigned := rfl, rdV := rfl, rd := rfl, rnV := rfl, rn := rfl, rmV := rfl, rm := rfl
          rtV := rfl, rt := rfl, reserved := rfl, imm := rfl }
  · intro h
    simp only [unpackDiw, h.cls, h.fn, clsOfCode_code, h.setsFlags, h.readsFlags, h.cond, h.fused, h.link, h.indirect,
      h.msize, h.msigned, h.rdV, h.rd, h.rnV, h.rn, h.rmV, h.rm, h.rtV, h.rt, h.reserved, h.imm]

theorem HoldsRecord.packDiw_eq {w : BitVec 128} {d : Diw} (h : HoldsRecord w d) : packDiw d = w := by
  rw [packDiw, ← h.cls, ← h.fn, ← h.setsFlags, ← h.readsFlags, ← h.cond, ← h.fused, ← h.link, ← h.indirect, ← h.msize,
    ← h.msigned, ← h.rdV, ← h.rd, ← h.rnV, ← h.rn, ← h.rmV, ← h.rm, ← h.rtV, ← h.rt, ← h.reserved, ← h.imm]
  exact fields_join w

theorem holdsRecord_packDiw (d : Diw) : HoldsRecord (packDiw d) d := by
  constructor
  case setsFlags | readsFlags | fused | link | indirect | msigned | rdV | rnV | rmV | rtV =>
    simp only [packDiw, BitVec.getLsbD_or, getLsbD_fieldAt, getLsbD_bitAt]
    simp
  all_goals simp [packDiw, bitAt, BitVec.extractLsb'_or, extractLsb'_fieldAt_same, extractLsb'_fieldAt_apart]

theorem unpackDiw_eq_some_iff_packDiw {w : BitVec 128} {d : Diw} : unpackDiw w = some d ↔ packDiw d = w := by
  rw [unpackDiw_eq_some_iff]
  exact ⟨HoldsRecord.packDiw_eq, fun h => h ▸ holdsRecord_packDiw d⟩

end Sys2Proof.Machine
end

section
/-!
PROOFS. Decoding and encoding (`spec/30_encoding.md` R99 to R101). The valid records are exactly the records of the
instructions, and a record selects the instruction it comes from; with the layout this makes `decodeWord` and `encode`
inverse to each other, which every statement here rests on.
-/

namespace Sys2Proof

/-! ## The conditions of R99 and R100, one by one -/

theorem Diw.generalOk_iff {d : Diw} :
    d.generalOk = true ↔ d.reserved = 0 ∧ d.absentRegsZero = true ∧ (d.readsFlags || d.cond == 0) = true := by
  simp [Diw.generalOk, and_assoc]

theorem Diw.arithOk_iff {d : Diw} :
    d.arithOk = true ↔ d.fn.toNat ≤ 8 ∧ d.readsFlags = (d.fn == 8) ∧ d.fused = false ∧ d.link = false ∧ d.indirect = false ∧
      d.msize = 0 ∧ d.msigned = false ∧ d.rtV = false := by
  simp [Diw.arithOk, Diw.noBranchBits, Diw.noMemBits, and_assoc]

theorem Diw.mulOk_iff {d : Diw} :
    d.mulOk = true ↔ d.fn = 0 ∧ d.readsFlags = false ∧ d.fused = false ∧ d.link = false ∧ d.indirect = false ∧
      d.msize = 0 ∧ d.msigned = false ∧ d.rtV = false := by
  simp [Diw.mulOk, Diw.noBranchBits, Diw.noMemBits, and_assoc]

theorem Diw.loadOk_iff {d : Diw} :
    d.loadOk = true ↔ d.fn = 0 ∧ d.setsFlags = false ∧ d.readsFlags = false ∧ d.fused = false ∧ d.link = false ∧
      d.indirect = false ∧ d.rnV = true ∧ d.rmV = false ∧ d.rtV = false := by
  simp [Diw.loadOk, Diw.noBranchBits, and_assoc]

theorem Diw.storeOk_iff {d : Diw} :
    d.storeOk = true ↔ d.fn = 0 ∧ d.setsFlags = false ∧ d.readsFlags = false ∧ d.fused = false ∧ d.link = false ∧
      d.indirect = false ∧ d.msigned = false ∧ d.rdV = false ∧ d.rnV = true ∧ d.rmV = false := by
  simp [Diw.storeOk, Diw.noBranchBits, and_assoc]

theorem Diw.branchOk_iff {d : Diw} :
    d.branchOk = true ↔ d.fn = 0 ∧ d.msize = 0 ∧ d.msigned = false ∧ d.rtV = false ∧ d.rdV = d.link ∧
      (d.formB = true ∨ d.formBl = true ∨ d.formBr = true ∨ d.formBlr = true ∨ d.formBCond = true ∨ d.formCbCond = true) := by
  simp [Diw.branchOk, Diw.noMemBits, and_assoc, or_assoc]

theorem Diw.syscallOk_iff {d : Diw} :
    d.syscallOk = true ↔ d.fn = 0 ∧ d.setsFlags = false ∧ d.readsFlags = false ∧ d.fused = false ∧ d.link = false ∧
      d.indirect = false ∧ d.msize = 0 ∧ d.msigned = false := by
  simp [Diw.syscallOk, Diw.noBranchBits, Diw.noMemBits, and_assoc]

theorem Diw.formB_iff {d : Diw} :
    d.formB = true ↔ d.readsFlags = false ∧ d.fused = false ∧ d.link = false ∧ d.indirect = false ∧ d.setsFlags = false ∧
      d.rdV = false ∧ d.rnV = false ∧ d.rmV = false := by
  simp [Diw.formB, and_assoc]

theorem Diw.formBl_iff {d : Diw} :
    d.formBl = true ↔ d.readsFlags = false ∧ d.fused = false ∧ d.link = true ∧ d.indirect = false ∧ d.setsFlags = false ∧
      d.rdV = true ∧ d.rnV = false ∧ d.rmV = false := by
  simp [Diw.formBl, and_assoc]

theorem Diw.formBr_iff {d : Diw} :
    d.formBr = true ↔ d.readsFlags = false ∧ d.fused = false ∧ d.link = false ∧ d.indirect = true ∧ d.setsFlags = false ∧
      d.rdV = false ∧ d.rnV = true ∧ d.rmV = false := by
  simp [Diw.formBr, and_assoc]

theorem Diw.formBlr_iff {d : Diw} :
    d.formBlr = true ↔ d.readsFlags = false ∧ d.fused = false ∧ d.link = true ∧ d.indirect = true ∧ d.setsFlags = false ∧
      d.rdV = true ∧ d.rnV = true ∧ d.rmV = false := by
  simp [Diw.formBlr, and_assoc]

theorem Diw.formBCond_iff {d : Diw} :
    d.formBCond = true ↔ d.readsFlags = true ∧ d.fused = false ∧ d.link = false ∧ d.indirect = false ∧ d.setsFlags = false ∧
      d.rdV = false ∧ d.rnV = false ∧ d.rmV = false := by
  simp [Diw.formBCond, and_assoc]

theorem Diw.formCbCond_iff {d : Diw} :
    d.formCbCond = true ↔ d.readsFlags = true ∧ d.fused = true ∧ d.link = false ∧ d.indirect = false ∧ d.rdV = false := by
  simp [Diw.formCbCond, and_assoc]

end Sys2Proof

namespace Sys2Proof.Machine

/-! ## The valid records are the records of the instructions -/

/-- A register field with valid bit `v` and number `r` that R99 allows is that of a register operand. -/
theorem exists_operand {v : Bool} {r : Reg} (h : (v || r == 0) = true) : ∃ o : Option Reg, regV o = v ∧ regNum o = r := by
  cases v
  · simp only [Bool.false_or, beq_iff_eq] at h
    exact ⟨none, rfl, h.symm⟩
  · exact ⟨some r, rfl, rfl⟩

theorem regV_eq_false_iff {o : Option Reg} : regV o = false ↔ o = none :=
  Option.isSome_eq_false_iff.trans Option.isNone_iff_eq_none

theorem regV_eq_true_iff {o : Option Reg} : regV o = true ↔ ∃ r, o = some r := Option.isSome_iff_exists

theorem exists_instr_ofAlu {fn : BitVec 6} (h : fn.toNat ≤ 7) (s : Bool) (rd rn rm : Option Reg) (imm : Word) :
    ∃ i : Instr, i.toDiw = Diw.ofAlu .arith fn s rd rn rm imm := by
  have hfn : fn = 0 ∨ fn = 1 ∨ fn = 2 ∨ fn = 3 ∨ fn = 4 ∨ fn = 5 ∨ fn = 6 ∨ fn = 7 := by bv_omega
  obtain rfl | rfl | rfl | rfl | rfl | rfl | rfl | rfl := hfn
  · exact ⟨.add s rd rn rm imm, rfl⟩
  · exact ⟨.sub s rd rn rm imm, rfl⟩
  · exact ⟨.and s rd rn rm imm, rfl⟩
  · exact ⟨.orr s rd rn rm imm, rfl⟩
  · exact ⟨.eor s rd rn rm imm, rfl⟩
  · exact ⟨.lsl s rd rn rm imm, rfl⟩
  · exact ⟨.lsr s rd rn rm imm, rfl⟩
  · exact ⟨.asr s rd rn rm imm, rfl⟩

/-- The record of each form of R100 is that of the form's instruction. -/
theorem exists_instr_of_branchOk {fn : BitVec 6} {s readsFlags fused link indirect msigned : Bool} {cond : BitVec 4}
    {msize : BitVec 2} {rd rn rm rt : Option Reg} {imm : Word} (hcond : (readsFlags || cond == 0) = true) :
    let d : Diw := ⟨.branch, fn, s, readsFlags, cond, fused, link, indirect, msize, msigned, regV rd, regNum rd, regV rn,
      regNum rn, regV rm, regNum rm, regV rt, regNum rt, 0, imm⟩
    d.branchOk = true → ∃ i : Instr, i.toDiw = d := by
  intro d hd
  simp only [d, Diw.branchOk_iff, Diw.formB_iff, Diw.formBl_iff, Diw.formBr_iff, Diw.formBlr_iff, Diw.formBCond_iff,
    Diw.formCbCond_iff, regV_eq_false_iff, regV_eq_true_iff] at hd ⊢
  obtain ⟨rfl, rfl, rfl, rfl, -, hform⟩ := hd
  obtain hb | hbl | hbr | hblr | hbCond | hcbCond := hform
  · obtain ⟨rfl, rfl, rfl, rfl, rfl, rfl, rfl, rfl⟩ := hb
    obtain rfl : cond = 0 := by simpa using hcond
    exact ⟨.b imm, rfl⟩
  · obtain ⟨rfl, rfl, rfl, rfl, rfl, ⟨r, rfl⟩, rfl, rfl⟩ := hbl
    obtain rfl : cond = 0 := by simpa using hcond
    exact ⟨.bl r imm, rfl⟩
  · obtain ⟨rfl, rfl, rfl, rfl, rfl, rfl, ⟨r, rfl⟩, rfl⟩ := hbr
    obtain rfl : cond = 0 := by simpa using hcond
    exact ⟨.br r imm, rfl⟩
  · obtain ⟨rfl, rfl, rfl, rfl, rfl, ⟨r, rfl⟩, ⟨r', rfl⟩, rfl⟩ := hblr
    obtain rfl : cond = 0 := by simpa using hcond
    exact ⟨.blr r r' imm, rfl⟩
  · obtain ⟨rfl, rfl, rfl, rfl, rfl, rfl, rfl, rfl⟩ := hbCond
    exact ⟨.bCond cond imm, rfl⟩
  · obtain ⟨rfl, rfl, rfl, rfl, rfl⟩ := hcbCond
    exact ⟨.cbCond s cond rn rm imm, rfl⟩

theorem exists_instr_of_valid {d : Diw} (h : d.valid = true) : ∃ i : Instr, i.toDiw = d := by
  obtain ⟨cls, fn, s, readsFlags, cond, fused, link, indirect, msize, msigned, rdV, rd, rnV, rn, rmV, rm, rtV, rt,
    reserved, imm⟩ := d
  simp only [Diw.valid, Bool.and_eq_true, Diw.generalOk_iff, Diw.absentRegsZero] at h
  obtain ⟨⟨rfl, ⟨⟨⟨hrd, hrn⟩, hrm⟩, hrt⟩, hcond⟩, hclass⟩ := h
  obtain ⟨rd, rfl, rfl⟩ := exists_operand hrd
  obtain ⟨rn, rfl, rfl⟩ := exists_operand hrn
  obtain ⟨rm, rfl, rfl⟩ := exists_operand hrm
  obtain ⟨rt, rfl, rfl⟩ := exists_operand hrt
  cases cls with
  | arith =>
    simp only [Diw.classOk, Diw.arithOk_iff, regV_eq_false_iff] at hclass
    obtain ⟨hfn, rfl, rfl, rfl, rfl, rfl, rfl, rfl⟩ := hclass
    by_cases h8 : fn = 8
    · subst h8
      exact ⟨.csel s cond rd rn rm imm, rfl⟩
    · have hreads : (fn == 8) = false := beq_eq_false_iff_ne.2 h8
      simp only [hreads, Bool.false_or, beq_iff_eq] at hcond ⊢
      subst hcond
      exact exists_instr_ofAlu (by bv_omega) s rd rn rm imm
  | load =>
    simp only [Diw.classOk, Diw.loadOk_iff, regV_eq_false_iff, regV_eq_true_iff] at hclass
    obtain ⟨rfl, rfl, rfl, rfl, rfl, rfl, ⟨r, rfl⟩, rfl, rfl⟩ := hclass
    obtain rfl : cond = 0 := by simpa using hcond
    exact ⟨.ldr msize msigned rd r imm, rfl⟩
  | store =>
    simp only [Diw.classOk, Diw.storeOk_iff, regV_eq_false_iff, regV_eq_true_iff] at hclass
    obtain ⟨rfl, rfl, rfl, rfl, rfl, rfl, rfl, rfl, ⟨r, rfl⟩, rfl⟩ := hclass
    obtain rfl : cond = 0 := by simpa using hcond
    exact ⟨.str msize rt r imm, rfl⟩
  | branch => exact exists_instr_of_branchOk hcond hclass
  | mul =>
    simp only [Diw.classOk, Diw.mulOk_iff, regV_eq_false_iff] at hclass
    obtain ⟨rfl, rfl, rfl, rfl, rfl, rfl, rfl, rfl⟩ := hclass
    obtain rfl : cond = 0 := by simpa using hcond
    exact ⟨.mul s rd rn rm imm, rfl⟩
  | syscall =>
    simp only [Diw.classOk, Diw.syscallOk_iff] at hclass
    obtain ⟨rfl, rfl, rfl, rfl, rfl, rfl, rfl, rfl⟩ := hclass
    obtain rfl : cond = 0 := by simpa using hcond
    exact ⟨.svc rd rn rm rt imm, rfl⟩

theorem instr_wellFormed (i : Instr) : i.wellFormed = true := by
  cases i with
  | add => exact Laws.RecordValid.add ..
  | sub => exact Laws.RecordValid.sub ..
  | and => exact Laws.RecordValid.and ..
  | orr => exact Laws.RecordValid.orr ..
  | eor => exact Laws.RecordValid.eor ..
  | lsl => exact Laws.RecordValid.lsl ..
  | lsr => exact Laws.RecordValid.lsr ..
  | asr => exact Laws.RecordValid.asr ..
  | csel => exact Laws.RecordValid.csel ..
  | mul => exact Laws.RecordValid.mul ..
  | ldr => exact Laws.RecordValid.ldr ..
  | str => exact Laws.RecordValid.str ..
  | b => exact Laws.RecordValid.b ..
  | bl => exact Laws.RecordValid.bl ..
  | br => exact Laws.RecordValid.br ..
  | blr => exact Laws.RecordValid.blr ..
  | bCond => exact Laws.RecordValid.bCond ..
  | cbCond => exact Laws.RecordValid.cbCond ..
  | svc => exact Laws.RecordValid.svc ..

theorem valid_iff_exists_instr {d : Diw} : d.valid = true ↔ ∃ i : Instr, i.toDiw = d := by
  constructor
  · exact exists_instr_of_valid
  · rintro ⟨i, rfl⟩
    exact instr_wellFormed i

/-- A record selects the instruction it comes from. -/
theorem selectInstr_toDiw (i : Instr) : selectInstr i.toDiw = some i := by
  cases i
  case b | bl | br | blr | bCond => rfl
  case cbCond =>
    simp only [selectInstr, Instr.toDiw, branchInstr, optReg_regV]
    rfl
  case ldr | str | mul | svc => simp only [selectInstr, Instr.toDiw, Diw.ofAlu, optReg_regV]
  all_goals
    simp only [selectInstr, Instr.toDiw, Diw.ofAlu, arithInstr, optReg_regV]
    rfl

/-! ## The decoder and the encoder -/

/-- The decoder is the inverse of the encoder. -/
theorem decodeWord_eq_some_iff {w : BitVec 128} {i : Instr} : decodeWord w = some i ↔ encode i = w := by
  constructor
  · intro h
    unfold decodeWord at h
    rcases hd : unpackDiw w with _ | d
    · simp [hd] at h
    · simp only [hd] at h
      split_ifs at h with hvalid
      obtain ⟨j, rfl⟩ := valid_iff_exists_instr.1 hvalid
      obtain rfl : j = i := by rwa [selectInstr_toDiw, Option.some.injEq] at h
      exact unpackDiw_eq_some_iff_packDiw.1 hd
  · intro h
    have hd : unpackDiw w = some i.toDiw := unpackDiw_eq_some_iff_packDiw.2 h
    have hvalid : i.toDiw.valid = true := instr_wellFormed i
    simp only [decodeWord, hd, hvalid, if_true, selectInstr_toDiw]

theorem decodeBytes_leBytes (v : Nat) : decodeBytes (leBytes 16 v) = decodeWord (BitVec.ofNat 128 v) := by
  have hbits : BitVec.ofNat 128 (v % 256 ^ 16) = BitVec.ofNat 128 v :=
    BitVec.eq_of_toNat_eq (by simp)
  rw [decodeBytes, if_pos (leBytes_length 16 v), leNat_leBytes, hbits]

theorem decodeTableWord_eq (w : Nat) : decodeTableWord 128 w = decodeWord (BitVec.ofNat 128 w) := by
  have hbits : BitVec.ofNat 128 (w % 2 ^ 128) = BitVec.ofNat 128 w :=
    BitVec.eq_of_toNat_eq (by simp)
  rw [decodeTableWord, decodeBytes_leBytes, hbits]

theorem decodeTableWord_of_encode {w : Nat} {i : Instr} (h : encode i = BitVec.ofNat 128 w) :
    decodeTableWord 128 w = some i := by
  rw [decodeTableWord_eq, decodeWord_eq_some_iff, h]

/-! ## The obligations -/

/-- Settles O19. Every instruction is well formed, so the hypothesis is not needed. -/
theorem decodeOfEncode : Obligations.DecodeOfEncode := by
  intro i _
  have hword : decodeWord (encode i) = some i := decodeWord_eq_some_iff.2 rfl
  refine ⟨hword, ?_⟩
  rw [encodeBytes, decodeBytes_leBytes, BitVec.ofNat_toNat, BitVec.setWidth_eq, hword]

/-- Settles O20. -/
theorem encodeOfDecode : Obligations.EncodeOfDecode := fun _ _ => decodeWord_eq_some_iff.1

/-- Settles O21. -/
theorem decodeExactlyValid : Obligations.DecodeExactlyValid := by
  intro w
  constructor
  · intro i hi
    exact ⟨i.toDiw, unpackDiw_eq_some_iff_packDiw.2 (decodeWord_eq_some_iff.1 hi), instr_wellFormed i, rfl⟩
  · intro d hd hvalid
    obtain ⟨i, rfl⟩ := valid_iff_exists_instr.1 hvalid
    exact ⟨i, decodeWord_eq_some_iff.2 (unpackDiw_eq_some_iff_packDiw.1 hd)⟩

/-- Settles O23. Each word is the encoding of the instruction written beside it. -/
theorem writtenWordsDecode : Obligations.WrittenWordsDecode := by
  refine ⟨?_, ?_, ?_, ?_, ?_, ?_, ?_, ?_⟩ <;> exact decodeTableWord_of_encode (by decide)

end Sys2Proof.Machine
end

section
/-!
PROOFS. The opcode table (`spec/30_encoding.md` R103). Each mask keeps whole fields of the layout, so that a word
matches a row is a statement about the fields of its record: the column "fixed" of R103.
-/

namespace Sys2Proof.Machine

/-! ## No word matches two rows -/

theorem covers_iff {r : OpcodeRow} {w : BitVec 128} : r.covers w = true ↔ w &&& r.mask = r.pattern := beq_iff_eq

/-- Two rows differ in a bit that both masks keep. -/
theorem opcodeTable_apart : ∀ r₁ ∈ opcodeTable, ∀ r₂ ∈ opcodeTable,
    r₁.pattern &&& r₂.mask = r₂.pattern &&& r₁.mask → r₁ = r₂ := by
  decide

theorem covers_unique {w : BitVec 128} {r₁ r₂ : OpcodeRow} (h₁ : r₁ ∈ opcodeTable) (h₂ : r₂ ∈ opcodeTable)
    (hw₁ : r₁.covers w = true) (hw₂ : r₂.covers w = true) : r₁ = r₂ := by
  apply opcodeTable_apart r₁ h₁ r₂ h₂
  rw [← covers_iff.1 hw₁, ← covers_iff.1 hw₂, BitVec.and_assoc, BitVec.and_assoc, BitVec.and_comm r₁.mask]

/-! ## A row, field by field -/

/-- The fields that the row's mask keeps have the row's values in the record `d`. -/
def OpcodeRow.fixes (r : OpcodeRow) (d : Diw) : Prop :=
  d.cls.code &&& r.mask.extractLsb' 0 3 = r.pattern.extractLsb' 0 3 ∧
  d.fn &&& r.mask.extractLsb' 3 6 = r.pattern.extractLsb' 3 6 ∧
  (d.setsFlags && r.mask.getLsbD 9) = r.pattern.getLsbD 9 ∧
  (d.readsFlags && r.mask.getLsbD 10) = r.pattern.getLsbD 10 ∧
  d.cond &&& r.mask.extractLsb' 11 4 = r.pattern.extractLsb' 11 4 ∧
  (d.fused && r.mask.getLsbD 15) = r.pattern.getLsbD 15 ∧
  (d.link && r.mask.getLsbD 16) = r.pattern.getLsbD 16 ∧
  (d.indirect && r.mask.getLsbD 17) = r.pattern.getLsbD 17 ∧
  d.msize &&& r.mask.extractLsb' 18 2 = r.pattern.extractLsb' 18 2 ∧
  (d.msigned && r.mask.getLsbD 20) = r.pattern.getLsbD 20 ∧
  (d.rdV && r.mask.getLsbD 21) = r.pattern.getLsbD 21 ∧
  d.rd &&& r.mask.extractLsb' 22 5 = r.pattern.extractLsb' 22 5 ∧
  (d.rnV && r.mask.getLsbD 27) = r.pattern.getLsbD 27 ∧
  d.rn &&& r.mask.extractLsb' 28 5 = r.pattern.extractLsb' 28 5 ∧
  (d.rmV && r.mask.getLsbD 33) = r.pattern.getLsbD 33 ∧
  d.rm &&& r.mask.extractLsb' 34 5 = r.pattern.extractLsb' 34 5 ∧
  (d.rtV && r.mask.getLsbD 39) = r.pattern.getLsbD 39 ∧
  d.rt &&& r.mask.extractLsb' 40 5 = r.pattern.extractLsb' 40 5 ∧
  d.reserved &&& r.mask.extractLsb' 45 19 = r.pattern.extractLsb' 45 19 ∧
  d.imm &&& r.mask.extractLsb' 64 64 = r.pattern.extractLsb' 64 64

theorem covers_iff_fixes {r : OpcodeRow} {w : BitVec 128} {d : Diw} (h : HoldsRecord w d) :
    r.covers w = true ↔ r.fixes d := by
  rw [covers_iff, OpcodeRow.fixes, ← h.cls, ← h.fn, ← h.setsFlags, ← h.readsFlags, ← h.cond, ← h.fused, ← h.link,
    ← h.indirect, ← h.msize, ← h.msigned, ← h.rdV, ← h.rd, ← h.rnV, ← h.rn, ← h.rmV, ← h.rm, ← h.rtV, ← h.rt,
    ← h.reserved, ← h.imm]
  simp only [← BitVec.extractLsb'_and, ← BitVec.getLsbD_and]
  constructor
  · intro hw
    simp only [hw, and_self]
  · intro hw
    rw [← fields_join (w &&& r.mask)]
    simp only [hw, fields_join]

/-- For masks written as numerals. -/
theorem and_of_eq_allOnes {n : Nat} {m : BitVec n} (h : m = BitVec.allOnes n) (x : BitVec n) : x &&& m = x := by
  rw [h, BitVec.and_allOnes]

theorem code_eq_iff {c : OpClass} {k : BitVec 3} : c.code = k ↔ some c = clsOfCode k := by
  rw [eq_comm, ← clsOfCode_eq_some_iff, eq_comm]

/-- What a row fixes, together with R99's condition on absent registers, makes a record valid. -/
theorem valid_of_fixes {r : OpcodeRow} {d : Diw} (hr : r ∈ opcodeTable) (hd : r.fixes d)
    (habsent : d.absentRegsZero = true) : d.valid = true := by
  rw [Diw.valid, Bool.and_eq_true, Diw.generalOk_iff]
  simp only [opcodeTable, List.mem_cons, List.not_mem_nil, or_false] at hr
  rcases hr with rfl | rfl | rfl | rfl | rfl | rfl | rfl | rfl | rfl | rfl | rfl | rfl | rfl | rfl | rfl | rfl | rfl |
    rfl | rfl
  all_goals
    simp only [OpcodeRow.fixes, and_of_eq_allOnes, code_eq_iff, clsOfCode, BitVec.ofNat_eq_ofNat,
      BitVec.reduceExtractLsb', BitVec.reduceAllOnes, BitVec.reduceGetLsb, BitVec.reduceEq, BitVec.and_zero,
      Bool.and_true, Bool.and_false, ↓reduceIte, Option.some.injEq, true_and, and_true] at hd
    simp [hd, habsent, Diw.classOk, Diw.arithOk_iff, Diw.mulOk_iff, Diw.loadOk_iff, Diw.storeOk_iff, Diw.branchOk_iff,
      Diw.syscallOk_iff, Diw.formB_iff, Diw.formBl_iff, Diw.formBr_iff, Diw.formBlr_iff, Diw.formBCond_iff,
      Diw.formCbCond_iff]

/-- The row of an instruction. -/
def rowOf : Instr → OpcodeRow
  | .add .. => opcodeTable[0]
  | .sub .. => opcodeTable[1]
  | .and .. => opcodeTable[2]
  | .orr .. => opcodeTable[3]
  | .eor .. => opcodeTable[4]
  | .lsl .. => opcodeTable[5]
  | .lsr .. => opcodeTable[6]
  | .asr .. => opcodeTable[7]
  | .csel .. => opcodeTable[8]
  | .mul .. => opcodeTable[9]
  | .ldr .. => opcodeTable[10]
  | .str .. => opcodeTable[11]
  | .b .. => opcodeTable[12]
  | .bl .. => opcodeTable[13]
  | .br .. => opcodeTable[14]
  | .blr .. => opcodeTable[15]
  | .bCond .. => opcodeTable[16]
  | .cbCond .. => opcodeTable[17]
  | .svc .. => opcodeTable[18]

theorem rowOf_mem (i : Instr) : rowOf i ∈ opcodeTable := by
  cases i <;> exact List.getElem_mem _

theorem rowOf_mnemonic (i : Instr) : (rowOf i).mnemonic = mnemonicOf i := by
  cases i <;> rfl

theorem rowOf_fixes (i : Instr) : (rowOf i).fixes i.toDiw := by
  cases i
  all_goals
    rw [rowOf, OpcodeRow.fixes]
    simp [opcodeTable, Instr.toDiw, Diw.ofAlu, Diw.zero, OpClass.code, and_of_eq_allOnes, regV, regNum]

theorem rowOf_covers (i : Instr) : (rowOf i).covers (encode i) = true :=
  (covers_iff_fixes (holdsRecord_packDiw i.toDiw)).2 (rowOf_fixes i)

/-! ## The table against the decoder -/

theorem regNumbersZero_eq {w : BitVec 128} {d : Diw} (h : HoldsRecord w d) : regNumbersZero w = d.absentRegsZero := by
  rw [regNumbersZero, Diw.absentRegsZero, h.rdV, h.rd, h.rnV, h.rn, h.rmV, h.rm, h.rtV, h.rt]

/-- Every row fixes the class to one of the six. -/
theorem opcodeTable_class : ∀ r ∈ opcodeTable,
    r.mask.extractLsb' 0 3 = BitVec.allOnes 3 ∧ (clsOfCode (r.pattern.extractLsb' 0 3)).isSome = true := by
  decide

theorem exists_record_of_covers {r : OpcodeRow} {w : BitVec 128} (hr : r ∈ opcodeTable) (hw : r.covers w = true) :
    ∃ d, HoldsRecord w d := by
  obtain ⟨hmask, hclass⟩ := opcodeTable_class r hr
  have hbits : w.extractLsb' 0 3 = r.pattern.extractLsb' 0 3 := by
    rw [← covers_iff.1 hw, BitVec.extractLsb'_and, hmask, BitVec.and_allOnes]
  obtain ⟨c, hc⟩ := Option.isSome_iff_exists.1 hclass
  have hsome : ∃ d, unpackDiw w = some d := by simp [unpackDiw, hbits, hc]
  exact hsome.imp fun _ => unpackDiw_eq_some_iff.1

theorem decodes_iff_covers (w : BitVec 128) :
    (∃ i, decodeWord w = some i) ↔ (∃ r ∈ opcodeTable, r.covers w = true) ∧ regNumbersZero w = true := by
  constructor
  · rintro ⟨i, hi⟩
    obtain rfl := decodeWord_eq_some_iff.1 hi
    have hgeneral : i.toDiw.generalOk = true := (Bool.and_eq_true_iff.1 (instr_wellFormed i)).1
    obtain ⟨-, habsent, -⟩ := Diw.generalOk_iff.1 hgeneral
    exact ⟨⟨rowOf i, rowOf_mem i, rowOf_covers i⟩, (regNumbersZero_eq (holdsRecord_packDiw i.toDiw)).trans habsent⟩
  · rintro ⟨⟨r, hr, hw⟩, hzero⟩
    obtain ⟨d, hd⟩ := exists_record_of_covers hr hw
    have hvalid : d.valid = true :=
      valid_of_fixes hr ((covers_iff_fixes hd).1 hw) ((regNumbersZero_eq hd).symm.trans hzero)
    obtain ⟨i, rfl⟩ := exists_instr_of_valid hvalid
    exact ⟨i, decodeWord_eq_some_iff.2 hd.packDiw_eq⟩

/-- Settles O22. -/
theorem decodeMatchesOpcodeTable : Obligations.DecodeMatchesOpcodeTable := by
  refine ⟨fun w r₁ r₂ => covers_unique, decodes_iff_covers, ?_⟩
  intro w i r hi hr hw
  obtain rfl := decodeWord_eq_some_iff.1 hi
  rw [covers_unique hr (rowOf_mem i) hw (rowOf_covers i), rowOf_mnemonic]

end Sys2Proof.Machine
end

section
/-!
PROOFS. Classes `ARITH` and `MUL` (`spec/40_operation_classes.md` R121 to R130, R140 to R144). Each instruction ends in the
one shared operation `State.finishAlu`, whose effect is known; what is left of each is the value of its result and flags
as integers.
-/

namespace Sys2Proof.Machine

/-! ## The flags of `AddFlags` and of a bare result -/

theorem addFlags_zero_fst (a b : Word) : (addFlags a b 0).1 = a + b := by
  apply BitVec.eq_of_toNat_eq
  simp [addFlags]

/-- `a + not(b) + 1` is `a - b` (R122). -/
theorem addFlags_not_one_fst (a b : Word) : (addFlags a (~~~b) 1).1 = a - b := by
  apply BitVec.eq_of_toNat_eq
  simp only [addFlags, BitVec.toNat_ofNat, BitVec.toNat_not, BitVec.toNat_sub]
  omega

/-- The four flags of `AddFlags`, each as integers give it (R144). -/
theorem addFlags_flags (p q : Word) (cin : Nat) :
    flagN (addFlags p q cin).2 = (addFlags p q cin).1.msb ∧
      (flagZ (addFlags p q cin).2 = true ↔ (addFlags p q cin).1 = 0) ∧
      (flagC (addFlags p q cin).2 = true ↔ 2 ^ 64 ≤ p.toNat + q.toNat + cin) ∧
      (flagV (addFlags p q cin).2 = true ↔ p.toInt + q.toInt + cin ≠ (addFlags p q cin).1.toInt) := by
  simp only [addFlags, flagN_packFlags, flagZ_packFlags, flagC_packFlags, flagV_packFlags, decide_eq_true_eq, beq_iff_eq,
    iff_self, and_true]
  exact (BitVec.msb_eq_getLsbD_last _).symm

theorem toInt_not (b : Word) : (~~~b).toInt = -1 - b.toInt := by
  have hlt := b.isLt
  simp only [BitVec.toInt_eq_toNat_cond, BitVec.toNat_not]
  split_ifs <;> omega

/-- The flags of `AddFlags(a, not(b), 1)` are those of the comparison of `a` with `b`: the carry is the missing borrow, and
the signed sum is the signed difference (R122, R142). -/
theorem compareFlags_addFlags (a b : Word) : compareFlags a b (addFlags a (~~~b) 1).2 := by
  obtain ⟨hn, hz, hc, hv⟩ := addFlags_flags a (~~~b) 1
  rw [addFlags_not_one_fst] at hn hz hv
  have hnot : (~~~b).toInt = -1 - b.toInt := toInt_not b
  have hlt := b.isLt
  refine ⟨hn, hz.trans ?_, hc.trans ?_, hv.trans ?_⟩
  · exact sub_eq_zero
  · rw [BitVec.toNat_not]
    omega
  · rw [hnot]
    push_cast
    ring_nf

/-- `nz(res)` says N and Z of its result and clears C and V (R140). -/
theorem nzOnly_nzFlags (v : Word) : nzOnly v (nzFlags v) := by
  simp only [nzOnly, nzFlags, flagN_packFlags, flagZ_packFlags, flagC_packFlags, flagV_packFlags, beq_iff_eq, and_self,
    and_true, iff_self]
  exact (BitVec.msb_eq_getLsbD_last _).symm

/-! ## The shared end -/

/-- An instruction whose meaning on a running core is the shared end of the `ARITH` and `MUL` rules has the effect of that
end. -/
theorem exec_alu_effect {s : State} (hs : s.status = .running) {i : Instr} {rd : Option Reg} {sets : Bool}
    (value : State → Word × Nzcv)
    (hi : exec i s = .next (s.whileRunning fun st => st.finishAlu rd sets (value st))) :
    exec i s = .next (s.finishAlu rd sets (value s)) ∧
      aluEffect s (s.finishAlu rd sets (value s)) rd sets (value s).1 (value s).2 := by
  rw [hi, State.whileRunning_running hs]
  exact ⟨rfl, finishAlu_effect s rd sets (value s)⟩

/-- The same for a result whose flags are `nz(result)`. -/
theorem exec_nz_effect {s : State} (hs : s.status = .running) {i : Instr} {rd : Option Reg} {sets : Bool}
    (value : State → Word)
    (hi : exec i s = .next (s.whileRunning fun st => st.finishAlu rd sets (withNz (value st)))) :
    exec i s = .next (s.finishAlu rd sets (withNz (value s))) ∧
      aluEffect s (s.finishAlu rd sets (withNz (value s))) rd sets (value s) (nzFlags (value s)) ∧
      nzOnly (value s) (nzFlags (value s)) := by
  obtain ⟨he, heffect⟩ := exec_alu_effect hs (fun st => withNz (value st)) hi
  exact ⟨he, heffect, nzOnly_nzFlags _⟩

/-! ## The obligations -/

/-- Settles O1. -/
theorem addEffect : Obligations.AddEffect := by
  intro sets rd rn rm imm s hs a b
  obtain ⟨he, heffect⟩ := exec_alu_effect hs (i := .add sets rd rn rm imm)
    (fun st => refAdd (operandA st rn) (operandB st rm imm)) rfl
  have hsum : (refAdd a b).1 = a + b := addFlags_zero_fst a b
  obtain ⟨hn, hz, hc, hv⟩ := addFlags_flags a b 0
  rw [addFlags_zero_fst] at hn hz hv
  exact ⟨_, _, he, hsum ▸ heffect, hn, hz, hc, hv.trans (by rw [Nat.cast_zero, add_zero])⟩

/-- Settles O2. -/
theorem subEffect : Obligations.SubEffect := by
  intro sets rd rn rm imm s hs a b
  obtain ⟨he, heffect⟩ := exec_alu_effect hs (i := .sub sets rd rn rm imm)
    (fun st => refSub (operandA st rn) (operandB st rm imm)) rfl
  have hdifference : (refSub a b).1 = a - b := addFlags_not_one_fst a b
  exact ⟨_, _, he, hdifference ▸ heffect, compareFlags_addFlags a b⟩

/-- Settles O3. -/
theorem logicEffect : Obligations.LogicEffect := by
  intro sets rd rn rm imm s hs a b
  exact ⟨
    ⟨_, _, exec_nz_effect hs (i := .and sets rd rn rm imm) (fun st => operandA st rn &&& operandB st rm imm) rfl⟩,
    ⟨_, _, exec_nz_effect hs (i := .orr sets rd rn rm imm) (fun st => operandA st rn ||| operandB st rm imm) rfl⟩,
    ⟨_, _, exec_nz_effect hs (i := .eor sets rd rn rm imm) (fun st => operandA st rn ^^^ operandB st rm imm) rfl⟩⟩

/-- A floor quotient of a signed 64-bit number by a positive number is one again. -/
theorem toInt_ofInt_ediv (a : Word) {d : Int} (hd : 0 < d) : (BitVec.ofInt 64 (a.toInt / d)).toInt = a.toInt / d := by
  have hlow : -2 ^ 63 ≤ a.toInt := BitVec.le_toInt a
  have hhigh : a.toInt < 2 ^ 63 := BitVec.toInt_lt
  have h1 : -2 ^ 63 ≤ a.toInt / d := by
    rw [Int.le_ediv_iff_mul_le hd]
    nlinarith
  have h2 : a.toInt / d < 2 ^ 63 := by
    rw [Int.ediv_lt_iff_lt_mul hd]
    nlinarith
  rw [BitVec.toInt_ofInt]
  exact Int.bmod_eq_of_le (by norm_num; omega) (by norm_num; omega)

/-- Settles O4. -/
theorem shiftEffect : Obligations.ShiftEffect := by
  intro sets rd rn rm imm s hs a n
  have hlsl := exec_nz_effect hs (i := .lsl sets rd rn rm imm)
    (fun st => BitVec.ofNat 64 ((operandA st rn).toNat * 2 ^ shiftAmount (operandB st rm imm))) rfl
  have hlsr := exec_nz_effect hs (i := .lsr sets rd rn rm imm)
    (fun st => BitVec.ofNat 64 ((operandA st rn).toNat / 2 ^ shiftAmount (operandB st rm imm))) rfl
  have hasr := exec_nz_effect hs (i := .asr sets rd rn rm imm)
    (fun st => BitVec.ofInt 64 ((operandA st rn).toInt / 2 ^ shiftAmount (operandB st rm imm))) rfl
  refine ⟨⟨_, _, _, hlsl.1, hlsl.2.1, hlsl.2.2, ?_⟩, ⟨_, _, _, hlsr.1, hlsr.2.1, hlsr.2.2, ?_⟩,
    ⟨_, _, _, hasr.1, hasr.2.1, hasr.2.2, ?_⟩⟩
  · exact BitVec.toNat_ofNat _ _
  · rw [BitVec.toNat_ofNat]
    exact Nat.mod_eq_of_lt ((Nat.div_le_self _ _).trans_lt a.isLt)
  · exact toInt_ofInt_ediv a (by positivity)

/-- Settles O5. -/
theorem cselEffect : Obligations.CselEffect := by
  intro sets cond rd rn rm imm s hs v
  exact ⟨_, _, exec_nz_effect hs (i := .csel sets cond rd rn rm imm)
    (fun st => if refCondHolds cond st.flags = true then operandA st rn else operandB st rm imm) rfl⟩

/-- Settles O6. The product of the unsigned readings and the product of the signed readings differ by a multiple of
`2^64`. -/
theorem mulEffect : Obligations.MulEffect := by
  intro sets rd rn rm imm s hs a b
  obtain ⟨he, heffect, hnz⟩ := exec_nz_effect hs (i := .mul sets rd rn rm imm)
    (fun st => BitVec.ofNat 64 ((operandA st rn).toNat * (operandB st rm imm).toNat)) rfl
  refine ⟨_, _, _, he, heffect, hnz, BitVec.toNat_ofNat _ _, ?_⟩
  have hunsigned : BitVec.ofNat 64 (a.toNat * b.toNat) = a * b := by rw [BitVec.ofNat_mul]; simp
  have hsigned : BitVec.ofInt 64 (a.toInt * b.toInt) = a * b := by rw [BitVec.ofInt_mul]; simp
  exact hunsigned.trans hsigned.symm

/-- After a comparison, signed `p < q` is N different from V (R141). -/
theorem compareFlags_signed {p q : Word} {f : Nzcv} (h : compareFlags p q f) : flagN f ≠ flagV f ↔ p.toInt < q.toInt := by
  obtain ⟨hn, -, -, hv⟩ := h
  have hpl : -2 ^ 63 ≤ p.toInt := BitVec.le_toInt p
  have hph : p.toInt < 2 ^ 63 := BitVec.toInt_lt
  have hql : -2 ^ 63 ≤ q.toInt := BitVec.le_toInt q
  have hqh : q.toInt < 2 ^ 63 := BitVec.toInt_lt
  have hmod : (p - q).toInt = (p.toInt - q.toInt).bmod (2 ^ 64) := BitVec.toInt_sub
  have hwrap : (p - q).toInt = p.toInt - q.toInt ∨ (p - q).toInt = p.toInt - q.toInt - 2 ^ 64 ∨
      (p - q).toInt = p.toInt - q.toInt + 2 ^ 64 := by
    rw [hmod, Int.bmod]
    split_ifs <;> omega
  have hneg : (p - q).msb = true ↔ (p - q).toInt < 0 := by rw [BitVec.msb_eq_toInt, decide_eq_true_eq]
  have hl : -2 ^ 63 ≤ (p - q).toInt := BitVec.le_toInt _
  have hh : (p - q).toInt < 2 ^ 63 := BitVec.toInt_lt
  rw [ne_eq, Bool.eq_iff_iff, hn, hneg, hv]
  omega

/-- Settles O7. The table is the definition; after a comparison each code is read off its four flags. -/
theorem conditionCodes : Obligations.ConditionCodes := by
  refine ⟨fun f => ⟨rfl, rfl, rfl, rfl, rfl, rfl, rfl, rfl, rfl, rfl, rfl, rfl, rfl, rfl, rfl, rfl⟩, ?_⟩
  intro p q f
  have hcompare : compareFlags p q f := compareFlags_addFlags p q
  have hsigned := compareFlags_signed hcompare
  obtain ⟨-, hz, hc, -⟩ := hcompare
  have hunsignedZ : flagZ f = true ↔ p.toNat = q.toNat := hz.trans BitVec.toNat_inj.symm
  have hsignedZ : flagZ f = true ↔ p.toInt = q.toInt := hz.trans BitVec.toInt_inj.symm
  refine ⟨rfl, hz, hc, ?_, ?_, ?_, ?_, ?_⟩
  · show (flagC f && !flagZ f) = true ↔ _
    rw [Bool.and_eq_true, Bool.not_eq_true', ← Bool.not_eq_true, hc, hunsignedZ]
    omega
  · show (flagN f == flagV f) = true ↔ _
    rw [beq_iff_eq, ← not_iff_not, ← ne_eq, hsigned, not_le]
  · show (flagN f != flagV f) = true ↔ _
    rw [bne_iff_ne, hsigned]
  · show (!flagZ f && flagN f == flagV f) = true ↔ _
    rw [Bool.and_eq_true, Bool.not_eq_true', ← Bool.not_eq_true, hsignedZ, beq_iff_eq, ← not_ne_iff (a := flagN f), hsigned]
    omega
  · show (flagZ f || flagN f != flagV f) = true ↔ _
    rw [Bool.or_eq_true, bne_iff_ne, hsignedZ, hsigned]
    omega

end Sys2Proof.Machine
end

section
/-!
PROOFS. Classes `LOAD` and `STORE` (`spec/40_operation_classes.md` R131, R132). An access in bounds is the access itself,
which changes the data caches and main memory alone, and then a shared end: commit and advance. What the access does
to the data view is known of `MemRead` and `MemWrite` (`spec/20_memory.md` R66, R67, R72).
-/

namespace Sys2Proof.Machine

/-! ## The meaning of an access, in bounds and out of bounds -/

section
variable {s : State} {msize : BitVec 2} {rn : Reg} {imm : Word}

theorem inBounds_iff (s : State) (addr : Word) (n : Nat) : s.inBounds addr n = true ↔ addr.toNat + n ≤ s.cfg.memSize :=
  decide_eq_true_iff

theorem exec_ldr_inBounds (hs : s.status = .running) (msigned : Bool) (rd : Option Reg)
    (hin : s.inBounds (effectiveAddr (s.reg rn) imm) (accessBytes msize) = true) :
    exec (.ldr msize msigned rd rn imm) s =
      .next (((s.loadData (effectiveAddr (s.reg rn) imm) msize msigned).2.2.commit rd
        (s.loadData (effectiveAddr (s.reg rn) imm) msize msigned).1 false 0).advance s.pc) := by
  show Host.Outcome.next (s.whileRunning _) = _
  rw [State.whileRunning_running hs]
  exact congrArg _ (if_pos hin)

theorem exec_str_inBounds (hs : s.status = .running) (rt : Option Reg)
    (hin : s.inBounds (effectiveAddr (s.reg rn) imm) (accessBytes msize) = true) :
    exec (.str msize rt rn imm) s =
      .next (((s.storeData (effectiveAddr (s.reg rn) imm) msize (operandC s rt)).2.commit none 0 false 0).advance s.pc) := by
  show Host.Outcome.next (s.whileRunning _) = _
  rw [State.whileRunning_running hs]
  exact congrArg _ (if_pos hin)

theorem exec_ldr_outOfBounds (hs : s.status = .running) (msigned : Bool) (rd : Option Reg)
    (hout : ¬s.inBounds (effectiveAddr (s.reg rn) imm) (accessBytes msize) = true) :
    exec (.ldr msize msigned rd rn imm) s =
      .next (s.raise (.dataOutOfBounds (effectiveAddr (s.reg rn) imm) s.stats.cycles)) := by
  show Host.Outcome.next (s.whileRunning _) = _
  rw [State.whileRunning_running hs]
  exact congrArg _ (if_neg hout)

theorem exec_str_outOfBounds (hs : s.status = .running) (rt : Option Reg)
    (hout : ¬s.inBounds (effectiveAddr (s.reg rn) imm) (accessBytes msize) = true) :
    exec (.str msize rt rn imm) s =
      .next (s.raise (.dataOutOfBounds (effectiveAddr (s.reg rn) imm) s.stats.cycles)) := by
  show Host.Outcome.next (s.whileRunning _) = _
  rw [State.whileRunning_running hs]
  exact congrArg _ (if_neg hout)

end

/-! ## The shared end of an access -/

section
variable {s d : State}

/-- After an access that changed only data caches and main memory, commit and advance write the destination, count the
retirement and go on at `pc + IB`. -/
theorem finishAccess_effect (h : onlyDataChanged s d) (rd : Option Reg) (v : Word) :
    registersAfter s ((d.commit rd v false 0).advance s.pc) rd v ∧
      ((d.commit rd v false 0).advance s.pc).pc = s.pc + s.ib ∧
      sameBesideData s ((d.commit rd v false 0).advance s.pc) := by
  have hd : d = _ := h
  refine ⟨fun r => ?_, ?_, ?_⟩
  · rw [show s.reg r = d.reg r by rw [hd]; rfl, ← State.commit_reg d rd v false 0 r]
    rfl
  · rw [State.pc_advance, State.ib_eq_of_cfg (t := d.commit rd v false 0) (s := s) (by rw [State.commit_cfg, hd])]
  · unfold sameBesideData
    simp only [State.advance_cfg, State.advance_status, State.advance_l1i, State.advance_pred, State.advance_flags,
      State.advance_stats, State.commit_cfg, State.commit_status, State.commit_l1i, State.commit_pred, State.commit_flags,
      State.commit_stats]
    rw [hd]
    simp

/-- The end of an access leaves the view that the access left. -/
theorem finishAccess_showsView {V : Nat → Byte} (h : d.showsView V) (rd : Option Reg) (v : Word) (pc : Word) :
    ((d.commit rd v false 0).advance pc).showsView V :=
  showsView_congr (by simp) (by simp) (by simp) (by simp) (by simp) h

end

/-! ## Values -/

/-- The number a load answers, read from the view (R61, R131). -/
theorem extendBytes_viewBytes (s : State) (msigned : Bool) {n : Nat} (hn : 1 ≤ n) (addr : Nat) :
    extendBytes msigned n (viewBytes s.dview addr n) =
      if msigned = true then (BitVec.ofNat (8 * n) (s.viewNat addr n)).signExtend 64
      else (BitVec.ofNat (8 * n) (s.viewNat addr n)).setWidth 64 := by
  have hnum : leNat (viewBytes s.dview addr n) = s.viewNat addr n := rfl
  cases msigned with
  | false => simp [extendBytes, hnum, zext_eq]
  | true => simp [extendBytes, hnum, sext_eq (show 1 ≤ 8 * n by omega)]

/-- The bytes of a number, least significant first, are its base-256 digits. -/
theorem leBytes_getD (n v i : Nat) (hi : i < n) : (leBytes n v).getD i 0 = BitVec.ofNat 8 (v / 256 ^ i) := by
  induction n generalizing v i with
  | zero => omega
  | succ n ih =>
    cases i with
    | zero => simp [leBytes]
    | succ i => rw [leBytes, List.getD_cons_succ, ih _ _ (by omega), Nat.div_div_eq_div_mul, Nat.pow_succ']

theorem byteOf_eq (v : Word) (i : Nat) : byteOf v i = BitVec.ofNat 8 (v.toNat / 256 ^ i) := by
  apply BitVec.eq_of_toNat_eq
  rw [byteOf, BitVec.extractLsb'_toNat, BitVec.toNat_ofNat, Nat.shiftRight_eq_div_pow, Nat.pow_mul]

theorem viewWrite_leBytes_inside (V : Nat → Byte) (a n : Nat) (v : Word) {i : Nat} (hi : i < n) :
    viewWrite V a (leBytes n v.toNat) (a + i) = byteOf v i := by
  rw [viewWrite, leBytes_length, if_pos (by omega), Nat.add_sub_cancel_left, leBytes_getD n _ i hi, byteOf_eq]

theorem viewWrite_outside (V : Nat → Byte) {a x : Nat} {bytes : List Byte} (h : outside a bytes.length x) :
    viewWrite V a bytes x = V x := by
  rw [viewWrite, if_neg]
  unfold outside at h
  omega

/-! ## The obligations -/

/-- Settles O9. -/
theorem loadValue : Obligations.LoadValue := by
  intro msize msigned rd rn imm s hs hvalid hcoherent addr n hin v
  obtain ⟨hread, hview, hbytes, -⟩ := memRead_spec hvalid hcoherent addr n
  have honly : onlyDataChanged s (s.loadData addr msize msigned).2.2 := loadData_onlyData s addr msize msigned
  obtain ⟨hregs, hpc, hbeside⟩ := finishAccess_effect honly rd (s.loadData addr msize msigned).1
  have hvalue : (s.loadData addr msize msigned).1 =
      if msigned = true then v.signExtend 64 else v.setWidth 64 := by
    show extendBytes msigned n (s.memRead addr n).bytes = _
    rw [hbytes]
    exact extendBytes_viewBytes s msigned Nat.one_le_two_pow addr.toNat
  have hshown : (s.loadData addr msize msigned).2.2.showsView s.dview :=
    ⟨by rwa [show (s.loadData addr msize msigned).2.2.cfg = s.cfg by rw [honly]], hread, hview⟩
  obtain ⟨-, hcoherent', hview'⟩ := finishAccess_showsView hshown rd (s.loadData addr msize msigned).1 s.pc
  exact ⟨_, exec_ldr_inBounds hs msigned rd ((inBounds_iff s addr n).2 hin), hvalue ▸ hregs, hpc, hbeside, congrFun hview',
    hcoherent'⟩

/-- Settles O10. (`storeBytes` is the name of an operation of the model.) -/
theorem strStoresBytes : Obligations.StoreBytes := by
  intro msize rt rn imm s hs hvalid hcoherent addr n hin
  obtain ⟨hwritten, hview, -⟩ := memWrite_spec hvalid hcoherent addr n (operandC s rt)
  have honly : onlyDataChanged s (s.storeData addr msize (operandC s rt)).2 := storeData_onlyData s addr msize _
  obtain ⟨hregs, hpc, hbeside⟩ := finishAccess_effect honly none 0
  have hshown : (s.storeData addr msize (operandC s rt)).2.showsView
      (viewWrite s.dview addr.toNat (leBytes n (operandC s rt).toNat)) :=
    ⟨by rwa [show (s.storeData addr msize (operandC s rt)).2.cfg = s.cfg by rw [honly]], hwritten, hview⟩
  obtain ⟨-, hcoherent', hview'⟩ := finishAccess_showsView hshown none 0 s.pc
  refine ⟨_, exec_str_inBounds hs rt ((inBounds_iff s addr n).2 hin), fun r => by simpa using hregs r, hpc, hbeside,
    fun i hi => ?_, fun a ha => ?_, hcoherent'⟩
  · rw [hview', viewWrite_leBytes_inside _ _ _ _ hi]
  · rw [hview', viewWrite_outside _ (by rwa [leBytes_length])]

/-- Settles O8. -/
theorem dataAccessCompletes : Obligations.DataAccessCompletes := by
  constructor
  · intro msize msigned rd rn imm s hs hin
    obtain ⟨hregs, hpc, hbeside⟩ := finishAccess_effect (loadData_onlyData s (effectiveAddr (s.reg rn) imm) msize msigned) rd
      (s.loadData (effectiveAddr (s.reg rn) imm) msize msigned).1
    exact ⟨_, exec_ldr_inBounds hs msigned rd ((inBounds_iff s _ _).2 hin), fun r hr => (hregs r).trans (if_neg hr), hpc,
      hbeside⟩
  · intro msize rt rn imm s hs hin
    obtain ⟨hregs, hpc, hbeside⟩ :=
      finishAccess_effect (storeData_onlyData s (effectiveAddr (s.reg rn) imm) msize (operandC s rt)) none 0
    exact ⟨_, exec_str_inBounds hs rt ((inBounds_iff s _ _).2 hin), fun r => by simpa using hregs r, hpc, hbeside⟩

/-- Settles O11. -/
theorem dataAccessOutOfBounds : Obligations.DataAccessOutOfBounds := by
  constructor
  · intro msize msigned rd rn imm s hs addr hout
    exact exec_ldr_outOfBounds hs msigned rd fun hin => absurd ((inBounds_iff s _ _).1 hin) (Nat.not_le.2 hout)
  · intro msize rt rn imm s hs addr hout
    exact exec_str_outOfBounds hs rt fun hin => absurd ((inBounds_iff s _ _).1 hin) (Nat.not_le.2 hout)

end Sys2Proof.Machine
end

section
/-!
PROOFS. Classes `BRANCH` and `SYSCALL` (`spec/40_operation_classes.md` R133 to R139). Every branch ends in the one shared
operation `State.finishBranch`, whose effect is known; what is left of each form is its outcome.
-/

namespace Sys2Proof.Machine

/-- A branch whose meaning on a running core is the shared end of the `BRANCH` rules has the effect of that end. -/
theorem exec_branch_effect {s : State} (hs : s.status = .running) {i : Instr} {rd : Option Reg} {sets : Bool}
    (outcome : State → BranchOutcome) (flags : State → Nzcv)
    (hi : exec i s = .next (s.whileRunning fun st => st.finishBranch (outcome st) rd sets (flags st))) :
    exec i s = .next (s.finishBranch (outcome s) rd sets (flags s)) ∧
      branchEffect s (s.finishBranch (outcome s) rd sets (flags s)) rd sets (flags s) (outcome s).taken (outcome s).target
        (outcome s).next := by
  rw [hi, State.whileRunning_running hs]
  exact ⟨rfl, finishBranch_effect s (outcome s) rd sets (flags s)⟩

/-- Settles O12. -/
theorem directBranchEffect : Obligations.DirectBranchEffect :=
  ⟨fun imm _ hs => ⟨_, exec_branch_effect hs (i := .b imm)
      (fun st => branchOutcome true (st.pc + imm) (st.pc + st.ib)) (fun _ => 0) rfl⟩,
    fun rd imm _ hs => ⟨_, exec_branch_effect hs (i := .bl rd imm)
      (fun st => branchOutcome true (st.pc + imm) (st.pc + st.ib)) (fun _ => 0) rfl⟩⟩

/-- Settles O13. The outcome is built from the state before the link write. -/
theorem indirectBranchEffect : Obligations.IndirectBranchEffect :=
  ⟨fun rn imm _ hs => ⟨_, exec_branch_effect hs (i := .br rn imm)
      (fun st => branchOutcome true (st.reg rn) (st.pc + st.ib)) (fun _ => 0) rfl⟩,
    fun rd rn imm _ hs => ⟨_, exec_branch_effect hs (i := .blr rd rn imm)
      (fun st => branchOutcome true (st.reg rn) (st.pc + st.ib)) (fun _ => 0) rfl⟩⟩

/-- Settles O14. -/
theorem conditionalBranchEffect : Obligations.ConditionalBranchEffect := by
  intro cond imm s hs taken
  exact ⟨_, exec_branch_effect hs (i := .bCond cond imm)
    (fun st => branchOutcome (refCondHolds cond st.flags) (st.pc + imm) (st.pc + st.ib)) (fun _ => 0) rfl⟩

/-- Settles O15. -/
theorem compareBranchEffect : Obligations.CompareBranchEffect := by
  intro sets cond rn rm imm s hs
  exact ⟨_, _, compareFlags_addFlags (s.source rn) (s.source rm), exec_branch_effect hs (i := .cbCond sets cond rn rm imm)
    (fun st => branchOutcome (refCondHolds cond (refCmpFlags (st.source rn) (st.source rm))) (st.pc + imm) (st.pc + st.ib))
    (fun st => refCmpFlags (st.source rn) (st.source rm)) rfl⟩

/-! ## `SVC` -/

section
variable {s : State} {rn : Option Reg}

theorem exec_svc_exit (hs : s.status = .running) (hexit : s.source rn = 93) (rd rm rt : Option Reg) (imm : Word) :
    exec (.svc rd rn rm rt imm) s = .next (s.halt (s.source rm)) := by
  have hsys : ref.sys (operandA s rn) (operandBNoImm s rm) (operandC s rt) = .exit (s.source rm) := if_pos hexit
  show Host.Outcome.next (s.whileRunning _) = _
  rw [State.whileRunning_running hs]
  simp only [hsys]

theorem exec_svc_return (hs : s.status = .running) (hreturn : s.source rn ≠ 93) (rd rm rt : Option Reg) (imm : Word) :
    exec (.svc rd rn rm rt imm) s = .next (s.finishAlu rd false (0, 0)) := by
  have hsys : ref.sys (operandA s rn) (operandBNoImm s rm) (operandC s rt) = .ret 0 := if_neg hreturn
  show Host.Outcome.next (s.whileRunning _) = _
  rw [State.whileRunning_running hs]
  simp only [hsys]
  rfl

end

/-- Settles O16. -/
theorem syscallExit : Obligations.SyscallExit := fun rd _ rm rt imm _ hs hexit => exec_svc_exit hs hexit rd rm rt imm

/-- Settles O17. A call that returns ends like an `ARITH` instruction with result 0. -/
theorem syscallReturn : Obligations.SyscallReturn := fun rd _ rm rt imm s hs hreturn =>
  ⟨_, exec_svc_return hs hreturn rd rm rt imm, finishAlu_effect s rd false (0, 0)⟩

end Sys2Proof.Machine
end

section
/-!
PROOFS. The oldest record in flight and the program counter (`spec/10_state.md` R24, R33). A record that enters the pipeline
first in its group stands in lane 0 of its latch. Each stage keeps the address of the oldest such record, whether the stage
moves it on, holds it or drops what is younger; so the address survives the whole tick, and after writeback it is the
program counter.
-/

namespace Sys2Proof.Machine

/-! ## Lane loops decided in lane 0 -/

/-- A loop every turn of which leaves the state and goes on leaves the state. -/
theorem runLanes_of_go {σ : Type} {f : Nat → σ → LaneStep σ} {s : σ} (h : ∀ lane, f lane s = .go s) (lanes : List Nat) :
    runLanes f lanes s = s := by
  induction lanes with
  | nil => rfl
  | cons lane rest ih => rw [runLanes, h lane]; exact ih

/-- What lane 0 makes true, and every later lane keeps, holds at the end of the loop. -/
theorem runLanes_lane0 {σ : Type} {f : Nat → σ → LaneStep σ} {n : Nat} (hn : 1 ≤ n) {s : σ} (P Q : σ → Prop)
    (hPQ : ∀ t, P t → Q t) (hfirst : (f 0 s).meets P Q) (hlater : ∀ k, 1 ≤ k → ∀ t, P t → (f k t).meets P Q) :
    Q (runLanes f (List.range n) s) := by
  refine runLanes_range (fun k t => (k = 0 → t = s) ∧ (1 ≤ k → P t)) Q (fun k _ t ht => ?_) (fun t ht => hPQ t (ht.2 hn))
    ⟨fun _ => rfl, fun h => absurd h (by omega)⟩
  have hturn : (f k t).meets P Q := by
    rcases Nat.eq_zero_or_pos k with rfl | hk
    · rwa [ht.1 rfl]
    · exact hlater k hk t (ht.2 hk)
  exact hturn.mono (fun u hu => ⟨fun h => absurd h (Nat.succ_ne_zero k), fun _ => hu⟩) fun _ => id

/-- Where the later lanes have nothing to do, the loop is its turn in lane 0. -/
theorem runLanes_eq_lane0 {σ : Type} {f : Nat → σ → LaneStep σ} {n : Nat} (hn : 1 ≤ n) {s : σ}
    (hlater : ∀ k, 1 ≤ k → f k (f 0 s).val = .go (f 0 s).val) : runLanes f (List.range n) s = (f 0 s).val := by
  refine runLanes_lane0 hn (fun t => t = (f 0 s).val) (fun t => t = (f 0 s).val) (fun _ => id) ?_ fun k hk t ht => ?_
  · cases f 0 s <;> rfl
  · rw [ht, hlater k hk]
    rfl

theorem slotAt_set_zero {l : Latch} {r : Slot} (h : 1 ≤ l.length) : slotAt (l.set 0 r) 0 = r := slotAt_set_self h

theorem slotAt_zero_set {l : Latch} {k : Nat} (hk : 1 ≤ k) (r : Slot) : slotAt (l.set k r) 0 = slotAt l 0 :=
  slotAt_set_of_ne (by omega)

/-! ## A stage whose latch is empty -/

section
variable {s : State}

theorem writebackStep_of_empty (h : anyValid s.memwb = false) : writebackStep s = s :=
  runLanes_of_go (fun lane => by simp [writebackLane, anyValid_eq_false.1 h lane]) _

theorem memoryStep_of_empty (F : CoreFns) (h : anyValid s.exmem = false) : memoryStep F s = s := by
  rw [memoryStep, runLanes_of_go fun lane => by simp [memoryLane, anyValid_eq_false.1 h lane]]

theorem executeStep_of_empty (F : CoreFns) (h : anyValid s.idex = false) : executeStep F s = ⟨s, none⟩ :=
  runLanes_of_go (fun lane => by simp [executeLane, anyValid_eq_false.1 h lane]) _

theorem decodeStep_of_empty (h : anyValid s.ifid = false) : decodeStep s = s := by
  rw [decodeStep, runLanes_of_go fun lane => by simp [decodeLane, anyValid_eq_false.1 h lane]]

end

/-! ## The address of the oldest record -/

/-- Where fetch goes on: the pending read, else `fetch_pc` (R24, R34). -/
def fetchHead (f : FetchUnit) : Word := if f.pending.valid then f.pending.pc else f.fetchPc

/-- Lane 0 of the latch holds a record at an address. -/
def leadsAt (n : Word) (l : Latch) : Prop := (slotAt l 0).valid = true ∧ (slotAt l 0).pc = n

/-- Of the latches, older ones first, the first that holds any record has one at the address in lane 0; if none holds any,
fetch goes on at the address. -/
def oldestAt (n : Word) : List Latch → FetchUnit → Prop
  | [], f => fetchHead f = n
  | l :: rest, f => leadsAt n l ∨ (anyValid l = false ∧ oldestAt n rest f)

theorem leadsAt.anyValid {n : Word} {l : Latch} (h : leadsAt n l) : anyValid l = true := by
  by_contra hne
  exact Bool.false_ne_true ((anyValid_eq_false.1 (Bool.not_eq_true _ ▸ hne) 0).symm.trans h.1)

theorem leadsAt_set_zero {n : Word} {l : Latch} {r : Slot} (hl : 1 ≤ l.length) (hv : r.valid = true) (hpc : r.pc = n) :
    leadsAt n (l.set 0 r) := by
  rw [leadsAt, slotAt_set_zero hl]
  exact ⟨hv, hpc⟩

theorem leadsAt.set_later {n : Word} {l : Latch} (h : leadsAt n l) {k : Nat} (hk : 1 ≤ k) (r : Slot) :
    leadsAt n (l.set k r) := by
  rwa [leadsAt, slotAt_zero_set hk]

theorem oldestAt.mono {n : Word} {l : Latch} {rest rest' : List Latch} {f f' : FetchUnit} (h : oldestAt n (l :: rest) f)
    (hrest : oldestAt n rest f → oldestAt n rest' f') : oldestAt n (l :: rest') f' :=
  h.imp_right fun ⟨he, hr⟩ => ⟨he, hrest hr⟩

/-- Before a latch that holds a record, or an empty latch, the rest decides. -/
theorem oldestAt.of_empty {n : Word} {l : Latch} {rest : List Latch} {f : FetchUnit} (h : oldestAt n (l :: rest) f)
    (he : anyValid l = false) : oldestAt n rest f :=
  h.elim (fun hl => absurd (he.symm.trans hl.anyValid) Bool.false_ne_true) And.right

theorem find?_of_leadsAt {n : Word} {l : Latch} (h : leadsAt n l) : (l.find? (·.valid)).map (·.pc) = some n := by
  obtain ⟨hv, hpc⟩ := h
  cases l with
  | nil => exact absurd hv Bool.false_ne_true
  | cons r rest =>
    have hr : r.valid = true := hv
    rw [List.find?_cons_of_pos hr]
    exact congrArg some hpc

theorem find?_of_empty {l : Latch} (h : anyValid l = false) : l.find? (·.valid) = none :=
  List.find?_eq_none.2 (List.any_eq_false.1 h)

theorem find?_of_oldestAt {n : Word} {ls : List Latch} {f : FetchUnit} (h : oldestAt n ls f) :
    ((ls.flatten.find? (·.valid)).map (·.pc)).getD (fetchHead f) = n := by
  induction ls with
  | nil => exact h
  | cons l rest ih =>
    rw [List.flatten_cons, List.find?_append]
    rcases h with hl | ⟨he, hr⟩
    · have hl' := find?_of_leadsAt hl
      cases hf : l.find? (·.valid) with
      | none => rw [hf] at hl'; exact absurd hl' (by simp)
      | some r => rw [hf] at hl'; simpa using hl'
    · rw [find?_of_empty he]
      exact ih hr

/-- R24: the program counter is the address of the oldest record, or where fetch goes on. -/
theorem State.pc_of_oldestAt {s : State} {n : Word} (h : oldestAt n [s.memwb, s.exmem, s.idex, s.ifid] s.fetch) :
    s.pc = n := by
  have hfind := find?_of_oldestAt h
  rw [show [s.memwb, s.exmem, s.idex, s.ifid].flatten = s.memwb ++ s.exmem ++ s.idex ++ s.ifid by simp] at hfind
  unfold State.pc State.oldest?
  cases hf : (s.memwb ++ s.exmem ++ s.idex ++ s.ifid).find? (·.valid) with
  | none => rw [hf] at hfind; exact hfind
  | some r => rw [hf] at hfind; exact hfind

/-! ## Fetch -/

/-- A record at an address was put into a lane of `IFID`. -/
def fillsLaneAt (n : Word) (lane : Nat) (s t : State) : Prop :=
  ∃ r : Slot, r.valid = true ∧ r.pc = n ∧ t.ifid = s.ifid.set lane r

theorem deliver_fillsLaneAt (F : CoreFns) (lane : Nat) (s : State) (pc : Word) (word : List Byte) :
    (deliver F lane s pc word).meets (fillsLaneAt pc lane s) (fillsLaneAt pc lane s) := by
  obtain ⟨-, e⟩ | ⟨d, t, -, rfl, e⟩ := deliver_cases F lane s pc word <;> rw [e]
  · exact ⟨_, rfl, rfl, State.poison_ifid s lane pc _⟩
  · split_ifs <;> exact ⟨freshSlot pc d (predictedNext s pc d), rfl, rfl, rfl⟩

/-- A turn of the fetch loop puts a record at the address where fetch goes on into its lane, or leaves `IFID` and that
address and ends the loop (R265, R271). -/
theorem fetchLane_fillsLaneAt (F : CoreFns) (lane : Nat) (s : State) :
    (fetchLane F lane s).meets (fillsLaneAt (fetchHead s.fetch) lane s)
      (fun t => fillsLaneAt (fetchHead s.fetch) lane s t ∨ (t.ifid = s.ifid ∧ fetchHead t.fetch = fetchHead s.fetch)) := by
  unfold fetchLane readNext
  simp only
  split_ifs with hpending hwait hmisaligned houtside hmiss
  · exact .inr ⟨rfl, rfl⟩
  · have hhead : fetchHead s.fetch = s.fetch.pending.pc := if_pos hpending
    rw [hhead]
    exact (deliver_fillsLaneAt F lane _ _ _).mono (fun _ => id) fun _ h => .inl h
  all_goals have hhead : fetchHead s.fetch = s.fetch.fetchPc := if_neg hpending
  · exact .inl ⟨_, rfl, hhead.symm, State.poison_ifid s lane _ _⟩
  · exact .inl ⟨_, rfl, hhead.symm, State.poison_ifid s lane _ _⟩
  · exact .inr ⟨rfl, hhead.symm⟩
  · rw [hhead]
    exact (deliver_fillsLaneAt F lane _ _ _).mono (fun _ => id) fun _ h => .inl h

theorem tickPending_fetchHead (s : State) : fetchHead (tickPending s).fetch = fetchHead s.fetch := by
  unfold tickPending
  simp only
  split_ifs <;> rfl

/-- The fetch step keeps the address of the oldest record behind `IDEX`. -/
theorem fetchStep_oldestAt (F : CoreFns) {s : State} {n : Word} (hlen : s.ifid.length = s.cfg.issueWidth)
    (hw : 1 ≤ s.cfg.issueWidth) (h : oldestAt n [s.ifid] s.fetch) :
    oldestAt n [(fetchStep F s).ifid] (fetchStep F s).fetch := by
  unfold fetchStep
  simp only
  have hpending : oldestAt n [(tickPending s).ifid] (tickPending s).fetch := by
    rw [tickPending_ifid]
    exact h.mono (tickPending_fetchHead s).trans
  split_ifs with hpenalty hheld
  · exact h
  · exact hpending
  · rw [Bool.or_eq_true, not_or, Bool.not_eq_true] at hheld
    set u := tickPending s
    have hhead : fetchHead u.fetch = n := hpending.of_empty hheld.1
    have hlanes : u.lanes = List.range u.cfg.issueWidth := rfl
    have hulen : 1 ≤ u.ifid.length := by rw [tickPending_ifid, hlen]; exact hw
    rw [hlanes, tickPending_cfg]
    refine runLanes_lane0 hw (fun t : State => leadsAt n t.ifid) (fun t : State => oldestAt n [t.ifid] t.fetch) (fun _ => .inl) ?_ ?_
    · refine (fetchLane_fillsLaneAt F 0 u).mono ?_ ?_
      · rintro t ⟨r, hv, hpc, ht⟩
        rw [ht]
        exact leadsAt_set_zero hulen hv (hpc.trans hhead)
      · rintro t (⟨r, hv, hpc, ht⟩ | ⟨ht, hsame⟩)
        · rw [ht]
          exact .inl (leadsAt_set_zero hulen hv (hpc.trans hhead))
        · rw [ht]
          exact .inr ⟨hheld.1, hsame.trans hhead⟩
    · intro k hk t ht
      refine (fetchLane_fillsLane F k t).mono ?_ ?_
      · rintro v ⟨r, -, hv⟩
        rw [hv]
        exact ht.set_later hk r
      · rintro v (hv | ⟨r, -, hv⟩) <;> rw [hv]
        · exact .inl ht
        · exact .inl (ht.set_later hk r)

/-! ## Decode -/

/-- The decode step keeps the address of the oldest record behind an empty `IDEX` (R250). -/
theorem decodeStep_oldestAt {s : State} {n : Word} {rest : List Latch} {f : FetchUnit}
    (hlen : s.idex.length = s.cfg.issueWidth) (hw : 1 ≤ s.cfg.issueWidth) (he : anyValid s.idex = false)
    (h : oldestAt n (s.ifid :: rest) f) : oldestAt n ((decodeStep s).idex :: (decodeStep s).ifid :: rest) f := by
  rcases h with hlead | ⟨hempty, hrest⟩
  · have hissue : ∀ r : Slot, r = slotAt s.ifid 0 → ∀ m, leadsAt n (s.issue 0 { r with exRem := m }).idex := by
      rintro r rfl m
      exact leadsAt_set_zero (by rwa [hlen]) hlead.1 hlead.2
    have hstay : oldestAt n (s.idex :: s.ifid :: rest) f := .inr ⟨he, .inl hlead⟩
    refine runLanes_lane0 hw (fun p : DecodePass => leadsAt n p.st.idex)
      (fun p : DecodePass => oldestAt n (p.st.idex :: p.st.ifid :: rest) f) (fun _ => .inl) ?_ ?_
    · obtain ⟨hv, -⟩ | ⟨-, -, e⟩ | ⟨-, -, -, e⟩ | ⟨-, -, -, e⟩ | ⟨-, -, -, e⟩ := decodeLane_cases 0 ⟨s, 0⟩
      · exact absurd (hv.symm.trans hlead.1) Bool.false_ne_true
      · rw [e]
        exact hissue _ rfl _
      · rw [e]
        exact hstay
      · rw [e]
        exact hstay
      · rw [e]
        exact hissue _ rfl _
    · intro k hk p hp
      obtain ⟨-, e⟩ | ⟨-, -, e⟩ | ⟨-, -, -, e⟩ | ⟨-, -, -, e⟩ | ⟨-, -, -, e⟩ := decodeLane_cases k p <;> rw [e]
      · exact hp
      · exact hp.set_later hk _
      · exact .inl hp
      · exact .inl hp
      · exact hp.set_later hk _
  · rw [decodeStep_of_empty hempty]
    exact .inr ⟨he, .inr ⟨hempty, hrest⟩⟩

/-! ## Execute -/

/-- The record that leaves the execute stage (R220). -/
def executedSlot (F : CoreFns) (s : State) (lane : Nat) (r : Slot) (ops : Operands) : Slot :=
  { (classAction F s { r with a := ops.a, b := ops.b, c := ops.c } ops (resolveFlags F s r.inst ops.a ops.b lane)).1 with
    setsFlags := r.inst.setsFlags }

theorem executedSlot_valid (F : CoreFns) (s : State) (lane : Nat) (r : Slot) (ops : Operands) :
    (executedSlot F s lane r ops).valid = r.valid := by
  rw [executedSlot, classAction_record]

theorem executedSlot_pc (F : CoreFns) (s : State) (lane : Nat) (r : Slot) (ops : Operands) :
    (executedSlot F s lane r ops).pc = r.pc := by
  rw [executedSlot, classAction_record]

theorem executeRecord_exmem (F : CoreFns) (s : State) (lane : Nat) (r : Slot) (ops : Operands) :
    (executeRecord F s lane r ops).st.exmem = s.exmem.set lane (executedSlot F s lane r ops) := by
  obtain ⟨-, hexmem⟩ := classAction_latches F s { r with a := ops.a, b := ops.b, c := ops.c } ops
    (resolveFlags F s r.inst ops.a ops.b lane)
  exact congrArg (fun l : Latch => l.set lane (executedSlot F s lane r ops)) hexmem

/-- The record in lane 0 of `IDEX` moves on to lane 0 of an empty `EXMEM`, or waits, and then no lane asks for a flush
(R220). -/
theorem executeStep_leadsAt (F : CoreFns) {s : State} {n : Word} (hlen : s.idex.length = s.cfg.issueWidth)
    (hlen' : s.exmem.length = s.cfg.issueWidth) (hw : 1 ≤ s.cfg.issueWidth) (he : anyValid s.exmem = false)
    (h : leadsAt n s.idex) :
    leadsAt n (executeStep F s).st.exmem ∨
      (anyValid (executeStep F s).st.exmem = false ∧ leadsAt n (executeStep F s).st.idex ∧ (executeStep F s).flush = none) := by
  have hone : 1 ≤ s.exmem.length := by rwa [hlen']
  refine runLanes_lane0 hw (fun p : ExecPass => leadsAt n p.st.exmem)
    (fun p : ExecPass => leadsAt n p.st.exmem ∨ (anyValid p.st.exmem = false ∧ leadsAt n p.st.idex ∧ p.flush = none))
    (fun _ => .inl) ?_ ?_
  · obtain ⟨hv, -⟩ | ⟨-, hf, -⟩ | ⟨-, -, -, e⟩ | ⟨-, -, -, -, e⟩ | ⟨-, -, -, -, -, e⟩ | ⟨-, -, -, -, -, e⟩ :=
      executeLane_cases F 0 ⟨s, none⟩
    · exact absurd (hv.symm.trans h.1) Bool.false_ne_true
    · exact absurd hf Bool.false_ne_true
    · rw [e]
      exact .inr ⟨he, leadsAt_set_zero (by rwa [hlen]) h.1 h.2, rfl⟩
    · rw [e]
      exact leadsAt_set_zero hone h.1 h.2
    · rw [e]
      exact .inr ⟨he, h, rfl⟩
    · rw [e, LaneStep.meets_go, executeRecord_exmem]
      exact leadsAt_set_zero hone ((executedSlot_valid F s 0 _ _).trans h.1) ((executedSlot_pc F s 0 _ _).trans h.2)
  · intro k hk p hp
    obtain ⟨-, e⟩ | ⟨-, -, e⟩ | ⟨-, -, -, e⟩ | ⟨-, -, -, -, e⟩ | ⟨-, -, -, -, -, e⟩ | ⟨-, -, -, -, -, e⟩ :=
      executeLane_cases F k p <;> rw [e]
    · exact hp
    · exact hp
    · exact .inl hp
    · exact hp.set_later hk _
    · exact .inl hp
    · rw [LaneStep.meets_go, executeRecord_exmem]
      exact hp.set_later hk _

/-! ## Memory -/

/-- The turn of a memory-class record in lane 0 passes it to `MEMWB` or holds it in `EXMEM`. -/
theorem settleMem_leadsAt {p : MemPass} {n : Word} {r : Slot} (hlen : 1 ≤ p.st.exmem.length) (hlen' : 1 ≤ p.st.memwb.length)
    (he : anyValid p.st.memwb = false) (hv : r.valid = true) (hpc : r.pc = n) :
    (settleMem p 0 r).meets (fun q => leadsAt n q.st.memwb)
      (fun q => leadsAt n q.st.memwb ∨ (anyValid q.st.memwb = false ∧ leadsAt n q.st.exmem)) := by
  obtain ⟨-, e⟩ | ⟨-, e⟩ := settleMem_cases p 0 r <;> rw [e]
  · exact .inr ⟨he, leadsAt_set_zero hlen hv hpc⟩
  · exact leadsAt_set_zero hlen' hv hpc

theorem settleMem_keeps_leadsAt {p : MemPass} {n : Word} {k : Nat} (hk : 1 ≤ k) (r : Slot) (h : leadsAt n p.st.memwb) :
    leadsAt n (settleMem p k r).val.st.memwb := by
  obtain ⟨-, e⟩ | ⟨-, e⟩ := settleMem_cases p k r <;> rw [e]
  · exact h
  · exact h.set_later hk r

theorem memoryLane_keeps_leadsAt (F : CoreFns) {p : MemPass} {n : Word} {k : Nat} (hk : 1 ≤ k) (h : leadsAt n p.st.memwb) :
    leadsAt n (memoryLane F k p).val.st.memwb := by
  obtain ⟨-, e⟩ | ⟨_, -, -, e⟩ | ⟨_, -, -, -, -, e⟩ | ⟨_, -, -, -, -, e⟩ | ⟨-, -, -, e⟩ | ⟨-, -, -, e⟩ :=
    memoryLane_cases F k p <;> rw [e]
  · exact h
  · exact h
  · exact h
  · exact h.set_later hk _
  · exact h.set_later hk _
  · obtain ⟨-, e⟩ | ⟨-, -, e⟩ | ⟨-, -, -, e⟩ | ⟨-, -, -, e⟩ := memClassLane_cases p k (slotAt p.st.exmem k) <;> rw [e]
    · exact settleMem_keeps_leadsAt hk _ h
    · exact h
    · exact h
    · refine settleMem_keeps_leadsAt hk _ ?_
      rwa [(accessMem_onlyData p.st (slotAt p.st.exmem k)).latches.2]

/-- The record in lane 0 of `EXMEM` moves on to lane 0 of an empty `MEMWB`, or stays, also where the run ends (R200). -/
theorem memoryStep_leadsAt (F : CoreFns) {s : State} {n : Word} (hlen : s.exmem.length = s.cfg.issueWidth)
    (hlen' : s.memwb.length = s.cfg.issueWidth) (hw : 1 ≤ s.cfg.issueWidth) (he : anyValid s.memwb = false)
    (h : leadsAt n s.exmem) :
    leadsAt n (memoryStep F s).memwb ∨ (anyValid (memoryStep F s).memwb = false ∧ leadsAt n (memoryStep F s).exmem) := by
  have hone : 1 ≤ s.exmem.length := by rwa [hlen]
  have hone' : 1 ≤ s.memwb.length := by rwa [hlen']
  refine runLanes_lane0 hw (fun p : MemPass => leadsAt n p.st.memwb)
    (fun p : MemPass => leadsAt n p.st.memwb ∨ (anyValid p.st.memwb = false ∧ leadsAt n p.st.exmem)) (fun _ => .inl) ?_ ?_
  · obtain ⟨hv, -⟩ | ⟨_, -, -, e⟩ | ⟨_, -, -, -, -, e⟩ | ⟨_, -, -, -, -, e⟩ | ⟨-, -, -, e⟩ | ⟨-, -, -, e⟩ :=
      memoryLane_cases F 0 ⟨s, 0⟩
    · exact absurd (hv.symm.trans h.1) Bool.false_ne_true
    · rw [e]
      exact .inr ⟨he, h⟩
    · rw [e]
      exact .inr ⟨he, h⟩
    · rw [e]
      exact leadsAt_set_zero hone' h.1 h.2
    · rw [e]
      exact leadsAt_set_zero hone' h.1 h.2
    · rw [e]
      obtain ⟨-, e⟩ | ⟨-, -, e⟩ | ⟨-, -, -, e⟩ | ⟨-, -, -, e⟩ := memClassLane_cases ⟨s, 0⟩ 0 (slotAt s.exmem 0)
      · rw [e]
        exact settleMem_leadsAt hone hone' he h.1 h.2
      · rw [e]
        exact .inr ⟨he, h⟩
      · rw [e]
        exact .inr ⟨he, h⟩
      · obtain ⟨hexmem, hmemwb⟩ := (accessMem_onlyData s (slotAt s.exmem 0)).latches
        have hrecord := accessMem_record s (slotAt s.exmem 0)
        rw [e]
        exact settleMem_leadsAt (by simpa only [hexmem] using hone) (by simpa only [hmemwb] using hone')
          (by simpa only [hmemwb] using he) (by rw [hrecord]; exact h.1) (by rw [hrecord]; exact h.2)
  · intro k hk p hp
    have hkeeps := memoryLane_keeps_leadsAt F hk hp
    cases hturn : memoryLane F k p with
    | go q => rw [hturn] at hkeeps; exact hkeeps
    | stop q => rw [hturn] at hkeeps; exact .inl hkeeps

theorem memoryStep_oldestAt (F : CoreFns) {s : State} {n : Word} {rest : List Latch} {f : FetchUnit}
    (hlen : s.exmem.length = s.cfg.issueWidth) (hlen' : s.memwb.length = s.cfg.issueWidth) (hw : 1 ≤ s.cfg.issueWidth)
    (he : anyValid s.memwb = false) (h : oldestAt n (s.exmem :: rest) f) :
    oldestAt n ((memoryStep F s).memwb :: (memoryStep F s).exmem :: rest) f := by
  rcases h with hlead | ⟨hempty, hrest⟩
  · exact (memoryStep_leadsAt F hlen hlen' hw he hlead).imp_right fun ⟨hnone, hstay⟩ => ⟨hnone, .inl hstay⟩
  · rw [memoryStep_of_empty F hempty]
    exact .inr ⟨he, .inr ⟨hempty, hrest⟩⟩

/-! ## The front end and the tick -/

@[simp] theorem decodeStep_fetch (s : State) : (decodeStep s).fetch = s.fetch := by
  rw [show decodeStep s = _ from decodeStep_frame s]
@[simp] theorem memoryStep_fetch (F : CoreFns) (s : State) : (memoryStep F s).fetch = s.fetch := by
  rw [show memoryStep F s = _ from memoryStep_frame F s]
@[simp] theorem writebackStep_fetch (s : State) : (writebackStep s).fetch = s.fetch := by
  rw [show writebackStep s = _ from writebackStep_frame s]

theorem frontEnd_of_flush {F : CoreFns} {s : State} {pc : Word} (h : (executeAndDecode F s).flush = some pc) :
    frontEnd F s = flushStep (fetchStep F (executeAndDecode F s).st) pc := by simp [frontEnd, h]

theorem frontEnd_of_no_flush {F : CoreFns} {s : State} (h : (executeAndDecode F s).flush = none) :
    frontEnd F s = fetchStep F (executeAndDecode F s).st := by simp [frontEnd, h]

theorem frontEnd_exmem (F : CoreFns) (s : State) : (frontEnd F s).exmem = (executeAndDecode F s).st.exmem := by
  cases h : (executeAndDecode F s).flush with
  | none => rw [frontEnd_of_no_flush h, fetchStep_exmem]
  | some pc => rw [frontEnd_of_flush h, flushStep_exmem, fetchStep_exmem]

/-- While `EXMEM` holds a record the front end only fetches (R165). -/
theorem frontEnd_of_exmem (F : CoreFns) {s : State} (h : anyValid s.exmem = true) : frontEnd F s = fetchStep F s := by
  have he : executeAndDecode F s = ⟨s, none⟩ := by simp [executeAndDecode, h]
  rw [frontEnd_of_no_flush (by rw [he]), he]

/-- With nothing to decode or execute the front end only fetches. -/
theorem frontEnd_of_empty (F : CoreFns) {s : State} (hidex : anyValid s.idex = false) (hifid : anyValid s.ifid = false) :
    frontEnd F s = fetchStep F s := by
  have he : executeAndDecode F s = ⟨s, none⟩ := by
    simp [executeAndDecode, executeStep_of_empty F hidex, hidex, decodeStep_of_empty hifid]
  rw [frontEnd_of_no_flush (by rw [he]), he]

/-- The part of the front end after the execute step, where that step asked for no flush. -/
theorem decodeAndFetch_oldestAt (F : CoreFns) {s : State} {n : Word} (hsized : s.latchesSized = true)
    (hw : 1 ≤ s.cfg.issueWidth) (he : anyValid s.idex = false) (h : oldestAt n [s.ifid] s.fetch) :
    oldestAt n [(fetchStep F (decodeStep s)).idex, (fetchStep F (decodeStep s)).ifid] (fetchStep F (decodeStep s)).fetch := by
  obtain ⟨-, hidex, -, -⟩ := s.latchesSized_iff.1 hsized
  obtain ⟨hifid, -, -, -⟩ := (State.latchesSized_iff _).1 (decodeStep_keepsLanes hsized he).1
  have hdecode := decodeStep_oldestAt hidex hw he h
  rw [fetchStep_idex]
  exact hdecode.mono fun hrest => fetchStep_oldestAt F hifid (by simpa using hw) (by rwa [decodeStep_fetch])

/-- The front end keeps the address of the oldest record behind `MEMWB`. -/
theorem frontEnd_oldestAt (F : CoreFns) {s : State} {n : Word} (hsized : s.latchesSized = true) (hw : 1 ≤ s.cfg.issueWidth)
    (h : oldestAt n [s.exmem, s.idex, s.ifid] s.fetch) :
    oldestAt n [(frontEnd F s).exmem, (frontEnd F s).idex, (frontEnd F s).ifid] (frontEnd F s).fetch := by
  obtain ⟨-, hidex, hexmem, -⟩ := s.latchesSized_iff.1 hsized
  rcases h with hlead | ⟨hempty, hrest⟩
  · left
    rwa [frontEnd_of_exmem F hlead.anyValid, fetchStep_exmem]
  · rcases hrest with hlead | ⟨hidle, hrest⟩
    · rcases executeStep_leadsAt F hidex hexmem hw hempty hlead with hmoved | ⟨hnone, hwaits, hflush⟩
      · left
        obtain ⟨he, -⟩ | ⟨-, -, e⟩ | ⟨-, -, e⟩ := executeAndDecode_cases F s
        · exact absurd (hempty.symm.trans he) Bool.false_ne_true
        · rwa [frontEnd_exmem, e]
        · rw [frontEnd_exmem, e]
          simpa using hmoved
      · have e : executeAndDecode F s = executeStep F s := by simp [executeAndDecode, hempty, hwaits.anyValid]
        right
        rw [frontEnd_of_no_flush (by rw [e, hflush]), e, fetchStep_exmem, fetchStep_idex]
        exact ⟨hnone, .inl hwaits⟩
    · have e : executeAndDecode F s = ⟨decodeStep s, none⟩ := by
        simp [executeAndDecode, hempty, executeStep_of_empty F hidle, hidle]
      right
      rw [frontEnd_of_no_flush (by rw [e]), e, fetchStep_exmem, decodeStep_exmem]
      exact ⟨hempty, decodeAndFetch_oldestAt F hsized hw hidle hrest⟩

/-- After a tick the program counter is the address of the oldest record that stood behind `MEMWB`: whatever the tick does,
it retires `MEMWB` and drops no older record than a branch it executes (R24, R33, R170). -/
theorem tick_pc (F : CoreFns) {s : State} {n : Word} (hs : s.status = .running) (hsized : s.latchesSized = true)
    (hw : 1 ≤ s.cfg.issueWidth) (h : oldestAt n [s.exmem, s.idex, s.ifid] s.fetch) : (tick F s).pc = n := by
  obtain ⟨-, -, hexmem, hmemwb⟩ := s.latchesSized_iff.1 hsized
  obtain ⟨hlen, hempty⟩ := writebackStep_memwb (s := s.countCycle) hmemwb
  have hmemory := memoryStep_oldestAt F (s := writebackStep s.countCycle) (n := n) (rest := [s.idex, s.ifid]) (f := s.fetch)
    (by simpa using hexmem) (by simpa using hlen) (by simpa using hw) hempty (by simpa using h)
  have hback := (backEnd_keepsLanes F hsized).1
  refine State.pc_of_oldestAt ?_
  rw [tick_running F hs]
  set m := memoryStep F (writebackStep s.countCycle) with hm
  have hidex : m.idex = s.idex := by simp [hm]
  have hifid : m.ifid = s.ifid := by simp [hm]
  have hfetch : m.fetch = s.fetch := by simp [hm]
  have hwidth : 1 ≤ m.cfg.issueWidth := by simpa [hm] using hw
  rw [← hidex, ← hifid, ← hfetch] at hmemory
  split_ifs
  · obtain ⟨-, -, -, -, hmw, -⟩ := frontEnd_frame F m
    rw [hmw]
    exact hmemory.mono (frontEnd_oldestAt F hback hwidth)
  · exact hmemory

end Sys2Proof.Machine
end

section
/-!
PROOFS. The meaning of an instruction, read from its record (`spec/40_operation_classes.md` R120, R146). `exec` is given
per instruction, the pipeline works per class on the fields of the record; here `exec` is said once per class in the
pipeline's terms: the operands the fields name, the flags the record works with, the class action.
-/

namespace Sys2Proof.Machine

/-! ## Operands and flags of a record on the committed state -/

/-- The three operands of a record, all read from the committed registers (R94, R120). -/
def recordOperands (s : State) (d : Diw) : Operands :=
  { a := s.source (optReg d.rnV d.rn)
    b := ((optReg d.rmV d.rm).map s.reg).getD (absentB d)
    c := s.source (optReg d.rtV d.rt)
    late := false }

/-- The flags a record works with, the committed flags where it reads them (R228, R229). -/
def recordFlags (s : State) (d : Diw) : Nzcv :=
  if d.readsFlags then
    if d.fused then ref.cmpFlags (recordOperands s d).a (recordOperands s d).b else s.flags
  else 0

theorem operandB_eq (s : State) (rm : Option Reg) (imm : Word) : operandB s rm imm = (rm.map s.reg).getD imm := by
  cases rm <;> rfl

theorem source_eq (s : State) (r : Option Reg) : s.source r = (r.map s.reg).getD 0 := by
  cases r <;> rfl

@[simp] theorem optReg_true (r : Reg) : optReg true r = some r := rfl
@[simp] theorem optReg_false (r : Reg) : optReg false r = none := rfl

/-! ## `exec` per class -/

section
variable {s : State} {i : Instr}

/-- An `ARITH` or `MUL` instruction: the class function on the operands, then the shared end (R121 to R130). -/
theorem exec_of_alu (hs : s.status = .running) (hc : i.toDiw.cls = .arith ∨ i.toDiw.cls = .mul) :
    exec i s =
      .next (s.finishAlu (diwDest i.toDiw) i.toDiw.setsFlags
        (ref.execFn i.toDiw.cls i.toDiw.fn (recordOperands s i.toDiw).a (recordOperands s i.toDiw).b i.toDiw.cond
          (recordFlags s i.toDiw))) := by
  cases i
  case ldr | str | b | bl | br | blr | bCond | cbCond | svc => simp [Instr.toDiw] at hc
  all_goals
    refine (congrArg _ (State.whileRunning_running hs _)).trans ?_
    simp [Instr.toDiw, Diw.ofAlu, Diw.zero, diwDest, recordOperands, recordFlags, operandA, operandB_eq, absentB]

/-- A `BRANCH`: the outcome of its condition and target, then the shared end (R133 to R138). -/
theorem exec_of_branch (hs : s.status = .running) (hc : i.toDiw.cls = .branch) :
    exec i s =
      .next (s.finishBranch
        (branchOutcome (branchTaken ref i.toDiw (recordFlags s i.toDiw))
          (branchTarget i.toDiw s.pc (recordOperands s i.toDiw).a) (s.pc + s.ib))
        (diwDest i.toDiw) i.toDiw.setsFlags (recordFlags s i.toDiw)) := by
  cases i
  case b | bl | br | blr | bCond | cbCond =>
    refine (congrArg _ (State.whileRunning_running hs _)).trans ?_
    simp [Instr.toDiw, Diw.zero, diwDest, recordOperands, recordFlags, operandA, operandBNoImm, absentB, branchTaken,
      branchTarget, source_eq, State.finishBranch, State.commit, State.setFlagsIf]
  all_goals simp [Instr.toDiw, Diw.ofAlu] at hc

/-- The effective address of a memory-class record (R95, R97). -/
def recordAddr (s : State) (d : Diw) : Word := effectiveAddr (recordOperands s d).a d.imm

/-- A `LOAD` in bounds (R131). -/
theorem exec_of_load (hs : s.status = .running) (hc : i.toDiw.cls = .load)
    (hin : s.inBounds (recordAddr s i.toDiw) (accessBytes i.toDiw.msize) = true) :
    exec i s =
      .next (((s.loadData (recordAddr s i.toDiw) i.toDiw.msize i.toDiw.msigned).2.2.commit (diwDest i.toDiw)
        (s.loadData (recordAddr s i.toDiw) i.toDiw.msize i.toDiw.msigned).1 false 0).advance s.pc) := by
  cases i
  case ldr msize msigned rd rn imm =>
    have hdest : diwDest (Instr.ldr msize msigned rd rn imm).toDiw = rd := optReg_regV rd
    rw [hdest]
    exact exec_ldr_inBounds hs msigned rd hin
  all_goals simp [Instr.toDiw, Diw.ofAlu] at hc

/-- A `STORE` in bounds (R132). -/
theorem exec_of_store (hs : s.status = .running) (hc : i.toDiw.cls = .store)
    (hin : s.inBounds (recordAddr s i.toDiw) (accessBytes i.toDiw.msize) = true) :
    exec i s =
      .next (((s.storeData (recordAddr s i.toDiw) i.toDiw.msize (recordOperands s i.toDiw).c).2.commit (diwDest i.toDiw)
        0 false 0).advance s.pc) := by
  cases i
  case str msize rt rn imm =>
    have hdata : (recordOperands s (Instr.str msize rt rn imm).toDiw).c = operandC s rt := congrArg s.source (optReg_regV rt)
    rw [hdata]
    exact exec_str_inBounds hs rt hin
  all_goals simp [Instr.toDiw, Diw.ofAlu] at hc

/-- An access out of bounds (R131, R132, R202). -/
theorem exec_of_outOfBounds (hs : s.status = .running) (hc : i.toDiw.cls.isMem = true)
    (hout : ¬s.inBounds (recordAddr s i.toDiw) (accessBytes i.toDiw.msize) = true) :
    exec i s = .next (s.raise (.dataOutOfBounds (recordAddr s i.toDiw) s.stats.cycles)) := by
  cases i
  case ldr msize msigned rd rn imm => exact exec_ldr_outOfBounds hs msigned rd hout
  case str msize rt rn imm => exact exec_str_outOfBounds hs rt hout
  all_goals exact absurd hc Bool.false_ne_true

theorem recordOperands_svc (s : State) (rd rn rm rt : Option Reg) (imm : Word) :
    recordOperands s (Instr.svc rd rn rm rt imm).toDiw =
      ⟨operandA s rn, operandBNoImm s rm, operandC s rt, false⟩ := by
  simp [recordOperands, Instr.toDiw, absentB, operandA, operandBNoImm, operandC, source_eq s rm]

/-- An exit call halts (R139, R390). -/
theorem exec_of_exit (hs : s.status = .running) (hc : i.toDiw.cls = .syscall) {code : Word}
    (hsys : ref.sys (recordOperands s i.toDiw).a (recordOperands s i.toDiw).b (recordOperands s i.toDiw).c = .exit code) :
    exec i s = .next (s.halt code) := by
  cases i
  case svc rd rn rm rt imm =>
    rw [recordOperands_svc] at hsys
    refine (congrArg _ (State.whileRunning_running hs _)).trans ?_
    simp only [hsys]
  all_goals simp [Instr.toDiw, Diw.ofAlu] at hc

/-- A call that returns writes its value and goes on (R139). -/
theorem exec_of_return (hs : s.status = .running) (hc : i.toDiw.cls = .syscall) {v : Word}
    (hsys : ref.sys (recordOperands s i.toDiw).a (recordOperands s i.toDiw).b (recordOperands s i.toDiw).c = .ret v) :
    exec i s = .next ((s.commit (diwDest i.toDiw) v false 0).advance s.pc) := by
  cases i
  case svc rd rn rm rt imm =>
    have hdest : diwDest (Instr.svc rd rn rm rt imm).toDiw = rd := optReg_regV rd
    rw [recordOperands_svc] at hsys
    refine (congrArg _ (State.whileRunning_running hs _)).trans ?_
    simp only [hsys, hdest]
  all_goals simp [Instr.toDiw, Diw.ofAlu] at hc

/-- Only `ARITH`, `MUL` and `BRANCH` records set flags (R99). -/
theorem toDiw_setsFlags (hc : i.toDiw.cls = .load ∨ i.toDiw.cls = .store ∨ i.toDiw.cls = .syscall) :
    i.toDiw.setsFlags = false := by
  cases i
  case ldr | str | svc => rfl
  all_goals simp [Instr.toDiw, Diw.ofAlu] at hc

/-- A `STORE` record has no destination (R99). -/
theorem diwDest_of_store (hc : i.toDiw.cls = .store) : diwDest i.toDiw = none := by
  cases i
  case str => rfl
  all_goals simp [Instr.toDiw, Diw.ofAlu] at hc

end

end Sys2Proof.Machine
end

section
/-!
PROOFS. One record alone in its group, stage by stage (`spec/41_pipeline_orchestrator.md` R160, R161). Each latch on its
way holds the record in lane 0 and nothing in the other lanes; nothing older is in flight; whatever follows it stands at the
address `n`. One lemma per stage says what one tick does with it. What the data caches hold is followed through two
predicates that the user of the lemmas chooses (`DataTrack`); `quiet` is the case in which nothing follows the record.
-/

namespace Sys2Proof.Machine

/-! ## One record in lane 0 -/

/-- The latch holds the record in lane 0 and nothing in the other lanes. -/
def alone (r : Slot) (l : Latch) : Prop := slotAt l 0 = r ∧ ∀ k, 1 ≤ k → (slotAt l k).valid = false

section
variable {r q : Slot} {l : Latch}

theorem alone.leadsAt (h : alone r l) (hv : r.valid = true) : leadsAt r.pc l := by
  rw [Machine.leadsAt, h.1]
  exact ⟨hv, rfl⟩

theorem alone.anyValid (h : alone r l) (hv : r.valid = true) : anyValid l = true := (h.leadsAt hv).anyValid

theorem alone.set (h : alone r l) (hl : 1 ≤ l.length) (q : Slot) : alone q (l.set 0 q) :=
  ⟨slotAt_set_zero hl, fun k hk => by rw [slotAt_set_of_ne (by omega)]; exact h.2 k hk⟩

theorem alone_set_of_empty (h : Machine.anyValid l = false) (hl : 1 ≤ l.length) (q : Slot) : alone q (l.set 0 q) :=
  ⟨slotAt_set_zero hl, fun k hk => by rw [slotAt_set_of_ne (by omega)]; exact anyValid_eq_false.1 h k⟩

theorem alone.clear (h : alone r l) : Machine.anyValid (l.set 0 Slot.bubble) = false := by
  refine anyValid_eq_false.2 fun k => ?_
  rw [slotAt_set]
  split_ifs with hk
  · rfl
  · rcases Nat.eq_zero_or_pos k with rfl | hk'
    · rw [slotAt_of_length_le (by omega)]
      rfl
    · exact h.2 k hk'

theorem anyValid_bubbles (n : Nat) : anyValid (bubbles n) = false :=
  anyValid_eq_false.2 fun j => by rw [slotAt_bubbles]; rfl

end

/-! ### A stage whose latch holds one record runs its turn in lane 0 -/

section
variable {s : State} {r : Slot}

theorem writebackStep_of_alone (hw : 1 ≤ s.cfg.issueWidth) (h : alone r s.memwb) (hv : r.valid = true) :
    writebackStep s = (retireSlot s r).setMemwb 0 Slot.bubble := by
  have hturn : writebackLane 0 s = .go ((retireSlot s r).setMemwb 0 Slot.bubble) := by simp [writebackLane, h.1, hv]
  have hempty : anyValid ((retireSlot s r).setMemwb 0 Slot.bubble).memwb = false := by
    simpa [retireSlot] using h.clear
  refine (runLanes_eq_lane0 hw fun k _ => ?_).trans (by rw [hturn]; rfl)
  rw [hturn, LaneStep.val_go, writebackLane]
  exact if_neg (Bool.eq_false_iff.1 (anyValid_eq_false.1 hempty k))

theorem memoryStep_of_alone (F : CoreFns) (hw : 1 ≤ s.cfg.issueWidth)
    (h : ∀ k, 1 ≤ k → (slotAt (memoryLane F 0 ⟨s, 0⟩).val.st.exmem k).valid = false) :
    memoryStep F s = (memoryLane F 0 ⟨s, 0⟩).val.st :=
  congrArg MemPass.st (runLanes_eq_lane0 hw fun k hk => by
    rw [memoryLane]
    simp [h k hk])

theorem executeStep_of_alone (F : CoreFns) (hw : 1 ≤ s.cfg.issueWidth)
    (h : ∀ k, 1 ≤ k → (slotAt (executeLane F 0 ⟨s, none⟩).val.st.idex k).valid = false) :
    executeStep F s = (executeLane F 0 ⟨s, none⟩).val :=
  runLanes_eq_lane0 hw fun k hk => by
    rw [executeLane]
    simp [h k hk]

theorem decodeStep_of_alone (hw : 1 ≤ s.cfg.issueWidth) (h : alone r s.ifid) (hv : r.valid = true) (hf : r.fault = .none)
    (hissue : canIssue s r.inst 0 0 = .ok) :
    decodeStep s = s.issue 0 { r with exRem := max (latencyOf s.cfg r.inst.cls) 1 - 1 } := by
  have hturn : (decodeLane 0 ⟨s, 0⟩).val.st = s.issue 0 { r with exRem := max (latencyOf s.cfg r.inst.cls) 1 - 1 } := by
    simp [decodeLane, h.1, hv, hf, hissue]
  refine (congrArg DecodePass.st (runLanes_eq_lane0 hw fun k _ => ?_)).trans hturn
  have hempty : (slotAt (decodeLane 0 ⟨s, 0⟩).val.st.ifid k).valid = false := by
    rw [hturn]
    exact anyValid_eq_false.1 h.clear k
  rw [decodeLane]
  simp [hempty]

end

/-! ## Forwarding with nothing in flight -/

theorem youngest_eq_none {l : Latch} {test : Slot → Bool} (h : ∀ k, test (slotAt l k) = false) (n : Nat) :
    youngest l test n = none := by
  induction n with
  | zero => rfl
  | succ n ih => rw [youngest, h n]; exact ih

section
variable {s : State}

theorem youngestWriter_of_empty {l : Latch} (h : anyValid l = false) (reg : Reg) (n : Nat) :
    youngestWriter l reg n = none :=
  youngest_eq_none (fun k => by rw [anyValid_eq_false.1 h k, Bool.false_and]) n

theorem youngestSetter_of_empty {l : Latch} (h : anyValid l = false) (n : Nat) : youngestSetter l n = none :=
  youngest_eq_none (fun k => by rw [anyValid_eq_false.1 h k, Bool.false_and]) n

/-- With `EXMEM` empty a port free, the record in lane 0 issues (R291). -/
theorem canIssue_of_empty (hp : 1 ≤ s.cfg.memPorts) (he : anyValid s.exmem = false) (d : Diw) : canIssue s d 0 0 = .ok := by
  have hport : (0 == s.cfg.memPorts) = false := by
    rw [beq_eq_false_iff_ne]
    omega
  have hraw : ∀ reg, rawHazard s 0 reg = false := fun reg => by
    simp [rawHazard, nearestProducer, youngestWriter_of_empty he, show youngestWriter s.idex reg 0 = none from rfl]
  simp [canIssue, hport, hraw]

/-- In lane 0 with `MEMWB` empty every operand comes from the committed registers (R296). -/
theorem resolveOperands_of_empty (h : anyValid s.memwb = false) (d : Diw) : resolveOperands s d 0 = recordOperands s d := by
  have hsource : ∀ (q : Option Reg) (absent : Word),
      resolveSource s q absent 0 = ⟨(q.map s.reg).getD absent, false⟩ := by
    intro q absent
    cases q with
    | none => rfl
    | some reg =>
      simp [resolveSource, resolveOperand, youngestWriter_of_empty h, show youngestWriter s.exmem reg 0 = none from rfl]
  simp [resolveOperands, hsource, recordOperands, source_eq]

/-- In lane 0 with `MEMWB` empty the flags come from `FLAGS` (R228). -/
theorem resolveFlags_of_empty (h : anyValid s.memwb = false) (d : Diw) :
    resolveFlags ref s d (recordOperands s d).a (recordOperands s d).b 0 = recordFlags s d := by
  have hforward : forwardedFlags s 0 = s.flags := by
    simp [forwardedFlags, youngestSetter_of_empty h, show youngestSetter s.exmem 0 = none from rfl]
  rw [resolveFlags, hforward]
  rfl

theorem recordOperands_congr {u : State} (hx : u.x = s.x) (d : Diw) : recordOperands u d = recordOperands s d := by
  simp only [recordOperands, State.source, State.reg, hx]
  cases optReg d.rmV d.rm <;> simp [State.reg, hx]

theorem recordFlags_congr {u : State} (hx : u.x = s.x) (hf : u.flags = s.flags) (d : Diw) :
    recordFlags u d = recordFlags s d := by
  simp only [recordFlags, recordOperands_congr hx, hf]

end

/-! ## The record executed -/

/-- The class action on a record whose operands and flags are the committed ones (R220, R230, R231, R235). -/
def recordAction (s : State) (r : Slot) : Slot × State × Option Word :=
  classAction ref s
    { r with a := (recordOperands s r.inst).a, b := (recordOperands s r.inst).b, c := (recordOperands s r.inst).c }
    (recordOperands s r.inst) (recordFlags s r.inst)

/-- The record as it enters `EXMEM`. -/
def actedSlot (s : State) (r : Slot) : Slot := { (recordAction s r).1 with setsFlags := r.inst.setsFlags }

/-- The class action reads the configuration and the predictor alone of the state. -/
theorem classAction_congr (F : CoreFns) {s u : State} (hc : u.cfg = s.cfg) (hp : u.pred = s.pred) (r : Slot) (ops : Operands)
    (fl : Nzcv) :
    (classAction F u r ops fl).1 = (classAction F s r ops fl).1 ∧
      (classAction F u r ops fl).2.1.pred = (classAction F s r ops fl).2.1.pred ∧
      (classAction F u r ops fl).2.2 = (classAction F s r ops fl).2.2 := by
  have hib : u.ib = s.ib := State.ib_eq_of_cfg hc
  simp only [classAction]
  rcases hcls : r.inst.cls with _ | _ | _ | _ | _ | _ <;> simp [resolveBranch, hib, hc, hp]

theorem executeRecord_of_committed {s u : State} (hcfg : u.cfg = s.cfg) (hpred : u.pred = s.pred) (hx : u.x = s.x)
    (hflags : u.flags = s.flags) (hmemwb : anyValid u.memwb = false) (r : Slot) :
    executeRecord ref u 0 r (resolveOperands u r.inst 0) =
      { st := ({ u with pred := (recordAction s r).2.1.pred } : State).passExecute 0 (actedSlot s r)
        flush := (recordAction s r).2.2 } := by
  have hfl : resolveFlags ref u r.inst (recordOperands s r.inst).a (recordOperands s r.inst).b 0 = recordFlags s r.inst := by
    rw [← recordOperands_congr hx, resolveFlags_of_empty hmemwb, recordFlags_congr hx hflags]
  rw [resolveOperands_of_empty hmemwb, recordOperands_congr hx]
  unfold executeRecord
  simp only [hfl]
  obtain ⟨h1, h2, h3⟩ := classAction_congr ref hcfg hpred
    { r with a := (recordOperands s r.inst).a, b := (recordOperands s r.inst).b, c := (recordOperands s r.inst).c }
    (recordOperands s r.inst) (recordFlags s r.inst)
  rw [classAction_state, h1, h2, h3]
  rfl

/-! ## What is committed, and what the caches hold -/

/-- Since `s` nothing has been committed, and the core runs. -/
structure Uncommitted (s u : State) : Prop where
  cfg : u.cfg = s.cfg
  x : u.x = s.x
  flags : u.flags = s.flags
  retired : u.stats.retired = s.stats.retired
  running : u.status = .running
  sized : u.latchesSized = true

/-- Configuration, caches and main memory are the same. -/
def sameStores (s t : State) : Prop :=
  t.cfg = s.cfg ∧ t.l1i = s.l1i ∧ t.l1d = s.l1d ∧ t.l2 = s.l2 ∧ t.mem = s.mem

theorem sameStores.refl (s : State) : sameStores s s := ⟨rfl, rfl, rfl, rfl, rfl⟩

theorem countCycle_sameStores (s : State) : sameStores s s.countCycle := ⟨rfl, rfl, rfl, rfl, rfl⟩

theorem flushStep_sameStores (s : State) (pc : Word) : sameStores s (flushStep s pc) := ⟨rfl, rfl, rfl, rfl, rfl⟩

theorem executeAndDecode_sameStores (F : CoreFns) (s : State) : sameStores s (executeAndDecode F s).st := by
  rw [executeAndDecode_frame]
  exact sameStores.refl s

/-- What is followed of the caches while the record is on its way from `s`: `D` until its access, and `E t` from its
access on, where `t` is the state that the access gives in `exec`. While a `quiet` record is on its way, fetch is held. -/
structure DataTrack (quiet : Prop) (s : State) (D : State → Prop) (E : State → State → Prop) : Prop where
  same : ∀ {u v}, sameStores u v → D u → D v
  fetched : ∀ {u}, (quiet → u.fetch.fetchBlocked = true) → D u → D (fetchStep ref u)
  matchSame : ∀ {t t' u v}, sameStores t t' → sameStores u v → E t u → E t' v
  matchFetched : ∀ {t u}, E t u → E t (fetchStep ref u)
  start : ∀ {u}, D u → E s u
  load : ∀ {u}, D u → ∀ addr msize msigned,
    (u.loadData addr msize msigned).1 = (s.loadData addr msize msigned).1 ∧
      E (s.loadData addr msize msigned).2.2 (u.loadData addr msize msigned).2.2
  store : ∀ {u}, D u → ∀ addr msize v, E (s.storeData addr msize v).2 (u.storeData addr msize v).2

theorem DataTrack.matchFrontEnd {quiet : Prop} {s t u : State} {D : State → Prop} {E : State → State → Prop}
    (h : DataTrack quiet s D E) (hu : E t u) : E t (frontEnd ref u) := by
  have hfetch : E t (fetchStep ref (executeAndDecode ref u).st) :=
    h.matchFetched (h.matchSame (sameStores.refl t) (executeAndDecode_sameStores ref u) hu)
  cases hf : (executeAndDecode ref u).flush with
  | none => rwa [frontEnd_of_no_flush hf]
  | some pc =>
    rw [frontEnd_of_flush hf]
    exact h.matchSame (sameStores.refl t) (flushStep_sameStores _ pc) hfetch

/-- A fetch step that is held reads nothing and delivers nothing (R265, R275). -/
theorem fetchStep_of_blocked (F : CoreFns) {s : State} (h : s.fetch.fetchBlocked = true) :
    (fetchStep F s).fetch.fetchBlocked = true ∧ (fetchStep F s).ifid = s.ifid ∧ sameStores s (fetchStep F s) := by
  have hb : (tickPending s).fetch.fetchBlocked = true := by
    unfold tickPending
    simp only
    split_ifs <;> exact h
  have hs : sameStores s (tickPending s) := by
    unfold tickPending
    simp only
    split_ifs <;> exact sameStores.refl s
  unfold fetchStep
  simp only [hb, Bool.or_true, if_true]
  split_ifs
  · exact ⟨h, rfl, sameStores.refl s⟩
  · exact ⟨hb, tickPending_ifid s, hs⟩

/-! ## The tick with `MEMWB` empty -/

section
variable {s u : State}

/-- With `MEMWB` empty a tick commits nothing (R22, R26). -/
theorem Uncommitted.tick (h : Uncommitted s u) (hmemwb : anyValid u.memwb = false) (hrun : (tick ref u).status = .running) :
    Uncommitted s (tick ref u) := by
  obtain ⟨hx, hflags, hretired⟩ := tick_committed ref h.running
  rw [writebackStep_of_empty hmemwb] at hx hflags hretired
  exact ⟨(tick_cfg ref u).trans h.cfg, hx.trans h.x, hflags.trans h.flags, hretired.trans h.retired, hrun,
    (tick_keepsLanes ref h.sized).1⟩

/-- With `MEMWB` empty a tick is its memory step and, where that leaves the core running, the front end. -/
theorem tick_of_empty (hs : u.status = .running) (hmemwb : anyValid u.memwb = false) :
    Machine.tick ref u = if (memoryStep ref u.countCycle).status = .running then frontEnd ref (memoryStep ref u.countCycle)
      else memoryStep ref u.countCycle := by
  rw [tick_running ref hs, writebackStep_of_empty (s := u.countCycle) hmemwb]

theorem frontEnd_status (F : CoreFns) (s : State) : (frontEnd F s).status = s.status := by
  obtain ⟨-, -, -, hstatus, -⟩ := frontEnd_frame F s
  exact hstatus

theorem frontEnd_memwb (F : CoreFns) (s : State) : (frontEnd F s).memwb = s.memwb := by
  obtain ⟨-, -, -, -, hmemwb, -⟩ := frontEnd_frame F s
  exact hmemwb

end

/-- With `IDEX` empty no branch resolves, and the front end leaves the predictor (R235). -/
theorem frontEnd_pred_of_idle (F : CoreFns) {s : State} (h : anyValid s.idex = false) : (frontEnd F s).pred = s.pred := by
  have hpred : (executeAndDecode F s).st.pred = s.pred := by
    obtain ⟨-, e⟩ | ⟨-, -, e⟩ | ⟨-, -, e⟩ := executeAndDecode_cases F s <;> rw [e]
    · rw [executeStep_of_empty F h]
    · rw [decodeStep_pred, executeStep_of_empty F h]
  cases hf : (executeAndDecode F s).flush with
  | none => rw [frontEnd_of_no_flush hf, fetchStep_pred, hpred]
  | some pc => rw [frontEnd_of_flush hf, flushStep_pred, fetchStep_pred, hpred]

/-! ## The stages -/

section
variable (quiet : Prop) (s : State) (D : State → Prop)

/-- The record stands in `IFID`; fetch goes on at the record's `predNext`. -/
structure AtDecode (r : Slot) (u : State) : Prop where
  ifid : alone r u.ifid
  idex : anyValid u.idex = false
  exmem : anyValid u.exmem = false
  memwb : anyValid u.memwb = false
  next : fetchHead u.fetch = r.predNext
  data : D u
  pred : u.pred = s.pred
  held : quiet → u.fetch.fetchBlocked = true

/-- The record stands in `IDEX`; what follows stands at the record's `predNext`. -/
structure AtExecute (r : Slot) (u : State) : Prop where
  idex : alone r u.idex
  exmem : anyValid u.exmem = false
  memwb : anyValid u.memwb = false
  next : oldestAt r.predNext [u.ifid] u.fetch
  data : D u
  pred : u.pred = s.pred
  held : quiet → u.fetch.fetchBlocked = true ∧ anyValid u.ifid = false

/-- The record stands in `EXMEM`; what follows stands at `n`. -/
structure AtMemory (p : Predictor) (n : Word) (r : Slot) (u : State) : Prop where
  exmem : alone r u.exmem
  memwb : anyValid u.memwb = false
  next : oldestAt n [u.idex, u.ifid] u.fetch
  data : D u
  held : quiet → u.pred = p ∧ anyValid u.idex = false ∧ anyValid u.ifid = false ∧
    (r.inst.cls.isMem = true → u.fetch.fetchBlocked = true)

/-- The record stands in `MEMWB`; what follows stands at `n`. -/
structure AtWriteback (p : Predictor) (n : Word) (r : Slot) (u : State) : Prop where
  memwb : alone r u.memwb
  next : oldestAt n [u.exmem, u.idex, u.ifid] u.fetch
  data : D u
  held : quiet → u.pred = p ∧ anyValid u.exmem = false ∧ anyValid u.idex = false

end

section
variable {quiet : Prop} {s u : State} {D : State → Prop} {E : State → State → Prop} {r : Slot}

/-- Before the record is in `EXMEM` a tick is its front end: the memory step has nothing to do. -/
theorem tick_of_back_empty (hs : u.status = .running) (hexmem : anyValid u.exmem = false) (hmemwb : anyValid u.memwb = false) :
    tick ref u = frontEnd ref u.countCycle := by
  rw [tick_of_empty hs hmemwb, memoryStep_of_empty ref (s := u.countCycle) hexmem]
  exact if_pos hs

theorem Uncommitted.tick_of_back_empty (hu : Uncommitted s u) (hexmem : anyValid u.exmem = false)
    (hmemwb : anyValid u.memwb = false) : Uncommitted s (Machine.tick ref u) :=
  hu.tick hmemwb (by rw [Machine.tick_of_back_empty hu.running hexmem hmemwb, frontEnd_status]; exact hu.running)

/-- Decode: the record issues (R250). -/
theorem AtDecode.tick (hT : DataTrack quiet s D E) (hw : 1 ≤ s.cfg.issueWidth) (hp : 1 ≤ s.cfg.memPorts)
    (hu : Uncommitted s u) (h : AtDecode quiet s D r u) (hv : r.valid = true) (hf : r.fault = .none) :
    AtExecute quiet s D { r with exRem := max (latencyOf s.cfg r.inst.cls) 1 - 1 } (tick ref u) := by
  obtain ⟨hifid, hidex, -, -⟩ := u.latchesSized_iff.1 hu.sized
  have hwu : 1 ≤ u.cfg.issueWidth := by rwa [hu.cfg]
  set r' : Slot := { r with exRem := max (latencyOf s.cfg r.inst.cls) 1 - 1 } with hr'
  have hdecode : decodeStep u.countCycle = u.countCycle.issue 0 r' := by
    have hport : 1 ≤ u.countCycle.cfg.memPorts := by rwa [State.countCycle_cfg, hu.cfg]
    rw [decodeStep_of_alone (s := u.countCycle) hwu h.ifid hv hf (canIssue_of_empty hport h.exmem r.inst),
      State.countCycle_cfg, hu.cfg]
  have hfront : executeAndDecode ref u.countCycle = ⟨u.countCycle.issue 0 r', none⟩ := by
    simp [executeAndDecode, h.exmem, executeStep_of_empty ref (s := u.countCycle) h.idex, h.idex, hdecode]
  have hnext : oldestAt r.predNext [u.ifid.set 0 Slot.bubble] u.fetch := .inr ⟨h.ifid.clear, h.next⟩
  rw [tick_of_back_empty hu.running h.exmem h.memwb, frontEnd_of_no_flush (by rw [hfront]), hfront]
  have hlen : (u.ifid.set 0 Slot.bubble).length = u.cfg.issueWidth := by rw [List.length_set, hifid]
  exact {
    idex := by rw [fetchStep_idex]; exact alone_set_of_empty h.idex (by rwa [hidex]) r'
    exmem := by rw [fetchStep_exmem]; exact h.exmem
    memwb := by rw [fetchStep_memwb]; exact h.memwb
    next := fetchStep_oldestAt ref (s := u.countCycle.issue 0 r') hlen hwu hnext
    data := hT.fetched h.held (hT.same (sameStores.refl u) h.data)
    pred := by rw [fetchStep_pred]; exact h.pred
    held := fun hq => by
      obtain ⟨hblocked, hsame, -⟩ := fetchStep_of_blocked ref (s := u.countCycle.issue 0 r') (h.held hq)
      exact ⟨hblocked, by rw [hsame]; exact h.ifid.clear⟩ }

/-- Execute, a tick of waiting for the latency (R223). -/
theorem AtExecute.tick_waiting (hT : DataTrack quiet s D E) (hw : 1 ≤ s.cfg.issueWidth) (hu : Uncommitted s u)
    (h : AtExecute quiet s D r u) (hv : r.valid = true) (hwait : 0 < r.exRem) :
    AtExecute quiet s D { r with exRem := r.exRem - 1 } (tick ref u) := by
  obtain ⟨hifid, hidex, -, -⟩ := u.latchesSized_iff.1 hu.sized
  have hwu : 1 ≤ u.cfg.issueWidth := by rwa [hu.cfg]
  set r' : Slot := { r with exRem := r.exRem - 1 } with hr'
  have halone : alone r' (u.idex.set 0 r') := h.idex.set (by rwa [hidex]) r'
  have hturn : (executeLane ref 0 ⟨u.countCycle, none⟩).val = ⟨u.countCycle.setIdex 0 r', none⟩ := by
    simp [executeLane, h.idex.1, hv, hwait, hr']
  have hexecute : executeStep ref u.countCycle = ⟨u.countCycle.setIdex 0 r', none⟩ := by
    rw [← hturn]
    exact executeStep_of_alone ref hwu (by rw [hturn]; exact halone.2)
  have hfront : executeAndDecode ref u.countCycle = ⟨u.countCycle.setIdex 0 r', none⟩ := by
    simp [executeAndDecode, h.exmem, hexecute, halone.anyValid hv]
  rw [tick_of_back_empty hu.running h.exmem h.memwb, frontEnd_of_no_flush (by rw [hfront]), hfront]
  exact {
    idex := by rw [fetchStep_idex]; exact halone
    exmem := by rw [fetchStep_exmem]; exact h.exmem
    memwb := by rw [fetchStep_memwb]; exact h.memwb
    next := fetchStep_oldestAt ref (s := u.countCycle.setIdex 0 r') hifid hwu h.next
    data := hT.fetched (fun hq => (h.held hq).1) (hT.same (sameStores.refl u) h.data)
    pred := by rw [fetchStep_pred]; exact h.pred
    held := fun hq => by
      obtain ⟨hblocked, hsame, -⟩ := fetchStep_of_blocked ref (s := u.countCycle.setIdex 0 r') (h.held hq).1
      exact ⟨hblocked, by rw [hsame]; exact (h.held hq).2⟩ }

/-- Where the next record stands once the record has executed: at the record's `predNext`, or at the address of the flush
it asked for (R235, R170). -/
def nextAfter (s : State) (r : Slot) : Word := (recordAction s r).2.2.getD r.predNext

/-- Only a `BRANCH` asks for a flush (R235). -/
theorem recordAction_flush_of_isMem {r : Slot} (h : r.inst.cls.isMem = true) : (recordAction s r).2.2 = none := by
  simp only [recordAction, classAction]
  rcases hc : r.inst.cls with _ | _ | _ | _ | _ | _ <;> simp [hc, OpClass.isMem] at h ⊢

/-- Execute, the last tick: the record executes and moves on; a branch that was mispredicted drops what follows (R220,
R235, R170). -/
theorem AtExecute.tick_last (hT : DataTrack quiet s D E) (hw : 1 ≤ s.cfg.issueWidth) (hu : Uncommitted s u)
    (h : AtExecute quiet s D r u) (hv : r.valid = true) (hf : r.fault = .none) (hlast : r.exRem = 0) :
    AtMemory quiet D (recordAction s r).2.1.pred (nextAfter s r) (actedSlot s r) (tick ref u) := by
  obtain ⟨hifid, hidex, hexmem, -⟩ := u.latchesSized_iff.1 hu.sized
  have hwu : 1 ≤ u.cfg.issueWidth := by rwa [hu.cfg]
  set e : State := ({ u.countCycle with pred := (recordAction s r).2.1.pred } : State).passExecute 0 (actedSlot s r) with he
  have hclear : anyValid e.idex = false := h.idex.clear
  have hrecord : executeRecord ref u.countCycle 0 r (resolveOperands u.countCycle r.inst 0) = ⟨e, (recordAction s r).2.2⟩ :=
    executeRecord_of_committed (u := u.countCycle) hu.cfg h.pred hu.x hu.flags h.memwb r
  have hlate : (resolveOperands u.countCycle r.inst 0).late = false := by
    rw [resolveOperands_of_empty (s := u.countCycle) h.memwb]
    rfl
  have hturn : (executeLane ref 0 ⟨u.countCycle, none⟩).val = ⟨e, (recordAction s r).2.2⟩ := by
    simp [executeLane, h.idex.1, hv, hlast, hf, hlate, hrecord]
  have hexecute : executeStep ref u.countCycle = ⟨e, (recordAction s r).2.2⟩ := by
    rw [← hturn]
    exact executeStep_of_alone ref hwu fun k _ => by rw [hturn]; exact anyValid_eq_false.1 hclear k
  have hfront : executeAndDecode ref u.countCycle = ⟨decodeStep e, (recordAction s r).2.2⟩ := by
    simp [executeAndDecode, h.exmem, hexecute, hclear]
  have hsized : e.latchesSized = true := by
    have := (executeStep_keepsLanes ref (s := u.countCycle) hu.sized h.exmem).1
    rwa [hexecute] at this
  have hstores : sameStores u (decodeStep e) := by
    rw [show decodeStep e = _ from decodeStep_frame e]
    exact sameStores.refl u
  have hdata : D (fetchStep ref (decodeStep e)) :=
    hT.fetched (fun hq => by rw [decodeStep_fetch]; exact (h.held hq).1) (hT.same hstores h.data)
  have halone : alone (actedSlot s r) e.exmem := alone_set_of_empty h.exmem (by exact hexmem ▸ hwu) _
  have hquiet : quiet → (fetchStep ref (decodeStep e)).fetch.fetchBlocked = true ∧
      anyValid (fetchStep ref (decodeStep e)).idex = false ∧ anyValid (fetchStep ref (decodeStep e)).ifid = false := by
    intro hq
    obtain ⟨hblocked, hempty⟩ := h.held hq
    have hnone : decodeStep e = e := decodeStep_of_empty hempty
    obtain ⟨hstill, hsame, -⟩ := fetchStep_of_blocked ref (s := e) hblocked
    rw [hnone, fetchStep_idex, hsame]
    exact ⟨hstill, hclear, hempty⟩
  rw [tick_of_back_empty hu.running h.exmem h.memwb]
  rcases hflush : (recordAction s r).2.2 with _ | pc
  · rw [frontEnd_of_no_flush (by rw [hfront, hflush]), hfront]
    exact {
      exmem := by simpa using halone
      memwb := by simpa [he] using h.memwb
      next := by
        rw [nextAfter, hflush]
        exact decodeAndFetch_oldestAt ref hsized hwu hclear h.next
      data := hdata
      held := fun hq => ⟨by simp [he], (hquiet hq).2.1, (hquiet hq).2.2, fun _ => (hquiet hq).1⟩ }
  · rw [frontEnd_of_flush (by rw [hfront, hflush]), hfront]
    exact {
      exmem := by simpa using halone
      memwb := by simpa [he] using h.memwb
      next := by
        rw [nextAfter, hflush]
        exact .inr ⟨anyValid_bubbles _, .inr ⟨anyValid_bubbles _, rfl⟩⟩
      data := hT.same (flushStep_sameStores _ pc) hdata
      held := fun hq => ⟨by simp [he], anyValid_bubbles _, anyValid_bubbles _, fun hm => by
        have hmem : r.inst.cls.isMem = true := by
          rwa [actedSlot, recordAction, classAction_record] at hm
        exact absurd (hflush.symm.trans (recordAction_flush_of_isMem hmem)) (Option.some_ne_none pc)⟩ }

end

/-! ### The memory stage -/

section
variable {quiet : Prop} {s t u m : State} {D : State → Prop} {E : State → State → Prop} {r q : Slot} {p : Predictor}
  {n : Word}

theorem latchesSized_congr (hs : u.latchesSized = true) (hcfg : m.cfg = u.cfg) (h1 : m.ifid.length = u.ifid.length)
    (h2 : m.idex.length = u.idex.length) (h3 : m.exmem.length = u.exmem.length) (h4 : m.memwb.length = u.memwb.length) :
    m.latchesSized = true := by
  rw [State.latchesSized_iff] at hs ⊢
  rwa [hcfg, h1, h2, h3, h4]

/-- The front end behind a record that has just reached `MEMWB`. -/
theorem AtMemory.frontEnd_passed (hT : DataTrack quiet s D E) (hw : 1 ≤ u.cfg.issueWidth) (hsized : u.latchesSized = true)
    (h : AtMemory quiet (E t) p n r u) (q : Slot) : AtWriteback quiet (E t) p n q (frontEnd ref (u.passMemory 0 q)) := by
  obtain ⟨-, -, -, hmemwb⟩ := u.latchesSized_iff.1 hsized
  have hsized' : (u.passMemory 0 q).latchesSized = true :=
    latchesSized_congr hsized rfl rfl rfl (List.length_set ..) (List.length_set ..)
  have hempty : anyValid (u.passMemory 0 q).exmem = false := h.exmem.clear
  exact {
    memwb := by rw [frontEnd_memwb]; exact alone_set_of_empty h.memwb (by rwa [hmemwb]) q
    next := frontEnd_oldestAt ref hsized' hw (.inr ⟨hempty, h.next⟩)
    data := hT.matchFrontEnd (hT.matchSame (sameStores.refl t) (sameStores.refl u) h.data)
    held := fun hq => by
      obtain ⟨hpred, hidex, hifid, -⟩ := h.held hq
      rw [frontEnd_of_empty ref (s := u.passMemory 0 q) hidex hifid, fetchStep_pred, fetchStep_exmem, fetchStep_idex]
      exact ⟨hpred, hempty, hidex⟩ }

/-- The front end behind a memory-class record that waits in `EXMEM`. -/
theorem AtMemory.frontEnd_waiting (hT : DataTrack quiet s D E) (hw : 1 ≤ u.cfg.issueWidth) (hsized : u.latchesSized = true)
    (h : AtMemory quiet (E t) p n r u) (hmem : r.inst.cls.isMem = true) (hv : q.valid = true) :
    AtMemory quiet (E t) p n q (frontEnd ref (u.setExmem 0 q)) := by
  obtain ⟨hifid, -, hexmem, -⟩ := u.latchesSized_iff.1 hsized
  have halone : alone q (u.setExmem 0 q).exmem := h.exmem.set (by rwa [hexmem]) q
  rw [frontEnd_of_exmem ref (halone.anyValid hv)]
  exact {
    exmem := by rw [fetchStep_exmem]; exact halone
    memwb := by rw [fetchStep_memwb]; exact h.memwb
    next := by
      rw [fetchStep_idex]
      exact h.next.mono fun hrest => fetchStep_oldestAt ref (s := u.setExmem 0 q) hifid hw hrest
    data := hT.matchFetched (hT.matchSame (sameStores.refl t) (sameStores.refl u) h.data)
    held := fun hq => by
      obtain ⟨hpred, hidex, hempty, hblocked⟩ := h.held hq
      obtain ⟨hstill, hsame, -⟩ := fetchStep_of_blocked ref (s := u.setExmem 0 q) (hblocked hmem)
      rw [fetchStep_pred, fetchStep_idex, hsame]
      exact ⟨hpred, hidex, hempty, fun _ => hstill⟩ }

/-- A memory-class record after its access, or after a tick of waiting: it waits on, or it moves on (R200, R204). -/
theorem AtMemory.settle (hT : DataTrack quiet s D E) (hw : 1 ≤ u.cfg.issueWidth) (hsized : u.latchesSized = true)
    (h : AtMemory quiet (E t) p n r u) (hmem : r.inst.cls.isMem = true) (hv : q.valid = true) (started : Nat) :
    (0 < q.memRem ∧ AtMemory quiet (E t) p n q (frontEnd ref (settleMem ⟨u, started⟩ 0 q).val.st)) ∨
      (q.memRem = 0 ∧ AtWriteback quiet (E t) p n q (frontEnd ref (settleMem ⟨u, started⟩ 0 q).val.st)) := by
  obtain ⟨hwait, e⟩ | ⟨hdone, e⟩ := settleMem_cases ⟨u, started⟩ 0 q <;> rw [e]
  · exact .inl ⟨hwait, h.frontEnd_waiting hT hw hsized hmem hv⟩
  · exact .inr ⟨hdone, h.frontEnd_passed hT hw hsized q⟩

theorem settleMem_status (p : MemPass) (lane : Nat) (q : Slot) : (settleMem p lane q).val.st.status = p.st.status := by
  obtain ⟨-, e⟩ | ⟨-, e⟩ := settleMem_cases p lane q <;> rw [e] <;> rfl

theorem settleMem_exmem_later (p : MemPass) (q : Slot) {k : Nat} (hk : 1 ≤ k) :
    slotAt (settleMem p 0 q).val.st.exmem k = slotAt p.st.exmem k := by
  obtain ⟨-, e⟩ | ⟨-, e⟩ := settleMem_cases p 0 q <;> rw [e]
  · exact slotAt_set_of_ne (by omega)
  · exact slotAt_set_of_ne (by omega)

end

end Sys2Proof.Machine
end

section
/-!
PROOFS. Ticks add up to `exec` (`spec/40_operation_classes.md` R120, R146; `spec/41_pipeline_orchestrator.md` R160): the
record of an instruction, alone in its group with nothing older in flight, ends as `exec` ends. Going backwards from
writeback, each stage reaches what the next stage reaches; per class the record retires, or ends the run, as `exec` says.
-/

namespace Sys2Proof.Machine

/-! ## What is reached -/

/-- The state shows what the end `t` of the instruction shows; where nothing follows the instruction, it also has the
predictor, the data and the status of `t`. -/
structure Agrees (quiet : Prop) (E : State → State → Prop) (t v : State) : Prop where
  x : v.x = t.x
  flags : v.flags = t.flags
  retired : v.stats.retired = t.stats.retired
  pc : v.pc = t.pc
  ended : t.status ≠ .running → sameEnd v.status t.status
  whole : quiet → v.pred = t.pred ∧ E t v ∧ sameEnd v.status t.status

/-- After some tick the data is that of `t`, and after some tick, not before, the state agrees with `t`. -/
def reaches (quiet : Prop) (E : State → State → Prop) (t u : State) : Prop :=
  ∃ j k, j ≤ k ∧ E t (ticks ref j u) ∧ Agrees quiet E t (ticks ref k u)

/-- The end of an instruction whose record retires with the next record standing at `n`. -/
structure RetiresTo (s : State) (p : Predictor) (n : Word) (r : Slot) (t : State) : Prop where
  x : t.x = (s.setDest (retireDest r) r.result).x
  flags : t.flags = if r.setsFlags then r.flags else s.flags
  retired : t.stats.retired = s.stats.retired + 1
  pc : t.pc = n
  pred : t.pred = p
  running : t.status = .running

section
variable {quiet : Prop} {s t u : State} {D : State → Prop} {E : State → State → Prop} {r : Slot} {p : Predictor} {n : Word}

theorem reaches.of_tick (h : reaches quiet E t (tick ref u)) : reaches quiet E t u := by
  obtain ⟨j, k, hjk, hdata, hagrees⟩ := h
  exact ⟨j + 1, k + 1, Nat.succ_le_succ hjk, hdata, hagrees⟩

theorem setDest_x_congr (hx : u.x = s.x) (q : Option Reg) (v : Word) : (u.setDest q v).x = (s.setDest q v).x := by
  cases q with
  | none => exact hx
  | some reg => simp [hx]

/-- The last tick: writeback commits the record (R190 to R193). -/
theorem AtWriteback.reaches (hT : DataTrack quiet s D E) (hw : 1 ≤ s.cfg.issueWidth) (hu : Uncommitted s u)
    (h : AtWriteback quiet (E t) p n r u) (hv : r.valid = true) (ht : RetiresTo s p n r t) : reaches quiet E t u := by
  have hwu : 1 ≤ u.cfg.issueWidth := by rwa [hu.cfg]
  obtain ⟨hx, hflags, hretired⟩ := tick_committed ref hu.running
  rw [writebackStep_of_alone hwu h.memwb hv] at hx hflags hretired
  refine ⟨0, 1, Nat.zero_le 1, h.data, ?_⟩
  exact {
    x := by
      rw [ht.x, ← setDest_x_congr hu.x]
      exact hx.trans (State.commit_x ..)
    flags := by
      rw [ht.flags, ← hu.flags]
      exact hflags.trans (State.commit_flags ..)
    retired := by
      rw [ht.retired, ← hu.retired]
      exact hretired.trans (congrArg Stats.retired (State.commit_stats ..))
    pc := (tick_pc ref hu.running hu.sized hwu h.next).trans ht.pc.symm
    ended := fun hne => absurd ht.running hne
    whole := fun hq => by
      obtain ⟨hpred, hexmem, hidex⟩ := h.held hq
      have hmemory : memoryStep ref (writebackStep u.countCycle) = writebackStep u.countCycle :=
        memoryStep_of_empty ref (by simpa using hexmem)
      have hstatus : (writebackStep u.countCycle).status = .running := by
        rw [show writebackStep u.countCycle = _ from writebackStep_frame _]
        exact hu.running
      have htick : ticks ref 1 u = frontEnd ref (writebackStep u.countCycle) := by
        show tick ref u = _
        rw [tick_running ref hu.running, hmemory, if_pos hstatus]
      have hstores : sameStores u (writebackStep u.countCycle) := by
        rw [show writebackStep u.countCycle = _ from writebackStep_frame _]
        exact sameStores.refl u
      rw [htick]
      refine ⟨?_, hT.matchFrontEnd (hT.matchSame (sameStores.refl t) hstores h.data), ?_⟩
      · rw [frontEnd_pred_of_idle ref (by simpa using hidex), writebackStep_pred]
        exact hpred.trans ht.pred.symm
      · rw [frontEnd_status, hstatus, ht.running]
        rfl }

/-! ## The memory stage -/

/-- Latches, fetch unit and predictor are the same. -/
def samePipeline (s t : State) : Prop :=
  t.ifid = s.ifid ∧ t.idex = s.idex ∧ t.exmem = s.exmem ∧ t.memwb = s.memwb ∧ t.fetch = s.fetch ∧ t.pred = s.pred

theorem samePipeline.refl (s : State) : samePipeline s s := ⟨rfl, rfl, rfl, rfl, rfl, rfl⟩

theorem samePipeline_of_onlyData {m : State} (h : onlyDataChanged u m) : samePipeline u m := by
  rw [show m = _ from h]
  exact samePipeline.refl u

theorem AtMemory.congr {A : State → Prop} {m : State} (h : AtMemory quiet D p n r u) (hm : samePipeline u m) (hA : A m) :
    AtMemory quiet A p n r m := by
  obtain ⟨h1, h2, h3, h4, h5, h6⟩ := hm
  exact {
    exmem := by rw [h3]; exact h.exmem
    memwb := by rw [h4]; exact h.memwb
    next := by rw [h1, h2, h5]; exact h.next
    data := hA
    held := by rw [h1, h2, h5, h6]; exact h.held }

/-- The tick of a record in `EXMEM`: its turn in lane 0, and the front end where the run goes on. -/
theorem AtMemory.tick_eq (hw : 1 ≤ s.cfg.issueWidth) (hu : Uncommitted s u) (h : AtMemory quiet D p n r u) {m : State}
    (hturn : (memoryLane ref 0 ⟨u.countCycle, 0⟩).val.st = m)
    (hlater : ∀ k, 1 ≤ k → slotAt m.exmem k = slotAt u.exmem k) :
    tick ref u = if m.status = .running then frontEnd ref m else m := by
  have hwu : 1 ≤ u.cfg.issueWidth := by rwa [hu.cfg]
  have hmemory : memoryStep ref u.countCycle = m := by
    rw [memoryStep_of_alone ref (s := u.countCycle) hwu, hturn]
    intro k hk
    rw [hturn, hlater k hk]
    exact h.exmem.2 k hk
  rw [tick_of_empty hu.running h.memwb, hmemory]

/-- A record that only passes through the memory stage (R200, R206). -/
theorem AtMemory.reaches_of_pass (hT : DataTrack quiet s D E) (hw : 1 ≤ s.cfg.issueWidth) (hu : Uncommitted s u)
    (h : AtMemory quiet (E t) p n r u) {q : Slot} (hv : q.valid = true)
    (hturn : memoryLane ref 0 ⟨u.countCycle, 0⟩ = .go ⟨u.countCycle.passMemory 0 q, 0⟩) (ht : RetiresTo s p n q t) :
    reaches quiet E t u := by
  have htick : tick ref u = frontEnd ref (u.countCycle.passMemory 0 q) := by
    rw [h.tick_eq hw hu (m := u.countCycle.passMemory 0 q) (by rw [hturn, LaneStep.val_go])
      fun k hk => slotAt_set_of_ne (by omega)]
    exact if_pos hu.running
  have hrun : (tick ref u).status = .running := by
    rw [htick, frontEnd_status]
    exact hu.running
  have hcycle : AtMemory quiet (E t) p n r u.countCycle :=
    h.congr (samePipeline.refl u) (hT.matchSame (sameStores.refl t) (sameStores.refl u) h.data)
  have hwriteback : AtWriteback quiet (E t) p n q (tick ref u) := by
    rw [htick]
    exact AtMemory.frontEnd_passed (u := u.countCycle) hT (by exact hu.cfg ▸ hw) hu.sized hcycle q
  exact (hwriteback.reaches hT hw (hu.tick h.memwb hrun) hv ht).of_tick

/-- A record that ends the run in the memory stage (R202, R207): nothing is committed, and the program counter is still its
own. -/
theorem AtMemory.reaches_of_end (hT : DataTrack quiet s D E) (hw : 1 ≤ s.cfg.issueWidth) (hu : Uncommitted s u)
    (h : AtMemory quiet (E s) s.pred n r u) (hv : r.valid = true) (hpc : r.pc = s.pc) {st st' : Status}
    (hst : st ≠ .running) (hend : sameEnd st st')
    (hturn : memoryLane ref 0 ⟨u.countCycle, 0⟩ = .stop ⟨{ u.countCycle with status := st }, 0⟩) :
    reaches quiet E { s with status := st' } u := by
  have htick : ticks ref 1 u = { u.countCycle with status := st } := by
    show tick ref u = _
    rw [h.tick_eq hw hu (m := { u.countCycle with status := st }) (by rw [hturn, LaneStep.val_stop]) fun _ _ => rfl]
    exact if_neg hst
  have hdata : E { s with status := st' } (ticks ref 1 u) := by
    rw [htick]
    exact hT.matchSame (sameStores.refl s) (sameStores.refl u) h.data
  refine ⟨1, 1, Nat.le_refl 1, hdata, ?_⟩
  rw [htick] at hdata ⊢
  have hmine : oldestAt s.pc [u.memwb, u.exmem, u.idex, u.ifid] u.fetch :=
    .inr ⟨h.memwb, .inl (hpc ▸ h.exmem.leadsAt hv)⟩
  exact {
    x := hu.x
    flags := hu.flags
    retired := hu.retired
    pc := State.pc_of_oldestAt (s := { u.countCycle with status := st }) hmine
    ended := fun _ => hend
    whole := fun hq => ⟨(h.held hq).1, hdata, hend⟩ }

theorem memoryLane_of_isMem {q : MemPass} (hr : slotAt q.st.exmem 0 = r) (hv : r.valid = true) (hf : r.fault = .none)
    (hm : r.inst.cls.isMem = true) : memoryLane ref 0 q = memClassLane q 0 r := by
  simp only [memoryLane, hr, hv, if_true, poisonError_eq_none_iff.2 hf]
  rcases hc : r.inst.cls with _ | _ | _ | _ | _ | _ <;> simp [hc, OpClass.isMem] at hm ⊢

/-- The tick of a memory-class record whose turn ends in `settleMem` with the data of `t`: it waits on in `EXMEM`, or it moves
on (R200, R204). -/
theorem AtMemory.tick_settle (hT : DataTrack quiet s D E) (hw : 1 ≤ s.cfg.issueWidth) (hu : Uncommitted s u)
    {A : State → Prop} (h : AtMemory quiet A p n r u) (hm : r.inst.cls.isMem = true) {m : State} {started : Nat} {q : Slot}
    (hdata : onlyDataChanged u.countCycle m) (hE : E t m) (hv : q.valid = true)
    (hturn : memoryLane ref 0 ⟨u.countCycle, 0⟩ = settleMem ⟨m, started⟩ 0 q) :
    Uncommitted s (tick ref u) ∧ ((0 < q.memRem ∧ AtMemory quiet (E t) p n q (tick ref u)) ∨
      (q.memRem = 0 ∧ AtWriteback quiet (E t) p n q (tick ref u))) := by
  have hsame : samePipeline u m := samePipeline_of_onlyData (u := u.countCycle) hdata
  have ⟨hifid, hidex, hexmem, hmemwb, _, _⟩ := hsame
  have hcfg : m.cfg = u.cfg := by rw [show m = _ from hdata]; rfl
  have hstatus : m.status = .running := by rw [show m = _ from hdata]; exact hu.running
  have hsized : m.latchesSized = true := latchesSized_congr hu.sized hcfg (by rw [hifid]) (by rw [hidex]) (by rw [hexmem])
    (by rw [hmemwb])
  have htick : tick ref u = frontEnd ref (settleMem ⟨m, started⟩ 0 q).val.st := by
    rw [h.tick_eq hw hu (by rw [hturn]) fun k hk => (settleMem_exmem_later _ q hk).trans (by rw [hexmem]),
      if_pos (by rw [settleMem_status, hstatus])]
  have hrun : (tick ref u).status = .running := by rw [htick, frontEnd_status, settleMem_status, hstatus]
  refine ⟨hu.tick h.memwb hrun, ?_⟩
  rw [htick]
  exact (h.congr hsame hE).settle hT (by rwa [hcfg, hu.cfg]) hsized hm hv started

/-- A memory-class record whose access is done retires after the ticks it still has to wait (R204). -/
theorem AtMemory.reaches_of_settle (hT : DataTrack quiet s D E) (hw : 1 ≤ s.cfg.issueWidth) {A : State → Prop}
    (hu : Uncommitted s u) (h : AtMemory quiet A p n r u) (hm : r.inst.cls.isMem = true) {m : State} {started : Nat}
    {q : Slot} (hdata : onlyDataChanged u.countCycle m) (hE : E t m)
    (hturn : memoryLane ref 0 ⟨u.countCycle, 0⟩ = settleMem ⟨m, started⟩ 0 q) (hv : q.valid = true) (hf : q.fault = .none)
    (hinst : q.inst = r.inst) (hstarted : q.memStarted = true) (ht : RetiresTo s p n q t) : reaches quiet E t u := by
  induction hwait : q.memRem generalizing r q u m started A with
  | zero =>
    obtain ⟨hu', ⟨hpos, -⟩ | ⟨-, h'⟩⟩ := h.tick_settle hT hw hu hm hdata hE hv hturn
    · omega
    · exact (h'.reaches hT hw hu' hv ht).of_tick
  | succ wait ih =>
    obtain ⟨hu', ⟨-, h'⟩ | ⟨hzero, -⟩⟩ := h.tick_settle hT hw hu hm hdata hE hv hturn
    · have hm' : q.inst.cls.isMem = true := by rwa [hinst]
      have hturn' : memoryLane ref 0 ⟨(tick ref u).countCycle, 0⟩ =
          settleMem ⟨(tick ref u).countCycle, 0⟩ 0 { q with memRem := q.memRem - 1 } := by
        rw [memoryLane_of_isMem (q := ⟨(tick ref u).countCycle, 0⟩) h'.exmem.1 hv hf hm', memClassLane, if_pos hstarted]
      have hE' : E t (tick ref u).countCycle := hT.matchSame (sameStores.refl t) (countCycle_sameStores _) h'.data
      exact (ih hu' h' hm' (onlyDataChanged.refl _) hE' hturn' hv hf rfl hstarted
        { x := ht.x, flags := ht.flags, retired := ht.retired, pc := ht.pc, pred := ht.pred, running := ht.running }
        (by simp [hwait])).of_tick
    · omega

end

/-! ## From decode to memory -/

section
variable {quiet : Prop} {s t u : State} {D : State → Prop} {E : State → State → Prop} {r : Slot}

/-- A record in `IDEX` executes after the ticks of its latency (R223). -/
theorem AtExecute.reaches (hT : DataTrack quiet s D E) (hw : 1 ≤ s.cfg.issueWidth) (hv : r.valid = true)
    (hf : r.fault = .none) {wait : Nat} (hu : Uncommitted s u) (h : AtExecute quiet s D { r with exRem := wait } u)
    (hnext : ∀ v, Uncommitted s v →
      AtMemory quiet D (recordAction s { r with exRem := 0 }).2.1.pred (nextAfter s { r with exRem := 0 })
        (actedSlot s { r with exRem := 0 }) v → reaches quiet E t v) : reaches quiet E t u := by
  induction wait generalizing u with
  | zero =>
    exact (hnext _ (hu.tick_of_back_empty h.exmem h.memwb) (h.tick_last hT hw hu hv hf rfl)).of_tick
  | succ wait ih =>
    exact (ih (hu.tick_of_back_empty h.exmem h.memwb) (h.tick_waiting hT hw hu hv (Nat.succ_pos wait))).of_tick

/-- A record in `IFID` reaches what it reaches from `EXMEM`. -/
theorem AtDecode.reaches (hT : DataTrack quiet s D E) (hw : 1 ≤ s.cfg.issueWidth) (hp : 1 ≤ s.cfg.memPorts)
    (hv : r.valid = true) (hf : r.fault = .none) (hu : Uncommitted s u) (h : AtDecode quiet s D r u)
    (hnext : ∀ v, Uncommitted s v →
      AtMemory quiet D (recordAction s { r with exRem := 0 }).2.1.pred (nextAfter s { r with exRem := 0 })
        (actedSlot s { r with exRem := 0 }) v → reaches quiet E t v) : reaches quiet E t u :=
  ((h.tick hT hw hp hu hv hf).reaches hT hw hv hf (hu.tick_of_back_empty h.exmem h.memwb) hnext).of_tick

end

/-! ## What retires, per class -/

section
variable {s : State} {i : Instr} {next : Word}

/-- The state after a commit and an advance, of a state in which only data caches and main memory have changed. -/
theorem retiresTo_commit {d : State} (hs : s.status = .running) (hd : onlyDataChanged s d) {q : Slot} {f : Nzcv}
    (hf : q.fault = .none) (hflags : q.setsFlags = true → q.flags = f) :
    RetiresTo s s.pred (s.pc + s.ib) q ((d.commit (diwDest q.inst) q.result q.setsFlags f).advance s.pc) := by
  have hdest : retireDest q = diwDest q.inst := if_pos hf
  have hd' : d = _ := hd
  exact {
    x := by
      rw [hdest, State.advance_x, State.commit_x]
      exact setDest_x_congr (by rw [hd']) _ _
    flags := by
      rw [State.advance_flags, State.commit_flags, show d.flags = s.flags by rw [hd']]
      cases hsets : q.setsFlags with
      | false => rfl
      | true => simp [hflags hsets]
    retired := by rw [State.advance_stats, State.commit_stats, hd']
    pc := by rw [State.pc_advance, State.ib_eq_of_cfg (t := d.commit _ _ _ _) (s := s) (by rw [State.commit_cfg, hd'])]
    pred := by rw [State.advance_pred, State.commit_pred, hd']
    running := by rw [State.advance_status, State.commit_status, hd']; exact hs }

end

end Sys2Proof.Machine
end

section
/-!
PROOFS. Ticks add up to `exec`, class by class (`spec/40_operation_classes.md` R120, R146). For each class the record as it
enters `EXMEM` and its turn in the memory stage are written out, and what they commit is what `exec` commits.
-/

namespace Sys2Proof.Machine

/-! ## The turn in the memory stage, per class -/

section
variable {p : MemPass} {q : Slot}

theorem memoryLane_of_pass (hq : slotAt p.st.exmem 0 = q) (hv : q.valid = true) (hf : q.fault = .none)
    (hc : q.inst.cls = .arith ∨ q.inst.cls = .mul ∨ q.inst.cls = .branch) :
    memoryLane ref 0 p = .go { p with st := p.st.passMemory 0 q } := by
  simp only [memoryLane, hq, hv, if_true, poisonError_eq_none_iff.2 hf]
  rcases hc with hc | hc | hc <;> rw [hc]

theorem memoryLane_of_exit (hq : slotAt p.st.exmem 0 = q) (hv : q.valid = true) (hf : q.fault = .none)
    (hc : q.inst.cls = .syscall) {code : Word} (hsys : ref.sys q.a q.b q.c = .exit code) :
    memoryLane ref 0 p = .stop { p with st := p.st.halt code } := by
  simp only [memoryLane, hq, hv, if_true, poisonError_eq_none_iff.2 hf, hc, hsys]

theorem memoryLane_of_return (hq : slotAt p.st.exmem 0 = q) (hv : q.valid = true) (hf : q.fault = .none)
    (hc : q.inst.cls = .syscall) {v : Word} (hsys : ref.sys q.a q.b q.c = .ret v) :
    memoryLane ref 0 p = .go { p with st := p.st.passMemory 0 { q with result := v } } := by
  simp only [memoryLane, hq, hv, if_true, poisonError_eq_none_iff.2 hf, hc, hsys]

theorem memClassLane_of_outOfBounds (hp : p.started ≠ p.st.cfg.memPorts) (hfresh : q.memStarted = false)
    (hout : ¬p.st.inBounds q.addr (accessBytes q.inst.msize) = true) :
    memClassLane p 0 q = .stop { p with st := p.st.raise (.dataOutOfBounds q.addr p.st.stats.cycles) } := by
  rw [memClassLane, if_neg (by simp [hfresh]), if_neg hp, if_neg hout]

/-- The record after its access has started (R200, R201). -/
def startedSlot (s : State) (q : Slot) : Slot :=
  { (accessMem s q).1 with memStarted := true, memRem := max (accessMem s q).2.1 1 - 1 }

theorem memClassLane_of_inBounds (hp : p.started ≠ p.st.cfg.memPorts) (hfresh : q.memStarted = false)
    (hin : p.st.inBounds q.addr (accessBytes q.inst.msize) = true) :
    memClassLane p 0 q = settleMem ⟨(accessMem p.st q).2.2, p.started + 1⟩ 0 (startedSlot p.st q) := by
  rw [memClassLane, if_neg (by simp [hfresh]), if_neg hp, if_pos hin]
  rfl

end

/-! ## The record as it enters the memory stage -/

/-- The record of an instruction as fetch delivers it from the program counter. -/
def firstSlot (s : State) (i : Instr) (next : Word) : Slot := freshSlot s.pc i.toDiw next

/-- That record with its operands. -/
def operandSlot (s : State) (i : Instr) (next : Word) : Slot :=
  { firstSlot s i next with
    a := (recordOperands s i.toDiw).a, b := (recordOperands s i.toDiw).b, c := (recordOperands s i.toDiw).c }

/-- The result and the flags of an `ARITH` or `MUL` record. -/
def recordResult (s : State) (d : Diw) : Word × Nzcv :=
  ref.execFn d.cls d.fn (recordOperands s d).a (recordOperands s d).b d.cond (recordFlags s d)

/-- The outcome of a `BRANCH` record. -/
def recordOutcome (s : State) (d : Diw) : BranchOutcome :=
  branchOutcome (branchTaken ref d (recordFlags s d)) (branchTarget d s.pc (recordOperands s d).a) (s.pc + s.ib)

section
variable {s : State} {i : Instr} {next : Word}

theorem recordAction_of_alu (hc : i.toDiw.cls = .arith ∨ i.toDiw.cls = .mul) :
    recordAction s (firstSlot s i next) =
      ({ operandSlot s i next with
          result := (recordResult s i.toDiw).1
          flags := if i.toDiw.setsFlags then (recordResult s i.toDiw).2 else 0 }, s, none) := by
  rcases hc with hc | hc <;> simp [recordAction, classAction, firstSlot, freshSlot, hc, operandSlot, recordResult] <;> rfl

theorem recordAction_of_isMem (hc : i.toDiw.cls.isMem = true) :
    recordAction s (firstSlot s i next) = ({ operandSlot s i next with addr := recordAddr s i.toDiw }, s, none) := by
  have hcls : i.toDiw.cls = .load ∨ i.toDiw.cls = .store := by
    rcases h : i.toDiw.cls with _ | _ | _ | _ | _ | _ <;> simp [h, OpClass.isMem] at hc ⊢
  rcases hcls with hcls | hcls <;> simp [recordAction, classAction, firstSlot, freshSlot, hcls, operandSlot, recordAddr]

theorem recordAction_of_syscall (hc : i.toDiw.cls = .syscall) :
    recordAction s (firstSlot s i next) = (operandSlot s i next, s, none) := by
  simp [recordAction, classAction, firstSlot, freshSlot, hc, operandSlot]

/-- What a branch does to its record: the link value and the flags it sets (R235). -/
theorem resolveBranch_eq (F : CoreFns) (s : State) (r : Slot) (a : Word) (fl : Nzcv) :
    let o := branchOutcome (branchTaken F r.inst fl) (branchTarget r.inst r.pc a) (r.pc + s.ib)
    resolveBranch F s r a fl =
      ({ r with
          result := if r.inst.link then r.pc + s.ib else r.result
          flags := if r.inst.setsFlags then fl else r.flags },
        s.updatePredictor r.pc o.taken o.target, if o.next = r.predNext then none else some o.next) := by
  unfold resolveBranch
  cases hlink : r.inst.link <;> cases hsets : r.inst.setsFlags <;> simp [hlink, hsets]

theorem recordAction_of_branch (hc : i.toDiw.cls = .branch) :
    recordAction s (firstSlot s i next) =
      ({ operandSlot s i next with
          result := if i.toDiw.link then s.pc + s.ib else 0
          flags := if i.toDiw.setsFlags then recordFlags s i.toDiw else 0 },
        s.updatePredictor s.pc (recordOutcome s i.toDiw).taken (recordOutcome s i.toDiw).target,
        if (recordOutcome s i.toDiw).next = next then none else some (recordOutcome s i.toDiw).next) := by
  have hclass : (firstSlot s i next).inst.cls = .branch := hc
  simp only [recordAction, classAction, hclass]
  exact resolveBranch_eq ref s _ _ _

end

/-! ## Each class reaches what `exec` gives -/

/-- What the record of an instruction reaches from `EXMEM` on, wherever it stands there. -/
def reachesFromMemory (quiet : Prop) (s : State) (D : State → Prop) (E : State → State → Prop) (i : Instr) (next : Word)
    (t : State) : Prop :=
  ∀ v, Uncommitted s v →
    AtMemory quiet D (recordAction s (firstSlot s i next)).2.1.pred (nextAfter s (firstSlot s i next))
      (actedSlot s (firstSlot s i next)) v → reaches quiet E t v

theorem advance_commit_sameStores (s : State) (rd : Option Reg) (v : Word) (b : Bool) (f : Nzcv) (pc : Word) :
    sameStores s ((s.commit rd v b f).advance pc) := by
  simp [sameStores]

theorem finishBranch_sameStores (s : State) (o : BranchOutcome) (rd : Option Reg) (sets : Bool) (f : Nzcv) :
    sameStores s (s.finishBranch o rd sets f) := by
  simp [sameStores, State.finishBranch]

section
variable {quiet : Prop} {s t : State} {D : State → Prop} {E : State → State → Prop} {i : Instr} {next : Word}

/-- The class action written out. -/
theorem reachesFromMemory_of {q : Slot} {s' : State} {flush : Option Word}
    (haction : recordAction s (firstSlot s i next) = (q, s', flush))
    (h : ∀ v, Uncommitted s v →
      AtMemory quiet D s'.pred (flush.getD next) { q with setsFlags := i.toDiw.setsFlags } v → reaches quiet E t v) :
    reachesFromMemory quiet s D E i next t := by
  intro v hu hv
  rw [nextAfter, actedSlot, haction] at hv
  exact h v hu hv

theorem reachesFromMemory_alu (hT : DataTrack quiet s D E) (hw : 1 ≤ s.cfg.issueWidth) (hs : s.status = .running)
    (hc : i.toDiw.cls = .arith ∨ i.toDiw.cls = .mul) (hnext : next = s.pc + s.ib) :
    reachesFromMemory quiet s D E i next (s.finishAlu (diwDest i.toDiw) i.toDiw.setsFlags (recordResult s i.toDiw)) := by
  refine reachesFromMemory_of (recordAction_of_alu hc) fun v hu h => ?_
  have hdata : E (s.finishAlu (diwDest i.toDiw) i.toDiw.setsFlags (recordResult s i.toDiw)) v :=
    hT.matchSame (advance_commit_sameStores s _ _ _ _ _) (sameStores.refl v) (hT.start h.data)
  have hmine := h.congr (samePipeline.refl v) hdata
  have hpass : i.toDiw.cls = .arith ∨ i.toDiw.cls = .mul ∨ i.toDiw.cls = .branch := hc.imp_right .inl
  subst hnext
  exact hmine.reaches_of_pass hT hw hu rfl (memoryLane_of_pass (p := ⟨v.countCycle, 0⟩) hmine.exmem.1 rfl rfl hpass)
    (retiresTo_commit hs (onlyDataChanged.refl s) rfl fun hsets => if_pos hsets)

/-- The end of a branch, in the terms of its record. -/
theorem retiresTo_finishBranch (hs : s.status = .running) (o : BranchOutcome) {q : Slot} {f : Nzcv} (hf : q.fault = .none)
    (hlink : diwDest q.inst = none ∨ q.result = s.pc + s.ib) (hflags : q.setsFlags = true → q.flags = f) :
    RetiresTo s (predictorUpdate s.cfg s.pred s.pc o.taken o.target) o.next q
      (s.finishBranch o (diwDest q.inst) q.setsFlags f) := by
  have hdest : retireDest q = diwDest q.inst := if_pos hf
  exact {
    x := by
      rw [State.finishBranch, State.setPc_x, State.commit_x, hdest]
      rcases hlink with hnone | hresult
      · rw [hnone]
        rfl
      · rw [hresult]
        exact setDest_x_congr (u := s.updatePredictor s.pc o.taken o.target) (s := s) rfl _ _
    flags := by
      rw [State.finishBranch, State.setPc_flags, State.commit_flags]
      cases hsets : q.setsFlags with
      | false => rfl
      | true => simp [hflags hsets]
    retired := by rw [State.finishBranch, State.setPc_stats, State.commit_stats]; rfl
    pc := State.pc_setPc _ _
    pred := by rw [State.finishBranch, State.setPc_pred, State.commit_pred]; rfl
    running := by rw [State.finishBranch, State.setPc_status, State.commit_status]; exact hs }

/-- A `BRANCH` record has a destination only if it links (R99). -/
theorem diwDest_of_not_link (hc : i.toDiw.cls = .branch) (h : i.toDiw.link = false) : diwDest i.toDiw = none := by
  cases i
  case b | br | bCond | cbCond => rfl
  case bl | blr => exact absurd h.symm Bool.false_ne_true
  all_goals simp [Instr.toDiw, Diw.ofAlu] at hc

theorem reachesFromMemory_branch (hT : DataTrack quiet s D E) (hw : 1 ≤ s.cfg.issueWidth) (hs : s.status = .running)
    (hc : i.toDiw.cls = .branch) :
    reachesFromMemory quiet s D E i next
      (s.finishBranch (recordOutcome s i.toDiw) (diwDest i.toDiw) i.toDiw.setsFlags (recordFlags s i.toDiw)) := by
  refine reachesFromMemory_of (recordAction_of_branch hc) fun v hu h => ?_
  have hdata : E (s.finishBranch (recordOutcome s i.toDiw) (diwDest i.toDiw) i.toDiw.setsFlags (recordFlags s i.toDiw)) v :=
    hT.matchSame (finishBranch_sameStores s _ _ _ _) (sameStores.refl v) (hT.start h.data)
  have hnext : (if (recordOutcome s i.toDiw).next = next then none else some (recordOutcome s i.toDiw).next).getD next =
      (recordOutcome s i.toDiw).next := by
    split_ifs with heq
    · exact heq.symm
    · rfl
  rw [hnext] at h
  have hmine := h.congr (samePipeline.refl v) hdata
  have hlink : diwDest i.toDiw = none ∨ (if i.toDiw.link = true then s.pc + s.ib else 0) = s.pc + s.ib := by
    cases hlink : i.toDiw.link with
    | false => exact .inl (diwDest_of_not_link hc hlink)
    | true => exact .inr rfl
  exact hmine.reaches_of_pass hT hw hu rfl
    (memoryLane_of_pass (p := ⟨v.countCycle, 0⟩) hmine.exmem.1 rfl rfl (.inr (.inr hc)))
    (retiresTo_finishBranch hs (recordOutcome s i.toDiw) rfl hlink fun hsets => if_pos hsets)

theorem reachesFromMemory_return (hT : DataTrack quiet s D E) (hw : 1 ≤ s.cfg.issueWidth) (hs : s.status = .running)
    (hc : i.toDiw.cls = .syscall) {value : Word}
    (hsys : ref.sys (recordOperands s i.toDiw).a (recordOperands s i.toDiw).b (recordOperands s i.toDiw).c = .ret value)
    (hnext : next = s.pc + s.ib) :
    reachesFromMemory quiet s D E i next ((s.commit (diwDest i.toDiw) value false 0).advance s.pc) := by
  refine reachesFromMemory_of (recordAction_of_syscall hc) fun v hu h => ?_
  have hdata : E ((s.commit (diwDest i.toDiw) value false 0).advance s.pc) v :=
    hT.matchSame (advance_commit_sameStores s _ _ _ _ _) (sameStores.refl v) (hT.start h.data)
  have hmine := h.congr (samePipeline.refl v) hdata
  rw [toDiw_setsFlags (.inr (.inr hc))] at hmine
  subst hnext
  exact hmine.reaches_of_pass hT hw hu rfl
    (memoryLane_of_return (p := ⟨v.countCycle, 0⟩) hmine.exmem.1 rfl rfl hc hsys)
    (retiresTo_commit hs (onlyDataChanged.refl s) rfl fun hsets => absurd hsets Bool.false_ne_true)

theorem reachesFromMemory_exit (hT : DataTrack quiet s D E) (hw : 1 ≤ s.cfg.issueWidth) (hc : i.toDiw.cls = .syscall)
    {code : Word}
    (hsys : ref.sys (recordOperands s i.toDiw).a (recordOperands s i.toDiw).b (recordOperands s i.toDiw).c = .exit code) :
    reachesFromMemory quiet s D E i next (s.halt code) := by
  refine reachesFromMemory_of (recordAction_of_syscall hc) fun v hu h => ?_
  have hmine := h.congr (samePipeline.refl v) (hT.start h.data)
  exact hmine.reaches_of_end hT hw hu rfl rfl (st := .halted code) (fun hne => Status.noConfusion hne) rfl
    (memoryLane_of_exit (p := ⟨v.countCycle, 0⟩) hmine.exmem.1 rfl rfl hc hsys)

theorem reachesFromMemory_outOfBounds (hT : DataTrack quiet s D E) (hw : 1 ≤ s.cfg.issueWidth) (hp : 1 ≤ s.cfg.memPorts)
    (hc : i.toDiw.cls.isMem = true) (hout : ¬s.inBounds (recordAddr s i.toDiw) (accessBytes i.toDiw.msize) = true) :
    reachesFromMemory quiet s D E i next (s.raise (.dataOutOfBounds (recordAddr s i.toDiw) s.stats.cycles)) := by
  refine reachesFromMemory_of (recordAction_of_isMem hc) fun v hu h => ?_
  have hmine := h.congr (samePipeline.refl v) (hT.start h.data)
  have hport : 0 ≠ v.countCycle.cfg.memPorts := by rw [State.countCycle_cfg, hu.cfg]; omega
  refine hmine.reaches_of_end hT hw hu rfl rfl (st := .aborted (.dataOutOfBounds (recordAddr s i.toDiw) v.countCycle.stats.cycles))
    (fun hne => Status.noConfusion hne) rfl ?_
  rw [memoryLane_of_isMem (q := ⟨v.countCycle, 0⟩) hmine.exmem.1 rfl rfl hc]
  refine memClassLane_of_outOfBounds (p := ⟨v.countCycle, 0⟩) hport rfl ?_
  rwa [State.inBounds, State.countCycle_cfg, hu.cfg]

/-- An access in bounds that answers, on every state with the data followed, the result and the data that it answers in
`exec`, retires as its commit says. -/
theorem reachesFromMemory_access (hT : DataTrack quiet s D E) (hw : 1 ≤ s.cfg.issueWidth) (hp : 1 ≤ s.cfg.memPorts)
    (hs : s.status = .running) (hc : i.toDiw.cls.isMem = true) (hsets : i.toDiw.setsFlags = false)
    (hin : s.inBounds (recordAddr s i.toDiw) (accessBytes i.toDiw.msize) = true) (hnext : next = s.pc + s.ib)
    {d : State} (hd : onlyDataChanged s d) {value : Word}
    (haccess : ∀ c q, D c → q.inst = i.toDiw → q.addr = recordAddr s i.toDiw → q.c = (recordOperands s i.toDiw).c →
      E d (accessMem c q).2.2 ∧ (diwDest i.toDiw = none ∨ (accessMem c q).1.result = value)) :
    reachesFromMemory quiet s D E i next ((d.commit (diwDest i.toDiw) value false 0).advance s.pc) := by
  refine reachesFromMemory_of (recordAction_of_isMem hc) fun v hu h => ?_
  set q : Slot := { { operandSlot s i next with addr := recordAddr s i.toDiw } with setsFlags := i.toDiw.setsFlags } with hq
  have hcycle : D v.countCycle := hT.same (countCycle_sameStores v) h.data
  obtain ⟨hE, hvalue⟩ := haccess v.countCycle q hcycle rfl rfl rfl
  have hrecord := accessMem_record v.countCycle q
  have hport : 0 ≠ v.countCycle.cfg.memPorts := by rw [State.countCycle_cfg, hu.cfg]; omega
  have hturn : memoryLane ref 0 ⟨v.countCycle, 0⟩ =
      settleMem ⟨(accessMem v.countCycle q).2.2, 1⟩ 0 (startedSlot v.countCycle q) := by
    rw [memoryLane_of_isMem (q := ⟨v.countCycle, 0⟩) h.exmem.1 rfl rfl hc]
    exact memClassLane_of_inBounds (p := ⟨v.countCycle, 0⟩) hport rfl (by rwa [State.inBounds, State.countCycle_cfg, hu.cfg])
  have hinst : (startedSlot v.countCycle q).inst = i.toDiw := by rw [startedSlot, hrecord]; rfl
  have hsets' : (startedSlot v.countCycle q).setsFlags = false := by rw [startedSlot, hrecord]; exact hsets
  have hfault : (startedSlot v.countCycle q).fault = .none := by rw [startedSlot, hrecord]; rfl
  have hcommit : d.commit (diwDest i.toDiw) (startedSlot v.countCycle q).result false 0 =
      d.commit (diwDest i.toDiw) value false 0 := by
    rcases hvalue with hnone | hresult
    · rw [hnone]
      rfl
    · exact congrArg (fun w => d.commit (diwDest i.toDiw) w false 0) hresult
  have hretires := retiresTo_commit (f := 0) hs hd hfault (by rw [hsets']; exact fun hne => absurd hne Bool.false_ne_true)
  rw [hinst, hsets', hcommit] at hretires
  subst hnext
  exact h.reaches_of_settle hT hw hu hc (accessMem_onlyData v.countCycle q)
    (hT.matchSame (advance_commit_sameStores d _ _ _ _ _) (sameStores.refl _) hE) hturn
    (by rw [startedSlot, hrecord]; rfl) hfault hinst rfl hretires

theorem reachesFromMemory_load (hT : DataTrack quiet s D E) (hw : 1 ≤ s.cfg.issueWidth) (hp : 1 ≤ s.cfg.memPorts)
    (hs : s.status = .running) (hc : i.toDiw.cls = .load)
    (hin : s.inBounds (recordAddr s i.toDiw) (accessBytes i.toDiw.msize) = true) (hnext : next = s.pc + s.ib) :
    reachesFromMemory quiet s D E i next
      (((s.loadData (recordAddr s i.toDiw) i.toDiw.msize i.toDiw.msigned).2.2.commit (diwDest i.toDiw)
        (s.loadData (recordAddr s i.toDiw) i.toDiw.msize i.toDiw.msigned).1 false 0).advance s.pc) := by
  refine reachesFromMemory_access hT hw hp hs (by rw [hc]; rfl) (toDiw_setsFlags (.inl hc)) hin hnext
    (loadData_onlyData s _ _ _) fun c q hD hinst haddr _ => ?_
  obtain ⟨hvalue, hE⟩ := hT.load hD (recordAddr s i.toDiw) i.toDiw.msize i.toDiw.msigned
  have haccess : accessMem c q = ({ q with result := (c.loadData q.addr q.inst.msize q.inst.msigned).1 },
      (c.loadData q.addr q.inst.msize q.inst.msigned).2) := if_pos (by rw [hinst, hc])
  rw [haccess, hinst, haddr]
  exact ⟨hE, .inr hvalue⟩

theorem reachesFromMemory_store (hT : DataTrack quiet s D E) (hw : 1 ≤ s.cfg.issueWidth) (hp : 1 ≤ s.cfg.memPorts)
    (hs : s.status = .running) (hc : i.toDiw.cls = .store)
    (hin : s.inBounds (recordAddr s i.toDiw) (accessBytes i.toDiw.msize) = true) (hnext : next = s.pc + s.ib) :
    reachesFromMemory quiet s D E i next
      (((s.storeData (recordAddr s i.toDiw) i.toDiw.msize (recordOperands s i.toDiw).c).2.commit (diwDest i.toDiw)
        0 false 0).advance s.pc) := by
  refine reachesFromMemory_access hT hw hp hs (by rw [hc]; rfl) (toDiw_setsFlags (.inr (.inl hc))) hin hnext
    (storeData_onlyData s _ _ _) fun c q hD hinst haddr hdata => ?_
  have haccess : accessMem c q = (q, c.storeData q.addr q.inst.msize q.c) := if_neg (by rw [hinst, hc]; decide)
  rw [haccess, hinst, haddr, hdata]
  exact ⟨hT.store hD _ _ _, .inl (diwDest_of_store hc)⟩

/-- From `EXMEM` on, every instruction reaches what `exec` gives; the next record stands at `next`, which is the following
address unless the instruction is a `BRANCH`. -/
theorem exec_reachesFromMemory (hT : DataTrack quiet s D E) (hw : 1 ≤ s.cfg.issueWidth) (hp : 1 ≤ s.cfg.memPorts)
    (hs : s.status = .running) (i : Instr) (hnext : i.toDiw.cls ≠ .branch → next = s.pc + s.ib) :
    ∃ t, exec i s = .next t ∧ reachesFromMemory quiet s D E i next t := by
  cases hc : i.toDiw.cls with
  | arith =>
    have hnext := hnext (by simp [hc])
    exact ⟨_, exec_of_alu hs (.inl hc), reachesFromMemory_alu hT hw hs (.inl hc) hnext⟩
  | mul =>
    have hnext := hnext (by simp [hc])
    exact ⟨_, exec_of_alu hs (.inr hc), reachesFromMemory_alu hT hw hs (.inr hc) hnext⟩
  | load =>
    have hnext := hnext (by simp [hc])
    by_cases hin : s.inBounds (recordAddr s i.toDiw) (accessBytes i.toDiw.msize) = true
    · exact ⟨_, exec_of_load hs hc hin, reachesFromMemory_load hT hw hp hs hc hin hnext⟩
    · have hm : i.toDiw.cls.isMem = true := by rw [hc]; rfl
      exact ⟨_, exec_of_outOfBounds hs hm hin, reachesFromMemory_outOfBounds hT hw hp hm hin⟩
  | store =>
    have hnext := hnext (by simp [hc])
    by_cases hin : s.inBounds (recordAddr s i.toDiw) (accessBytes i.toDiw.msize) = true
    · exact ⟨_, exec_of_store hs hc hin, reachesFromMemory_store hT hw hp hs hc hin hnext⟩
    · have hm : i.toDiw.cls.isMem = true := by rw [hc]; rfl
      exact ⟨_, exec_of_outOfBounds hs hm hin, reachesFromMemory_outOfBounds hT hw hp hm hin⟩
  | branch => exact ⟨_, exec_of_branch hs hc, reachesFromMemory_branch hT hw hs hc⟩
  | syscall =>
    have hnext := hnext (by simp [hc])
    cases hsys : ref.sys (recordOperands s i.toDiw).a (recordOperands s i.toDiw).b (recordOperands s i.toDiw).c with
    | exit code => exact ⟨_, exec_of_exit hs hc hsys, reachesFromMemory_exit hT hw hc hsys⟩
    | ret value => exact ⟨_, exec_of_return hs hc hsys, reachesFromMemory_return hT hw hs hc hsys hnext⟩

/-- An instruction whose record stands alone in `IFID`, with nothing older in flight, reaches what `exec` gives. -/
theorem exec_reaches_of_atDecode {u : State} (hT : DataTrack quiet s D E) (hw : 1 ≤ s.cfg.issueWidth)
    (hp : 1 ≤ s.cfg.memPorts) (hs : s.status = .running) (hu : Uncommitted s u)
    (h : AtDecode quiet s D (firstSlot s i next) u) (hnext : i.toDiw.cls ≠ .branch → next = s.pc + s.ib) :
    ∃ t, exec i s = .next t ∧ reaches quiet E t u := by
  obtain ⟨t, hexec, hreaches⟩ := exec_reachesFromMemory hT hw hp hs i hnext
  exact ⟨t, hexec, h.reaches hT hw hp rfl rfl hu hreaches⟩

end

end Sys2Proof.Machine
end

section
/-!
PROOFS. An instruction on its way through the pipeline has the effect of `exec` (`spec/40_operation_classes.md` R120, R146):
its record alone in flight, and the first instruction of a run with whatever follows it. The two differ in what is followed
of the caches: where nothing follows the record, the data caches themselves; else the data view.
-/

namespace Sys2Proof.Machine

/-! ## The data caches of a record alone in flight -/

/-- Configuration, data caches and main memory are the same. -/
def sameData (s t : State) : Prop := t.cfg = s.cfg ∧ t.l1d = s.l1d ∧ t.l2 = s.l2 ∧ t.mem = s.mem

section
variable {s t u v : State}

theorem sameData.trans (h : sameData s t) (h' : sameData t u) : sameData s u :=
  let ⟨hcfg, hl1d, hl2, hmem⟩ := h
  let ⟨hcfg', hl1d', hl2', hmem'⟩ := h'
  ⟨hcfg'.trans hcfg, hl1d'.trans hl1d, hl2'.trans hl2, hmem'.trans hmem⟩

theorem sameStores.sameData (h : sameStores s t) : sameData s t :=
  let ⟨hcfg, _, hl1d, hl2, hmem⟩ := h
  ⟨hcfg, hl1d, hl2, hmem⟩

theorem sameData.withL1d (h : sameData s t) (l : Level L2Level) : sameData (s.withL1d l) (t.withL1d l) :=
  ⟨h.1, rfl, rfl, rfl⟩

theorem sameData.l1dRead_eq (h : sameData s t) (addr n : Nat) : t.l1dRead addr n = s.l1dRead addr n := by
  obtain ⟨hcfg, hl1d, hl2, hmem⟩ := h
  simp only [State.l1dRead, State.l2Level, hcfg, hl1d, hl2, hmem]

theorem sameData.l1dWrite_eq (h : sameData s t) (addr : Nat) (bytes : List Byte) :
    t.l1dWrite addr bytes = s.l1dWrite addr bytes := by
  obtain ⟨hcfg, hl1d, hl2, hmem⟩ := h
  simp only [State.l1dWrite, State.l2Level, hcfg, hl1d, hl2, hmem]

/-- The requests of a read answer the same from the same data, and leave the same data (R66). -/
theorem readRequests_congr (requests : List (Nat × Nat)) (h : sameData s t) :
    (readRequests t requests).bytes = (readRequests s requests).bytes ∧
      sameData (readRequests s requests).state (readRequests t requests).state := by
  induction requests generalizing s t with
  | nil => exact ⟨rfl, h⟩
  | cons request rest ih =>
    simp only [readRequests, h.l1dRead_eq]
    obtain ⟨hbytes, hdata⟩ := ih (h.withL1d (s.l1dRead request.1 request.2).level)
    exact ⟨by rw [hbytes], hdata⟩

/-- The requests of a write leave the same data where they find the same data (R67). -/
theorem writeRequests_congr (requests : List (Nat × Nat)) (bytes : List Byte) (h : sameData s t) :
    sameData (writeRequests s requests bytes).state (writeRequests t requests bytes).state := by
  induction requests generalizing s t bytes with
  | nil => exact h
  | cons request rest ih =>
    simp only [writeRequests, h.l1dWrite_eq]
    exact ih _ (h.withL1d _)

theorem loadData_congr (h : sameData s t) (addr : Word) (msize : BitVec 2) (msigned : Bool) :
    (t.loadData addr msize msigned).1 = (s.loadData addr msize msigned).1 ∧
      sameData (s.loadData addr msize msigned).2.2 (t.loadData addr msize msigned).2.2 := by
  obtain ⟨hbytes, hdata⟩ := readRequests_congr (lineRequests s.cfg.l1d.line (accessBytes msize) addr.toNat
    (accessBytes msize)) h
  simp only [State.loadData, State.memRead, h.1]
  exact ⟨congrArg (extendBytes msigned (accessBytes msize)) hbytes, hdata⟩

theorem storeData_congr (h : sameData s t) (addr : Word) (msize : BitVec 2) (value : Word) :
    sameData (s.storeData addr msize value).2 (t.storeData addr msize value).2 := by
  simp only [State.storeData, State.memWrite, h.1]
  exact writeRequests_congr _ _ h

theorem fetchStep_l1d (F : CoreFns) (s : State) : (fetchStep F s).l1d = s.l1d := by
  rw [show fetchStep F s = _ from fetchStep_frame F s]

/-- With fetch held nothing but the record's own access touches the data caches. -/
theorem dataTrack_caches (s : State) : DataTrack True s (sameData s) (fun t u => u.l1d = t.l1d) where
  same hstores hdata := hdata.trans hstores.sameData
  fetched hheld hdata := by
    obtain ⟨-, -, hstores⟩ := fetchStep_of_blocked ref (hheld trivial)
    exact hdata.trans hstores.sameData
  matchSame ht hu hdata := hu.sameData.2.1.trans (hdata.trans ht.sameData.2.1.symm)
  matchFetched hdata := (fetchStep_l1d ref _).trans hdata
  start hdata := hdata.2.1
  load hdata addr msize msigned :=
    let ⟨hvalue, hafter⟩ := loadData_congr hdata addr msize msigned
    ⟨hvalue, hafter.2.1⟩
  store hdata addr msize value := (storeData_congr hdata addr msize value).2.1

end

/-! ## One record alone in flight -/

section
variable {s : State}

theorem withLoneRecord_uncommitted (hs : s.status = .running) (i : Instr) (next : Word) :
    Uncommitted s (s.withLoneRecord i next) where
  cfg := rfl
  x := rfl
  flags := rfl
  retired := rfl
  running := hs
  sized := (State.latchesSized_iff _).2 (by simp [State.withLoneRecord, State.setPc, bubbles])

theorem withLoneRecord_atDecode (hw : 1 ≤ s.cfg.issueWidth) (i : Instr) (next : Word) :
    AtDecode True s (sameData s) (firstSlot s i next) (s.withLoneRecord i next) where
  ifid := by
    have halone : alone (firstSlot s i next) ((bubbles s.cfg.issueWidth).set 0 (firstSlot s i next)) :=
      alone_set_of_empty (anyValid_bubbles _) (by simpa [bubbles] using hw) _
    simpa [State.withLoneRecord, firstSlot] using halone
  idex := anyValid_bubbles _
  exmem := anyValid_bubbles _
  memwb := anyValid_bubbles _
  next := rfl
  data := ⟨rfl, rfl, rfl, rfl⟩
  pred := rfl
  held _ := rfl

end

/-- Settles O25: stage by stage from `IFID` on, with the data caches followed. -/
theorem loneRecordRunsToExec : Obligations.LoneRecordRunsToExec := by
  intro s i next hs _ hw hp hnext
  obtain ⟨t, hexec, -, k, -, -, hagrees⟩ := exec_reaches_of_atDecode (dataTrack_caches s) hw hp hs
    (withLoneRecord_uncommitted hs i next) (withLoneRecord_atDecode hw i next) hnext
  obtain ⟨hpred, hl1d, hend⟩ := hagrees.whole trivial
  exact ⟨k, t, hexec, hagrees.x, hagrees.flags, hpred, hl1d, hagrees.retired, hagrees.pc, hend⟩

/-! ## The data view of the first instruction of a run -/

section
variable {s t u : State} {V : Nat → Byte}

theorem sameStores.showsView (h : sameStores s t) (hs : s.showsView V) : t.showsView V :=
  let ⟨hcfg, hl1i, hl1d, hl2, hmem⟩ := h
  showsView_congr hcfg hl1i hl1d hl2 hmem hs

theorem sameStores.dview_eq (h : sameStores s t) : t.dview = s.dview :=
  let ⟨hcfg, _, hl1d, hl2, hmem⟩ := h
  dview_congr hcfg hl1d hl2 hmem

/-- A load answers the number of the bytes of the view, and leaves the view (R66, R131). -/
theorem loadData_showsView (h : s.showsView V) (addr : Word) (msize : BitVec 2) (msigned : Bool) :
    (s.loadData addr msize msigned).1 =
        extendBytes msigned (accessBytes msize) (viewBytes V addr.toNat (accessBytes msize)) ∧
      (s.loadData addr msize msigned).2.2.showsView V := by
  obtain ⟨hvalid, hcoherent, rfl⟩ := h
  obtain ⟨hread, hview, hbytes, -⟩ := memRead_spec hvalid hcoherent addr (accessBytes msize)
  refine ⟨congrArg (extendBytes msigned (accessBytes msize)) hbytes, ?_, hread, hview⟩
  rwa [show (s.loadData addr msize msigned).2.2.cfg = s.cfg by rw [loadData_onlyData s addr msize msigned]]

/-- A store writes its bytes into the view (R67, R132). -/
theorem storeData_showsView (h : s.showsView V) (addr : Word) (msize : BitVec 2) (value : Word) :
    (s.storeData addr msize value).2.showsView (viewWrite V addr.toNat (leBytes (accessBytes msize) value.toNat)) := by
  obtain ⟨hvalid, hcoherent, rfl⟩ := h
  obtain ⟨hwritten, hview, -⟩ := memWrite_spec hvalid hcoherent addr (accessBytes msize) value
  refine ⟨?_, hwritten, hview⟩
  rwa [show (s.storeData addr msize value).2.cfg = s.cfg by rw [storeData_onlyData s addr msize value]]

/-- Whatever is fetched and dropped meanwhile, only the record's own access changes the data view. -/
theorem dataTrack_view (hs : s.showsView s.dview) :
    DataTrack False s (State.showsView s.dview) (fun t u => u.showsView t.dview) where
  same hstores hdata := hstores.showsView hdata
  fetched _ hdata := fetchStep_showsView ref hdata
  matchSame ht hu hdata := by
    rw [ht.dview_eq]
    exact hu.showsView hdata
  matchFetched hdata := fetchStep_showsView ref hdata
  start hdata := hdata
  load hdata addr msize msigned := by
    obtain ⟨hvalue, hshown⟩ := loadData_showsView hdata addr msize msigned
    obtain ⟨hvalue', -, -, hview⟩ := loadData_showsView hs addr msize msigned
    exact ⟨hvalue.trans hvalue'.symm, by rwa [hview]⟩
  store hdata addr msize value := by
    obtain ⟨-, -, hview⟩ := storeData_showsView hs addr msize value
    rw [hview]
    exact storeData_showsView hdata addr msize value

end

/-! ## The tick that delivers the word -/

theorem runLanes_single {σ : Type} (f : Nat → σ → LaneStep σ) (s : σ) : runLanes f [0] s = (f 0 s).val := by
  rw [runLanes]
  cases f 0 s <;> rfl

section
variable {s : State} {nbits w : Nat} {i : Instr}

theorem deliver_val {F : CoreFns} {lane : Nat} {pc : Word} {word : List Byte} {d : Diw} (h : F.decode word pc = some d) :
    (deliver F lane s pc word).val =
      { s with
        ifid := s.ifid.set lane (freshSlot pc d (predictedNext s pc d))
        fetch := { s.fetch with fetchPc := predictedNext s pc d } } := by
  simp only [deliver, h]
  split_ifs <;> rfl

/-- The state after the delivery of the pending word to lane 0: its record in `IFID`, fetch at the predicted next address
(R265, R271, R272). -/
def deliveredTo (s : State) (d : Diw) : State :=
  let pc := s.fetch.pending.pc
  { s with
    ifid := s.ifid.set 0 (freshSlot pc d (predictedNext s pc d))
    fetch := { s.fetch with fetchPc := predictedNext s pc d, pending := { s.fetch.pending with valid := false } } }

/-- The one-lane fetch step of a word whose wait is over (R265, R271). -/
theorem fetchStep_of_pending {F : CoreFns} {d : Diw} (hw : s.cfg.issueWidth = 1) (hstall : s.fetch.redirectStall = 0)
    (hpending : s.fetch.pending.valid = true) (hwait : s.fetch.pending.remaining = 0) (hifid : anyValid s.ifid = false)
    (hblocked : s.fetch.fetchBlocked = false) (hd : F.decode s.fetch.pending.word s.fetch.pending.pc = some d) :
    fetchStep F s = deliveredTo s d := by
  have hlanes : s.lanes = [0] := by
    rw [State.lanes, hw]
    rfl
  have htick : tickPending s = s := by simp [tickPending, hwait]
  have hlane : (fetchLane F 0 s).val = deliveredTo s d := by
    have hturn : fetchLane F 0 s = deliver F 0
        { s with fetch := { s.fetch with pending := { s.fetch.pending with valid := false } } } s.fetch.pending.pc
        s.fetch.pending.word := (if_pos hpending).trans (if_neg (by omega))
    rw [hturn]
    exact deliver_val hd
  simp [fetchStep, hstall, htick, hifid, hblocked, hlanes, runLanes_single, hlane]

theorem withFetchWord_pc (s : State) (nbits w : Nat) : (s.withFetchWord nbits w).pc = s.fetch.fetchPc :=
  State.pc_of_oldestAt (.inr ⟨anyValid_bubbles _, .inr ⟨anyValid_bubbles _, .inr ⟨anyValid_bubbles _,
    .inr ⟨anyValid_bubbles _, rfl⟩⟩⟩⟩)

theorem withFetchWord_showsView (hvalid : cfgValid s.cfg = true) (hcoherent : s.coherent) (nbits w : Nat) :
    (s.withFetchWord nbits w).showsView (s.withFetchWord nbits w).dview := ⟨hvalid, hcoherent, rfl⟩

theorem decode_of_table (hi : decodeTableWord nbits w = some i) (pc : Word) :
    ref.decode (leBytes 16 (w % 2 ^ nbits)) pc = some i.toDiw := by
  rw [decodeTableWord] at hi
  rw [show ref.decode = refDecode from rfl, refDecode, hi, Option.map_some]

theorem tick_withFetchWord (hs : s.status = .running) (hw : s.cfg.issueWidth = 1) (hi : decodeTableWord nbits w = some i) :
    tick ref (s.withFetchWord nbits w) = deliveredTo (s.withFetchWord nbits w).countCycle i.toDiw := by
  rw [tick_of_back_empty (u := s.withFetchWord nbits w) hs (anyValid_bubbles _) (anyValid_bubbles _),
    frontEnd_of_empty ref (s := (s.withFetchWord nbits w).countCycle) (anyValid_bubbles _) (anyValid_bubbles _)]
  exact fetchStep_of_pending hw rfl rfl rfl (anyValid_bubbles _) rfl (decode_of_table hi _)

theorem deliveredTo_uncommitted (hs : s.status = .running) (i : Instr) (nbits w : Nat) :
    Uncommitted (s.withFetchWord nbits w)
      (deliveredTo (s.withFetchWord nbits w).countCycle i.toDiw) where
  cfg := rfl
  x := rfl
  flags := rfl
  retired := rfl
  running := hs
  sized := (State.latchesSized_iff _).2 (by
    simp [deliveredTo, State.withFetchWord, State.setPc, State.countCycle, bubbles])

theorem deliveredTo_atDecode (hw : s.cfg.issueWidth = 1) (hvalid : cfgValid s.cfg = true) (hcoherent : s.coherent)
    (i : Instr) (nbits w : Nat) :
    AtDecode False (s.withFetchWord nbits w) (State.showsView (s.withFetchWord nbits w).dview)
      (firstSlot (s.withFetchWord nbits w) i (predictedNext s s.fetch.fetchPc i.toDiw))
      (deliveredTo (s.withFetchWord nbits w).countCycle i.toDiw) where
  ifid := by
    rw [firstSlot, withFetchWord_pc]
    exact alone_set_of_empty (anyValid_bubbles _) (by simpa [bubbles] using hw.ge) _
  idex := anyValid_bubbles _
  exmem := anyValid_bubbles _
  memwb := anyValid_bubbles _
  next := rfl
  data := sameStores.showsView ⟨rfl, rfl, rfl, rfl, rfl⟩ (withFetchWord_showsView hvalid hcoherent nbits w)
  pred := rfl
  held hf := hf.elim

/-- Only a `BRANCH` is predicted elsewhere than at the following address (R272). -/
theorem predictedNext_of_not_branch (pc : Word) {d : Diw} (h : d.cls ≠ .branch) : predictedNext s pc d = pc + s.ib := by
  rw [predictedNext, predictedTarget, if_neg fun hb => h hb.1]
  rfl

end

/-- Settles O26: one tick delivers the word, and from `IFID` on the stages follow, with the data view followed. -/
theorem firstInstructionRunsToExec : Obligations.FirstInstructionRunsToExec := by
  intro s nbits w i hs hvalid hcoherent hw hi s₀
  have hp : 1 ≤ s.cfg.memPorts := of_decide_eq_true (cfgValid_field hvalid .memPorts)
  obtain ⟨t, hexec, hreaches⟩ := exec_reaches_of_atDecode (dataTrack_view (withFetchWord_showsView hvalid hcoherent nbits w))
    hw.ge hp hs (deliveredTo_uncommitted hs i nbits w) (deliveredTo_atDecode hw hvalid hcoherent i nbits w)
    fun hb => by rw [withFetchWord_pc]; exact predictedNext_of_not_branch _ hb
  rw [← tick_withFetchWord hs hw hi] at hreaches
  obtain ⟨j, k, hjk, ⟨-, -, hview⟩, hagrees⟩ := hreaches.of_tick
  exact ⟨j, k, t, hexec, hjk, congrFun hview, hagrees.x, hagrees.flags, hagrees.retired, hagrees.pc, hagrees.ended⟩

end Sys2Proof.Machine
end

section
/-!
PROOFS. The counters through the tick (`spec/10_state.md` R40 to R45, `spec/41_pipeline_orchestrator.md` R176). The first
action of the tick counts the cycle and the flush counts itself; every stage between them leaves these two counters and
lets no other one fall (`countsOn`).
-/

namespace Sys2Proof.Machine

/-! ## The counters of one cache -/

theorem Cache.countersGrow.refl (c : Cache) : c.countersGrow c :=
  ⟨Nat.le_refl _, Nat.le_refl _, Nat.le_refl _, Nat.le_refl _⟩

theorem Cache.countersGrow.trans {a b c : Cache} (h : a.countersGrow b) (h' : b.countersGrow c) : a.countersGrow c := by
  obtain ⟨hhits, hmisses, hevictions, hwritebacks⟩ := h
  obtain ⟨hhits', hmisses', hevictions', hwritebacks'⟩ := h'
  exact ⟨hhits.trans hhits', hmisses.trans hmisses', hevictions.trans hevictions', hwritebacks.trans hwritebacks'⟩

section
variable {β : Type} (g : CacheCfg) (B : Backing β) (l : Level β)

theorem evict_countersGrow (set way : Nat) : l.cache.countersGrow (evict g B l set way).cache := by
  unfold evict
  simp only
  split_ifs
  · exact ⟨Nat.le_refl _, Nat.le_refl _, Nat.le_succ _, Nat.le_succ _⟩
  · exact ⟨Nat.le_refl _, Nat.le_refl _, Nat.le_succ _, Nat.le_refl _⟩
  · exact Cache.countersGrow.refl _

theorem touch_countersGrow (c : Cache) (set way : Nat) : c.countersGrow (touch g c set way) := Cache.countersGrow.refl c

theorem setDir_countersGrow (c : Cache) (set way : Nat) (e : DirEntry) : c.countersGrow (setDir g c set way e) :=
  Cache.countersGrow.refl c

theorem setData_countersGrow (c : Cache) (set way : Nat) (bytes : List Byte) : c.countersGrow (setData g c set way bytes) :=
  Cache.countersGrow.refl c

theorem storeBytes_countersGrow (c : Cache) (set way addr : Nat) (bytes : List Byte) :
    c.countersGrow (storeBytes g c set way addr bytes) := Cache.countersGrow.refl c

theorem countMiss_countersGrow (c : Cache) (sb : StoreForward) : c.countersGrow { c with sb := sb, misses := c.misses + 1 } :=
  ⟨Nat.le_refl _, Nat.le_succ _, Nat.le_refl _, Nat.le_refl _⟩

theorem countHit_countersGrow (c : Cache) (sb : StoreForward) : c.countersGrow { c with sb := sb, hits := c.hits + 1 } :=
  ⟨Nat.le_succ _, Nat.le_refl _, Nat.le_refl _, Nat.le_refl _⟩

/-- Of an install only the eviction counts (R349, R350). -/
theorem install_countersGrow (set tag : Nat) : l.cache.countersGrow (install g B l set tag).level.cache :=
  (evict_countersGrow g B l set (victim g l.cache set)).trans
    ((setDir_countersGrow g _ set _ _).trans ((setData_countersGrow g _ set _ _).trans (touch_countersGrow g _ set _)))

theorem cacheRead_countersGrow (addr n : Nat) : l.cache.countersGrow (cacheRead g B l addr n).level.cache := by
  cases hl : lookup g l.cache (setOf g addr) (tagOf g addr) with
  | none =>
    rw [cacheRead_miss hl]
    exact (countMiss_countersGrow l.cache _).trans (install_countersGrow g B ⟨_, l.below⟩ _ _)
  | some w =>
    rw [cacheRead_hit hl]
    exact (countHit_countersGrow l.cache _).trans (touch_countersGrow g _ _ w)

theorem cacheWrite_countersGrow (addr : Nat) (bytes : List Byte) :
    l.cache.countersGrow (cacheWrite g B l addr bytes).level.cache := by
  cases hl : lookup g l.cache (setOf g addr) (tagOf g addr) with
  | none =>
    rw [cacheWrite_miss hl]
    exact (countMiss_countersGrow l.cache l.cache.sb).trans
      ((install_countersGrow g B ⟨_, l.below⟩ _ _).trans (storeBytes_countersGrow g _ _ _ addr bytes))
  | some w =>
    rw [cacheWrite_hit hl]
    exact (countHit_countersGrow l.cache l.cache.sb).trans
      ((touch_countersGrow g _ _ w).trans (storeBytes_countersGrow g _ _ w addr bytes))

end

/-- As the store behind an L1 cache, `L2` lets no counter of its own fall below those of a cache before it (R336). -/
theorem l2Backing_keeps_countersGrow (g : CacheCfg) (c : Cache) : (l2Backing g).Keeps fun l => c.countersGrow l.cache :=
  ⟨fun l addr n h => h.trans (cacheRead_countersGrow g memBacking l addr n),
    fun l addr bytes h => h.trans (cacheWrite_countersGrow g memBacking l addr bytes)⟩

/-! ## Between the first action of the tick and the flush -/

/-- No counter falls, and `cycles` and `flushes` stay. -/
def countsOn (s t : State) : Prop :=
  s.countersGrow t ∧ t.stats.cycles = s.stats.cycles ∧ t.stats.flushes = s.stats.flushes

theorem State.countersGrow.refl (s : State) : s.countersGrow s :=
  ⟨Nat.le_refl _, Nat.le_refl _, Nat.le_refl _, Nat.le_refl _, Nat.le_refl _, Nat.le_refl _, Cache.countersGrow.refl _,
    Cache.countersGrow.refl _, Cache.countersGrow.refl _⟩

theorem State.countersGrow.trans {a b c : State} (h : a.countersGrow b) (h' : b.countersGrow c) : a.countersGrow c := by
  obtain ⟨hcycles, hretired, hstructural, hhazard, hmispredict, hflushes, hl1i, hl1d, hl2⟩ := h
  obtain ⟨hcycles', hretired', hstructural', hhazard', hmispredict', hflushes', hl1i', hl1d', hl2'⟩ := h'
  exact ⟨hcycles.trans hcycles', hretired.trans hretired', hstructural.trans hstructural', hhazard.trans hhazard',
    hmispredict.trans hmispredict', hflushes.trans hflushes', hl1i.trans hl1i', hl1d.trans hl1d', hl2.trans hl2'⟩

theorem countsOn.refl (s : State) : countsOn s s := ⟨State.countersGrow.refl s, rfl, rfl⟩

theorem countsOn.trans {a b c : State} (h : countsOn a b) (h' : countsOn b c) : countsOn a c := by
  obtain ⟨hgrow, hcycles, hflushes⟩ := h
  obtain ⟨hgrow', hcycles', hflushes'⟩ := h'
  exact ⟨hgrow.trans hgrow', hcycles'.trans hcycles, hflushes'.trans hflushes⟩

/-- Where the statistics stay, the caches decide. -/
theorem countsOn_of_stats_eq {s t : State} (hstats : t.stats = s.stats) (hl1i : s.l1i.countersGrow t.l1i)
    (hl1d : s.l1d.countersGrow t.l1d) (hl2 : s.l2.countersGrow t.l2) : countsOn s t := by
  unfold countsOn State.countersGrow
  rw [hstats]
  exact ⟨⟨Nat.le_refl _, Nat.le_refl _, Nat.le_refl _, Nat.le_refl _, Nat.le_refl _, Nat.le_refl _, hl1i, hl1d, hl2⟩, rfl, rfl⟩

/-- Where the caches stay, the four counters that a stage may count decide (R40). -/
theorem countsOn_of_caches_eq {s t : State} (hl1i : t.l1i = s.l1i) (hl1d : t.l1d = s.l1d) (hl2 : t.l2 = s.l2)
    (hcycles : t.stats.cycles = s.stats.cycles) (hflushes : t.stats.flushes = s.stats.flushes)
    (hretired : s.stats.retired ≤ t.stats.retired) (hstructural : s.stats.stallStructural ≤ t.stats.stallStructural)
    (hhazard : s.stats.stallHazard ≤ t.stats.stallHazard)
    (hmispredict : s.stats.stallMispredict ≤ t.stats.stallMispredict) : countsOn s t := by
  unfold countsOn State.countersGrow
  rw [hl1i, hl1d, hl2]
  exact ⟨⟨hcycles.ge, hretired, hstructural, hhazard, hmispredict, hflushes.ge, Cache.countersGrow.refl _,
    Cache.countersGrow.refl _, Cache.countersGrow.refl _⟩, hcycles, hflushes⟩

section
variable (s : State)

theorem countRetired_countsOn : countsOn s s.countRetired :=
  countsOn_of_caches_eq rfl rfl rfl rfl rfl (Nat.le_succ _) (Nat.le_refl _) (Nat.le_refl _) (Nat.le_refl _)

/-- A stall for want of a port is counted (R43). -/
theorem stallStructural_countsOn :
    countsOn s { s with stats := { s.stats with stallStructural := s.stats.stallStructural + 1 } } :=
  countsOn_of_caches_eq rfl rfl rfl rfl rfl (Nat.le_refl _) (Nat.le_succ _) (Nat.le_refl _) (Nat.le_refl _)

/-- A stall for want of an operand is counted (R43). -/
theorem stallHazard_countsOn : countsOn s { s with stats := { s.stats with stallHazard := s.stats.stallHazard + 1 } } :=
  countsOn_of_caches_eq rfl rfl rfl rfl rfl (Nat.le_refl _) (Nat.le_refl _) (Nat.le_succ _) (Nat.le_refl _)

theorem servePenalty_countsOn : countsOn s (servePenalty s) :=
  countsOn_of_caches_eq rfl rfl rfl rfl rfl (Nat.le_refl _) (Nat.le_refl _) (Nat.le_refl _) (Nat.le_succ _)

end

/-! ## Writeback -/

theorem retireSlot_countsOn (s : State) (r : Slot) : countsOn s (retireSlot s r) := by
  rw [retireSlot_eq]
  exact countRetired_countsOn s

theorem writebackStep_countsOn (s : State) : countsOn s (writebackStep s) :=
  runLanes_frame countsOn countsOn.refl (fun _ _ _ => countsOn.trans) writebackLane s.lanes
    (fun lane _ t => by
      obtain ⟨-, e⟩ | ⟨-, e⟩ := writebackLane_cases lane t <;> rw [e]
      · exact countsOn.refl t
      · exact retireSlot_countsOn t _) s

/-! ## Memory -/

/-- An access through `L1D` counts in `L1D` and `L2`. -/
theorem withL1d_countsOn {s : State} {l : Level L2Level} (hl1d : s.l1d.countersGrow l.cache)
    (hl2 : s.l2.countersGrow l.below.cache) : countsOn s (s.withL1d l) :=
  countsOn_of_stats_eq rfl (Cache.countersGrow.refl _) hl1d hl2

theorem l1dRead_countsOn (s : State) (addr n : Nat) : countsOn s (s.withL1d (s.l1dRead addr n).level) :=
  withL1d_countsOn (cacheRead_countersGrow s.cfg.l1d (l2Backing s.cfg.l2) ⟨s.l1d, s.l2Level⟩ addr n)
    (cacheRead_keeps (l2Backing_keeps_countersGrow s.cfg.l2 s.l2) (Cache.countersGrow.refl _) addr n)

theorem l1dWrite_countsOn (s : State) (addr : Nat) (bytes : List Byte) :
    countsOn s (s.withL1d (s.l1dWrite addr bytes).level) :=
  withL1d_countsOn (cacheWrite_countersGrow s.cfg.l1d (l2Backing s.cfg.l2) ⟨s.l1d, s.l2Level⟩ addr bytes)
    (cacheWrite_keeps (l2Backing_keeps_countersGrow s.cfg.l2 s.l2) (Cache.countersGrow.refl _) addr bytes)

theorem readRequests_countsOn (requests : List (Nat × Nat)) (s : State) :
    countsOn s (readRequests s requests).state := by
  induction requests generalizing s with
  | nil => exact countsOn.refl s
  | cons request rest ih =>
    rw [readRequests]
    exact (l1dRead_countsOn s request.1 request.2).trans (ih _)

theorem writeRequests_countsOn (requests : List (Nat × Nat)) (s : State) (bytes : List Byte) :
    countsOn s (writeRequests s requests bytes).state := by
  induction requests generalizing s bytes with
  | nil => exact countsOn.refl s
  | cons request rest ih =>
    rw [writeRequests]
    exact (l1dWrite_countsOn s request.1 (bytes.take request.2)).trans (ih _ _)

theorem accessMem_countsOn (s : State) (r : Slot) : countsOn s (accessMem s r).2.2 := by
  unfold accessMem
  split_ifs
  · exact readRequests_countsOn _ s
  · exact writeRequests_countsOn _ s _

theorem settleMem_countsOn (p : MemPass) (lane : Nat) (r : Slot) : countsOn p.st (settleMem p lane r).val.st := by
  obtain ⟨-, e⟩ | ⟨-, e⟩ := settleMem_cases p lane r <;> rw [e] <;> exact countsOn.refl p.st

theorem memClassLane_countsOn (p : MemPass) (lane : Nat) (r : Slot) : countsOn p.st (memClassLane p lane r).val.st := by
  obtain ⟨-, e⟩ | ⟨-, -, e⟩ | ⟨-, -, -, e⟩ | ⟨-, -, -, e⟩ := memClassLane_cases p lane r <;> rw [e]
  · exact settleMem_countsOn p lane _
  · exact stallStructural_countsOn p.st
  · exact countsOn.refl p.st
  · exact (accessMem_countsOn p.st r).trans (settleMem_countsOn ⟨(accessMem p.st r).2.2, p.started + 1⟩ lane _)

theorem memoryLane_countsOn (F : CoreFns) (lane : Nat) (p : MemPass) : countsOn p.st (memoryLane F lane p).val.st := by
  obtain ⟨-, e⟩ | ⟨_, -, -, e⟩ | ⟨_, -, -, -, -, e⟩ | ⟨_, -, -, -, -, e⟩ | ⟨-, -, -, e⟩ | ⟨-, -, -, e⟩ :=
    memoryLane_cases F lane p <;> rw [e]
  · exact countsOn.refl p.st
  · exact countsOn.refl p.st
  · exact countsOn.refl p.st
  · exact countsOn.refl p.st
  · exact countsOn.refl p.st
  · exact memClassLane_countsOn p lane _

theorem memoryStep_countsOn (F : CoreFns) (s : State) : countsOn s (memoryStep F s) :=
  runLanes_frame (fun p q : MemPass => countsOn p.st q.st) (fun p => countsOn.refl p.st) (fun _ _ _ => countsOn.trans)
    (memoryLane F) s.lanes (fun lane _ p => memoryLane_countsOn F lane p) ⟨s, 0⟩

/-! ## Execute and decode -/

theorem executeRecord_countsOn (F : CoreFns) (s : State) (lane : Nat) (r : Slot) (ops : Operands) :
    countsOn s (executeRecord F s lane r ops).st := by
  unfold executeRecord
  simp only
  rw [classAction_state]
  exact countsOn.refl s

theorem executeLane_countsOn (F : CoreFns) (lane : Nat) (p : ExecPass) : countsOn p.st (executeLane F lane p).val.st := by
  obtain ⟨-, e⟩ | ⟨-, -, e⟩ | ⟨-, -, -, e⟩ | ⟨-, -, -, -, e⟩ | ⟨-, -, -, -, -, e⟩ | ⟨-, -, -, -, -, e⟩ :=
    executeLane_cases F lane p <;> rw [e]
  · exact countsOn.refl p.st
  · exact countsOn.refl p.st
  · exact countsOn.refl p.st
  · exact countsOn.refl p.st
  · exact stallHazard_countsOn p.st
  · exact executeRecord_countsOn F p.st lane _ _

theorem executeStep_countsOn (F : CoreFns) (s : State) : countsOn s (executeStep F s).st :=
  runLanes_frame (fun p q : ExecPass => countsOn p.st q.st) (fun p => countsOn.refl p.st) (fun _ _ _ => countsOn.trans)
    (executeLane F) s.lanes (fun lane _ p => executeLane_countsOn F lane p) ⟨s, none⟩

theorem decodeLane_countsOn (lane : Nat) (p : DecodePass) : countsOn p.st (decodeLane lane p).val.st := by
  obtain ⟨-, e⟩ | ⟨-, -, e⟩ | ⟨-, -, -, e⟩ | ⟨-, -, -, e⟩ | ⟨-, -, -, e⟩ := decodeLane_cases lane p <;> rw [e]
  · exact countsOn.refl p.st
  · exact countsOn.refl p.st
  · exact stallStructural_countsOn p.st
  · exact stallHazard_countsOn p.st
  · exact countsOn.refl p.st

theorem decodeStep_countsOn (s : State) : countsOn s (decodeStep s) :=
  runLanes_frame (fun p q : DecodePass => countsOn p.st q.st) (fun p => countsOn.refl p.st) (fun _ _ _ => countsOn.trans)
    decodeLane s.lanes (fun lane _ p => decodeLane_countsOn lane p) ⟨s, 0⟩

theorem executeAndDecode_countsOn (F : CoreFns) (s : State) : countsOn s (executeAndDecode F s).st := by
  obtain ⟨-, e⟩ | ⟨-, -, e⟩ | ⟨-, -, e⟩ := executeAndDecode_cases F s <;> rw [e]
  · exact countsOn.refl s
  · exact executeStep_countsOn F s
  · exact (executeStep_countsOn F s).trans (decodeStep_countsOn _)

/-! ## Fetch -/

theorem withFetch_countsOn (s : State) (f : FetchUnit) : countsOn s { s with fetch := f } := countsOn.refl s

/-- An instruction read counts in `L1I` and `L2` (R68). -/
theorem fetchRead_countsOn (s : State) (pc : Word) : countsOn s (s.fetchRead pc).state :=
  countsOn_of_stats_eq rfl
    (cacheRead_countersGrow s.cfg.l1i (l2Backing s.cfg.l2) ⟨s.l1i, s.l2Level⟩ pc.toNat s.cfg.instrBytes)
    (Cache.countersGrow.refl _)
    (cacheRead_keeps (l2Backing_keeps_countersGrow s.cfg.l2 s.l2) (Cache.countersGrow.refl _) pc.toNat s.cfg.instrBytes)

theorem deliver_countsOn (F : CoreFns) (lane : Nat) (s : State) (pc : Word) (word : List Byte) :
    countsOn s (deliver F lane s pc word).val := by
  obtain ⟨-, e⟩ | ⟨_, _, -, rfl, e⟩ := deliver_cases F lane s pc word <;> rw [e]
  · exact countsOn.refl s
  · split_ifs <;> exact countsOn.refl s

theorem readNext_countsOn (F : CoreFns) (lane : Nat) (s : State) : countsOn s (readNext F lane s).val := by
  have hread := fetchRead_countsOn s s.fetch.fetchPc
  unfold readNext
  simp only
  split_ifs with hmisaligned houtside hwait
  · exact countsOn.refl s
  · exact countsOn.refl s
  · exact hread
  · exact hread.trans (deliver_countsOn F lane _ _ _)

theorem fetchLane_countsOn (F : CoreFns) (lane : Nat) (s : State) : countsOn s (fetchLane F lane s).val := by
  unfold fetchLane
  simp only
  split_ifs with hpending hwait
  · exact countsOn.refl s
  · exact (withFetch_countsOn s _).trans (deliver_countsOn F lane _ _ _)
  · exact readNext_countsOn F lane s

theorem tickPending_countsOn (s : State) : countsOn s (tickPending s) := by
  unfold tickPending
  simp only
  split_ifs <;> exact countsOn.refl s

theorem fetchStep_countsOn (F : CoreFns) (s : State) : countsOn s (fetchStep F s) := by
  have hpending := tickPending_countsOn s
  unfold fetchStep
  simp only
  split_ifs with hpenalty hheld
  · exact servePenalty_countsOn s
  · exact hpending
  · exact hpending.trans (runLanes_frame countsOn countsOn.refl (fun _ _ _ => countsOn.trans) (fetchLane F) _
      (fun lane _ t => fetchLane_countsOn F lane t) _)

/-! ## The tick -/

/-- Steps 1 and 2 of the tick after its first action. -/
theorem backEnd_countsOn (F : CoreFns) (s : State) : countsOn s (memoryStep F (writebackStep s)) :=
  (writebackStep_countsOn s).trans (memoryStep_countsOn F _)

/-- Steps 3 to 5 of the tick, before the flush. -/
theorem executeToFetch_countsOn (F : CoreFns) (s : State) : countsOn s (fetchStep F (executeAndDecode F s).st) :=
  (executeAndDecode_countsOn F s).trans (fetchStep_countsOn F _)

theorem countCycle_countersGrow (s : State) : s.countersGrow s.countCycle :=
  ⟨Nat.le_succ _, (State.countersGrow.refl s).2⟩

theorem flushStep_countersGrow (s : State) (pc : Word) : s.countersGrow (flushStep s pc) :=
  ⟨Nat.le_refl _, Nat.le_refl _, Nat.le_refl _, Nat.le_refl _, Nat.le_refl _, Nat.le_succ _, Cache.countersGrow.refl _,
    Cache.countersGrow.refl _, Cache.countersGrow.refl _⟩

theorem frontEnd_countersGrow (F : CoreFns) (s : State) :
    s.countersGrow (frontEnd F s) ∧ (frontEnd F s).stats.cycles = s.stats.cycles := by
  obtain ⟨hgrow, hcycles, -⟩ := executeToFetch_countsOn F s
  cases hflush : (executeAndDecode F s).flush with
  | none =>
    rw [frontEnd_of_no_flush hflush]
    exact ⟨hgrow, hcycles⟩
  | some pc =>
    rw [frontEnd_of_flush hflush]
    exact ⟨hgrow.trans (flushStep_countersGrow _ pc), hcycles⟩

/-- A tick of a running core lets no counter fall and is one cycle (R41, R176). -/
theorem tick_countersGrow (F : CoreFns) {s : State} (hs : s.status = .running) :
    s.countersGrow (tick F s) ∧ (tick F s).stats.cycles = s.stats.cycles + 1 := by
  obtain ⟨hback, hcycles, -⟩ := backEnd_countsOn F s.countCycle
  have hgrow := (countCycle_countersGrow s).trans hback
  rw [tick_running F hs]
  split_ifs with hrun
  · obtain ⟨hfront, hcycles'⟩ := frontEnd_countersGrow F (memoryStep F (writebackStep s.countCycle))
    exact ⟨hgrow.trans hfront, hcycles'.trans hcycles⟩
  · exact ⟨hgrow, hcycles⟩

/-- Settles O44: each stage only adds to a counter, and only the first action of the tick counts the cycle. -/
theorem stepCountersGrow : Obligations.StepCountersGrow := by
  intro s t hstep
  obtain rfl := tick_eq_of_step hstep
  by_cases hs : s.status = .running
  · rw [if_pos hs]
    exact tick_countersGrow ref hs
  · rw [if_neg hs, tick_stopped ref hs]
    exact ⟨State.countersGrow.refl s, rfl⟩

end Sys2Proof.Machine
end

section
/-!
PROOFS. Two kinds of tick written out (`spec/41_pipeline_orchestrator.md` R160): the tick of a misprediction, which ends in
the flush (R170, R171), and the tick that delivers a placed word (R265, R271, R272), in a core of any width.
-/

namespace Sys2Proof.Machine

/-! ## The tick of a misprediction -/

/-- Where the execute step asks for a flush, the tick is its stages up to fetch, then the flush (R160). -/
theorem tick_of_flush {F : CoreFns} {s : State} {pc : Word} (hs : s.status = .running)
    (hrun : (memoryStep F (writebackStep s.countCycle)).status = .running)
    (hflush : (executeAndDecode F (memoryStep F (writebackStep s.countCycle))).flush = some pc) :
    tick F s = flushStep (fetchStep F (executeAndDecode F (memoryStep F (writebackStep s.countCycle))).st) pc := by
  rw [tick_running F hs, if_pos hrun, frontEnd_of_flush hflush]

/-- Up to the flush a tick leaves `flushes` (R44). -/
theorem fetchStep_flushes (F : CoreFns) (s : State) :
    (fetchStep F (executeAndDecode F (memoryStep F (writebackStep s.countCycle))).st).stats.flushes = s.stats.flushes := by
  obtain ⟨-, -, hflushes⟩ := (backEnd_countsOn F s.countCycle).trans (executeToFetch_countsOn F _)
  exact hflushes

/-- Settles O32: what the flush writes, and what neither it nor fetch touches. -/
theorem flushIsAtomic : Obligations.FlushIsAtomic := by
  intro s pc hs m e hrun hflush
  have htick := tick_of_flush hs hrun hflush
  obtain ⟨hcfg, hx, hflags, hstatus, hmemwb, -⟩ := frontEnd_frame ref m
  rw [frontEnd_of_flush hflush] at hcfg hx hflags hstatus hmemwb
  have hmcfg : m.cfg = s.cfg := by simp [m]
  rw [hmcfg, flushStep_cfg] at hcfg
  refine ⟨_, step_eq s, ?_⟩
  rw [htick]
  exact ⟨by rw [flushStep_ifid, hcfg], by rw [flushStep_idex, hcfg], rfl, rfl, rfl, by rw [flushStep_fetch, hcfg],
    congrArg (· + 1) (fetchStep_flushes ref s), by rw [flushStep_exmem, fetchStep_exmem], hmemwb,
    by rw [flushStep_pred, fetchStep_pred], hx, hflags, hstatus.trans hrun⟩

/-! ## The statistics of a fetch without a penalty -/

theorem deliver_stats (F : CoreFns) (lane : Nat) (s : State) (pc : Word) (word : List Byte) :
    (deliver F lane s pc word).val.stats = s.stats := by
  obtain ⟨-, e⟩ | ⟨_, _, -, rfl, e⟩ := deliver_cases F lane s pc word <;> rw [e]
  · rfl
  · split_ifs <;> rfl

theorem fetchLane_stats (F : CoreFns) (lane : Nat) (s : State) : (fetchLane F lane s).val.stats = s.stats := by
  unfold fetchLane readNext
  simp only
  split_ifs with hpending hwait hmisaligned houtside hmiss
  · rfl
  · exact deliver_stats F lane _ _ _
  · rfl
  · rfl
  · rfl
  · exact deliver_stats F lane _ _ _

theorem tickPending_stats (s : State) : (tickPending s).stats = s.stats := by
  unfold tickPending
  simp only
  split_ifs <;> rfl

/-- Only the misprediction penalty makes fetch count (R43, R268). -/
theorem fetchStep_stats (F : CoreFns) {s : State} (h : s.fetch.redirectStall = 0) : (fetchStep F s).stats = s.stats := by
  unfold fetchStep
  simp only [h, Nat.lt_irrefl, if_false]
  split_ifs
  · exact tickPending_stats s
  · exact runLanes_induct (fun t => t.stats = s.stats) (fetchLane F) _
      (fun lane _ t ht => (fetchLane_stats F lane t).trans ht) _ (tickPending_stats s)

/-! ## The tick that delivers a placed word -/

section
variable {s : State} {nbits w : Nat} {i : Instr}

theorem LaneStep.meets_self {σ : Type} {P : σ → Prop} (a : LaneStep σ) : a.meets P P ↔ P a.val := by
  cases a <;> rfl

/-- With nothing in flight the tick only fetches. -/
theorem tick_withFetchWord_eq_fetchStep (hs : s.status = .running) (nbits w : Nat) :
    tick ref (s.withFetchWord nbits w) = fetchStep ref (s.withFetchWord nbits w).countCycle := by
  rw [tick_of_back_empty (u := s.withFetchWord nbits w) hs (anyValid_bubbles _) (anyValid_bubbles _),
    frontEnd_of_empty ref (s := (s.withFetchWord nbits w).countCycle) (anyValid_bubbles _) (anyValid_bubbles _)]

/-- The turn of lane 0 that delivers a word whose wait is over puts its record there (R265). -/
theorem fetchLane_zero_delivers {F : CoreFns} {d : Diw} (hlen : 1 ≤ s.ifid.length) (hpending : s.fetch.pending.valid = true)
    (hwait : s.fetch.pending.remaining = 0) (hd : F.decode s.fetch.pending.word s.fetch.pending.pc = some d) :
    slotAt (fetchLane F 0 s).val.ifid 0 = freshSlot s.fetch.pending.pc d (predictedNext s s.fetch.pending.pc d) := by
  have hturn : fetchLane F 0 s = deliver F 0
      { s with fetch := { s.fetch with pending := { s.fetch.pending with valid := false } } } s.fetch.pending.pc
      s.fetch.pending.word := (if_pos hpending).trans (if_neg (by omega))
  rw [hturn, deliver_val hd]
  exact slotAt_set_zero hlen

/-- The lanes above lane 0 leave lane 0 of `IFID` (R265). -/
theorem fetchLane_keeps_lane0 (F : CoreFns) {k : Nat} (hk : 1 ≤ k) (s : State) :
    slotAt (fetchLane F k s).val.ifid 0 = slotAt s.ifid 0 := by
  have hfills := fetchLane_fillsLane F k s
  cases hturn : fetchLane F k s with
  | go t =>
    rw [hturn] at hfills
    obtain ⟨r, -, ht⟩ := hfills
    exact (congrArg (slotAt · 0) ht).trans (slotAt_zero_set hk r)
  | stop t =>
    rw [hturn] at hfills
    obtain ht | ⟨r, -, ht⟩ := hfills
    · exact congrArg (slotAt · 0) ht
    · exact (congrArg (slotAt · 0) ht).trans (slotAt_zero_set hk r)

/-- The fetch step of a word whose wait is over puts its record in lane 0, whatever the other lanes fetch (R265, R271). -/
theorem fetchStep_delivers_lane0 {F : CoreFns} {d : Diw} (hw : 1 ≤ s.cfg.issueWidth) (hlen : 1 ≤ s.ifid.length)
    (hstall : s.fetch.redirectStall = 0) (hpending : s.fetch.pending.valid = true)
    (hwait : s.fetch.pending.remaining = 0) (hifid : anyValid s.ifid = false) (hblocked : s.fetch.fetchBlocked = false)
    (hd : F.decode s.fetch.pending.word s.fetch.pending.pc = some d) :
    slotAt (fetchStep F s).ifid 0 = freshSlot s.fetch.pending.pc d (predictedNext s s.fetch.pending.pc d) := by
  have htick : tickPending s = s := by simp [tickPending, hwait]
  have hloop : fetchStep F s = runLanes (fetchLane F) (List.range s.cfg.issueWidth) s := by
    simp [fetchStep, hstall, htick, hifid, hblocked, State.lanes]
  have hfirst := fetchLane_zero_delivers hlen hpending hwait hd
  rw [hloop]
  exact runLanes_lane0 hw (fun t : State => slotAt t.ifid 0 = _) (fun t : State => slotAt t.ifid 0 = _) (fun _ => id)
    ((LaneStep.meets_self _).2 hfirst) fun k hk t ht => (LaneStep.meets_self _).2 ((fetchLane_keeps_lane0 F hk t).trans ht)

/-- After the tick that delivers the word, or whatever else fetch does at its address, that address is the program counter
(R24). -/
theorem tick_withFetchWord_pc (hs : s.status = .running) (hw : 1 ≤ s.cfg.issueWidth) (nbits w : Nat) :
    (tick ref (s.withFetchWord nbits w)).pc = s.fetch.fetchPc :=
  tick_pc ref (s := s.withFetchWord nbits w) hs
    ((State.latchesSized_iff _).2 (by simp [State.withFetchWord, State.setPc, bubbles])) hw
    (.inr ⟨anyValid_bubbles _, .inr ⟨anyValid_bubbles _, .inr ⟨anyValid_bubbles _, rfl⟩⟩⟩)

end

/-- Settles O24: the tick is the fetch step, which delivers the word to lane 0 and touches nothing that is committed. -/
theorem stepDeliversDecoded : Obligations.StepDeliversDecoded := by
  intro s nbits w i hs hw hi p
  refine ⟨withFetchWord_pc s nbits w, _, step_eq _, ?_⟩
  have hpc := tick_withFetchWord_pc hs hw nbits w
  rw [tick_withFetchWord_eq_fetchStep hs] at hpc ⊢
  set u := (s.withFetchWord nbits w).countCycle with hu
  have hlen : 1 ≤ u.ifid.length := by simpa [hu, State.withFetchWord, State.setPc, bubbles] using hw
  have hframe : fetchStep ref u = _ := fetchStep_frame ref u
  have hslot := fetchStep_delivers_lane0 (s := u) hw hlen rfl rfl rfl (anyValid_bubbles _) rfl
    (decode_of_table hi u.fetch.pending.pc)
  have hstats : (fetchStep ref u).stats = u.stats := fetchStep_stats ref rfl
  refine ⟨hslot, hpc, ?_, ?_, ?_, ?_, ?_, hstats⟩
  · rw [hframe]
    exact hs
  · rw [hframe]
    rfl
  · rw [hframe]
    rfl
  · rw [fetchStep_pred]
    rfl
  · rw [fetchStep_l1d]
    rfl

end Sys2Proof.Machine
end

section
/-!
PROOFS. A placed word on its way (`spec/41_pipeline_orchestrator.md` R160, R161, R168 (a)). A record moves through at most
one latch per tick, so the latches ahead of it empty out no faster than it comes: for four ticks `MEMWB` is empty. In the
one-lane core an `ARITH`, `MUL` or `BRANCH` that waits nowhere moves in each of them and is committed in the fifth. Its
effect needs nothing of the caches, which may be incoherent here: what they hold is not followed (`anyData`), as it is for a
`LOAD` or `STORE` (`DataTrack`), and the ticks are counted.
-/

namespace Sys2Proof.Machine

/-! ## Four ticks without a commit -/

/-- Of the latches in the order in which a record moves through them, those from the `n`-th on are empty. -/
def emptyFrom (n : Nat) (s : State) : Prop := ∀ l ∈ [s.ifid, s.idex, s.exmem, s.memwb].drop n, anyValid l = false

/-- The registers, the flags and the retirement count are the same. -/
def sameCommitted (s t : State) : Prop := t.x = s.x ∧ t.flags = s.flags ∧ t.stats.retired = s.stats.retired

theorem sameCommitted.trans {a b c : State} (h : sameCommitted a b) (h' : sameCommitted b c) : sameCommitted a c := by
  obtain ⟨hx, hflags, hretired⟩ := h
  obtain ⟨hx', hflags', hretired'⟩ := h'
  exact ⟨hx'.trans hx, hflags'.trans hflags, hretired'.trans hretired⟩

section
variable {s : State} {n : Nat}

theorem emptyFrom.succ (h : emptyFrom n s) : emptyFrom (n + 1) s := fun l hl =>
  h l (List.mem_of_mem_tail (by rwa [List.tail_drop]))

theorem emptyFrom.memwb (h : emptyFrom n s) (hn : n ≤ 3) : anyValid s.memwb = false := by
  refine h s.memwb ?_
  interval_cases n <;> simp

/-- With `IDEX` empty no record enters `EXMEM` (R161, R165). -/
theorem frontEnd_exmem_of_idle (F : CoreFns) (h : anyValid s.idex = false) : (frontEnd F s).exmem = s.exmem := by
  rw [frontEnd_exmem]
  obtain ⟨-, e⟩ | ⟨-, -, e⟩ | ⟨-, -, e⟩ := executeAndDecode_cases F s <;> rw [e]
  · rw [executeStep_of_empty F h]
  · rw [decodeStep_exmem, executeStep_of_empty F h]

/-- In one tick the front of the records moves by at most one latch (R161). -/
theorem emptyFrom.tick (h : emptyFrom n s) : emptyFrom (n + 1) (tick ref s) := by
  by_cases hs : s.status = .running
  · match n, h with
    | 0, h =>
      obtain ⟨hifid, hidex, hexmem, hmemwb⟩ : anyValid s.ifid = false ∧ anyValid s.idex = false ∧
        anyValid s.exmem = false ∧ anyValid s.memwb = false := by simpa [emptyFrom] using h
      rw [tick_of_back_empty hs hexmem hmemwb, frontEnd_of_empty ref (s := s.countCycle) hidex hifid]
      simp [emptyFrom, hidex, hexmem, hmemwb]
    | 1, h =>
      obtain ⟨hidex, hexmem, hmemwb⟩ : anyValid s.idex = false ∧ anyValid s.exmem = false ∧ anyValid s.memwb = false := by
        simpa [emptyFrom] using h
      rw [tick_of_back_empty hs hexmem hmemwb]
      simp [emptyFrom, frontEnd_exmem_of_idle ref (s := s.countCycle) hidex, frontEnd_memwb, hexmem, hmemwb]
    | 2, h =>
      obtain ⟨hexmem, hmemwb⟩ : anyValid s.exmem = false ∧ anyValid s.memwb = false := by simpa [emptyFrom] using h
      rw [tick_of_back_empty hs hexmem hmemwb]
      simp [emptyFrom, frontEnd_memwb, hmemwb]
    | n + 3, _ => simp [emptyFrom]
  · rw [tick_stopped ref hs]
    exact h.succ

/-- With `MEMWB` empty a tick commits nothing, whether or not the core runs (R22, R26, R27). -/
theorem tick_sameCommitted (h : anyValid s.memwb = false) : sameCommitted s (tick ref s) := by
  by_cases hs : s.status = .running
  · have hcommitted := tick_committed ref hs
    rwa [writebackStep_of_empty h] at hcommitted
  · rw [tick_stopped ref hs]
    exact ⟨rfl, rfl, rfl⟩

theorem emptyFrom.ticks_sameCommitted {k : Nat} (h : emptyFrom n s) (hk : n + k ≤ 4) : sameCommitted s (ticks ref k s) := by
  induction k generalizing n s with
  | zero => exact ⟨rfl, rfl, rfl⟩
  | succ k ih => exact (tick_sameCommitted (h.memwb (by omega))).trans (ih h.tick (by omega))

theorem withFetchWord_emptyFrom (s : State) (nbits w : Nat) : emptyFrom 0 (s.withFetchWord nbits w) := by
  simp [emptyFrom, State.withFetchWord, anyValid_bubbles]

end

/-! ## A record that waits nowhere, stage by stage -/

/-- Nothing is followed of the caches. -/
def anyData (_ : State) : Prop := True

section
variable {s u t : State} {r : Slot} {p : Predictor} {n : Word}

/-- A record that needs no port issues into an empty `IDEX` and `EXMEM` (R291). -/
theorem canIssue_of_not_isMem (he : anyValid s.exmem = false) {d : Diw} (hm : d.cls.isMem = false) :
    canIssue s d 0 0 = .ok := by
  have hraw : ∀ reg, rawHazard s 0 reg = false := fun reg => by
    simp [rawHazard, nearestProducer, youngestWriter_of_empty he, show youngestWriter s.idex reg 0 = none from rfl]
  simp [canIssue, hm, hraw]

/-- A record as it issues (R250, R253). -/
def issuedSlot (s : State) (r : Slot) : Slot := { r with exRem := max (latencyOf s.cfg r.inst.cls) 1 - 1 }

/-- The tick of a record alone in `IFID`: it issues, and fetch goes on behind it (R160, R250). -/
theorem tick_of_issue (hs : u.status = .running) (hw : 1 ≤ u.cfg.issueWidth) (h : AtDecode False s anyData r u)
    (hv : r.valid = true) (hf : r.fault = .none) (hm : r.inst.cls.isMem = false) :
    tick ref u = fetchStep ref (u.countCycle.issue 0 (issuedSlot u r)) := by
  have hdecode : decodeStep u.countCycle = u.countCycle.issue 0 (issuedSlot u r) :=
    decodeStep_of_alone (s := u.countCycle) hw h.ifid hv hf (canIssue_of_not_isMem h.exmem hm)
  have hfront : executeAndDecode ref u.countCycle = ⟨u.countCycle.issue 0 (issuedSlot u r), none⟩ := by
    simp [executeAndDecode, h.exmem, executeStep_of_empty ref (s := u.countCycle) h.idex, h.idex, hdecode]
  rw [tick_of_back_empty hs h.exmem h.memwb, frontEnd_of_no_flush (by rw [hfront]), hfront]

theorem AtDecode.tick_of_not_isMem (hw : 1 ≤ s.cfg.issueWidth) (hu : Uncommitted s u) (h : AtDecode False s anyData r u)
    (hv : r.valid = true) (hf : r.fault = .none) (hm : r.inst.cls.isMem = false) :
    AtExecute False s anyData (issuedSlot u r) (Machine.tick ref u) := by
  obtain ⟨hifid, hidex, -, -⟩ := u.latchesSized_iff.1 hu.sized
  have hwu : 1 ≤ u.cfg.issueWidth := by rwa [hu.cfg]
  have hlen : (u.ifid.set 0 Slot.bubble).length = u.cfg.issueWidth := by rw [List.length_set, hifid]
  have hnext : oldestAt r.predNext [u.ifid.set 0 Slot.bubble] u.fetch := .inr ⟨h.ifid.clear, h.next⟩
  rw [tick_of_issue hu.running hwu h hv hf hm]
  exact {
    idex := by rw [fetchStep_idex]; exact alone_set_of_empty h.idex (by rwa [hidex]) _
    exmem := by rw [fetchStep_exmem]; exact h.exmem
    memwb := by rw [fetchStep_memwb]; exact h.memwb
    next := fetchStep_oldestAt ref (s := u.countCycle.issue 0 (issuedSlot u r)) hlen hwu hnext
    data := trivial
    pred := by rw [fetchStep_pred]; exact h.pred
    held := False.elim }

/-- The state in the midst of the tick in which a record alone in `IDEX` executes with the committed operands of `s`: the
predictor has learnt, the record stands in `EXMEM` (R220). -/
def afterExecute (s u : State) (r : Slot) : State :=
  ({ u with pred := (recordAction s r).2.1.pred } : State).passExecute 0 (actedSlot s r)

theorem executeStep_of_last (hw : 1 ≤ s.cfg.issueWidth) (hu : Uncommitted s u) (h : AtExecute False s anyData r u)
    (hv : r.valid = true) (hf : r.fault = .none) (hlast : r.exRem = 0) :
    executeStep ref u.countCycle = ⟨afterExecute s u.countCycle r, (recordAction s r).2.2⟩ := by
  have hrecord : executeRecord ref u.countCycle 0 r (resolveOperands u.countCycle r.inst 0) =
      ⟨afterExecute s u.countCycle r, (recordAction s r).2.2⟩ :=
    executeRecord_of_committed (u := u.countCycle) hu.cfg h.pred hu.x hu.flags h.memwb r
  have hlate : (resolveOperands u.countCycle r.inst 0).late = false := by
    rw [resolveOperands_of_empty (s := u.countCycle) h.memwb]
    rfl
  have hturn : (executeLane ref 0 ⟨u.countCycle, none⟩).val = ⟨afterExecute s u.countCycle r, (recordAction s r).2.2⟩ := by
    simp [executeLane, h.idex.1, hv, hlast, hf, hlate, hrecord]
  rw [← hturn]
  exact executeStep_of_alone ref (s := u.countCycle) (by rwa [State.countCycle_cfg, hu.cfg]) fun k _ => by
    rw [hturn]
    exact anyValid_eq_false.1 h.idex.clear k

/-- The record executes and moves on, whatever follows it; after a flush nothing does (R220, R235, R170). -/
theorem AtExecute.tick_of_last (hw : 1 ≤ s.cfg.issueWidth) (hu : Uncommitted s u) (h : AtExecute False s anyData r u)
    (hv : r.valid = true) (hf : r.fault = .none) (hlast : r.exRem = 0) :
    AtMemory False anyData (recordAction s r).2.1.pred (nextAfter s r) (actedSlot s r) (tick ref u) := by
  obtain ⟨-, -, hexmem, -⟩ := u.latchesSized_iff.1 hu.sized
  have hwu : 1 ≤ u.cfg.issueWidth := by rwa [hu.cfg]
  have hexecute := executeStep_of_last hw hu h hv hf hlast
  have hsized : (afterExecute s u.countCycle r).latchesSized = true := by
    have hkept := (executeStep_keepsLanes ref (s := u.countCycle) hu.sized h.exmem).1
    rwa [hexecute] at hkept
  have hclear : anyValid (afterExecute s u.countCycle r).idex = false := h.idex.clear
  have hfront : executeAndDecode ref u.countCycle =
      ⟨decodeStep (afterExecute s u.countCycle r), (recordAction s r).2.2⟩ := by
    simp [executeAndDecode, h.exmem, hexecute, hclear]
  have halone : alone (actedSlot s r) (frontEnd ref u.countCycle).exmem := by
    rw [frontEnd_exmem, hfront, decodeStep_exmem]
    exact alone_set_of_empty h.exmem (by rwa [hexmem]) _
  have hnext : oldestAt (nextAfter s r) [(frontEnd ref u.countCycle).idex, (frontEnd ref u.countCycle).ifid]
      (frontEnd ref u.countCycle).fetch := by
    cases hflush : (recordAction s r).2.2 with
    | none =>
      rw [frontEnd_of_no_flush (by rw [hfront, hflush]), hfront, nextAfter, hflush]
      exact decodeAndFetch_oldestAt ref hsized hwu hclear h.next
    | some pc =>
      rw [frontEnd_of_flush (by rw [hfront, hflush]), nextAfter, hflush]
      exact .inr ⟨anyValid_bubbles _, .inr ⟨anyValid_bubbles _, rfl⟩⟩
  rw [tick_of_back_empty hu.running h.exmem h.memwb]
  exact {
    exmem := halone
    memwb := by rw [frontEnd_memwb]; exact h.memwb
    next := hnext
    data := trivial
    held := False.elim }

/-- A record that only passes through the memory stage is in `MEMWB` a tick later (R200, R206). -/
theorem AtMemory.tick_of_pass (hw : 1 ≤ s.cfg.issueWidth) (hu : Uncommitted s u) (h : AtMemory False anyData p n r u)
    (hv : r.valid = true) (hf : r.fault = .none) (hc : r.inst.cls = .arith ∨ r.inst.cls = .mul ∨ r.inst.cls = .branch) :
    Uncommitted s (tick ref u) ∧ AtWriteback False anyData p n r (tick ref u) := by
  obtain ⟨-, -, -, hmemwb⟩ := u.latchesSized_iff.1 hu.sized
  have hwu : 1 ≤ u.cfg.issueWidth := by rwa [hu.cfg]
  have hturn := memoryLane_of_pass (p := ⟨u.countCycle, 0⟩) h.exmem.1 hv hf hc
  have htick : tick ref u = frontEnd ref (u.countCycle.passMemory 0 r) := by
    rw [h.tick_eq hw hu (m := u.countCycle.passMemory 0 r) (by rw [hturn, LaneStep.val_go])
      fun k hk => slotAt_set_of_ne (by omega)]
    exact if_pos hu.running
  have hrun : (tick ref u).status = .running := by
    rw [htick, frontEnd_status]
    exact hu.running
  have hsized : (u.countCycle.passMemory 0 r).latchesSized = true :=
    latchesSized_congr hu.sized rfl rfl rfl (List.length_set ..) (List.length_set ..)
  refine ⟨hu.tick h.memwb hrun, ?_⟩
  rw [htick]
  exact {
    memwb := by rw [frontEnd_memwb]; exact alone_set_of_empty h.memwb (by rwa [hmemwb]) r
    next := frontEnd_oldestAt ref hsized hwu (.inr ⟨h.exmem.clear, h.next⟩)
    data := trivial
    held := False.elim }

/-- The tick that commits the record shows its end (R190 to R193, R24). -/
theorem AtWriteback.tick_retires (hw : 1 ≤ s.cfg.issueWidth) (hu : Uncommitted s u)
    (h : AtWriteback False anyData p n r u) (hv : r.valid = true) (ht : RetiresTo s p n r t) :
    (tick ref u).x = t.x ∧ (tick ref u).flags = t.flags ∧ (tick ref u).stats.retired = t.stats.retired ∧
      (tick ref u).pc = t.pc := by
  have hwu : 1 ≤ u.cfg.issueWidth := by rwa [hu.cfg]
  obtain ⟨hx, hflags, hretired⟩ := tick_committed ref hu.running
  rw [writebackStep_of_alone hwu h.memwb hv] at hx hflags hretired
  rw [hx, hflags, hretired, tick_pc ref hu.running hu.sized hwu h.next, ht.x, ht.flags, ht.retired, ht.pc,
    ← setDest_x_congr hu.x, ← hu.flags, ← hu.retired]
  exact ⟨State.commit_x .., State.commit_flags .., congrArg Stats.retired (State.commit_stats ..), rfl⟩

end

/-! ## What `exec` gives is what retires -/

section
variable {s : State} {i : Instr} {next : Word}

/-- An `ARITH`, `MUL` or `BRANCH` record that has executed commits what `exec` commits, and what follows it stands at the
program counter of `exec` (R120, R146). -/
theorem exec_retiresTo (hs : s.status = .running)
    (hc : i.toDiw.cls = .arith ∨ i.toDiw.cls = .mul ∨ i.toDiw.cls = .branch)
    (hnext : i.toDiw.cls ≠ .branch → next = s.pc + s.ib) :
    ∃ t, exec i s = .next t ∧
      RetiresTo s (recordAction s (firstSlot s i next)).2.1.pred (nextAfter s (firstSlot s i next))
        (actedSlot s (firstSlot s i next)) t := by
  by_cases hb : i.toDiw.cls = .branch
  · have hlink : diwDest i.toDiw = none ∨ (if i.toDiw.link = true then s.pc + s.ib else 0) = s.pc + s.ib := by
      cases hlink : i.toDiw.link with
      | false => exact .inl (diwDest_of_not_link hb hlink)
      | true => exact .inr rfl
    have hafter : nextAfter s (firstSlot s i next) = (recordOutcome s i.toDiw).next := by
      rw [nextAfter, recordAction_of_branch hb]
      by_cases heq : (recordOutcome s i.toDiw).next = next
      · simp [heq, firstSlot, freshSlot]
      · simp [heq]
    refine ⟨_, exec_of_branch hs hb, ?_⟩
    rw [hafter, actedSlot, recordAction_of_branch hb]
    exact retiresTo_finishBranch hs (recordOutcome s i.toDiw) rfl hlink fun hsets => if_pos hsets
  · have halu : i.toDiw.cls = .arith ∨ i.toDiw.cls = .mul := by tauto
    have hafter : nextAfter s (firstSlot s i next) = s.pc + s.ib := by
      rw [nextAfter, recordAction_of_alu halu]
      exact hnext hb
    refine ⟨_, exec_of_alu hs halu, ?_⟩
    rw [hafter, actedSlot, recordAction_of_alu halu]
    exact retiresTo_commit hs (onlyDataChanged.refl s) rfl fun hsets => if_pos hsets

end

/-! ## Five ticks of the one-lane core -/

section
variable {s : State} {i : Instr}

theorem deliveredTo_atDecode_anyData (hw : s.cfg.issueWidth = 1) (i : Instr) (nbits w : Nat) :
    AtDecode False (s.withFetchWord nbits w) anyData
      (firstSlot (s.withFetchWord nbits w) i (predictedNext s s.fetch.fetchPc i.toDiw))
      (deliveredTo (s.withFetchWord nbits w).countCycle i.toDiw) where
  ifid := by
    rw [firstSlot, withFetchWord_pc]
    exact alone_set_of_empty (anyValid_bubbles _) (by simpa [bubbles] using hw.ge) _
  idex := anyValid_bubbles _
  exmem := anyValid_bubbles _
  memwb := anyValid_bubbles _
  next := rfl
  data := trivial
  pred := rfl
  held := False.elim

/-- A latency of at most 1 is no wait: the record issues as it was fetched (R223, R253). -/
theorem issuedSlot_firstSlot {u : State} (h : latencyOf u.cfg i.toDiw.cls ≤ 1) (s : State) (next : Word) :
    issuedSlot u (firstSlot s i next) = firstSlot s i next := by
  have hwait : max (latencyOf u.cfg i.toDiw.cls) 1 - 1 = 0 := by omega
  exact congrArg (fun m => { firstSlot s i next with exRem := m }) hwait

/-- From `IFID` on, four ticks take the record of an `ARITH`, `MUL` or `BRANCH` of latency at most 1 through the four latches
and commit it, with the end that `exec` gives. -/
theorem AtDecode.retires_in_four {u : State} {next : Word} (hs : s.status = .running) (hw : 1 ≤ s.cfg.issueWidth)
    (hu : Uncommitted s u) (h : AtDecode False s anyData (firstSlot s i next) u)
    (hc : i.toDiw.cls = .arith ∨ i.toDiw.cls = .mul ∨ i.toDiw.cls = .branch) (hlat : latencyOf s.cfg i.toDiw.cls ≤ 1)
    (hnext : i.toDiw.cls ≠ .branch → next = s.pc + s.ib) :
    ∃ t, exec i s = .next t ∧
      let v := ticks ref 4 u
      v.x = t.x ∧ v.flags = t.flags ∧ v.stats.retired = t.stats.retired ∧ v.pc = t.pc := by
  have hm : i.toDiw.cls.isMem = false := by rcases hc with hc | hc | hc <;> rw [hc] <;> rfl
  obtain ⟨t, hexec, hretires⟩ := exec_retiresTo hs hc hnext
  have hexecute := h.tick_of_not_isMem hw hu rfl rfl hm
  rw [issuedSlot_firstSlot (by rwa [hu.cfg])] at hexecute
  have hu₁ := hu.tick_of_back_empty h.exmem h.memwb
  have hmemory := AtExecute.tick_of_last (r := firstSlot s i next) hw hu₁ hexecute rfl rfl rfl
  have hu₂ := hu₁.tick_of_back_empty hexecute.exmem hexecute.memwb
  have hrecord : actedSlot s (firstSlot s i next) = _ := congrArg (fun q : Slot => { q with setsFlags := i.toDiw.setsFlags })
    (classAction_record ref s _ _ _)
  obtain ⟨hu₃, hwriteback⟩ := hmemory.tick_of_pass hw hu₂ (by rw [hrecord]; rfl) (by rw [hrecord]; rfl)
    (by rw [hrecord]; exact hc)
  exact ⟨t, hexec, hwriteback.tick_retires hw hu₃ (by rw [hrecord]; rfl) hretires⟩

end

/-- Settles O27. Nothing reaches `MEMWB` before the fifth tick; what does not wait is there then. -/
theorem retiresInFifthTick : Obligations.RetiresInFifthTick := by
  refine ⟨fun s nbits w k hk => (withFetchWord_emptyFrom s nbits w).ticks_sameCommitted (by omega), ?_⟩
  intro s nbits w i hs hw hi hc hlat
  obtain ⟨t, hexec, hend⟩ := (deliveredTo_atDecode_anyData hw i nbits w).retires_in_four
    (s := s.withFetchWord nbits w) hs hw.ge (deliveredTo_uncommitted hs i nbits w) hc hlat
    fun hb => by rw [withFetchWord_pc]; exact predictedNext_of_not_branch _ hb
  rw [← tick_withFetchWord hs hw hi] at hend
  exact ⟨t, hexec, hend⟩

end Sys2Proof.Machine
end

section
/-!
PROOFS. The writeback stage (`spec/42_writeback_stage.md` R190 to R195). Before lane `k` of its loop the register file holds
what the youngest writer below `k` left, `FLAGS` what the youngest setter below `k` left; the search `youngest` of the
forwarding unit, whose recursion goes up the lanes as the loop does, says which lane that is. No record with a fault comes
here, since the memory stage raises on it (R193, R205).
-/

namespace Sys2Proof.Machine

/-! ## The youngest record that passes a test -/

section
variable {l : Latch} {test : Slot → Bool} {n : Nat}

theorem youngest_of_noneBelow (h : noneBelow l test n) : youngest l test n = none := by
  induction n with
  | zero => rfl
  | succ n ih =>
    rw [youngest, h n (Nat.lt_succ_self n)]
    exact ih fun k hk => h k (Nat.lt_succ_of_lt hk)

theorem youngest_of_nearestBelow {j : Nat} (h : nearestBelow l test n j) : youngest l test n = some (slotAt l j) := by
  obtain ⟨hj, htest, hlater⟩ := h
  induction n with
  | zero => exact absurd hj (Nat.not_lt_zero j)
  | succ n ih =>
    obtain hj | rfl := Nat.lt_succ_iff_lt_or_eq.1 hj
    · rw [youngest, hlater n hj (Nat.lt_succ_self n)]
      exact ih hj fun k hjk hk => hlater k hjk (Nat.lt_succ_of_lt hk)
    · rw [youngest, if_pos htest]

end

/-! ## What writeback commits -/

/-- Of a valid record the register it retires into is the register it is a writer of (R191, R290). -/
theorem retireDest_eq_some_iff {r : Slot} (hv : r.valid = true) (reg : Reg) :
    retireDest r = some reg ↔ validWriter reg r = true := by
  by_cases hf : r.fault = .none
  · cases hd : r.inst.rdV <;> simp [retireDest, diwDest, validWriter, slotWrites, hv, hf, hd]
  · simp [retireDest, validWriter, slotWrites, hf]

theorem validSetter_eq_setsFlags {r : Slot} (hv : r.valid = true) : validSetter r = r.setsFlags := by
  rw [validSetter, hv, Bool.true_and]

theorem not_validWriter_of_invalid {r : Slot} (hv : r.valid = false) (reg : Reg) : validWriter reg r = false := by
  rw [validWriter, hv, Bool.false_and]

theorem not_validSetter_of_invalid {r : Slot} (hv : r.valid = false) : validSetter r = false := by
  rw [validSetter, hv, Bool.false_and]

/-- The writeback loop before lane `k`: the youngest writers and the youngest setter of the lower lanes are committed. -/
def committedBelow (s : State) (k : Nat) (t : State) : Prop :=
  (∀ reg, t.reg reg = (youngest s.memwb (validWriter reg) k).elim (s.reg reg) (·.result)) ∧
    t.flags = (youngest s.memwb validSetter k).elim s.flags (·.flags)

section
variable {s t : State} {k : Nat}

/-- A bubble is neither writer nor setter. -/
theorem committedBelow.skip (h : committedBelow s k t) (hv : (slotAt s.memwb k).valid = false) :
    committedBelow s (k + 1) t := by
  obtain ⟨hregs, hflags⟩ := h
  refine ⟨fun reg => ?_, ?_⟩
  · rw [youngest, not_validWriter_of_invalid hv]
    exact hregs reg
  · rw [youngest, not_validSetter_of_invalid hv]
    exact hflags

/-- A record that retires overwrites what older ones wrote (R191, R192). -/
theorem committedBelow.retire (h : committedBelow s k t) (hv : (slotAt s.memwb k).valid = true) :
    committedBelow s (k + 1) (retireSlot t (slotAt s.memwb k)) := by
  obtain ⟨hregs, hflags⟩ := h
  refine ⟨fun reg => ?_, ?_⟩
  · rw [retireSlot, State.commit_reg, hregs, youngest]
    simp only [retireDest_eq_some_iff hv]
    split_ifs <;> rfl
  · rw [retireSlot, State.commit_flags, hflags, youngest, validSetter_eq_setsFlags hv]
    split_ifs <;> rfl

theorem writebackLane_commits (hk : k < s.memwb.length) (hr : retiringBelow s k t) (hc : committedBelow s k t)
    (Q : State → Prop) :
    (writebackLane k t).meets (fun u => retiringBelow s (k + 1) u ∧ committedBelow s (k + 1) u) Q := by
  have hretires := writebackLane_retires hk hr Q
  obtain ⟨-, -, hwait, -⟩ := hr
  obtain ⟨hv, e⟩ | ⟨hv, e⟩ := writebackLane_cases k t <;> rw [e] at hretires ⊢ <;> rw [hwait k (Nat.le_refl k)] at hv
  · exact ⟨hretires, hc.skip hv⟩
  · refine ⟨hretires, ?_⟩
    rw [hwait k (Nat.le_refl k)]
    exact hc.retire hv

theorem writebackStep_committedBelow (h : s.memwb.length = s.cfg.issueWidth) :
    committedBelow s s.cfg.issueWidth (writebackStep s) :=
  (runLanes_range (fun k t => retiringBelow s k t ∧ committedBelow s k t)
    (fun t => retiringBelow s s.cfg.issueWidth t ∧ committedBelow s s.cfg.issueWidth t)
    (fun _ hk _ ⟨hr, hc⟩ => writebackLane_commits (by rwa [h]) hr hc _) (fun _ => id)
    ⟨⟨rfl, fun j hj => absurd hj (Nat.not_lt_zero j), fun _ _ => rfl, rfl⟩, fun _ => rfl, rfl⟩).2

end

/-- Settles O28: what the loop has committed before a lane, read after the last one. -/
theorem writebackCommits : Obligations.WritebackCommits := by
  intro s hsized
  obtain ⟨-, hempty⟩ := writebackStep_memwb hsized
  obtain ⟨hregs, hflags⟩ := writebackStep_committedBelow hsized
  refine ⟨hempty, writebackStep_stats hsized, fun r j hj => ?_, fun r hnone => ?_, fun j hj => ?_, fun hnone => ?_,
    writebackStep_frame s⟩
  · rw [hregs, youngest_of_nearestBelow hj, Option.elim_some]
  · rw [hregs, youngest_of_noneBelow hnone, Option.elim_none]
  · rw [hflags, youngest_of_nearestBelow hj, Option.elim_some]
  · rw [hflags, youngest_of_noneBelow hnone, Option.elim_none]

/-! ## No poisoned record retires -/

section
variable {s : State}

/-- A bubble or a record without a fault may enter a lane of `MEMWB`. -/
theorem State.noPoisonRetires.of_set {t : State} (h : s.noPoisonRetires) {lane : Nat} {r : Slot}
    (ht : t.memwb = s.memwb.set lane r) (hr : r.valid = true → r.fault = .none) : t.noPoisonRetires := fun q hq => by
  rw [ht] at hq
  obtain hq | rfl := List.mem_or_eq_of_mem_set hq
  · exact h q hq
  · exact hr

theorem State.noPoisonRetires.congr {t : State} (h : s.noPoisonRetires) (ht : t.memwb = s.memwb) : t.noPoisonRetires := by
  rwa [State.noPoisonRetires, ht]

theorem writebackLane_noPoisonRetires (lane : Nat) (h : s.noPoisonRetires) :
    (writebackLane lane s).val.noPoisonRetires := by
  obtain ⟨-, e⟩ | ⟨-, e⟩ := writebackLane_cases lane s <;> rw [e]
  · exact h
  · exact h.of_set (lane := lane) (r := Slot.bubble) (by simp [retireSlot]) fun _ => rfl

theorem writebackStep_noPoisonRetires (h : s.noPoisonRetires) : (writebackStep s).noPoisonRetires :=
  runLanes_induct State.noPoisonRetires writebackLane s.lanes (fun lane _ _ ht => writebackLane_noPoisonRetires lane ht) s h

section
variable {p : MemPass} {r : Slot}

theorem settleMem_noPoisonRetires (h : p.st.noPoisonRetires) (lane : Nat) (hf : r.fault = .none) :
    (settleMem p lane r).val.st.noPoisonRetires := by
  obtain ⟨-, e⟩ | ⟨-, e⟩ := settleMem_cases p lane r <;> rw [e]
  · exact h
  · exact h.of_set rfl fun _ => hf

theorem memClassLane_noPoisonRetires (h : p.st.noPoisonRetires) (lane : Nat) (hf : r.fault = .none) :
    (memClassLane p lane r).val.st.noPoisonRetires := by
  obtain ⟨-, e⟩ | ⟨-, -, e⟩ | ⟨-, -, -, e⟩ | ⟨-, -, -, e⟩ := memClassLane_cases p lane r <;> rw [e]
  · exact settleMem_noPoisonRetires h lane hf
  · exact h
  · exact h
  · refine settleMem_noPoisonRetires (h.congr (accessMem_onlyData p.st r).latches.2) lane ?_
    rw [accessMem_record]
    exact hf

/-- A poisoned record raises in the memory stage; what moves on has no fault (R205). -/
theorem memoryLane_noPoisonRetires (F : CoreFns) (lane : Nat) (h : p.st.noPoisonRetires) :
    (memoryLane F lane p).val.st.noPoisonRetires := by
  obtain ⟨-, e⟩ | ⟨_, -, -, e⟩ | ⟨_, -, -, -, -, e⟩ | ⟨_, -, hp, -, -, e⟩ | ⟨-, hp, -, e⟩ | ⟨-, hp, -, e⟩ :=
    memoryLane_cases F lane p <;> rw [e]
  · exact h
  · exact h
  · exact h
  · exact h.of_set rfl fun _ => poisonError_eq_none_iff.1 hp
  · exact h.of_set rfl fun _ => poisonError_eq_none_iff.1 hp
  · exact memClassLane_noPoisonRetires h lane (poisonError_eq_none_iff.1 hp)

end

theorem memoryStep_noPoisonRetires (F : CoreFns) (h : s.noPoisonRetires) : (memoryStep F s).noPoisonRetires :=
  runLanes_induct (fun p : MemPass => p.st.noPoisonRetires) (memoryLane F) s.lanes
    (fun lane _ _ hp => memoryLane_noPoisonRetires F lane hp) ⟨s, 0⟩ h

theorem tick_noPoisonRetires (F : CoreFns) (h : s.noPoisonRetires) : (tick F s).noPoisonRetires := by
  by_cases hs : s.status = .running
  · have hback : (memoryStep F (writebackStep s.countCycle)).noPoisonRetires :=
      memoryStep_noPoisonRetires F (writebackStep_noPoisonRetires (h.congr rfl))
    rw [tick_running F hs]
    split_ifs
    · exact hback.congr (frontEnd_memwb F _)
    · exact hback
  · rwa [tick_stopped F hs]

end

/-- Settles O46: writeback and the front end put no record into `MEMWB`, the memory stage none with a fault. -/
theorem stepKeepsPoisonOut : Obligations.StepKeepsPoisonOut := by
  intro s t h hstep
  obtain rfl := tick_eq_of_step hstep
  exact tick_noPoisonRetires ref h

end Sys2Proof.Machine
end

section
/-!
PROOFS. The memory stage (`spec/43_memory_stage.md` R200 to R207): its ports, and how it ends a run. Every stage moves a
memory-class record from one latch to the next or takes it away, so a count of such records only passes on: the memory step
trades a record of `EXMEM` for a started access, the execute step one of `IDEX` for one of `EXMEM`, and the decode step
issues one only while a port is left (R203, R252).
-/

namespace Sys2Proof.Machine

/-! ## Counting memory-class records -/

/-- The share of one record in `memClassCount`: 1 for a memory-class record without a fault, else 0. -/
def Slot.portUse (r : Slot) : Nat := memClassCount [r]

theorem memClassCount_cons (r : Slot) (l : Latch) : memClassCount (r :: l) = memClassCount l + r.portUse := by
  simp [Slot.portUse, memClassCount, List.countP_cons]

@[simp] theorem Slot.portUse_bubble : Slot.bubble.portUse = 0 := rfl

theorem Slot.portUse_congr {q r : Slot} (hvalid : q.valid = r.valid) (hfault : q.fault = r.fault) (hinst : q.inst = r.inst) :
    q.portUse = r.portUse := by
  simp [Slot.portUse, memClassCount, List.countP_cons, hvalid, hfault, hinst]

/-- Execute ticks still to serve have no part in it. -/
theorem Slot.portUse_withExRem (r : Slot) (k : Nat) : Slot.portUse { r with exRem := k } = r.portUse :=
  Slot.portUse_congr rfl rfl rfl

theorem Slot.portUse_of_fault {r : Slot} (hf : r.fault ≠ .none) : r.portUse = 0 := by
  simp [Slot.portUse, memClassCount, hf]

theorem Slot.portUse_of_no_fault {r : Slot} (hv : r.valid = true) (hf : r.fault = .none) :
    r.portUse = if r.inst.cls.isMem then 1 else 0 := by
  simp [Slot.portUse, memClassCount, List.countP_cons, hv, hf]

/-- A record written to a lane takes the place of the one there; a lane beyond the last holds and takes none. -/
theorem memClassCount_set (l : Latch) (lane : Nat) (r : Slot) :
    memClassCount (l.set lane r) + (slotAt l lane).portUse ≤ memClassCount l + r.portUse := by
  induction l generalizing lane with
  | nil => simp [slotAt]
  | cons q rest ih =>
    cases lane with
    | zero => rw [List.set_cons_zero, memClassCount_cons, memClassCount_cons, slotAt, List.getD_cons_zero]; omega
    | succ lane =>
      have hrest := ih lane
      rw [List.set_cons_succ, memClassCount_cons, memClassCount_cons, slotAt, List.getD_cons_succ]
      rw [slotAt] at hrest
      omega

theorem portUse_le_memClassCount (l : Latch) (lane : Nat) : (slotAt l lane).portUse ≤ memClassCount l :=
  Nat.le_of_add_left_le (memClassCount_set l lane Slot.bubble)

theorem memClassCount_of_empty {l : Latch} (h : anyValid l = false) : memClassCount l = 0 := by
  rw [anyValid, List.any_eq_false] at h
  exact List.countP_eq_zero.2 fun r hr => by simp [h r hr]

/-! ## The ports of the memory stage (R203) -/

/-- In the midst of the memory step there is a port for each access started and each memory-class record still in `EXMEM`,
and the statistics are `stats`. -/
def MemPass.portsLeft (stats : Stats) (p : MemPass) : Prop :=
  p.started + memClassCount p.st.exmem ≤ p.st.cfg.memPorts ∧ p.st.stats = stats

/-- What the memory step leaves, wherever it ended. -/
def State.portsKept (stats : Stats) (s : State) : Prop := memClassCount s.exmem ≤ s.cfg.memPorts ∧ s.stats = stats

theorem MemPass.portsLeft.kept {stats : Stats} {p : MemPass} (h : p.portsLeft stats) : p.st.portsKept stats :=
  ⟨Nat.le_of_add_left_le h.1, h.2⟩

theorem onlyDataChanged.cfg_stats {s t : State} (h : onlyDataChanged s t) : t.cfg = s.cfg ∧ t.stats = s.stats := by
  rw [show t = _ from h]
  exact ⟨rfl, rfl⟩

section
variable {stats : Stats} {p : MemPass} {lane : Nat} {r : Slot}

/-- A record that leaves `EXMEM` gives its share to its access, if that is counted already. -/
theorem passMemory_portsLeft
    (h : p.started + memClassCount p.st.exmem ≤ p.st.cfg.memPorts + (slotAt p.st.exmem lane).portUse)
    (hstats : p.st.stats = stats) : MemPass.portsLeft stats { p with st := p.st.passMemory lane r } := by
  have hcount := memClassCount_set p.st.exmem lane Slot.bubble
  rw [Slot.portUse_bubble] at hcount
  refine ⟨?_, hstats⟩
  simp only [State.passMemory_exmem, State.passMemory_cfg]
  omega

theorem settleMem_portsLeft
    (h : p.started + memClassCount p.st.exmem ≤ p.st.cfg.memPorts + (slotAt p.st.exmem lane).portUse)
    (hkept : p.st.portsKept stats) (hr : r.portUse = (slotAt p.st.exmem lane).portUse) :
    (settleMem p lane r).meets (MemPass.portsLeft stats) (fun q => q.st.portsKept stats) := by
  obtain ⟨hcount, hstats⟩ := hkept
  obtain ⟨-, e⟩ | ⟨-, e⟩ := settleMem_cases p lane r <;> rw [e]
  · have hset := memClassCount_set p.st.exmem lane r
    refine ⟨?_, hstats⟩
    simp only [State.setExmem_exmem, State.setExmem_cfg]
    omega
  · exact passMemory_portsLeft h hstats

/-- The turn of a memory-class record finds a port, since the record itself is counted. -/
theorem memClassLane_portsLeft (h : p.portsLeft stats) (huse : (slotAt p.st.exmem lane).portUse = 1) :
    (memClassLane p lane (slotAt p.st.exmem lane)).meets (MemPass.portsLeft stats) (fun q => q.st.portsKept stats) := by
  have ⟨hports, hstats⟩ := h
  obtain ⟨-, e⟩ | ⟨-, hfull, -⟩ | ⟨-, -, -, e⟩ | ⟨-, -, -, e⟩ := memClassLane_cases p lane (slotAt p.st.exmem lane)
  · rw [e]
    exact settleMem_portsLeft (Nat.le_add_right_of_le hports) h.kept (Slot.portUse_congr rfl rfl rfl)
  · have hone := portUse_le_memClassCount p.st.exmem lane
    omega
  · rw [e]
    exact h.kept
  · have hdata := accessMem_onlyData p.st (slotAt p.st.exmem lane)
    obtain ⟨hexmem, -⟩ := hdata.latches
    obtain ⟨hcfg, hstats'⟩ := hdata.cfg_stats
    rw [e]
    refine settleMem_portsLeft ?_ ⟨?_, hstats'.trans hstats⟩ ?_
    · simp only [hexmem, hcfg, huse]
      omega
    · rw [hexmem, hcfg]
      exact h.kept.1
    · simp only [hexmem]
      exact Slot.portUse_congr (by rw [accessMem_record]) (by rw [accessMem_record]) (by rw [accessMem_record])

theorem memoryLane_portsLeft (F : CoreFns) (lane : Nat) (h : p.portsLeft stats) :
    (memoryLane F lane p).meets (MemPass.portsLeft stats) (fun q => q.st.portsKept stats) := by
  have hpass (q : Slot) : MemPass.portsLeft stats { p with st := p.st.passMemory lane q } :=
    passMemory_portsLeft (Nat.le_add_right_of_le h.1) h.2
  obtain ⟨-, e⟩ | ⟨_, -, -, e⟩ | ⟨_, -, -, -, -, e⟩ | ⟨_, -, -, -, -, e⟩ | ⟨-, -, -, e⟩ | ⟨hv, hp, hm, e⟩ :=
    memoryLane_cases F lane p <;> rw [e]
  · exact h
  · exact h.kept
  · exact h.kept
  · exact hpass _
  · exact hpass _
  · exact memClassLane_portsLeft h (by rw [Slot.portUse_of_no_fault hv (poisonError_eq_none_iff.1 hp), if_pos hm])

end

theorem memoryStep_portsKept (F : CoreFns) {s : State} (h : memClassCount s.exmem ≤ s.cfg.memPorts) :
    (memoryStep F s).portsKept s.stats :=
  runLanes_range (fun _ => MemPass.portsLeft s.stats) (fun p : MemPass => p.st.portsKept s.stats)
    (fun lane _ _ hp => memoryLane_portsLeft F lane hp) (fun _ hp => hp.kept) (s := ⟨s, 0⟩)
    ⟨by rwa [Nat.zero_add], rfl⟩

/-- Settles O39: with a port for every record the memory step leaves all the statistics. -/
theorem memoryStageNeverRefusesAPort : Obligations.MemoryStageNeverRefusesAPort := fun F _ h =>
  congrArg Stats.stallStructural (memoryStep_portsKept F h.2).2

/-! ## The ports through execute and decode -/

/-- `IDEX` and `EXMEM` together hold at most `n` memory-class records. -/
def State.portsShared (n : Nat) (s : State) : Prop := memClassCount s.idex + memClassCount s.exmem ≤ n

section
variable {n : Nat} {s : State}

/-- What a turn writes to its lane of `IDEX` and of `EXMEM` takes no more ports than the record it found there. -/
theorem State.portsShared.move (h : s.portsShared n) {t : State} {lane : Nat} {q r : Slot}
    (hidex : t.idex = s.idex.set lane q) (hexmem : t.exmem = s.exmem.set lane r)
    (huse : q.portUse + r.portUse ≤ (slotAt s.idex lane).portUse) : t.portsShared n := by
  have hsrc := memClassCount_set s.idex lane q
  have hdst := memClassCount_set s.exmem lane r
  unfold State.portsShared at h ⊢
  rw [hidex, hexmem]
  omega

/-- A record of `IDEX` is written back to its lane, to wait there, or dropped. -/
theorem State.portsShared.write (h : s.portsShared n) {lane : Nat} {q : Slot}
    (huse : q.portUse ≤ (slotAt s.idex lane).portUse) : (s.setIdex lane q).portsShared n := by
  have hset := memClassCount_set s.idex lane q
  unfold State.portsShared at h ⊢
  rw [State.setIdex_idex, State.setIdex_exmem]
  omega

theorem executedSlot_portUse (F : CoreFns) (s : State) (lane : Nat) (r : Slot) (ops : Operands) :
    (executedSlot F s lane r ops).portUse = r.portUse :=
  Slot.portUse_congr (by rw [executedSlot, classAction_record]) (by rw [executedSlot, classAction_record])
    (by rw [executedSlot, classAction_record])

theorem executeLane_portsShared (F : CoreFns) (lane : Nat) {p : ExecPass} (h : p.st.portsShared n) :
    (executeLane F lane p).val.st.portsShared n := by
  obtain ⟨-, e⟩ | ⟨-, -, e⟩ | ⟨-, -, -, e⟩ | ⟨-, -, -, -, e⟩ | ⟨-, -, -, -, -, e⟩ | ⟨-, -, -, -, -, e⟩ :=
    executeLane_cases F lane p <;> rw [e]
  · exact h
  · exact h.write (Nat.zero_le _)
  · exact h.write (Nat.le_of_eq (Slot.portUse_withExRem _ _))
  · exact h.move (State.passExecute_idex ..) (State.passExecute_exmem ..) (by simp)
  · exact h
  · obtain ⟨_, -, hidex, -⟩ := executeRecord_latches F p.st lane (slotAt p.st.idex lane)
      (resolveOperands p.st (slotAt p.st.idex lane).inst lane)
    exact h.move hidex (executeRecord_exmem F p.st lane _ _) (by simp [executedSlot_portUse])

theorem executeStep_portsShared (F : CoreFns) (h : s.portsShared n) : (executeStep F s).st.portsShared n :=
  runLanes_induct (fun p : ExecPass => p.st.portsShared n) (executeLane F) s.lanes
    (fun lane _ _ hp => executeLane_portsShared F lane hp) ⟨s, none⟩ h

theorem State.portsShared.respected (h : s.portsShared s.cfg.memPorts) : s.portsRespected :=
  ⟨Nat.le_of_add_right_le h, Nat.le_of_add_left_le h⟩

/-- Every memory-class record that the decode step has put into `IDEX` is counted, and no more than there are ports. -/
def DecodePass.portsCounted (p : DecodePass) : Prop :=
  memClassCount p.st.idex ≤ p.issuedMem ∧ p.issuedMem ≤ p.st.cfg.memPorts

/-- The structural test of `CanIssue` (R252, R291). -/
theorem ne_memPorts_of_canIssue {d : Diw} {lane issued : Nat} (h : canIssue s d lane issued = .ok)
    (hm : d.cls.isMem = true) : issued ≠ s.cfg.memPorts := by
  rintro rfl
  simp [canIssue, hm] at h

/-- A record is issued; if it takes a port, it is counted. -/
theorem DecodePass.portsCounted.issue {p : DecodePass} (h : p.portsCounted) (lane : Nat) {r : Slot} {issued : Nat}
    (huse : p.issuedMem + r.portUse ≤ issued) (hports : issued ≤ p.st.cfg.memPorts) :
    DecodePass.portsCounted ⟨p.st.issue lane r, issued⟩ := by
  have hset := memClassCount_set p.st.idex lane r
  refine ⟨?_, hports⟩
  rw [State.issue_idex]
  exact (Nat.le_of_add_right_le hset).trans ((Nat.add_le_add_right h.1 _).trans huse)

theorem decodeLane_portsCounted (lane : Nat) {p : DecodePass} (h : p.portsCounted) :
    (decodeLane lane p).val.portsCounted := by
  obtain ⟨-, e⟩ | ⟨-, hf, e⟩ | ⟨-, -, -, e⟩ | ⟨-, -, -, e⟩ | ⟨hv, hf, hok, e⟩ := decodeLane_cases lane p <;> rw [e]
  · exact h
  · exact h.issue lane (by rw [Slot.portUse_withExRem, Slot.portUse_of_fault hf, Nat.add_zero]) h.2
  · exact h
  · exact h
  · have hne := ne_memPorts_of_canIssue hok
    refine h.issue lane (by rw [Slot.portUse_withExRem, Slot.portUse_of_no_fault hv hf]; split_ifs <;> rfl) ?_
    split_ifs with hm
    · exact Nat.lt_of_le_of_ne h.2 (hne hm)
    · exact h.2

theorem decodeStep_portsRespected (he : anyValid s.idex = false) (hx : memClassCount s.exmem ≤ s.cfg.memPorts) :
    (decodeStep s).portsRespected := by
  obtain ⟨hcount, hports⟩ := runLanes_induct DecodePass.portsCounted decodeLane s.lanes
    (fun lane _ _ hp => decodeLane_portsCounted lane hp) ⟨s, 0⟩
    ⟨by rw [memClassCount_of_empty he], Nat.zero_le _⟩
  exact ⟨hcount.trans hports, by simpa using hx⟩

/-! ## The ports through the tick -/

theorem executeAndDecode_portsRespected (F : CoreFns) (h : s.portsRespected) :
    (executeAndDecode F s).st.portsRespected := by
  have hexecute (he : anyValid s.exmem = false) : (executeStep F s).st.portsRespected :=
    State.portsShared.respected (by
      rw [executeStep_cfg]
      exact executeStep_portsShared F (by rw [State.portsShared, memClassCount_of_empty he]; exact h.1))
  obtain ⟨-, e⟩ | ⟨he, -, e⟩ | ⟨he, hd, e⟩ := executeAndDecode_cases F s <;> rw [e]
  · exact h
  · exact hexecute he
  · exact decodeStep_portsRespected hd (hexecute he).2

theorem frontEnd_portsRespected (F : CoreFns) (h : s.portsRespected) : (frontEnd F s).portsRespected := by
  obtain ⟨hidex, hexmem⟩ := executeAndDecode_portsRespected F h
  cases hflush : (executeAndDecode F s).flush with
  | none =>
    rw [frontEnd_of_no_flush hflush]
    exact ⟨by simpa using hidex, by simpa using hexmem⟩
  | some pc =>
    rw [frontEnd_of_flush hflush]
    exact ⟨by simp [memClassCount_bubbles], by simpa using hexmem⟩

theorem backEnd_portsRespected (F : CoreFns) (h : s.portsRespected) :
    (memoryStep F (writebackStep s.countCycle)).portsRespected := by
  obtain ⟨hidex, hexmem⟩ := h
  exact ⟨by simpa using hidex, (memoryStep_portsKept F (by simpa using hexmem)).1⟩

theorem tick_portsRespected (F : CoreFns) (h : s.portsRespected) : (tick F s).portsRespected := by
  by_cases hs : s.status = .running
  · have hback := backEnd_portsRespected F h
    rw [tick_running F hs]
    split_ifs
    · exact frontEnd_portsRespected F hback
    · exact hback
  · rwa [tick_stopped F hs]

end

/-- Settles O38: only the decode step adds to the memory-class records past issue, and it issues no more than there are
ports. -/
theorem stepKeepsPortsRespected : Obligations.StepKeepsPortsRespected := by
  intro s t h hstep
  obtain rfl := tick_eq_of_step hstep
  exact tick_portsRespected ref h

/-! ## How a run ends -/

/-- A lane loop whose lower lanes leave the state ends with the turn that stops it. -/
theorem runLanes_of_stop {σ : Type} {f : Nat → σ → LaneStep σ} {n k : Nat} (hk : k < n) {a b : σ}
    (hgo : ∀ j < k, f j a = .go a) (hstop : f k a = .stop b) : runLanes f (List.range n) a = b := by
  refine runLanes_range (fun j c => j ≤ k ∧ c = a) (fun c => c = b) ?_ (fun c hc => absurd hc.1 (Nat.not_le.2 hk))
    ⟨Nat.zero_le k, rfl⟩
  rintro j - c ⟨hj, rfl⟩
  obtain hj | rfl := Nat.lt_or_eq_of_le hj
  · rw [hgo j hj]
    exact ⟨hj, rfl⟩
  · rw [hstop]
    rfl

theorem firstValid.valid {l : Latch} {n lane : Nat} (h : firstValid l n lane) : (slotAt l lane).valid = true := h.2.1

section
variable {F : CoreFns} {s : State} {lane : Nat}

/-- A turn of the oldest record that ends the loop ends the memory step. -/
theorem memoryStep_of_first_stop (hfirst : firstValid s.exmem s.cfg.issueWidth lane) {p : MemPass}
    (hstop : memoryLane F lane ⟨s, 0⟩ = .stop p) : memoryStep F s = p.st := by
  obtain ⟨hlane, -, hbelow⟩ := hfirst
  exact congrArg MemPass.st
    (runLanes_of_stop hlane (fun j hj => by simp [memoryLane, hbelow j hj]) hstop)

/-- An oldest record with a fault raises it (R205). -/
theorem memoryStep_of_first_poisoned (hfirst : firstValid s.exmem s.cfg.issueWidth lane) {e : FatalError}
    (he : poisonError (slotAt s.exmem lane) = some e) : memoryStep F s = s.raise e :=
  memoryStep_of_first_stop (p := ⟨s.raise e, 0⟩) hfirst (by simp only [memoryLane, hfirst.valid, if_true, he])

/-- An oldest record that is an exit call halts the run (R206, R390). -/
theorem memoryStep_of_first_exit (hfirst : firstValid s.exmem s.cfg.issueWidth lane)
    (hf : (slotAt s.exmem lane).fault = .none) (hc : (slotAt s.exmem lane).inst.cls = .syscall) {code : Word}
    (hsys : F.sys (slotAt s.exmem lane).a (slotAt s.exmem lane).b (slotAt s.exmem lane).c = .exit code) :
    memoryStep F s = s.halt code :=
  memoryStep_of_first_stop (p := ⟨s.halt code, 0⟩) hfirst
    (by simp only [memoryLane, hfirst.valid, if_true, poisonError_eq_none_iff.2 hf, hc, hsys])

theorem memoryLane_of_memClass {p : MemPass} (hv : (slotAt p.st.exmem lane).valid = true)
    (hf : (slotAt p.st.exmem lane).fault = .none) (hm : (slotAt p.st.exmem lane).inst.cls.isMem = true) :
    memoryLane F lane p = memClassLane p lane (slotAt p.st.exmem lane) := by
  simp only [memoryLane, hv, if_true, poisonError_eq_none_iff.2 hf]
  cases hc : (slotAt p.st.exmem lane).inst.cls with
  | load | store => rfl
  | arith | branch | mul | syscall => rw [hc] at hm; exact absurd hm Bool.false_ne_true

/-- An oldest record whose access has yet to start and is out of bounds raises the data error (R202). -/
theorem memoryStep_of_first_outOfBounds (hfirst : firstValid s.exmem s.cfg.issueWidth lane)
    (hf : (slotAt s.exmem lane).fault = .none) (hm : (slotAt s.exmem lane).inst.cls.isMem = true)
    (hfresh : (slotAt s.exmem lane).memStarted = false) (hport : 1 ≤ s.cfg.memPorts)
    (hout : ¬s.inBounds (slotAt s.exmem lane).addr (accessBytes (slotAt s.exmem lane).inst.msize) = true) :
    memoryStep F s = s.raise (.dataOutOfBounds (slotAt s.exmem lane).addr s.stats.cycles) := by
  refine memoryStep_of_first_stop (p := ⟨s.raise _, 0⟩) hfirst ?_
  rw [memoryLane_of_memClass hfirst.valid hf hm, memClassLane, if_neg (by simp [hfresh]), if_neg (Nat.ne_of_lt hport),
    if_neg hout]

end

/-- Settles O30: the lanes before the oldest record do nothing, and its turn ends the run. -/
theorem memoryStageEnds : Obligations.MemoryStageEnds := by
  intro s lane hfirst r
  refine ⟨fun hf => ?_, fun hf => ?_, fun hf => ?_, fun hf hc ha => ?_, fun hf hm hfresh hport hout => ?_⟩
  · exact memoryStep_of_first_poisoned hfirst (by rw [poisonError, hf])
  · exact memoryStep_of_first_poisoned hfirst (by rw [poisonError, hf])
  · exact memoryStep_of_first_poisoned hfirst (by rw [poisonError, hf])
  · exact memoryStep_of_first_exit hfirst hf hc (if_pos ha)
  · exact memoryStep_of_first_outOfBounds hfirst hf hm hfresh hport fun hin =>
      absurd ((inBounds_iff s _ _).1 hin) (Nat.not_le.2 hout)

end Sys2Proof.Machine
end

section
/-!
PROOFS. The execute stage (`spec/44_execute_stage.md` R220 to R238): what flag resolution answers, and where a flush request
comes from. Before lane `k` of the execute loop either no lane has asked for a flush and the lanes from `k` on still hold
their records, or a lane below `k` has, and every lane above it is empty in both latches. What that lane resolved can be read
from the state after the loop, since resolution in a lane looks at lower lanes alone.
-/

namespace Sys2Proof.Machine

/-! ## Resolving flags (R228) -/

section
variable {s : State} {lane j : Nat}

theorem forwardedFlags_of_exmem (h : nearestBelow s.exmem validSetter lane j) :
    forwardedFlags s lane = (slotAt s.exmem j).flags := by
  have hpass : youngestSetter s.exmem lane = some (slotAt s.exmem j) := youngest_of_nearestBelow h
  rw [forwardedFlags, hpass]

theorem forwardedFlags_of_memwb (hnone : noneBelow s.exmem validSetter lane)
    (h : nearestBelow s.memwb validSetter s.cfg.issueWidth j) : forwardedFlags s lane = (slotAt s.memwb j).flags := by
  have hpass : youngestSetter s.exmem lane = none := youngest_of_noneBelow hnone
  have hgroup : youngestSetter s.memwb s.cfg.issueWidth = some (slotAt s.memwb j) := youngest_of_nearestBelow h
  rw [forwardedFlags, hpass, hgroup]

theorem forwardedFlags_of_none (hnone : noneBelow s.exmem validSetter lane)
    (hnone' : noneBelow s.memwb validSetter s.cfg.issueWidth) : forwardedFlags s lane = s.flags := by
  have hpass : youngestSetter s.exmem lane = none := youngest_of_noneBelow hnone
  have hgroup : youngestSetter s.memwb s.cfg.issueWidth = none := youngest_of_noneBelow hnone'
  rw [forwardedFlags, hpass, hgroup]

end

theorem resolveFlags_of_fused (F : CoreFns) (s : State) {d : Diw} (a b : Word) (lane : Nat) (hreads : d.readsFlags = true)
    (hfused : d.fused = true) : resolveFlags F s d a b lane = F.cmpFlags a b := by
  rw [resolveFlags, if_pos hreads, if_pos hfused]

theorem resolveFlags_of_unfused (F : CoreFns) (s : State) {d : Diw} (a b : Word) (lane : Nat) (hreads : d.readsFlags = true)
    (hfused : d.fused = false) : resolveFlags F s d a b lane = forwardedFlags s lane := by
  rw [resolveFlags, if_pos hreads, if_neg (by simp [hfused])]

/-- Settles O52: a fused record compares its own operands; of the three places the others search, each answers where the ones
before it have no setter. -/
theorem nearestSetterForwards : Obligations.NearestSetterForwards := by
  intro F s d a b lane hreads
  refine ⟨resolveFlags_of_fused F s a b lane hreads, fun hfused => ?_⟩
  rw [resolveFlags_of_unfused F s a b lane hreads hfused]
  exact ⟨fun _ => forwardedFlags_of_exmem, fun hnone => ⟨fun _ => forwardedFlags_of_memwb hnone, forwardedFlags_of_none hnone⟩⟩

/-! ## Resolution looks at lower lanes alone -/

theorem youngest_congr {l m : Latch} {test : Slot → Bool} {n : Nat} (h : ∀ k < n, slotAt m k = slotAt l k) :
    youngest m test n = youngest l test n := by
  induction n with
  | zero => rfl
  | succ n ih => rw [youngest, youngest, h n (Nat.lt_succ_self n), ih fun k hk => h k (Nat.lt_succ_of_lt hk)]

section
variable {s t : State} {lane : Nat}

/-- What the execute step changes beside the lower lanes of `EXMEM` is not read by operand resolution (R296). -/
theorem resolveOperands_of_executeFrame (h : executeFrame s t) (hlow : ∀ k < lane, slotAt t.exmem k = slotAt s.exmem k)
    (d : Diw) : resolveOperands t d lane = resolveOperands s d lane := by
  have hsource : ∀ (q : Option Reg) (absent : Word), resolveSource t q absent lane = resolveSource s q absent lane := by
    intro q absent
    cases q with
    | none => rfl
    | some reg =>
      have hpass : youngestWriter t.exmem reg lane = youngestWriter s.exmem reg lane := youngest_congr hlow
      rw [resolveSource, resolveSource, resolveOperand, resolveOperand, hpass, h]
      rfl
  simp only [resolveOperands, hsource]

/-- Nor is it read by flag resolution (R228). -/
theorem resolveFlags_of_executeFrame (F : CoreFns) (h : executeFrame s t)
    (hlow : ∀ k < lane, slotAt t.exmem k = slotAt s.exmem k) (d : Diw) (a b : Word) :
    resolveFlags F t d a b lane = resolveFlags F s d a b lane := by
  have hpass : youngestSetter t.exmem lane = youngestSetter s.exmem lane := youngest_congr hlow
  have hforward : forwardedFlags t lane = forwardedFlags s lane := by
    rw [forwardedFlags, forwardedFlags, hpass, h]
  rw [resolveFlags, resolveFlags, hforward]

/-- The outcome of a branch in a lane, on the operands and the flags that the lane resolves (R235). -/
def resolvedOutcome (F : CoreFns) (s : State) (lane : Nat) (r : Slot) : BranchOutcome :=
  let ops := resolveOperands s r.inst lane
  branchOutcome (branchTaken F r.inst (resolveFlags F s r.inst ops.a ops.b lane)) (branchTarget r.inst r.pc ops.a)
    (r.pc + s.ib)

theorem resolvedOutcome_of_executeFrame (F : CoreFns) (h : executeFrame s t)
    (hlow : ∀ k < lane, slotAt t.exmem k = slotAt s.exmem k) (r : Slot) :
    resolvedOutcome F t lane r = resolvedOutcome F s lane r := by
  have hib : t.ib = s.ib := State.ib_eq_of_cfg (by rw [h])
  simp only [resolvedOutcome, resolveOperands_of_executeFrame h hlow, resolveFlags_of_executeFrame F h hlow, hib]

end

/-! ## The record that asks for a flush -/

/-- A flush request comes from a `BRANCH` whose next address is not the one recorded at fetch (R235). -/
theorem classAction_flush {F : CoreFns} {s : State} {r : Slot} {ops : Operands} {fl : Nzcv} {pc : Word}
    (h : (classAction F s r ops fl).2.2 = some pc) :
    r.inst.cls = .branch ∧
      pc = (branchOutcome (branchTaken F r.inst fl) (branchTarget r.inst r.pc ops.a) (r.pc + s.ib)).next ∧
      r.predNext ≠ pc := by
  cases hc : r.inst.cls with
  | branch =>
    simp only [classAction, hc, resolveBranch_eq] at h
    obtain ⟨hne, hpc⟩ := Option.ite_none_left_eq_some.1 h
    obtain rfl := Option.some.inj hpc
    exact ⟨rfl, rfl, fun heq => hne heq.symm⟩
  | arith | load | store | mul | syscall =>
    simp only [classAction, hc] at h
    exact absurd h.symm (Option.some_ne_none pc)

/-- The record of lane `lane` has executed: it stands in `EXMEM` with the operands that the lane resolves (R220). -/
def executedIn (t : State) (lane : Nat) (r : Slot) : Prop :=
  let q := slotAt t.exmem lane
  let ops := resolveOperands t r.inst lane
  ops.late = false ∧ q.valid = true ∧ q.inst = r.inst ∧ q.pc = r.pc ∧ q.a = ops.a ∧ q.b = ops.b

/-- The record `r` of a lane was a `BRANCH` on its last execute tick that went on to `pc`, not to where fetch had gone on; it
has executed, and the state `t` shows with what operands and flags (R235, R236). -/
structure askedForFlush (F : CoreFns) (t : State) (lane : Nat) (r : Slot) (pc : Word) : Prop where
  valid : r.valid = true
  fault : r.fault = .none
  branch : r.inst.cls = .branch
  lastTick : r.exRem = 0
  executed : executedIn t lane r
  next : pc = (resolvedOutcome F t lane r).next
  mispredicted : r.predNext ≠ pc

theorem executedSlot_record (F : CoreFns) (s : State) (lane : Nat) (r : Slot) (ops : Operands) :
    let q := executedSlot F s lane r ops
    q.valid = r.valid ∧ q.inst = r.inst ∧ q.pc = r.pc ∧ q.a = ops.a ∧ q.b = ops.b := by
  simp only [executedSlot]
  rw [classAction_record]
  exact ⟨rfl, rfl, rfl, rfl, rfl⟩

section
variable {F : CoreFns} {s t : State} {lane k : Nat} {r : Slot} {pc : Word}

/-- A turn in a lane whose record executes and asks for a flush. -/
theorem executeRecord_askedForFlush (hlane : lane < s.exmem.length) (hv : r.valid = true) (hf : r.fault = .none)
    (hrem : r.exRem = 0) (hlate : (resolveOperands s r.inst lane).late = false)
    (hflush : (executeRecord F s lane r (resolveOperands s r.inst lane)).flush = some pc) :
    askedForFlush F (executeRecord F s lane r (resolveOperands s r.inst lane)).st lane r pc := by
  have hframe := executeRecord_frame F s lane r (resolveOperands s r.inst lane)
  have hexmem := executeRecord_exmem F s lane r (resolveOperands s r.inst lane)
  obtain ⟨hbranch, hnext, hpred⟩ := classAction_flush hflush
  obtain ⟨hqv, hqi, hqpc, hqa, hqb⟩ := executedSlot_record F s lane r (resolveOperands s r.inst lane)
  generalize (executeRecord F s lane r (resolveOperands s r.inst lane)).st = t at hframe hexmem ⊢
  have hlow : ∀ k < lane, slotAt t.exmem k = slotAt s.exmem k := fun k hk => by
    rw [hexmem, slotAt_set_of_ne (Nat.ne_of_lt hk)]
  refine ⟨hv, hf, hbranch, hrem, ?_, ?_, hpred⟩
  · rw [executedIn, resolveOperands_of_executeFrame hframe hlow, hexmem, slotAt_set_self hlane]
    exact ⟨hlate, hqv.trans hv, hqi, hqpc, hqa, hqb⟩
  · rw [resolvedOutcome_of_executeFrame F hframe hlow]
    exact hnext

/-- A record dropped from `IDEX` takes no part in what a lane resolved. -/
theorem askedForFlush.setIdex (h : askedForFlush F t lane r pc) (k : Nat) (q : Slot) :
    askedForFlush F (t.setIdex k q) lane r pc :=
  { h with }

/-! ## The execute loop -/

/-- The execute loop before lane `k`, no lane having asked for a flush: the lanes from `k` on hold their records. -/
def executesFrom (s : State) (k : Nat) (p : ExecPass) : Prop :=
  p.flush = none ∧ (∀ j, k ≤ j → slotAt p.st.idex j = slotAt s.idex j) ∧
    moving s.cfg.issueWidth (held s.idex) k k p.st.idex p.st.exmem

/-- The execute loop before lane `k`, a lower lane having asked for a flush: what stood above it was dropped (R236). -/
def dropsFrom (F : CoreFns) (s : State) (pc : Word) (lane k : Nat) (p : ExecPass) : Prop :=
  p.flush = some pc ∧ lane < k ∧ askedForFlush F p.st lane (slotAt s.idex lane) pc ∧
    moving s.cfg.issueWidth (held s.idex) (lane + 1) k p.st.idex p.st.exmem

/-- A write to lane `k` leaves what stands above it. -/
theorem slotAt_set_above {l m : Latch} (h : ∀ j, k ≤ j → slotAt m j = slotAt l j) (q : Slot) :
    ∀ j, k + 1 ≤ j → slotAt (m.set k q) j = slotAt l j := fun j hj => by
  rw [slotAt_set_of_ne (Nat.ne_of_gt hj), h j (Nat.le_of_succ_le hj)]

theorem executeLane_dropsFrom (hk : k < s.cfg.issueWidth) {p : ExecPass} (h : dropsFrom F s pc lane k p)
    (Q : ExecPass → Prop) : (executeLane F k p).meets (dropsFrom F s pc lane (k + 1)) Q := by
  obtain ⟨hflush, hlane, hasked, hidex, hexmem⟩ := h
  have hlane' := Nat.lt_succ_of_lt hlane
  have hsome : p.flush ≠ none := by simp [hflush]
  obtain ⟨hv, e⟩ | ⟨-, -, e⟩ | ⟨-, hf, -⟩ | ⟨-, hf, -⟩ | ⟨-, hf, -⟩ | ⟨-, hf, -⟩ := executeLane_cases F k p
  · rw [e]
    exact ⟨hflush, hlane', hasked, hidex.skip hv, hexmem⟩
  · rw [e]
    exact ⟨hflush, hlane', hasked.setIdex k Slot.bubble, hidex.clear hk, hexmem⟩
  all_goals exact absurd hf hsome

/-- A record executes: if it asks for a flush, what stands above it is to be dropped. -/
theorem executeRecord_executesFrom (hk : k < s.cfg.issueWidth) {p : ExecPass} (h : executesFrom s k p)
    (hr : slotAt p.st.idex k = r) (hv : r.valid = true) (hf : r.fault = .none) (hrem : r.exRem = 0)
    (hlate : (resolveOperands p.st r.inst k).late = false) :
    executesFrom s (k + 1) (executeRecord F p.st k r (resolveOperands p.st r.inst k)) ∨
      ∃ pc, dropsFrom F s pc k (k + 1) (executeRecord F p.st k r (resolveOperands p.st r.inst k)) := by
  obtain ⟨-, hwait, hmoving⟩ := h
  have hasked := fun pc => executeRecord_askedForFlush (F := F) (pc := pc) (by rwa [hmoving.2.1]) hv hf hrem hlate
  have hexmem := executeRecord_exmem F p.st k r (resolveOperands p.st r.inst k)
  obtain ⟨-, -, hidex, -⟩ := executeRecord_latches F p.st k r (resolveOperands p.st r.inst k)
  have hpass := hmoving.pass hk (hr ▸ hv) ((executedSlot_valid F p.st k r (resolveOperands p.st r.inst k)).trans hv)
  rw [← hidex, ← hexmem] at hpass
  cases hflush : (executeRecord F p.st k r (resolveOperands p.st r.inst k)).flush with
  | none => exact .inl ⟨hflush, hidex ▸ slotAt_set_above hwait Slot.bubble, hpass⟩
  | some pc =>
    refine .inr ⟨pc, hflush, Nat.lt_succ_self k, ?_, hpass⟩
    rw [← hwait k (Nat.le_refl k), hr]
    exact hasked pc hflush

theorem executeLane_executesFrom (hk : k < s.cfg.issueWidth) {p : ExecPass} (h : executesFrom s k p) :
    (executeLane F k p).meets (fun q => executesFrom s (k + 1) q ∨ ∃ pc, dropsFrom F s pc k (k + 1) q)
      (fun q => q.flush = none) := by
  have ⟨hflush, hwait, hmoving⟩ := h
  obtain ⟨hv, e⟩ | ⟨-, hf, -⟩ | ⟨-, -, -, e⟩ | ⟨hv, -, -, -, e⟩ | ⟨-, -, -, -, -, e⟩ | ⟨hv, -, hrem, hf, hlate, e⟩ :=
    executeLane_cases F k p
  · rw [e]
    exact .inl ⟨hflush, fun j hj => hwait j (Nat.le_of_succ_le hj), hmoving.skip hv⟩
  · simp [hflush] at hf
  · rw [e]
    exact hflush
  · rw [e]
    exact .inl ⟨hflush, slotAt_set_above hwait Slot.bubble, hmoving.pass hk hv hv⟩
  · rw [e]
    exact hflush
  · rw [e]
    exact executeRecord_executesFrom hk h rfl hv hf hrem hlate

/-- Where the execute step asks for a flush, its loop went to the end, dropping what stood above some lane. -/
theorem executeStep_dropsFrom (hidex : s.idex.length = s.cfg.issueWidth) (hexmem : s.exmem.length = s.cfg.issueWidth)
    (he : anyValid s.exmem = false) (hflush : (executeStep F s).flush = some pc) :
    ∃ lane, dropsFrom F s pc lane s.cfg.issueWidth (executeStep F s) := by
  refine runLanes_range (fun k p => executesFrom s k p ∨ ∃ pc lane, dropsFrom F s pc lane k p)
    (fun p => p.flush = some pc → ∃ lane, dropsFrom F s pc lane s.cfg.issueWidth p) ?_ ?_ (s := ⟨s, none⟩)
    (.inl ⟨rfl, fun _ _ => rfl, moving_start hidex hexmem he⟩) hflush
  · rintro k hk p (h | ⟨pc', lane, h⟩)
    · exact (executeLane_executesFrom hk h).mono (fun _ => Or.imp_right fun ⟨pc', h⟩ => ⟨pc', k, h⟩)
        fun _ hnone hsome => absurd (hnone.symm.trans hsome).symm (Option.some_ne_none pc)
    · exact (executeLane_dropsFrom hk h (fun _ => False)).mono (fun _ h => .inr ⟨pc', lane, h⟩) fun _ => False.elim
  · rintro p (h | ⟨pc', lane, h⟩) hsome
    · exact absurd (h.1.symm.trans hsome).symm (Option.some_ne_none pc)
    · obtain rfl := Option.some.inj (h.1.symm.trans hsome)
      exact ⟨lane, h⟩

/-- With the loop at its end nothing is left above the lane that asked for the flush (R236). -/
theorem dropsFrom.nothing_above {p : ExecPass} (hidex : s.idex.length = s.cfg.issueWidth)
    (h : dropsFrom F s pc lane s.cfg.issueWidth p) (hk : lane < k) :
    (slotAt p.st.exmem k).valid = false ∧ (slotAt p.st.idex k).valid = false := by
  obtain ⟨-, -, -, hwaits, harrived⟩ := h
  constructor
  · rw [harrived.2 k, decide_eq_false (by omega), Bool.and_false]
  · rw [hwaits.2 k]
    by_cases hk : s.cfg.issueWidth ≤ k
    · rw [held, slotAt_of_length_le (by omega)]
      rfl
    · rw [decide_eq_false hk, Bool.and_false]

end

/-- Settles O31: the lane that asked, what it resolved, and the lanes above it, read from the end of the execute loop. -/
theorem flushComesFromBranch : Obligations.FlushComesFromBranch := by
  intro F s pc hsized he hflush
  obtain ⟨-, hidex, hexmem, -⟩ := s.latchesSized_iff.1 hsized
  obtain ⟨lane, hdrops⟩ := executeStep_dropsFrom hidex hexmem he hflush
  have ⟨_, hlane, ⟨hv, hf, hbranch, hrem, hexecuted, hnext, hpred⟩, _⟩ := hdrops
  obtain ⟨hlate, hqv, hqi, hqpc, hqa, hqb⟩ := hexecuted
  rw [resolvedOutcome, State.ib_eq_of_cfg (executeStep_cfg F s)] at hnext
  exact ⟨lane, hlane, hv, hf, hbranch, hrem, hlate, hqv, hqi, hqpc, hqa, hqb, hnext, hpred,
    fun _ hk => hdrops.nothing_above hidex hk⟩

end Sys2Proof.Machine
end

section
/-!
PROOFS. The decode stage (`spec/45_decode_stage.md` R250 to R257), lane by lane. Before lane `k` of its loop the lanes below
have issued and the others stand as they were. The loop ends with every lane issued and nothing counted, or with the first
refused candidate and its stall counted. What `CanIssue` said of a lane can be read from the state after the step, since it
looks at lower lanes of `IDEX` and at `EXMEM` alone.
-/

namespace Sys2Proof.Machine

/-! ## Judging a candidate (R252, R291) -/

theorem memClassCount_take_succ (l : Latch) (k : Nat) :
    memClassCount (l.take (k + 1)) = memClassCount (l.take k) + (slotAt l k).portUse := by
  rw [memClassCount, countP_take_succ l _ rfl k, Slot.portUse, memClassCount, memClassCount, List.countP_singleton]

theorem Slot.portUse_of_invalid {r : Slot} (hv : r.valid = false) : r.portUse = 0 := by
  simp [Slot.portUse, memClassCount, hv]

/-- What the decode step changes beside the lower lanes of `IDEX` is not read by `CanIssue`. -/
theorem canIssue_of_decodeFrame {s t : State} {lane : Nat} (h : decodeFrame s t)
    (hlow : ∀ j < lane, slotAt t.idex j = slotAt s.idex j) (d : Diw) (issued : Nat) :
    canIssue t d lane issued = canIssue s d lane issued := by
  have hraw : rawHazard t lane = rawHazard s lane := funext fun reg => by
    have hgroup : youngestWriter t.idex reg lane = youngestWriter s.idex reg lane := youngest_congr hlow
    rw [rawHazard, rawHazard, nearestProducer, nearestProducer, hgroup, h]
  rw [canIssue, canIssue, hraw, h]

/-- What `CanIssue` says of the candidate that a lane of `s` holds, over the records `t` has issued, the memory-class
records below it counted. -/
def verdict (s t : State) (lane : Nat) : Issue :=
  canIssue t (slotAt s.ifid lane).inst lane (memClassCount (s.ifid.take lane))

theorem verdict_of_decodeFrame {s t u : State} {lane : Nat} (h : decodeFrame t u)
    (hlow : ∀ j < lane, slotAt u.idex j = slotAt t.idex j) : verdict s u lane = verdict s t lane :=
  canIssue_of_decodeFrame h hlow _ _

/-- The statistics with the stall of a verdict counted (R255). -/
def stallCounted (stats : Stats) : Issue → Stats
  | .ok => stats
  | .structural => { stats with stallStructural := stats.stallStructural + 1 }
  | .raw => { stats with stallHazard := stats.stallHazard + 1 }

/-- A record as it enters `IDEX`, with its latency stamp; a poisoned one gets none (R250, R253). -/
def issuedRecord (cfg : Cfg) (r : Slot) : Slot :=
  { r with exRem := if r.fault = .none then max (latencyOf cfg r.inst.cls) 1 - 1 else 0 }

theorem issuedRecord_of_no_fault {cfg : Cfg} {r : Slot} (hf : r.fault = .none) :
    issuedRecord cfg r = { r with exRem := max (latencyOf cfg r.inst.cls) 1 - 1 } := by
  rw [issuedRecord, if_pos hf]

theorem issuedRecord_of_fault {cfg : Cfg} {r : Slot} (hf : r.fault ≠ .none) :
    issuedRecord cfg r = { r with exRem := 0 } := by
  rw [issuedRecord, if_neg hf]

/-! ## The decode loop -/

/-- What the decode step, begun in `s`, has done with a lane it went past. -/
structure issuedAt (s t : State) (lane : Nat) : Prop where
  left : (slotAt t.ifid lane).valid = false
  accepted : (slotAt s.ifid lane).valid = true → (slotAt s.ifid lane).fault = .none → verdict s t lane = .ok
  entered : (slotAt s.ifid lane).valid = true → lane < s.idex.length →
    slotAt t.idex lane = issuedRecord s.cfg (slotAt s.ifid lane)

/-- The lanes below `k` have issued, the others stand as they were. -/
structure issuedBelow (s : State) (k : Nat) (t : State) : Prop where
  frame : decodeFrame s t
  sized : t.idex.length = s.idex.length
  issued : ∀ j < k, issuedAt s t j
  waits : ∀ j, k ≤ j → slotAt t.ifid j = slotAt s.ifid j ∧ slotAt t.idex j = slotAt s.idex j

/-- The lanes below `lane` have issued, its candidate was refused and the stall counted (R251, R255). -/
structure refusedAt (s t : State) (lane : Nat) : Prop where
  below : issuedBelow s lane t
  valid : (slotAt s.ifid lane).valid = true
  unpoisoned : (slotAt s.ifid lane).fault = .none
  refused : verdict s t lane ≠ .ok
  counted : t.stats = stallCounted s.stats (verdict s t lane)

/-- The decode loop before lane `k`. -/
structure decodesFrom (s : State) (k : Nat) (p : DecodePass) : Prop where
  below : issuedBelow s k p.st
  stats : p.st.stats = s.stats
  count : p.issuedMem = memClassCount (s.ifid.take k)

section
variable {s t u : State} {j k lane : Nat}

/-- A change above a lane leaves what was done with it. -/
theorem issuedAt.of_change_above (h : issuedAt s t j) (hframe : decodeFrame t u)
    (hifid : slotAt u.ifid j = slotAt t.ifid j) (hidex : ∀ i ≤ j, slotAt u.idex i = slotAt t.idex i) :
    issuedAt s u j where
  left := by rw [hifid, h.left]
  accepted hv hf := by
    rw [verdict_of_decodeFrame hframe fun i hi => hidex i (Nat.le_of_lt hi)]
    exact h.accepted hv hf
  entered hv hj := by rw [hidex j (Nat.le_refl j), h.entered hv hj]

/-- The lane holds no record. -/
theorem issuedBelow.skip (h : issuedBelow s k t) (hv : (slotAt s.ifid k).valid = false) : issuedBelow s (k + 1) t where
  frame := h.frame
  sized := h.sized
  issued j hj := by
    obtain hj | rfl := Nat.lt_succ_iff_lt_or_eq.1 hj
    · exact h.issued j hj
    · exact ⟨by rw [(h.waits j (Nat.le_refl j)).1, hv], fun hv' => by simp [hv] at hv', fun hv' => by simp [hv] at hv'⟩
  waits j hj := h.waits j (Nat.le_of_succ_le hj)

/-- Issue touches one lane of `IDEX` and the same lane of `IFID`. -/
theorem slotAt_issue_of_ne (t : State) (r : Slot) (hj : j ≠ k) :
    slotAt (t.issue k r).ifid j = slotAt t.ifid j ∧ slotAt (t.issue k r).idex j = slotAt t.idex j :=
  ⟨slotAt_set_of_ne hj, slotAt_set_of_ne hj⟩

theorem issue_decodeFrame (t : State) (k : Nat) (r : Slot) : decodeFrame t (t.issue k r) := rfl

theorem slotAt_issue_ifid_self (t : State) (r : Slot) : slotAt (t.issue k r).ifid k = Slot.bubble := by
  rw [State.issue_ifid, slotAt_set]
  split_ifs with hk
  · rfl
  · exact slotAt_of_length_le (Nat.not_lt.1 fun hlt => hk ⟨rfl, hlt⟩)

/-- The record of the lane issues: it is poisoned, or `CanIssue` accepts it. -/
theorem issuedBelow.issue (h : issuedBelow s k t) (hok : (slotAt s.ifid k).fault = .none → verdict s t k = .ok) :
    issuedBelow s (k + 1) (t.issue k (issuedRecord s.cfg (slotAt s.ifid k))) where
  frame := h.frame.trans (issue_decodeFrame t k _)
  sized := by rw [State.issue_idex, List.length_set, h.sized]
  issued j hj := by
    obtain hj | rfl := Nat.lt_succ_iff_lt_or_eq.1 hj
    · exact (h.issued j hj).of_change_above (issue_decodeFrame t k _) (slotAt_issue_of_ne t _ (by omega)).1
        fun i hi => (slotAt_issue_of_ne t _ (by omega)).2
    · refine ⟨by rw [slotAt_issue_ifid_self]; rfl, fun _ hf => ?_, fun _ hlt => ?_⟩
      · rw [verdict_of_decodeFrame (issue_decodeFrame t j _) fun i hi => (slotAt_issue_of_ne t _ (by omega)).2]
        exact hok hf
      · rw [State.issue_idex, slotAt_set_self (by rwa [h.sized])]
  waits j hj := by
    obtain ⟨hifid, hidex⟩ := slotAt_issue_of_ne t (issuedRecord s.cfg (slotAt s.ifid k)) (j := j) (k := k) (by omega)
    rw [hifid, hidex]
    exact h.waits j (Nat.le_of_succ_le hj)

/-- Counting a stall changes the statistics alone. -/
theorem issuedBelow.withStats (h : issuedBelow s k t) (stats : Stats) : issuedBelow s k { t with stats := stats } where
  frame := h.frame.trans rfl
  sized := h.sized
  issued j hj := (h.issued j hj).of_change_above rfl rfl fun _ _ => rfl
  waits := h.waits

/-- A refused candidate: its stall is counted and the loop ends (R255). -/
theorem issuedBelow.refuse (h : issuedBelow s k t) (hv : (slotAt s.ifid k).valid = true)
    (hf : (slotAt s.ifid k).fault = .none) {answer : Issue} (hanswer : verdict s t k = answer) (hne : answer ≠ .ok) :
    refusedAt s { t with stats := stallCounted s.stats answer } k := by
  have hsame : verdict s { t with stats := stallCounted s.stats answer } k = answer :=
    (verdict_of_decodeFrame (t := t) (by rfl) fun _ _ => rfl).trans hanswer
  exact ⟨h.withStats _, hv, hf, by rwa [hsame], by rw [hsame]⟩

/-- One turn of the decode loop. -/
theorem decodeLane_decodesFrom {p : DecodePass} (h : decodesFrom s k p) :
    (decodeLane k p).meets (decodesFrom s (k + 1)) (fun q => refusedAt s q.st k) := by
  obtain ⟨hbelow, hstats, hcount⟩ := h
  have hslot : slotAt p.st.ifid k = slotAt s.ifid k := (hbelow.waits k (Nat.le_refl k)).1
  have hcfg : p.st.cfg = s.cfg := by rw [hbelow.frame]
  have hnext := memClassCount_take_succ s.ifid k
  have hturn := decodeLane_cases k p
  simp only [hslot, hcount, hstats] at hturn
  obtain ⟨hv, e⟩ | ⟨-, hf, e⟩ | ⟨hv, hf, hissue, e⟩ | ⟨hv, hf, hissue, e⟩ | ⟨hv, hf, hissue, e⟩ := hturn <;> rw [e]
  · exact ⟨hbelow.skip hv, hstats, by rw [hnext, Slot.portUse_of_invalid hv, hcount, Nat.add_zero]⟩
  · rw [← issuedRecord_of_fault (cfg := s.cfg) hf]
    exact ⟨hbelow.issue fun hnone => absurd hnone hf, hstats, by rw [hnext, Slot.portUse_of_fault hf, Nat.add_zero]⟩
  · exact hbelow.refuse hv hf (answer := .structural) hissue nofun
  · exact hbelow.refuse hv hf (answer := .raw) hissue nofun
  · rw [hcfg, ← issuedRecord_of_no_fault hf]
    refine ⟨hbelow.issue fun _ => hissue, hstats, ?_⟩
    rw [hnext, Slot.portUse_of_no_fault hv hf]
    split_ifs <;> rfl

/-- How the decode step ends: every lane issued and nothing counted, or one candidate refused (R255). -/
theorem decodeStep_ends (s : State) :
    (issuedBelow s s.cfg.issueWidth (decodeStep s) ∧ (decodeStep s).stats = s.stats) ∨
      ∃ k < s.cfg.issueWidth, refusedAt s (decodeStep s) k :=
  runLanes_range (decodesFrom s)
    (fun p => (issuedBelow s s.cfg.issueWidth p.st ∧ p.st.stats = s.stats) ∨ ∃ k < s.cfg.issueWidth, refusedAt s p.st k)
    (fun k hk _ h => (decodeLane_decodesFrom h).mono (fun _ => id) fun _ hrefused => .inr ⟨k, hk, hrefused⟩)
    (fun _ h => .inl ⟨h.below, h.stats⟩)
    ⟨⟨rfl, rfl, fun j hj => absurd hj (Nat.not_lt_zero j), fun _ _ => ⟨rfl, rfl⟩⟩, rfl, rfl⟩

/-- A refused candidate still stands in its lane. -/
theorem refusedAt.stands (h : refusedAt s t lane) : (slotAt t.ifid lane).valid = true := by
  rw [(h.below.waits lane (Nat.le_refl lane)).1, h.valid]

/-- A lane whose lower lanes have issued has issued itself, or its candidate was refused. -/
theorem decodeStep_lane (hlane : lane < s.cfg.issueWidth) (hnone : noneBelow (decodeStep s).ifid (·.valid) lane) :
    issuedAt s (decodeStep s) lane ∨ refusedAt s (decodeStep s) lane := by
  obtain ⟨hall, -⟩ | ⟨k, -, hrefused⟩ := decodeStep_ends s
  · exact .inl (hall.issued lane hlane)
  · obtain hlt | rfl | hgt := Nat.lt_trichotomy lane k
    · exact .inl (hrefused.below.issued lane hlt)
    · exact .inr hrefused
    · exact absurd hrefused.stands (Bool.eq_false_iff.1 (hnone k hgt))

/-- A verdict other than `ok` on a valid record without a fault says that the lane did not issue, so it stands with every
higher lane, and the stall of that verdict is the one counted. -/
theorem decodeStep_of_refusal (hlane : lane < s.cfg.issueWidth) (hnone : noneBelow (decodeStep s).ifid (·.valid) lane)
    (hv : (slotAt s.ifid lane).valid = true) (hf : (slotAt s.ifid lane).fault = .none) {answer : Issue}
    (hanswer : verdict s (decodeStep s) lane = answer) (hne : answer ≠ .ok) :
    (∀ j, lane ≤ j → slotAt (decodeStep s).ifid j = slotAt s.ifid j ∧ slotAt (decodeStep s).idex j = slotAt s.idex j) ∧
      (decodeStep s).stats = stallCounted s.stats answer := by
  obtain hissued | hrefused := decodeStep_lane hlane hnone
  · exact absurd (hanswer.symm.trans (hissued.accepted hv hf)) hne
  · exact ⟨hrefused.below.waits, hanswer ▸ hrefused.counted⟩

/-- A record that is not refused leaves `IFID` and enters `IDEX` with its latency stamp. -/
theorem decodeStep_of_issue (hlane : lane < s.cfg.issueWidth) (hnone : noneBelow (decodeStep s).ifid (·.valid) lane)
    (hv : (slotAt s.ifid lane).valid = true) (hsized : s.latchesSized = true)
    (hok : (slotAt s.ifid lane).fault = .none → verdict s (decodeStep s) lane = .ok) :
    (slotAt (decodeStep s).ifid lane).valid = false ∧
      slotAt (decodeStep s).idex lane = issuedRecord s.cfg (slotAt s.ifid lane) := by
  obtain ⟨-, hidex, -, -⟩ := s.latchesSized_iff.1 hsized
  obtain hissued | hrefused := decodeStep_lane hlane hnone
  · exact ⟨hissued.left, hissued.entered hv (by rwa [hidex])⟩
  · exact absurd (hok hrefused.unpoisoned) hrefused.refused

/-- At most one stall is counted (R255). -/
theorem stallCounted_cases (stats : Stats) (answer : Issue) :
    stallCounted stats answer = stats ∨
      stallCounted stats answer = { stats with stallStructural := stats.stallStructural + 1 } ∨
      stallCounted stats answer = { stats with stallHazard := stats.stallHazard + 1 } := by
  cases answer with
  | ok => exact .inl rfl
  | structural => exact .inr (.inl rfl)
  | raw => exact .inr (.inr rfl)

end

/-- Settles O54: the loop ends with every lane issued or at its first refusal, and each lane reads its share from that end. -/
theorem decodeCountsAtMostOneStall : Obligations.DecodeCountsAtMostOneStall := by
  refine ⟨fun s => ?_, fun s => ⟨decodeStep_frame s, fun hnone => ?_⟩, fun s lane hlane hnone hv => ?_⟩
  · obtain ⟨-, hstats⟩ | ⟨k, -, hrefused⟩ := decodeStep_ends s
    · exact .inl hstats
    · have hcases := stallCounted_cases s.stats (verdict s (decodeStep s) k)
      rwa [← hrefused.counted] at hcases
  · obtain ⟨-, hstats⟩ | ⟨k, hk, hrefused⟩ := decodeStep_ends s
    · exact hstats
    · exact absurd hrefused.stands (Bool.eq_false_iff.1 (hnone k hk))
  · refine ⟨fun hf hanswer => ?_, fun hf hanswer => ?_, fun hsized hf hanswer => ?_, fun hsized hf => ?_⟩
    · exact decodeStep_of_refusal hlane hnone hv hf (answer := .structural) hanswer nofun
    · exact decodeStep_of_refusal hlane hnone hv hf (answer := .raw) hanswer nofun
    · rw [← issuedRecord_of_no_fault hf]
      exact decodeStep_of_issue hlane hnone hv hsized fun _ => hanswer
    · rw [← issuedRecord_of_fault (cfg := s.cfg) hf]
      exact decodeStep_of_issue hlane hnone hv hsized fun hnofault => absurd hnofault hf

end Sys2Proof.Machine
end

section
/-!
PROOFS. The fetch unit (`spec/46_fetch_unit.md` R265 to R275). The bytes of an instruction read come from the line that `L1I`
holds, and that line may be stale (R359), so the laws of a sound cache do not apply to `L1I`; what does is that a cache which
is never dirty writes nothing back, so that a miss leaves the store below as it was and fills from it. What the fetch step
does when it may deliver is then its turn in lane 0.
-/

namespace Sys2Proof.Machine

/-! ## The bytes that a clean cache answers -/

section
variable {β : Type} {g : CacheCfg} {B : Backing β} {l : Level β}

/-- A part of a line is the bytes of a view where the line agrees with the view. -/
theorem lineBytes_eq_viewBytes_of_getD {V : Nat → Byte} {line : List Byte} {off a n : Nat} (hfits : off + n ≤ line.length)
    (hagree : ∀ i < n, line.getD (off + i) 0 = V (a + i)) : lineBytes line off n = viewBytes V a n := by
  have hlen : (lineBytes line off n).length = n := by
    rw [lineBytes, List.length_take, List.length_drop]
    omega
  refine List.ext_getElem (by rw [hlen, viewBytes_length]) fun i hi _ => ?_
  rw [hlen] at hi
  have hbyte := hagree i hi
  rw [List.getD_eq_getElem _ _ (by omega)] at hbyte
  simpa [lineBytes, viewBytes] using hbyte

/-- A cache that is never dirty fills a line from the store below as it stands, since its eviction writes nothing (R349). -/
theorem install_line_of_neverDirty (hg : usable g) (h : neverDirty g l.cache) (set tag : Nat) :
    dataAt g (install g B l set tag).level.cache set (install g B l set tag).way =
      (B.read l.below (lineBase g set tag) g.line).bytes := by
  obtain ⟨hbelow, -, -⟩ := evict_clean (B := B) h set (victim g l.cache set)
  have hw := victim_lt hg l.cache set
  simp only [install]
  rw [dataAt_touch, dataAt_setData _ _ hw hw, if_pos ⟨rfl, rfl⟩, hbelow]

/-- A request to a cache that is never dirty is answered with the bytes of its line where it holds the line, else with those
of the store below (R345). That a line agrees with the store below is not asked. -/
theorem cacheRead_bytes_of_neverDirty {ok : Nat → Nat → Prop} {I : β → Prop} {V : β → Nat → Byte} (hB : B.Lawful ok I V)
    (hg : usable g) (hok : ∀ set tag, ok (lineBase g set tag) g.line) (hI : I l.below) (hclean : neverDirty g l.cache)
    (hfull : linesFull g l.cache) {a n : Nat} (hr : inOneLine g a n) :
    (cacheRead g B l a n).bytes = viewBytes (levelView g V l) a n := by
  obtain ⟨-, hfits⟩ := hr
  have hbyte : ∀ i < n, cacheByte? g l.cache (a + i) =
      (lookup g l.cache (setOf g a) (tagOf g a)).map fun w => (dataAt g l.cache (setOf g a) w).getD (a % g.line + i) 0 := by
    intro i hi
    obtain ⟨hset, htag, hoff⟩ := split_add hg (a := a) (i := i) (by omega)
    rw [cacheByte?, hset, htag, hoff]
  cases hlk : lookup g l.cache (setOf g a) (tagOf g a) with
  | some w =>
    rw [cacheRead_hit hlk]
    refine lineBytes_eq_viewBytes_of_getD ?_ fun i hi => ?_
    · rwa [hfull _ w (setOf_lt hg a) (lookup_some hlk).1]
    · rw [levelView, hbyte i hi, hlk, Option.map_some]
  | none =>
    rw [cacheRead_miss hlk]
    have hline := install_line_of_neverDirty (B := B)
      (l := ⟨{ l.cache with sb := { l.cache.sb with valid := false }, misses := l.cache.misses + 1 }, l.below⟩) hg hclean
      (setOf g a) (tagOf g a)
    simp only [hline, hB.read_bytes _ _ _ hI (hok _ _)]
    refine lineBytes_eq_viewBytes_of_getD (by rwa [viewBytes_length]) fun i hi => ?_
    rw [viewBytes_getD (by omega), ← Nat.add_assoc, lineBase_add_off, levelView, hbyte i hi, hlk, Option.map_none]

end

/-- The view of a fetch is that of `L1I` over what `L2` and main memory show. -/
theorem State.fetchView_eq (s : State) :
    s.fetchView = levelView s.cfg.l1i (levelView s.cfg.l2 memByte) ⟨s.l1i, s.l2Level⟩ := rfl

/-- An aligned instruction stays in one line of `L1I` (R11 (d), R353). -/
theorem inOneLine_of_aligned {c : Cfg} (hc : cfgValid c = true) {a : Nat} (ha : a % c.instrBytes = 0) :
    inOneLine c.l1i a c.instrBytes := by
  obtain ⟨hib, hline⟩ := cfgValid_instrBytes hc
  obtain ⟨k, hk⟩ := Nat.dvd_of_mod_eq_zero hline
  obtain ⟨j, rfl⟩ := Nat.dvd_of_mod_eq_zero ha
  have hkpos : 0 < k := Nat.pos_of_mul_pos_left (hk ▸ (cfgValid_usable_l1i hc).1)
  refine ⟨hib, ?_⟩
  rw [hk, Nat.mul_mod_mul_left]
  calc c.instrBytes * (j % k) + c.instrBytes = c.instrBytes * (j % k + 1) := (Nat.mul_succ _ _).symm
    _ ≤ c.instrBytes * k := Nat.mul_le_mul_left _ (Nat.mod_lt j hkpos)

/-- An aligned instruction read answers the bytes of the fetch view (R61, R68, R345). -/
theorem fetchRead_bytes {s : State} (hc : cfgValid s.cfg = true) (h : s.coherent) {pc : Word}
    (ha : pc.toNat % s.cfg.instrBytes = 0) :
    (s.fetchRead pc).bytes = viewBytes s.fetchView pc.toNat s.cfg.instrBytes := by
  obtain ⟨hl2, -, hclean, hfull⟩ := h
  have hnest := line_inOneLine (cfgValid_usable_l1i hc) (cfgValid_usable_l2 hc) (cfgValid_lines_nest hc).1
  rw [s.fetchView_eq]
  exact cacheRead_bytes_of_neverDirty (l := ⟨s.l1i, s.l2Level⟩) (l2Backing_lawful (cfgValid_usable_l2 hc))
    (cfgValid_usable_l1i hc) hnest ⟨trivial, hl2⟩ hclean hfull (inOneLine_of_aligned hc ha)

/-! ## The penalty -/

/-- While the misprediction penalty lasts, the fetch step serves it and does nothing else (R268). -/
theorem fetchStep_of_penalty (F : CoreFns) {s : State} (h : 0 < s.fetch.redirectStall) : fetchStep F s = servePenalty s :=
  if_pos h

/-! ## The turn of a lane that reads -/

section
variable {F : CoreFns} {s : State} {lane : Nat}

/-- The address fetch goes on from is aligned and in bounds (R265, R273, R275). -/
def State.fetchPcOk (s : State) : Prop :=
  s.fetch.fetchPc.toNat % s.cfg.instrBytes = 0 ∧ s.fetch.fetchPc.toNat + s.cfg.instrBytes ≤ s.cfg.memSize

theorem readNext_of_misaligned (h : s.fetch.fetchPc.toNat % s.cfg.instrBytes ≠ 0) :
    readNext F lane s = .stop (s.poison lane s.fetch.fetchPc .fetchMisaligned) := if_pos h

theorem readNext_of_outOfBounds (ha : s.fetch.fetchPc.toNat % s.cfg.instrBytes = 0)
    (hb : s.cfg.memSize < s.fetch.fetchPc.toNat + s.cfg.instrBytes) :
    readNext F lane s = .stop (s.poison lane s.fetch.fetchPc .fetchOutOfBounds) :=
  (if_neg (not_not_intro ha)).trans (if_pos hb)

/-- An address in order is read: a read of more than one tick is parked, any other is delivered (R265, R271). -/
theorem readNext_of_ok (h : s.fetchPcOk) :
    readNext F lane s =
      let q := s.fetchRead s.fetch.fetchPc
      if 1 < q.latency then
        .stop { q.state with fetch := { s.fetch with pending := ⟨true, s.fetch.fetchPc, q.bytes, q.latency - 1⟩ } }
      else deliver F lane q.state s.fetch.fetchPc q.bytes := by
  obtain ⟨ha, hb⟩ := h
  have hmax : ∀ n : Nat, 1 < max n 1 ↔ 1 < n := fun n => by omega
  simp only [readNext, ha, ne_eq, not_true_eq_false, if_false, Nat.not_lt.2 hb, hmax]
  rfl

end

/-! ## The fetch step when it may deliver -/

/-- What keeps the fetch step from reading is absent: no penalty, no record in `IFID`, no poisoned record, no read pending
(R265). -/
structure State.mayRead (s : State) : Prop where
  noPenalty : s.fetch.redirectStall = 0
  empty : anyValid s.ifid = false
  unblocked : s.fetch.fetchBlocked = false
  idle : s.fetch.pending.valid = false

theorem tickPending_of_idle {s : State} (h : s.fetch.pending.valid = false) : tickPending s = s := by
  simp [tickPending, h]

section
variable {s t : State} (F : CoreFns)

theorem State.mayRead.fetchStep_eq (h : s.mayRead) :
    fetchStep F s = runLanes (fetchLane F) (List.range s.cfg.issueWidth) s := by
  simp [fetchStep, h.noPenalty, tickPending_of_idle h.idle, h.empty, h.unblocked, State.lanes]

theorem State.mayRead.fetchLane_eq (h : s.mayRead) (lane : Nat) : fetchLane F lane s = readNext F lane s :=
  if_neg (by simp [h.idle])

variable {F}

/-- Where reading for lane 0 ends the group, the fetch step ends there. -/
theorem State.mayRead.fetchStep_of_stop (h : s.mayRead) (hw : 1 ≤ s.cfg.issueWidth) (hstop : readNext F 0 s = .stop t) :
    fetchStep F s = t :=
  (h.fetchStep_eq F).trans (runLanes_of_stop hw nofun ((h.fetchLane_eq F 0).trans hstop))

/-- Whatever the other lanes do, lane 0 of `IFID` is as its own turn left it. -/
theorem State.mayRead.fetchStep_lane0 (h : s.mayRead) (hw : 1 ≤ s.cfg.issueWidth) :
    slotAt (fetchStep F s).ifid 0 = slotAt (readNext F 0 s).val.ifid 0 := by
  rw [h.fetchStep_eq F, ← h.fetchLane_eq F 0]
  exact runLanes_lane0 hw (fun t : State => slotAt t.ifid 0 = _) (fun t : State => slotAt t.ifid 0 = _) (fun _ => id)
    ((LaneStep.meets_self _).2 rfl) fun k hk t ht => (LaneStep.meets_self _).2 ((fetchLane_keeps_lane0 F hk t).trans ht)

end

/-! ## The word in lane 0 -/

section
variable {F : CoreFns} {s : State} {lane : Nat} {pc : Word} {word : List Byte} {d : Diw}

theorem deliver_of_decode_none (h : F.decode word pc = none) :
    deliver F lane s pc word = .stop (s.poison lane pc .decodeFailure) := by
  simp only [deliver, h]

/-- A branch predicted taken with a known target ends the group, fetch going on at the target (R270, R272). -/
theorem deliver_of_predictedTarget {target : Word} (hd : F.decode word pc = some d)
    (hp : predictedTarget s pc d = some target) :
    deliver F lane s pc word = .stop { s.setIfid lane (freshSlot pc d target) with
      fetch := { s.fetch with fetchPc := target } } := by
  simp only [deliver, hd, predictedNext, hp, Option.isSome_some, if_true, Option.getD_some]
  rfl

theorem predictedNext_of_not_predicted (h : predictedTarget s pc d = none) : predictedNext s pc d = pc + s.ib := by
  rw [predictedNext, h, Option.getD_none]

end

/-- A word read at `fetch_pc` in one tick. -/
structure State.readsAtOnce (s : State) (bytes : List Byte) : Prop where
  ok : s.fetchPcOk
  latency : (s.fetchRead s.fetch.fetchPc).latency ≤ 1
  bytes : (s.fetchRead s.fetch.fetchPc).bytes = bytes

section
variable {F : CoreFns} {s : State} {bytes : List Byte} {d : Diw}

theorem State.readsAtOnce.readNext_eq (h : s.readsAtOnce bytes) (lane : Nat) :
    readNext F lane s = deliver F lane (s.fetchRead s.fetch.fetchPc).state s.fetch.fetchPc bytes := by
  rw [readNext_of_ok h.ok, ← h.bytes]
  exact if_neg (Nat.not_lt.2 h.latency)

/-- A word that decodes, read in one tick, stands in lane 0 with its next address (R265, R272). -/
theorem State.readsAtOnce.fetchStep_lane0 (h : s.readsAtOnce bytes) (hmay : s.mayRead) (hw : 1 ≤ s.cfg.issueWidth)
    (hlen : 1 ≤ s.ifid.length) (hd : F.decode bytes s.fetch.fetchPc = some d) :
    slotAt (fetchStep F s).ifid 0 = freshSlot s.fetch.fetchPc d (predictedNext s s.fetch.fetchPc d) := by
  rw [hmay.fetchStep_lane0 hw, h.readNext_eq, deliver_val hd]
  exact slotAt_set_zero hlen

/-- A branch predicted taken with a known target is the whole group of its tick (R270, R272). -/
theorem State.readsAtOnce.fetchStep_of_followed {target : Word} (h : s.readsAtOnce bytes) (hmay : s.mayRead)
    (hw : 1 ≤ s.cfg.issueWidth) (hd : F.decode bytes s.fetch.fetchPc = some d)
    (hp : predictedTarget s s.fetch.fetchPc d = some target) :
    fetchStep F s = { (s.fetchRead s.fetch.fetchPc).state.setIfid 0 (freshSlot s.fetch.fetchPc d target) with
      fetch := { s.fetch with fetchPc := target } } :=
  hmay.fetchStep_of_stop hw
    ((h.readNext_eq 0).trans (deliver_of_predictedTarget (s := (s.fetchRead s.fetch.fetchPc).state) hd hp))

end

/-! ## The obligations -/

/-- Settles O33: the fetch step is then the service of the penalty, and the flush writes the whole fetch unit. -/
theorem penaltyHoldsFetch : Obligations.PenaltyHoldsFetch :=
  ⟨fun F _ h => fetchStep_of_penalty F h, fun _ _ => ⟨rfl, rfl, rfl, rfl⟩⟩

/-- Settles O34: the bytes are those of a clean cache over a sound `L2`, and each case is the turn of lane 0, which ends the
group in all of them but the last. -/
theorem fetchFirstLane : Obligations.FetchFirstLane := by
  refine ⟨fun s pc hc h ha _ => fetchRead_bytes hc h ha, fun s hsized hw hpenalty hempty hblocked hidle => ?_⟩
  intro p q t
  have hmay : s.mayRead := ⟨hpenalty, hempty, hblocked, hidle⟩
  obtain ⟨hifid, -⟩ := s.latchesSized_iff.1 hsized
  refine ⟨fun ha => ?misaligned, fun ha hb => ?outOfBounds, fun ha hb hwait => ?parked, fun ha hb hnow hbad => ?undecodable,
    fun i ha hb hnow hi => ?decodable⟩
  case misaligned => exact hmay.fetchStep_of_stop hw (readNext_of_misaligned ha)
  case outOfBounds => exact hmay.fetchStep_of_stop hw (readNext_of_outOfBounds ha hb)
  case parked => exact hmay.fetchStep_of_stop hw ((readNext_of_ok ⟨ha, hb⟩).trans (if_pos hwait))
  case undecodable =>
    have hread : s.readsAtOnce q.bytes := ⟨⟨ha, hb⟩, hnow, rfl⟩
    have hdecode : ref.decode q.bytes p = none := congrArg (Option.map Instr.toDiw) hbad
    exact hmay.fetchStep_of_stop hw ((hread.readNext_eq 0).trans (deliver_of_decode_none hdecode))
  case decodable =>
    intro b followed
    have hread : s.readsAtOnce q.bytes := ⟨⟨ha, hb⟩, hnow, rfl⟩
    have hdecode : ref.decode q.bytes p = some i.toDiw := congrArg (Option.map Instr.toDiw) hi
    have hlane0 := hread.fetchStep_lane0 hmay hw (hifid ▸ hw) hdecode
    constructor
    · intro hfollowed
      have htarget : predictedTarget s p i.toDiw = some b.target := if_pos hfollowed
      have ht : t = _ := hread.fetchStep_of_followed hmay hw hdecode htarget
      rw [predictedNext, htarget] at hlane0
      refine ⟨hlane0, by rw [ht], by rw [ht]; exact hidle, fun k hk => ?_⟩
      rw [ht]
      exact (congrArg Slot.valid (slotAt_set_of_ne hk.ne')).trans (anyValid_eq_false.1 hempty k)
    · intro hnot
      rwa [predictedNext_of_not_predicted (if_neg hnot)] at hlane0

end Sys2Proof.Machine
end

section
/-!
PROOFS. The memory hierarchy through the tick (`spec/49_caches.md` R350, R355). Only three operations of the tick reach the
caches: the reads and writes of the memory stage and an instruction read. What these keep, the tick keeps; shown once for
every such property, and used for coherence, for the directories and for the counters of the caches.
-/

namespace Sys2Proof.Machine

/-! ## Properties of the hierarchy -/

/-- Two states with the same configuration, the same caches and the same main memory. -/
def sameHierarchy (s t : State) : Prop :=
  t.cfg = s.cfg ∧ t.l1i = s.l1i ∧ t.l1d = s.l1d ∧ t.l2 = s.l2 ∧ t.mem = s.mem

theorem sameHierarchy.refl (s : State) : sameHierarchy s s := ⟨rfl, rfl, rfl, rfl, rfl⟩

/-- A property that speaks of the hierarchy alone and that every access of the core keeps (R66 to R68). -/
structure KeptByAccesses (P : State → Prop) : Prop where
  congr : ∀ {s t : State}, sameHierarchy s t → P s → P t
  memRead : ∀ {s : State} (addr : Word) (n : Nat), P s → P (s.memRead addr n).state
  memWrite : ∀ {s : State} (addr : Word) (n : Nat) (v : Word), P s → P (s.memWrite addr n v).state
  fetchRead : ∀ {s : State} (pc : Word), P s → P (s.fetchRead pc).state

/-! ## The operations of the tick that reach no cache -/

theorem settleMem_sameHierarchy (p : MemPass) (lane : Nat) (r : Slot) :
    sameHierarchy p.st (settleMem p lane r).val.st := by
  obtain ⟨-, e⟩ | ⟨-, e⟩ := settleMem_cases p lane r <;> rw [e] <;> exact .refl p.st

theorem writebackStep_sameHierarchy (s : State) : sameHierarchy s (writebackStep s) := by
  simp [sameHierarchy]

theorem executeAndDecode_sameHierarchy (F : CoreFns) (s : State) : sameHierarchy s (executeAndDecode F s).st := by
  rw [executeAndDecode_frame]
  exact .refl s

theorem deliver_sameHierarchy (F : CoreFns) (lane : Nat) (s : State) (pc : Word) (word : List Byte) :
    sameHierarchy s (deliver F lane s pc word).val := by
  obtain ⟨-, e⟩ | ⟨_, _, -, rfl, e⟩ := deliver_cases F lane s pc word <;> rw [e]
  · exact .refl s
  · split_ifs <;> exact .refl s

theorem tickPending_sameHierarchy (s : State) : sameHierarchy s (tickPending s) := by
  unfold tickPending
  simp only
  split_ifs <;> exact .refl s

/-! ## The tick -/

namespace KeptByAccesses

variable {P : State → Prop} (hP : KeptByAccesses P)
include hP

theorem accessMem {s : State} (r : Slot) (h : P s) : P (accessMem s r).2.2 := by
  unfold Machine.accessMem
  split_ifs
  · exact hP.memRead _ _ h
  · exact hP.memWrite _ _ _ h

theorem memClassLane {p : MemPass} (lane : Nat) (r : Slot) (h : P p.st) : P (memClassLane p lane r).val.st := by
  obtain ⟨-, e⟩ | ⟨-, -, e⟩ | ⟨-, -, -, e⟩ | ⟨-, -, -, e⟩ := memClassLane_cases p lane r <;> rw [e]
  case inl => exact hP.congr (settleMem_sameHierarchy p lane _) h
  case inr.inr.inr =>
    exact hP.congr (settleMem_sameHierarchy ⟨(Machine.accessMem p.st r).2.2, p.started + 1⟩ lane _) (hP.accessMem r h)
  all_goals exact hP.congr (.refl p.st) h

theorem memoryLane (F : CoreFns) {p : MemPass} (lane : Nat) (h : P p.st) : P (memoryLane F lane p).val.st := by
  obtain ⟨-, e⟩ | ⟨_, -, -, e⟩ | ⟨_, -, -, -, -, e⟩ | ⟨_, -, -, -, -, e⟩ | ⟨-, -, -, e⟩ | ⟨-, -, -, e⟩ :=
    memoryLane_cases F lane p <;> rw [e]
  case inr.inr.inr.inr.inr => exact hP.memClassLane lane _ h
  all_goals exact hP.congr (.refl p.st) h

theorem memoryStep (F : CoreFns) {s : State} (h : P s) : P (memoryStep F s) :=
  runLanes_induct (fun p : MemPass => P p.st) (Machine.memoryLane F) s.lanes (fun lane _ _ hp => hP.memoryLane F lane hp)
    ⟨s, 0⟩ h

theorem readNext (F : CoreFns) {s : State} (lane : Nat) (h : P s) : P (readNext F lane s).val := by
  have hread := hP.fetchRead s.fetch.fetchPc h
  unfold Machine.readNext
  simp only
  split_ifs with hmisaligned houtside hwait
  · exact hP.congr (.refl s) h
  · exact hP.congr (.refl s) h
  · exact hP.congr (.refl (s.fetchRead s.fetch.fetchPc).state) hread
  · exact hP.congr (deliver_sameHierarchy F lane _ _ _) hread

theorem fetchLane (F : CoreFns) {s : State} (lane : Nat) (h : P s) : P (fetchLane F lane s).val := by
  unfold Machine.fetchLane
  simp only
  split_ifs with hpending hwait
  · exact h
  · exact hP.congr (deliver_sameHierarchy F lane _ _ _) (hP.congr (.refl s) h)
  · exact hP.readNext F lane h

theorem fetchStep (F : CoreFns) {s : State} (h : P s) : P (fetchStep F s) := by
  have hpending := hP.congr (tickPending_sameHierarchy s) h
  unfold Machine.fetchStep
  simp only
  split_ifs with hpenalty hheld
  · exact hP.congr (.refl s) h
  · exact hpending
  · exact runLanes_induct P (Machine.fetchLane F) _ (fun lane _ _ ht => hP.fetchLane F lane ht) _ hpending

theorem frontEnd (F : CoreFns) {s : State} (h : P s) : P (frontEnd F s) := by
  have hfetch := hP.fetchStep F (hP.congr (executeAndDecode_sameHierarchy F s) h)
  cases hflush : (executeAndDecode F s).flush with
  | none =>
    rw [frontEnd_of_no_flush hflush]
    exact hfetch
  | some pc =>
    rw [frontEnd_of_flush hflush]
    exact hP.congr (.refl (Machine.fetchStep F (executeAndDecode F s).st)) hfetch

theorem tick (F : CoreFns) {s : State} (h : P s) : P (tick F s) := by
  by_cases hs : s.status = .running
  · have hback : P (Machine.memoryStep F (writebackStep s.countCycle)) :=
      hP.memoryStep F (hP.congr (writebackStep_sameHierarchy _) (hP.congr (.refl s) h))
    rw [tick_running F hs]
    split_ifs
    · exact hP.frontEnd F hback
    · exact hback
  · rwa [tick_stopped F hs]

theorem step {s t : State} (h : P s) (hstep : step s = .next t) : P t :=
  tick_eq_of_step hstep ▸ hP.tick ref h

end KeptByAccesses

/-! ## Coherence -/

/-- What each access does to a coherent state of a valid configuration includes that it stays one (R355). -/
theorem coherent_keptByAccesses : KeptByAccesses fun s => cfgValid s.cfg = true ∧ s.coherent where
  congr := by
    rintro s t ⟨hcfg, hi, hd, h2, hm⟩ ⟨hvalid, hcoherent⟩
    obtain ⟨hvalid', hcoherent', -⟩ := showsView_congr hcfg hi hd h2 hm (V := s.dview) ⟨hvalid, hcoherent, rfl⟩
    exact ⟨hvalid', hcoherent'⟩
  memRead := by
    rintro s addr n ⟨hvalid, hcoherent⟩
    obtain ⟨hread, -, -, hframe⟩ := memRead_spec hvalid hcoherent addr n
    exact ⟨by rwa [hframe], hread⟩
  memWrite := by
    rintro s addr n v ⟨hvalid, hcoherent⟩
    obtain ⟨hwrite, -, hframe⟩ := memWrite_spec hvalid hcoherent addr n v
    exact ⟨by rwa [hframe], hwrite⟩
  fetchRead := by
    rintro s pc ⟨hvalid, hcoherent⟩
    exact ⟨hvalid, (fetchRead_spec hvalid hcoherent pc).1⟩

/-- Settles O41: every access of a coherent state leaves it coherent, whichever levels it moves lines between. -/
theorem stepKeepsCoherent : Obligations.StepKeepsCoherent := fun _ _ hvalid hcoherent hstep =>
  (coherent_keptByAccesses.step ⟨hvalid, hcoherent⟩ hstep).2

/-! ## A property of each cache by itself -/

/-- A property of a cache of some geometry that every `Read` and `Write` through it keeps, whatever store is behind it. -/
structure KeptByRequests (R : CacheCfg → Cache → Prop) : Prop where
  read : ∀ {β : Type} {g : CacheCfg} (B : Backing β) (l : Level β) (a n : Nat), R g l.cache →
    R g (cacheRead g B l a n).level.cache
  write : ∀ {β : Type} {g : CacheCfg} (B : Backing β) (l : Level β) (a : Nat) (bytes : List Byte), R g l.cache →
    R g (cacheWrite g B l a bytes).level.cache

/-- The three caches have the property. -/
def State.cachesHave (R : CacheCfg → Cache → Prop) (s : State) : Prop :=
  R s.cfg.l1i s.l1i ∧ R s.cfg.l1d s.l1d ∧ R s.cfg.l2 s.l2

namespace KeptByRequests

variable {R : CacheCfg → Cache → Prop} (hR : KeptByRequests R)
include hR

/-- `L2` keeps the property as the store behind an L1 cache (R336). -/
theorem l2Backing (g : CacheCfg) : (l2Backing g).Keeps fun l => R g l.cache :=
  ⟨fun l a n => hR.read memBacking l a n, fun l a bytes => hR.write memBacking l a bytes⟩

theorem readRequests (requests : List (Nat × Nat)) {s : State} (h : s.cachesHave R) :
    (readRequests s requests).state.cachesHave R := by
  induction requests generalizing s with
  | nil => exact h
  | cons request rest ih =>
    obtain ⟨hi, hd, h2⟩ := h
    exact ih ⟨hi, hR.read _ ⟨s.l1d, s.l2Level⟩ _ _ hd,
      cacheRead_keeps (hR.l2Backing s.cfg.l2) (l := ⟨s.l1d, s.l2Level⟩) h2 request.1 request.2⟩

theorem writeRequests (requests : List (Nat × Nat)) {s : State} (bytes : List Byte) (h : s.cachesHave R) :
    (writeRequests s requests bytes).state.cachesHave R := by
  induction requests generalizing s bytes with
  | nil => exact h
  | cons request rest ih =>
    obtain ⟨hi, hd, h2⟩ := h
    exact ih _ ⟨hi, hR.write _ ⟨s.l1d, s.l2Level⟩ _ _ hd,
      cacheWrite_keeps (hR.l2Backing s.cfg.l2) (l := ⟨s.l1d, s.l2Level⟩) h2 request.1 (bytes.take request.2)⟩

/-- What each cache keeps by itself the hierarchy keeps: an access reaches `L1D` or `L1I`, and `L2` behind it. -/
theorem keptByAccesses : KeptByAccesses (State.cachesHave R) where
  congr := by
    rintro s t ⟨hcfg, hi, hd, h2, -⟩ h
    unfold State.cachesHave
    rwa [hcfg, hi, hd, h2]
  memRead _ _ h := hR.readRequests _ h
  memWrite _ _ _ h := hR.writeRequests _ _ h
  fetchRead := by
    rintro s pc ⟨hi, hd, h2⟩
    exact ⟨hR.read _ ⟨s.l1i, s.l2Level⟩ _ _ hi, hd,
      cacheRead_keeps (hR.l2Backing s.cfg.l2) (l := ⟨s.l1i, s.l2Level⟩) h2 pc.toNat s.cfg.instrBytes⟩

end KeptByRequests

end Sys2Proof.Machine
end

section
/-!
PROOFS. The directory and the counters of one cache under its requests (`spec/49_caches.md` R338 to R340, R345 to R350,
R355). A request stamps one entry with the new clock: on a hit the entry found, on a miss the victim, which takes a tag that
no entry of its set has. A miss counts at most one eviction and an eviction at most one write-back.
-/

namespace Sys2Proof.Machine

section
variable {β : Type} (g : CacheCfg) (B : Backing β) (l : Level β) (set way tag : Nat)

/-! ## What an eviction leaves and what it counts (R349) -/

/-- Evicting touches no table and no clock; it counts a valid victim, and a write-back of a dirty one. -/
theorem evict_cache :
    (evict g B l set way).cache =
      let e := dirAt g l.cache set way
      { l.cache with
        evictions := l.cache.evictions + e.valid.toNat
        writebacks := l.cache.writebacks + (e.valid && e.dirty).toNat } := by
  unfold evict
  cases hv : (dirAt g l.cache set way).valid with
  | false => simp [hv]
  | true => cases hd : (dirAt g l.cache set way).dirty <;> simp [hv, hd]

@[simp] theorem dirAt_evict (s₂ w₂ : Nat) : dirAt g (evict g B l set way).cache s₂ w₂ = dirAt g l.cache s₂ w₂ := by
  rw [evict_cache]
  rfl

@[simp] theorem clock_evict : (evict g B l set way).cache.clock = l.cache.clock := by rw [evict_cache]

@[simp] theorem misses_evict : (evict g B l set way).cache.misses = l.cache.misses := by rw [evict_cache]

/-! ## What an install leaves and what it counts (R349, R350) -/

@[simp] theorem clock_install : (install g B l set tag).level.cache.clock = l.cache.clock + 1 :=
  congrArg (· + 1) (clock_evict g B l set _)

/-- Of an install only the eviction counts (R350). -/
@[simp] theorem misses_install : (install g B l set tag).level.cache.misses = l.cache.misses :=
  misses_evict g B l set _

theorem evictions_install :
    (install g B l set tag).level.cache.evictions =
      l.cache.evictions + (dirAt g l.cache set (install g B l set tag).way).valid.toNat :=
  congrArg Cache.evictions (evict_cache g B l set _)

theorem writebacks_install :
    (install g B l set tag).level.cache.writebacks =
      l.cache.writebacks + ((dirAt g l.cache set (install g B l set tag).way).valid &&
        (dirAt g l.cache set (install g B l set tag).way).dirty).toNat :=
  congrArg Cache.writebacks (evict_cache g B l set _)

variable {g}

/-- The answered way is valid, clean, has the tag and the new stamp; every other entry is as before (R349). -/
theorem dirAt_install (hg : usable g) {s₂ w₂ : Nat} (h₂ : w₂ < g.assoc) :
    dirAt g (install g B l set tag).level.cache s₂ w₂ =
      if set = s₂ ∧ (install g B l set tag).way = w₂ then ⟨true, false, tag, l.cache.clock + 1⟩
      else dirAt g l.cache s₂ w₂ := by
  have hw : victim g l.cache set < g.assoc := victim_lt hg l.cache set
  refine (dirAt_touch (setData g (setDir g (evict g B l set (victim g l.cache set)).cache set (victim g l.cache set) _) set
    (victim g l.cache set) _) hw h₂).trans ?_
  show _ = if set = s₂ ∧ victim g l.cache set = w₂ then _ else _
  split_ifs with he
  · rw [dirAt_setData, dirAt_setDir _ _ hw hw, if_pos ⟨rfl, rfl⟩]
    exact congrArg (DirEntry.mk true false tag) (congrArg (· + 1) (clock_evict g B l set _))
  · rw [dirAt_setData, dirAt_setDir _ _ hw h₂, if_neg he, dirAt_evict]

end

/-! ## The entries after a write -/

/-- The bytes of a write make the entry dirty and change no other field of the directory (R348). -/
theorem dirAt_storeBytes {g : CacheCfg} (c : Cache) {set w s₂ w₂ : Nat} (hw : w < g.assoc) (h₂ : w₂ < g.assoc) (addr : Nat)
    (bytes : List Byte) :
    dirAt g (storeBytes g c set w addr bytes) s₂ w₂ =
      if set = s₂ ∧ w = w₂ then { dirAt g c set w with dirty := true } else dirAt g c s₂ w₂ :=
  dirAt_setDir _ _ hw h₂

/-! ## The directory invariants (R355 (a), (e)) -/

section
variable {g : CacheCfg} {c c' : Cache}

/-- The invariants speak of validity, tags, stamps and the clock alone. -/
theorem directorySound.congr (h : directorySound g c) (hclock : c'.clock = c.clock)
    (hdir : ∀ set w, w < g.assoc → (dirAt g c' set w).valid = (dirAt g c set w).valid ∧
      (dirAt g c' set w).tag = (dirAt g c set w).tag ∧ (dirAt g c' set w).lru = (dirAt g c set w).lru) :
    directorySound g c' := by
  obtain ⟨htags, hbound, hstamps⟩ := h
  refine ⟨fun set w₁ w₂ hs h₁ h₂ => ?_, fun set w hs hw => ?_, fun set w₁ w₂ hs h₁ h₂ => ?_⟩
  · obtain ⟨hv₁, ht₁, -⟩ := hdir set w₁ h₁
    obtain ⟨hv₂, ht₂, -⟩ := hdir set w₂ h₂
    rw [hv₁, hv₂, ht₁, ht₂]
    exact htags set w₁ w₂ hs h₁ h₂
  · obtain ⟨-, -, hl⟩ := hdir set w hw
    rw [hl, hclock]
    exact hbound set w hs hw
  · obtain ⟨hv₁, -, hl₁⟩ := hdir set w₁ h₁
    obtain ⟨hv₂, -, hl₂⟩ := hdir set w₂ h₂
    rw [hv₁, hv₂, hl₁, hl₂]
    exact hstamps set w₁ w₂ hs h₁ h₂

/-- A new entry with the new clock as its stamp and a tag that no other valid entry of the set has keeps the invariants:
every older stamp is smaller. -/
theorem directorySound.stamp (h : directorySound g c) {set w : Nat} {e : DirEntry} (hclock : c'.clock = c.clock + 1)
    (hlru : e.lru = c.clock + 1)
    (hdir : ∀ s₂ w₂, w₂ < g.assoc → dirAt g c' s₂ w₂ = if set = s₂ ∧ w = w₂ then e else dirAt g c s₂ w₂)
    (hfresh : ∀ w₂, w₂ < g.assoc → w₂ ≠ w → (dirAt g c set w₂).valid = true → (dirAt g c set w₂).tag ≠ e.tag) :
    directorySound g c' := by
  obtain ⟨htags, hbound, hstamps⟩ := h
  refine ⟨fun s₂ w₁ w₂ hs h₁ h₂ => ?_, fun s₂ w₂ hs h₂ => ?_, fun s₂ w₁ w₂ hs h₁ h₂ => ?_⟩
  · rw [hdir s₂ w₁ h₁, hdir s₂ w₂ h₂]
    by_cases hset : set = s₂
    · subst hset
      simp only [true_and]
      split_ifs with e₁ e₂ e₂
      · exact fun _ _ _ => e₁.symm.trans e₂
      · exact fun _ hv ht => absurd ht.symm (hfresh w₂ h₂ (Ne.symm e₂) hv)
      · exact fun hv _ ht => absurd ht (hfresh w₁ h₁ (Ne.symm e₁) hv)
      · exact htags set w₁ w₂ hs h₁ h₂
    · simp only [hset, false_and, if_false]
      exact htags s₂ w₁ w₂ hs h₁ h₂
  · rw [hdir s₂ w₂ h₂, hclock]
    split_ifs
    · exact hlru.le
    · exact (hbound s₂ w₂ hs h₂).trans (Nat.le_succ _)
  · rw [hdir s₂ w₁ h₁, hdir s₂ w₂ h₂]
    have hold₁ := hbound s₂ w₁ hs h₁
    have hold₂ := hbound s₂ w₂ hs h₂
    split_ifs with e₁ e₂ e₂
    · exact fun _ _ _ => e₁.2.symm.trans e₂.2
    · intro _ _ hl
      omega
    · intro _ _ hl
      omega
    · exact hstamps s₂ w₁ w₂ hs h₁ h₂

/-- Stamping an entry that `Lookup` found (R339, R345). -/
theorem directorySound.touch (h : directorySound g c) {set tag w : Nat} (hs : set < g.sets)
    (hfound : lookup g c set tag = some w) : directorySound g (touch g c set w) := by
  obtain ⟨hw, hv, -⟩ := lookup_some hfound
  refine h.stamp (clock_touch g c set w) rfl (fun s₂ w₂ h₂ => dirAt_touch c hw h₂) fun w₂ h₂ hne hv₂ ht => hne ?_
  exact h.1 set w₂ w hs h₂ hw hv₂ hv ht

/-- Installing a tag that `Lookup` did not find (R349). -/
theorem directorySound.install {β : Type} {B : Backing β} {l : Level β} (hg : usable g) (h : directorySound g l.cache)
    {set tag : Nat} (hmiss : lookup g l.cache set tag = none) : directorySound g (install g B l set tag).level.cache :=
  h.stamp (clock_install g B l set tag) rfl (fun _ _ h₂ => dirAt_install B l set tag hg h₂)
    fun w₂ h₂ _ hv ht => lookup_none.1 hmiss w₂ h₂ ⟨hv, ht⟩

theorem directorySound.storeBytes (h : directorySound g c) {set w : Nat} (hw : w < g.assoc) (addr : Nat)
    (bytes : List Byte) : directorySound g (storeBytes g c set w addr bytes) :=
  h.congr rfl fun s₂ w₂ h₂ => by
    rw [dirAt_storeBytes c hw h₂]
    split_ifs with he
    · obtain ⟨rfl, rfl⟩ := he
      exact ⟨rfl, rfl, rfl⟩
    · exact ⟨rfl, rfl, rfl⟩

end

/-- A cache of a usable geometry whose directory is sound. -/
def soundDirectory (g : CacheCfg) (c : Cache) : Prop := usable g ∧ directorySound g c

theorem soundDirectory_keptByRequests : KeptByRequests soundDirectory where
  read := by
    rintro β g B l a n ⟨hg, h⟩
    refine ⟨hg, ?_⟩
    cases hl : lookup g l.cache (setOf g a) (tagOf g a) with
    | none =>
      rw [cacheRead_miss hl]
      exact directorySound.install hg (by exact h) (by exact hl)
    | some w =>
      rw [cacheRead_hit hl]
      exact directorySound.touch (by exact h) (setOf_lt hg a) (by exact hl)
  write := by
    rintro β g B l a bytes ⟨hg, h⟩
    refine ⟨hg, ?_⟩
    cases hl : lookup g l.cache (setOf g a) (tagOf g a) with
    | none =>
      rw [cacheWrite_miss hl]
      exact directorySound.storeBytes (directorySound.install hg (by exact h) (by exact hl)) (victim_lt hg _ _) a bytes
    | some w =>
      rw [cacheWrite_hit hl]
      exact directorySound.storeBytes (directorySound.touch (by exact h) (setOf_lt hg a) (by exact hl)) (lookup_some hl).1 a
        bytes

/-- Settles O40: each request keeps the directory of the cache it reaches, and a valid configuration has usable geometries. -/
theorem stepKeepsDirectoriesSound : Obligations.StepKeepsDirectoriesSound := by
  rintro s t hvalid ⟨hi, hd, h2⟩ hstep
  obtain ⟨⟨-, hi'⟩, ⟨-, hd'⟩, -, h2'⟩ := soundDirectory_keptByRequests.keptByAccesses.step
    ⟨⟨cfgValid_usable_l1i hvalid, hi⟩, ⟨cfgValid_usable_l1d hvalid, hd⟩, cfgValid_usable_l2 hvalid, h2⟩ hstep
  exact ⟨hi', hd', h2'⟩

/-! ## The counters (R350) -/

/-- An install after a counted miss: the eviction it may count is covered by the miss, the write-back by the eviction. -/
theorem install_countersOrdered {β : Type} (g : CacheCfg) (B : Backing β) {l : Level β} (set tag : Nat)
    (hwritebacks : l.cache.writebacks ≤ l.cache.evictions) (hevictions : l.cache.evictions + 1 ≤ l.cache.misses) :
    (install g B l set tag).level.cache.countersOrdered := by
  rw [Cache.countersOrdered, misses_install, evictions_install, writebacks_install]
  cases (dirAt g l.cache set (install g B l set tag).way).valid with
  | false => exact ⟨hwritebacks, (Nat.le_succ _).trans hevictions⟩
  | true => exact ⟨Nat.add_le_add hwritebacks (Bool.toNat_le _), hevictions⟩

theorem countersOrdered_keptByRequests : KeptByRequests fun _ c => c.countersOrdered where
  read := by
    rintro β g B l a n ⟨hwritebacks, hevictions⟩
    cases hl : lookup g l.cache (setOf g a) (tagOf g a) with
    | none =>
      rw [cacheRead_miss hl]
      exact install_countersOrdered g B _ _ hwritebacks (Nat.succ_le_succ hevictions)
    | some w =>
      rw [cacheRead_hit hl]
      exact ⟨hwritebacks, hevictions⟩
  write := by
    rintro β g B l a bytes ⟨hwritebacks, hevictions⟩
    cases hl : lookup g l.cache (setOf g a) (tagOf g a) with
    | none =>
      rw [cacheWrite_miss hl]
      exact install_countersOrdered g B _ (tagOf g a) hwritebacks (Nat.succ_le_succ hevictions)
    | some w =>
      rw [cacheWrite_hit hl]
      exact ⟨hwritebacks, hevictions⟩

/-- Settles O43: each request keeps the order of the counters of the cache it reaches. -/
theorem stepKeepsCountersOrdered : Obligations.StepKeepsCountersOrdered := fun _ _ h hstep =>
  countersOrdered_keptByRequests.keptByAccesses.step h hstep

end Sys2Proof.Machine
end

section
/-!
PROOFS. Two scenarios of one cache (`spec/49_caches.md` R340, R345 to R352, R357). A write leaves its bytes in an entry that
`Lookup` finds, under a store-forward record that covers them, so a read of the same bytes hits and returns them, one cycle
late; a read leaves no such record and no other bytes. An install in a full set evicts a least recently used way.
-/

namespace Sys2Proof.Machine

/-! ## The bytes of a line -/

/-- A line reads back the bytes it was patched with. -/
theorem lineBytes_linePatch {line bytes : List Byte} {off : Nat} (h : off + bytes.length ≤ line.length) :
    lineBytes (linePatch line off bytes) off bytes.length = bytes := by
  have hoff : (line.take off).length = off := List.length_take_of_le (by omega)
  rw [lineBytes, linePatch, List.append_assoc, List.drop_left' hoff, List.take_left]

/-! ## What `Lookup` finds after a change -/

section
variable {β : Type} {g : CacheCfg} {B : Backing β} {l : Level β} {c c' : Cache} {set tag w : Nat}

/-- `Lookup` speaks of validity and tags alone. -/
theorem lookup_congr (h : ∀ w₂, w₂ < g.assoc →
    (dirAt g c' set w₂).valid = (dirAt g c set w₂).valid ∧ (dirAt g c' set w₂).tag = (dirAt g c set w₂).tag) :
    lookup g c' set tag = lookup g c set tag :=
  find?_congr_mem _ fun w₂ hw₂ => by
    obtain ⟨hv, ht⟩ := h w₂ (List.mem_range.1 hw₂)
    rw [holdsTag, holdsTag, hv, ht]

theorem lookup_touch (hw : w < g.assoc) (set₂ : Nat) : lookup g (touch g c set w) set₂ tag = lookup g c set₂ tag :=
  (sameLines_touch g c hw).lookup_eq set₂ tag

theorem lookup_storeBytes (hw : w < g.assoc) (addr : Nat) (bytes : List Byte) :
    lookup g (storeBytes g c set w addr bytes) set tag = lookup g c set tag :=
  lookup_congr fun w₂ h₂ => by
    rw [dirAt_storeBytes c hw h₂]
    split_ifs with he
    · rw [← he.2]
      exact ⟨rfl, rfl⟩
    · exact ⟨rfl, rfl⟩

/-- `Lookup` finds the way that has just been filled: no other entry of the set has the tag. -/
theorem lookup_install (hg : usable g) (hmiss : lookup g l.cache set tag = none) :
    lookup g (install g B l set tag).level.cache set tag = some (install g B l set tag).way := by
  have hw : (install g B l set tag).way < g.assoc := victim_lt hg l.cache set
  have hother : ∀ w₂, w₂ < g.assoc → (dirAt g (install g B l set tag).level.cache set w₂).valid = true →
      (dirAt g (install g B l set tag).level.cache set w₂).tag = tag → (install g B l set tag).way = w₂ := by
    intro w₂ h₂ hv ht
    by_contra hne
    rw [dirAt_install B l set tag hg h₂, if_neg fun h => hne h.2] at hv ht
    exact lookup_none.1 hmiss w₂ h₂ ⟨hv, ht⟩
  cases hl : lookup g (install g B l set tag).level.cache set tag with
  | none =>
    refine absurd ?_ (lookup_none.1 hl _ hw)
    rw [dirAt_install B l set tag hg hw, if_pos ⟨rfl, rfl⟩]
    exact ⟨rfl, rfl⟩
  | some w₂ =>
    obtain ⟨h₂, hv, ht⟩ := lookup_some hl
    rw [hother w₂ h₂ hv ht]

/-- The filled line has the length of what was read. -/
theorem dataAt_install_length (hg : usable g) (hfill : ∀ b x, (B.read b x g.line).bytes.length = g.line) :
    (dataAt g (install g B l set tag).level.cache set (install g B l set tag).way).length = g.line := by
  have hw : victim g l.cache set < g.assoc := victim_lt hg l.cache set
  refine (congrArg List.length (dataAt_setData _ _ hw hw)).trans ?_
  rw [if_pos ⟨rfl, rfl⟩]
  exact hfill _ _

end

/-! ## The round trip (R345, R348, R351, R352) -/

/-- The cache holds the bytes at an address in one of its lines: `Lookup` finds the entry and its line has them. -/
def holdsBytes (g : CacheCfg) (c : Cache) (a : Nat) (bytes : List Byte) : Prop :=
  ∃ w, lookup g c (setOf g a) (tagOf g a) = some w ∧
    lineBytes (dataAt g c (setOf g a) w) (a % g.line) bytes.length = bytes

section
variable {β : Type} {g : CacheCfg} {B : Backing β} {l : Level β} {a : Nat} {bytes : List Byte}

theorem storeBytes_holdsBytes {c : Cache} {w : Nat} (hfound : lookup g c (setOf g a) (tagOf g a) = some w)
    (hlen : a % g.line + bytes.length ≤ (dataAt g c (setOf g a) w).length) :
    holdsBytes g (storeBytes g c (setOf g a) w a bytes) a bytes := by
  obtain ⟨hw, -, -⟩ := lookup_some hfound
  refine ⟨w, (lookup_storeBytes hw a bytes).trans hfound, ?_⟩
  have hline : dataAt g (storeBytes g c (setOf g a) w a bytes) (setOf g a) w =
      linePatch (dataAt g c (setOf g a) w) (a % g.line) bytes :=
    (dataAt_setData c _ hw hw).trans (if_pos ⟨rfl, rfl⟩)
  rw [hline, lineBytes_linePatch hlen]

/-- After a write the cache holds its bytes, and the store-forward record names them (R348, R351). -/
theorem cacheWrite_holdsBytes (hg : usable g) (hfull : linesFull g l.cache)
    (hfill : ∀ b x, (B.read b x g.line).bytes.length = g.line) (hr : a % g.line + bytes.length ≤ g.line) :
    holdsBytes g (cacheWrite g B l a bytes).level.cache a bytes ∧
      (cacheWrite g B l a bytes).level.cache.sb = ⟨true, a, bytes.length⟩ := by
  cases hl : lookup g l.cache (setOf g a) (tagOf g a) with
  | none =>
    rw [cacheWrite_miss hl]
    exact ⟨storeBytes_holdsBytes (lookup_install hg hl) (by rwa [dataAt_install_length hg hfill]), rfl⟩
  | some w =>
    rw [cacheWrite_hit hl]
    obtain ⟨hw, -, -⟩ := lookup_some hl
    refine ⟨storeBytes_holdsBytes ((lookup_touch hw _).trans hl) ?_, rfl⟩
    exact hr.trans (hfull _ w (setOf_lt hg a) hw).ge

/-- A read of bytes the cache holds hits and returns them, and the cache goes on holding them with no store-forward record;
it takes one cycle more where the record covers them (R345, R351). -/
theorem cacheRead_of_holdsBytes (h : holdsBytes g l.cache a bytes) :
    let r := cacheRead g B l a bytes.length
    r.hit = true ∧ r.bytes = bytes ∧
      r.latency = g.hitLat + (if forwards l.cache.sb a bytes.length then 1 else 0) ∧
      holdsBytes g r.level.cache a bytes ∧ r.level.cache.sb.valid = false := by
  obtain ⟨w, hfound, hbytes⟩ := h
  obtain ⟨hw, -, -⟩ := lookup_some hfound
  rw [cacheRead_hit hfound]
  exact ⟨rfl, hbytes, rfl, ⟨w, (lookup_touch hw _).trans hfound, hbytes⟩, rfl⟩

end

theorem forwards_self (a n : Nat) : forwards ⟨true, a, n⟩ a n = true := by simp [forwards]

theorem forwards_of_invalid {sb : StoreForward} (h : sb.valid = false) (a n : Nat) : forwards sb a n = false := by
  simp [forwards, h]

/-- Settles O58: the write leaves the bytes in a line and the record over them; the first read takes the record away. -/
theorem cacheRoundTrip : Obligations.CacheRoundTrip := by
  intro β g B l a bytes hg hfull hfill _ hr w r q
  obtain ⟨hholds, hsb⟩ := cacheWrite_holdsBytes (B := B) hg hfull hfill hr
  obtain ⟨hhit, hbytes, hlatency, hholds', hsb'⟩ := cacheRead_of_holdsBytes (B := B) (l := w.level) hholds
  obtain ⟨hhit', hbytes', hlatency', -, -⟩ := cacheRead_of_holdsBytes (B := B) (l := r.level) hholds'
  rw [hsb, forwards_self] at hlatency
  rw [forwards_of_invalid hsb'] at hlatency'
  exact ⟨hhit, hbytes, hlatency, hhit', hbytes', hlatency'⟩

/-! ## The eviction (R340, R349, R350, R357) -/

section
variable {β : Type} {g : CacheCfg} {B : Backing β} {l : Level β} {set w : Nat}

/-- The line of a dirty victim goes to the store behind, whole. -/
theorem evict_below_of_dirty (hv : (dirAt g l.cache set w).valid = true) (hd : (dirAt g l.cache set w).dirty = true) :
    (evict g B l set w).below =
      (B.write l.below (lineBase g set (dirAt g l.cache set w).tag) (dataAt g l.cache set w)).store := by
  simp only [evict, hv, hd, if_true]
  rfl

theorem evict_below_of_clean (hd : (dirAt g l.cache set w).dirty = false) : (evict g B l set w).below = l.below := by
  simp only [evict, hd, Bool.false_eq_true, if_false]
  split_ifs <;> rfl

end

/-- Settles O59: the victim of a full set is valid, and the fill is read from the store that the eviction leaves. -/
theorem evictionWritesBack : Obligations.EvictionWritesBack := by
  intro β g B l set tag hg hfull i e
  have hway : i.way < g.assoc := victim_lt hg l.cache set
  have hvalid : e.valid = true := hfull i.way hway
  have hevictions : i.level.cache.evictions = l.cache.evictions + e.valid.toNat := evictions_install g B l set tag
  have hwritebacks : i.level.cache.writebacks = l.cache.writebacks + (e.valid && e.dirty).toNat :=
    writebacks_install g B l set tag
  have hfill : i.level.below = (B.read (evict g B l set i.way).below (lineBase g set tag) g.line).store ∧
      i.fillLatency = (B.read (evict g B l set i.way).below (lineBase g set tag) g.line).latency := ⟨rfl, rfl⟩
  rw [hvalid] at hevictions hwritebacks
  refine ⟨hway, fun _ hw => victim_least l.cache set hfull hw, hevictions, fun hd => ?dirty, fun hd => ?clean, ?entry⟩
  case dirty =>
    rw [evict_below_of_dirty hvalid hd] at hfill
    rw [hd] at hwritebacks
    exact ⟨hwritebacks, hfill⟩
  case clean =>
    rw [evict_below_of_clean hd] at hfill
    rw [hd] at hwritebacks
    exact ⟨hwritebacks, hfill⟩
  case entry => exact (dirAt_install B l set tag hg hway).trans (if_pos ⟨rfl, rfl⟩)

end Sys2Proof.Machine
end

section
/-!
PROOFS. Register forwarding and issue (`spec/47_hazard_forwarding_unit.md` R290 to R296). Each search of the unit answers the
record in the nearest lane below that is a valid writer; the searches are tried in the order of R291 and R296.
-/

namespace Sys2Proof.Machine

/-! ## The nearest lane that passes a test -/

section
variable {l : Latch} {test : Slot → Bool} {n : Nat}

theorem noneBelow_or_nearestBelow (l : Latch) (test : Slot → Bool) (n : Nat) :
    noneBelow l test n ∨ ∃ j, nearestBelow l test n j := by
  induction n with
  | zero => exact .inl fun k hk => absurd hk (Nat.not_lt_zero k)
  | succ n ih =>
    cases hn : test (slotAt l n) with
    | true => exact .inr ⟨n, Nat.lt_succ_self n, hn, fun k hnk hk => by omega⟩
    | false =>
      have hlast : ∀ k, k < n + 1 → ¬k < n → test (slotAt l k) = false := by
        intro k hk hkn
        obtain rfl : k = n := by omega
        exact hn
      obtain hnone | ⟨j, hj, htest, hlater⟩ := ih
      · exact .inl fun k hk => if hkn : k < n then hnone k hkn else hlast k hk hkn
      · exact .inr ⟨j, Nat.lt_succ_of_lt hj, htest, fun k hjk hk =>
          if hkn : k < n then hlater k hjk hkn else hlast k hk hkn⟩

theorem youngest_eq_none_iff : youngest l test n = none ↔ noneBelow l test n := by
  refine ⟨fun h => ?_, youngest_of_noneBelow⟩
  obtain hnone | ⟨j, hj⟩ := noneBelow_or_nearestBelow l test n
  · exact hnone
  · rw [youngest_of_nearestBelow hj] at h
    exact nomatch h

theorem youngest_eq_some_iff {p : Slot} :
    youngest l test n = some p ↔ ∃ j, nearestBelow l test n j ∧ slotAt l j = p := by
  constructor
  · intro h
    obtain hnone | ⟨j, hj⟩ := noneBelow_or_nearestBelow l test n
    · rw [youngest_of_noneBelow hnone] at h
      exact nomatch h
    · rw [youngest_of_nearestBelow hj] at h
      exact ⟨j, hj, Option.some.inj h⟩
  · rintro ⟨j, hj, rfl⟩
    exact youngest_of_nearestBelow hj

/-- What holds of the record in the nearest lane holds of the one the search answers. -/
theorem exists_nearestBelow_iff (P : Slot → Prop) :
    (∃ j, nearestBelow l test n j ∧ P (slotAt l j)) ↔ ∃ p, youngest l test n = some p ∧ P p := by
  constructor
  · rintro ⟨j, hj, h⟩
    exact ⟨_, youngest_of_nearestBelow hj, h⟩
  · rintro ⟨p, hp, h⟩
    obtain ⟨j, hj, rfl⟩ := youngest_eq_some_iff.1 hp
    exact ⟨j, hj, h⟩

end

/-! ## `ResolveOperand` (R296) -/

section
variable {s : State} {reg : Reg} {lane j : Nat}

theorem resolveOperand_of_exmem (h : nearestBelow s.exmem (validWriter reg) lane j) :
    resolveOperand s reg lane = ⟨(slotAt s.exmem j).result, isLate (slotAt s.exmem j)⟩ := by
  have hpass : youngestWriter s.exmem reg lane = some (slotAt s.exmem j) := youngest_of_nearestBelow h
  rw [resolveOperand, hpass]

theorem resolveOperand_of_memwb (hnone : noneBelow s.exmem (validWriter reg) lane)
    (h : nearestBelow s.memwb (validWriter reg) s.cfg.issueWidth j) :
    resolveOperand s reg lane = ⟨(slotAt s.memwb j).result, false⟩ := by
  have hpass : youngestWriter s.exmem reg lane = none := youngest_of_noneBelow hnone
  have hgroup : youngestWriter s.memwb reg s.cfg.issueWidth = some (slotAt s.memwb j) := youngest_of_nearestBelow h
  rw [resolveOperand, hpass, hgroup]

theorem resolveOperand_of_none (hnone : noneBelow s.exmem (validWriter reg) lane)
    (hnone' : noneBelow s.memwb (validWriter reg) s.cfg.issueWidth) : resolveOperand s reg lane = ⟨s.reg reg, false⟩ := by
  have hpass : youngestWriter s.exmem reg lane = none := youngest_of_noneBelow hnone
  have hgroup : youngestWriter s.memwb reg s.cfg.issueWidth = none := youngest_of_noneBelow hnone'
  rw [resolveOperand, hpass, hgroup]

end

/-- Settles O51: of the three places of the search, each answers where the ones before it have no writer. -/
theorem nearestProducerForwards : Obligations.NearestProducerForwards := fun _ _ _ =>
  ⟨fun _ => resolveOperand_of_exmem, fun hnone => ⟨fun _ => resolveOperand_of_memwb hnone, resolveOperand_of_none hnone⟩⟩

/-! ## `CanIssue` (R291) -/

/-- A source is blocked where its nearest older writer, in the lower lanes of `IDEX` or else in `EXMEM`, is late. -/
theorem rawHazard_iff (s : State) (lane : Nat) (reg : Reg) :
    rawHazard s lane reg = true ↔
      (∃ j, nearestBelow s.idex (validWriter reg) lane j ∧ isLate (slotAt s.idex j) = true) ∨
      (noneBelow s.idex (validWriter reg) lane ∧
        ∃ j, nearestBelow s.exmem (validWriter reg) s.cfg.issueWidth j ∧ isLate (slotAt s.exmem j) = true) := by
  rw [exists_nearestBelow_iff (isLate · = true), exists_nearestBelow_iff (isLate · = true), ← youngest_eq_none_iff]
  show _ ↔ (∃ p, youngestWriter s.idex reg lane = some p ∧ isLate p = true) ∨
    (youngestWriter s.idex reg lane = none ∧ ∃ p, youngestWriter s.exmem reg s.cfg.issueWidth = some p ∧ isLate p = true)
  unfold rawHazard nearestProducer
  cases youngestWriter s.idex reg lane with
  | some p => simp
  | none => cases youngestWriter s.exmem reg s.cfg.issueWidth <;> simp

section
variable {s : State} {d : Diw} {lane issued : Nat}

theorem canIssue_of_structural (h : d.cls.isMem = true ∧ issued = s.cfg.memPorts) :
    canIssue s d lane issued = .structural := by
  obtain ⟨hmem, hports⟩ := h
  simp [canIssue, hmem, hports]

/-- With a port to be had the sources decide. -/
theorem canIssue_of_not_structural (h : ¬(d.cls.isMem = true ∧ issued = s.cfg.memPorts)) :
    canIssue s d lane issued = if (diwSources d).any (rawHazard s lane) then .raw else .ok := by
  have hports : ¬(d.cls.isMem && issued == s.cfg.memPorts) = true := by simpa using h
  rw [canIssue, if_neg hports]

end

/-- Settles O53: a candidate for which there is no port is not asked for its sources. -/
theorem issueBlocks : Obligations.IssueBlocks := by
  intro s d lane issued structural raw
  by_cases hs : structural
  · have h : canIssue s d lane issued = .structural := canIssue_of_structural hs
    simp [h, hs]
  · have h := canIssue_of_not_structural (lane := lane) hs
    have hraw : (diwSources d).any (rawHazard s lane) = true ↔ raw := by
      simp only [List.any_eq_true, rawHazard_iff, raw]
    by_cases hr : raw
    · rw [if_pos (hraw.2 hr)] at h
      simp [h, hs, hr]
    · rw [if_neg (mt hraw.1 hr)] at h
      simp [h, hs, hr]

end Sys2Proof.Machine
end

section
/-!
PROOFS. The branch predictor (`spec/48_branch_predictor_fsm.md` R311 to R323): its two-bit counters, the prediction from
counters at their reset value, and what an update writes and leaves.
-/

namespace Sys2Proof.Machine

/-! ## The two-bit counters (R311) -/

theorem counterInc_toNat (c : BitVec 2) : (counterInc c).toNat = min (c.toNat + 1) 3 := by
  have hone : (1 : BitVec 2).toNat = 1 := rfl
  have hlt := c.isLt
  unfold counterInc
  split_ifs with h
  · rw [h]
    rfl
  · have hne : c.toNat ≠ 3 := fun hc => h (BitVec.eq_of_toNat_eq hc)
    rw [BitVec.toNat_add_of_lt (by omega), hone]
    omega

theorem counterDec_toNat (c : BitVec 2) : (counterDec c).toNat = c.toNat - 1 := by
  unfold counterDec
  split_ifs with h
  · rw [h]
    rfl
  · have hne : c.toNat ≠ 0 := fun hc => h (BitVec.eq_of_toNat_eq hc)
    exact BitVec.toNat_sub_of_le (BitVec.le_def.2 (Nat.one_le_iff_ne_zero.2 hne))

theorem counterHigh_iff (c : BitVec 2) : counterHigh c = true ↔ 2 ≤ c.toNat := decide_eq_true_iff

/-! ## `Predict` (R316) -/

section
variable {cfg : Cfg} {p : Predictor} {pc : Word}

/-- The direction comes from the table that the choice counter selects. -/
theorem predict_taken (cfg : Cfg) (p : Predictor) (pc : Word) :
    (predict cfg p pc).taken =
      if counterHigh (choiceAt cfg p pc) then counterHigh (gshAt cfg p pc) else counterHigh (bimAt cfg p pc) := by
  unfold predict
  simp only
  split_ifs <;> rfl

/-- Without a valid target-cache entry of the pc the target is unknown, whatever the direction. -/
theorem predict_of_unknown (h : (btbAt cfg p pc).valid = false) :
    predict cfg p pc = ⟨(predict cfg p pc).taken, 0, false⟩ := by
  simp [predict, h]

theorem predict_of_known (hv : (btbAt cfg p pc).valid = true) (ht : (btbAt cfg p pc).tag = pc) :
    predict cfg p pc = ⟨(predict cfg p pc).taken, (btbAt cfg p pc).target, true⟩ := by
  simp [predict, hv, ht]

/-- Counters at their reset value say not taken (R322, R323). -/
theorem predict_taken_of_reset (hbim : bimAt cfg p pc = counterReset) (hchoice : choiceAt cfg p pc = counterReset) :
    (predict cfg p pc).taken = false := by
  rw [predict_taken, hchoice, hbim]
  rfl

end

/-- Settles O55: for the tables by the choice counter's two cases. -/
theorem counterStates : Obligations.CounterStates := by
  refine ⟨fun c => ⟨counterInc_toNat c, counterDec_toNat c, counterHigh_iff c, rfl, rfl⟩, fun cfg p pc => ?_, rfl, rfl, rfl⟩
  rw [predict_taken]
  simp only [counterHigh_iff]
  split_ifs <;> exact counterHigh_iff _

/-- Settles O56: after reset every table reads its reset value. -/
theorem firstEncounterNotTaken : Obligations.FirstEncounterNotTaken := by
  have hfirst : ∀ (cfg : Cfg) (p : Predictor) (pc : Word), bimAt cfg p pc = 1 → choiceAt cfg p pc = 1 →
      (btbAt cfg p pc).valid = false → predict cfg p pc = ⟨false, 0, false⟩ := by
    intro cfg p pc hbim hchoice hbtb
    rw [predict_of_unknown hbtb, predict_taken_of_reset hbim hchoice]
  exact ⟨hfirst, fun cfg pc => hfirst cfg Predictor.start pc rfl rfl rfl⟩

/-! ## `Update` (R318) -/

section
variable (cfg : Cfg) (p : Predictor) (pc target : Word) (taken : Bool)

theorem bimAt_predictorUpdate (pc' : Word) :
    bimAt cfg (predictorUpdate cfg p pc taken target) pc' =
      if bimIx cfg pc = bimIx cfg pc' then counterTrain (bimAt cfg p pc) taken else bimAt cfg p pc' :=
  tableGet_set _ _ _ _ _

/-- The index is that of the history before the update. -/
theorem gsh_predictorUpdate (k : Nat) :
    tableGet counterReset (predictorUpdate cfg p pc taken target).gsh k =
      if gshIx cfg p.ghr pc = k then counterTrain (gshAt cfg p pc) taken else tableGet counterReset p.gsh k :=
  tableGet_set _ _ _ _ _

theorem choiceAt_predictorUpdate (pc' : Word) :
    choiceAt cfg (predictorUpdate cfg p pc taken target) pc' =
      if choiceIx cfg pc = choiceIx cfg pc' then trainedChoice cfg p pc taken else choiceAt cfg p pc' :=
  tableGet_set _ _ _ _ _

theorem btbAt_predictorUpdate (pc' : Word) :
    btbAt cfg (predictorUpdate cfg p pc taken target) pc' =
      if btbIx cfg pc = btbIx cfg pc' then ⟨true, pc, target⟩ else btbAt cfg p pc' :=
  tableGet_set _ _ _ _ (BtbEntry.mk true pc target)

theorem btbAt_predictorUpdate_self : btbAt cfg (predictorUpdate cfg p pc taken target) pc = ⟨true, pc, target⟩ :=
  (btbAt_predictorUpdate cfg p pc target taken pc).trans (if_pos rfl)

theorem predict_predictorUpdate_target :
    (predict cfg (predictorUpdate cfg p pc taken target) pc).known = true ∧
      (predict cfg (predictorUpdate cfg p pc taken target) pc).target = target := by
  have hbtb := btbAt_predictorUpdate_self cfg p pc target taken
  rw [predict_of_known (by rw [hbtb]) (by rw [hbtb]), hbtb]
  exact ⟨rfl, rfl⟩

end

/-- Settles O57: what each table reads after the update, at the written index and at another. -/
theorem updateTrains : Obligations.UpdateTrains := by
  intro cfg p pc target taken q b g
  obtain ⟨hknown, htarget⟩ := predict_predictorUpdate_target cfg p pc target taken
  have hghr : p.ghr * 2 + taken.toNat = 2 * p.ghr + (if taken = true then 1 else 0) := by
    cases taken <;> simp [Nat.mul_comm]
  refine ⟨hknown, htarget, ?_, ?_, ?_, congrArg (· % 2 ^ cfg.ghrBits) hghr, fun pc' hne => ?_, fun k hne => ?_,
    fun pc' hne => ?_, fun pc' hne => ?_⟩
  · exact (bimAt_predictorUpdate cfg p pc target taken pc).trans (if_pos rfl)
  · exact (gsh_predictorUpdate cfg p pc target taken _).trans (if_pos rfl)
  · exact (choiceAt_predictorUpdate cfg p pc target taken pc).trans (if_pos rfl)
  · exact (bimAt_predictorUpdate cfg p pc target taken pc').trans (if_neg hne.symm)
  · exact (gsh_predictorUpdate cfg p pc target taken k).trans (if_neg hne.symm)
  · exact (choiceAt_predictorUpdate cfg p pc target taken pc').trans (if_neg hne.symm)
  · exact (btbAt_predictorUpdate cfg p pc target taken pc').trans (if_neg hne.symm)

end Sys2Proof.Machine
end

section
/-!
PROOFS. Reset of an invalid configuration (`spec/60_exceptions.md` R382, R383). The checks of a field answer true exactly
where everything that R11 asks of the field holds, so the first field whose checks fail is the first unsound one.
-/

namespace Sys2Proof.Machine

/-! ## The checks of a field and what R11 asks of it -/

theorem dividesEvenly_iff (b a : Nat) : dividesEvenly b a = true ↔ (b ≠ 0 → a % b = 0) := by
  simp only [dividesEvenly, Bool.or_eq_true, decide_eq_true_eq]
  exact or_iff_not_imp_left

theorem cacheSizeOk_iff (g : CacheCfg) :
    cacheSizeOk g = true ↔ 1 ≤ g.size ∧ (g.assoc * g.line ≠ 0 → g.size % (g.assoc * g.line) = 0) := by
  rw [cacheSizeOk, Bool.and_eq_true, decide_eq_true_eq, dividesEvenly_iff]

/-- A field passes its checks exactly when it is sound: present, not negative, and with its conditions (R11, R382). -/
theorem fieldChecks_iff (raw : RawCfg) (f : CfgField) :
    (fieldPresent raw f && fieldValueOk (cfgOfRaw raw) f) = true ↔ fieldSound raw f := by
  rw [Bool.and_eq_true, fieldPresent_iff]
  refine and_congr_right fun _ => ?_
  cases f with
  | l1iSize | l1dSize | l2Size => exact cacheSizeOk_iff _
  | l1iLine | l2Line | memSize =>
    simp only [fieldValueOk, Bool.and_eq_true, decide_eq_true_eq, dividesEvenly_iff, and_assoc]
  | issueWidth | memPorts | l1iAssoc | l1dAssoc | l1dLine | l2Assoc | instrBytes | spReg | bimEntries | gshEntries
  | metaEntries | ghrBits | btbEntries => exact decide_eq_true_iff
  | latArith | latLoad | latStore | latBranch | latMul | latSyscall | mispredictPenalty
  | l1iHitLat | l1iMissLat | l1dHitLat | l1dMissLat | l2HitLat | l2MissLat => exact iff_of_true rfl trivial

/-- The field that is reported is the first unsound one, in the order of the table of R10 (R382). -/
theorem firstViolation_eq_some_iff {raw : RawCfg} {field : CfgField} :
    firstViolation raw = some field ↔
      ∃ before after, CfgField.inOrder = before ++ field :: after ∧ (∀ g ∈ before, fieldSound raw g) ∧
        ¬fieldSound raw field := by
  simp only [firstViolation, List.find?_eq_some_iff_append, Bool.not_not, ← fieldChecks_iff, Bool.not_eq_true',
    Bool.not_eq_true]
  constructor
  · rintro ⟨hfield, before, after, horder, hbefore⟩
    exact ⟨before, after, horder, hbefore, hfield⟩
  · rintro ⟨before, after, horder, hbefore, hfield⟩
    exact ⟨hfield, before, after, horder, hbefore⟩

/-! ## Reset -/

theorem resetWith_of_violation {raw : RawCfg} {field : CfgField} (h : firstViolation raw = some field)
    (image : List Host.Cell) (entry sp : Word) :
    State.resetWith raw image entry sp =
      State.build (.aborted (.configInvalid field)) (cfgOfRaw raw) image entry sp := by
  unfold State.resetWith
  rw [h]

/-- Settles O49: the run is aborted with nothing counted, and a core that does not run does not tick. -/
theorem resetOfInvalidConfiguration : Obligations.ResetOfInvalidConfiguration := by
  refine ⟨fun raw image entry sp field h => ?_, fun raw field => firstViolation_eq_some_iff⟩
  rw [resetWith_of_violation h]
  intro s
  have hstopped : s.status ≠ .running := fun hs => nomatch hs
  exact ⟨rfl, rfl, rfl, by rw [step_eq, tick_stopped ref hstopped]⟩

end Sys2Proof.Machine
end
